-- ==== Sys2Proof/Word.lean ====
section
/-! DEFINITION. The word types of BARPH-CORE (spec 00_scope.md R9, R10): a byte, the `u32` and `u64` registers, and a bit.
Positions, lengths and indices are unbounded naturals inside the block, which R10 allows; the registers that the host
reads and writes as words are bit vectors. -/

namespace Sys2Proof

/-- A byte: an unsigned 8-bit value (R9). -/
abbrev Byte := BitVec 8

/-- A `u32` register: `STATUS`, `CKSUM`, `CKSUM_STORED`, `acc`, the command word (R21, R33). -/
abbrev U32 := BitVec 32

/-- A `u64` register or operand: `IN_LEN`, `OUT_LEN`, a count, an index (R10, R21). -/
abbrev U64 := BitVec 64

end Sys2Proof
end

