-- ==== Sys2Proof/Machine/Bits.lean ====
section
/-! DEFINITION. Byte order and bit order (spec 00_scope.md R9, R11; 20_memory.md R62, R63): little-endian byte sequences,
the bits of a byte sequence numbered from bit 0 of byte 0, and the run of tag ones of a distance field. -/

namespace Sys2Proof

/-- `LE(v, n)`: the `n`-byte little-endian sequence of `v` (R11). -/
def leBytes (v : Nat) : Nat → List Byte
  | 0 => []
  | n + 1 => BitVec.ofNat 8 v :: leBytes (v / 256) n

/-- `FromLE(s)`: the value of a little-endian byte sequence (R11). -/
def fromLE : List Byte → Nat
  | [] => 0
  | b :: bs => b.toNat + 256 * fromLE bs

/-- Bit number `k` of a bit stream: bit `k mod 8` of byte `k div 8` (R63); `false` beyond the end. -/
def bitAt (bs : List Byte) (k : Nat) : Bool := (bs.getD (k / 8) 0#8).getLsbD (k % 8)

/-- The `n` bits from bit number `r` on as an unsigned value, lowest bit number first (R63, R148). -/
def bitsValue (bs : List Byte) (r : Nat) : Nat → Nat
  | 0 => 0
  | n + 1 => (bitAt bs r).toNat + 2 * bitsValue bs (r + 1) n

/-- The number of consecutive one bits of `b` counted from bit 0 (R101, R188). -/
def onesRun (b : Byte) : Nat := ((List.range 8).takeWhile fun k => b.getLsbD k).length

/-- `B[a..a+n)`, cut where the sequence ends (R11). -/
def slice (bs : List Byte) (a n : Nat) : List Byte := (bs.drop a).take n

end Sys2Proof
end

