-- ==== Sys2Proof/Config.lean ====
section
/-! DEFINITION. The parameters of the block (spec 00_scope.md R8, decisions D5 to D30 of 92_eei_decisions.md) as one
configuration record, its value for this hardware, and the free values.
The units' functions take the record as an argument, so that a claim may speak of other values (R8); the machine runs them
with `Config.barph` (log entry 23). `MAXBUF`, the OPEN parameter, has no value here: the functions take it as an argument,
`Machine.State` carries it as plain data and `Machine.State.resetWith` gives it to the machine (log entry 1). -/

namespace Sys2Proof

/-- The values of `EARLY_EXIT` (R8): a search never stops early. R6 puts every other value outside this version. -/
inductive EarlyExit where
  | never
deriving DecidableEq, Repr

/-- The configuration record (R8): one field per parameter, the OPEN one apart. -/
structure Config where
  /-- `MF_K`: slots per bucket of the match table (D5). -/
  mfK : Nat
  /-- `MF_HB`: log2 of the number of buckets of the match table (D6). -/
  mfHB : Nat
  /-- `MF_HASH`: the multiplier of the hash (R161, D7). -/
  hashMul : U32
  /-- `MAXLEN`: the match length cap (D10). -/
  maxLen : Nat
  /-- `MIN_MATCH_THRESHOLD`: a best length at or below it is no match (D11). -/
  minMatchThreshold : Nat
  /-- `LITMAX`: the largest literal run of one token (D17). -/
  litMax : Nat
  /-- `DIST_MAX[n]`: the largest distance of class `n`, `1 ≤ n ≤ 5` (R99, D15). -/
  distMax : Nat → Nat
  /-- `MAGIC`: the container's magic tag, whose last byte is the version byte (R120, D30). -/
  magic : List Byte
  /-- `CK_SEED`: the checksum's first value (R247, D28). -/
  ckSeed : U32
  /-- `CK_MUL`: the checksum's multiplier (R247, D28). -/
  ckMul : U32
  /-- `ZERO_CK_SKIPS`: whether a stored checksum of 0 skips the comparison (R252, D29). -/
  zeroCkSkips : Bool
  /-- `EARLY_EXIT`: whether a search may stop before a candidate's full length (R164, D12); no function asks, since its one
  value is never. -/
  earlyExit : EarlyExit
  /-- `POSW`: the width in bits of a position, a length and a buffer index (D4), which is the width of `U64`. -/
  posW : Nat
  /-- `HUF_MAXNODES`: capacity of the node arena (D26). -/
  hufMaxNodes : Nat

namespace Config

/-- `MF_NB = 2^MF_HB`: the number of buckets (R8). -/
def mfNB (cfg : Config) : Nat := 2 ^ cfg.mfHB

/-- The values this hardware takes (R8): row 4 of `DIST_MAX` as 90_conflicts.md C1 resolves it, `HUF_MAXNODES` as C2 does,
and `MAGIC` "BARPH" with the version byte 1. There is no distance class above 5; the last value stands for every other
index. -/
def barph : Config where
  mfK := 4
  mfHB := 16
  hashMul := 0x9E3779B1#32
  maxLen := 0x7FFF
  minMatchThreshold := 3
  litMax := 0x3FFF
  distMax
    | 1 => 0x3F
    | 2 => 0x1FFF
    | 3 => 0xFFFFF
    | 4 => 0x7FFFFFF
    | _ => 0x3FFFFFFFF
  magic := [0x42#8, 0x41#8, 0x52#8, 0x50#8, 0x48#8, 0x01#8]
  ckSeed := 0x811C9DC5#32
  ckMul := 0x01000193#32
  zeroCkSkips := false
  earlyExit := .never
  posW := 64
  hufMaxNodes := 511

/-- The largest number of merges `HUF.BUILD` makes (R203; 90_conflicts.md C2). -/
def hufMaxMerges : Nat := 255

/-- Free value (93_implementation_defined.md U5, U8): the byte the `k`-th unspecified host read returns, a read of `OUT` at or
beyond `OUT_LEN` or beyond its bytes, or a read of `IN`. No body: nothing can be proved of it (log entry 9). -/
opaque freeByte : Nat → Byte

/-- Free value: the second header byte of the `k`-th literal whose length no header holds, which R181 writes as `r >> 6` and
leaves without a value when that is above 255. No body: nothing can be proved of it (log entry 20). -/
opaque freeLitByte : Nat → Byte

end Config

end Sys2Proof
end

