-- ==== Sys2Proof/Syntax.lean ====
section
/-! DEFINITION. The operations of BARPH-CORE, which are this hardware's instructions: one constructor per row of
spec/opcode_table.json, in the table's order. The table has three kinds of row (spec 30_encoding.md R131): the 16 command
words of `F-CMD` (R91, R93), the 27 unit operations of `F-UOP` (R92), and the 16 elements of the wire formats (R94 to
R122). -/

namespace Sys2Proof

/-- A stage buffer, `SB0` or `SB1`: the address spaces of every `GB.`, `MF.`, `LB.`, `HUF.` and `DF.` operation (R60). -/
inductive StageBuf where
  | sb0
  | sb1
deriving DecidableEq, Repr

/-- What `CK.SUM` reads: `IN` on the COMPRESS path, a stage buffer on the DECOMPRESS path (R60, R248, R249). -/
inductive SumSrc where
  | input
  | stage (b : StageBuf)
deriving DecidableEq, Repr

/-- The place an encoding is met in, which decides how its bits are read: the formats of R90 share their bit patterns, and
nothing but the place tells them apart (R106, R122, R131). -/
inductive Space where
  /-- The 32-bit value written to `CMD` (R91). -/
  | cmd
  /-- A select code of the sequencer and its operands (R92). -/
  | uop
  /-- Bytes 0 to 7 of a lookback stream (R95). -/
  | lbHdr
  /-- The first bytes of a lookback token: a literal header or a distance field (R96 to R99, R104). -/
  | lbToken
  /-- The length field after a distance field (R102). -/
  | lbLen
  /-- Bits 0 to 63 of a Huffman stream (R110). -/
  | hufHdr
  /-- A node of the serialized tree (R111). -/
  | hufNode
  /-- A coded byte (R113). -/
  | hufSym
  /-- The container header (R120). -/
  | con
deriving DecidableEq, Repr

/-- The places of `Space` at which a decoder meets an element of a stream or of a container; a command word comes by a register
write and a select code from the sequencer. -/
inductive Place where
  | lbHdr
  | lbToken
  | lbLen
  | hufHdr
  | hufNode
  | hufSym
  | con
deriving DecidableEq, Repr

/-- The place as one of all. -/
def Place.space : Place → Space
  | .lbHdr => .lbHdr
  | .lbToken => .lbToken
  | .lbLen => .lbLen
  | .hufHdr => .hufHdr
  | .hufNode => .hufNode
  | .hufSym => .hufSym
  | .con => .con

/-- The operations. Operands are those the table's `source_fields` name. -/
inductive Instr where
  /-- `NOP` (R243). -/
  | nop
  /-- `COMPRESS` with `CMD.LB_EN`, `CMD.HUF_EN`, `CMD.DELTA` (R241). -/
  | compress (lb huf : Bool) (delta : Byte)
  /-- `DECOMPRESS` (R242). -/
  | decompress
  /-- `OP` 3, reserved (R93, R245). -/
  | reservedOp3
  /-- `OP` 4, reserved (R93, R245). -/
  | reservedOp4
  /-- `OP` 5, reserved (R93, R245). -/
  | reservedOp5
  /-- `OP` 6, reserved (R93, R245). -/
  | reservedOp6
  /-- `OP` 7, reserved (R93, R245). -/
  | reservedOp7
  /-- `OP` 8, reserved (R93, R245). -/
  | reservedOp8
  /-- `OP` 9, reserved (R93, R245). -/
  | reservedOp9
  /-- `OP` 10, reserved (R93, R245). -/
  | reservedOp10
  /-- `OP` 11, reserved (R93, R245). -/
  | reservedOp11
  /-- `OP` 12, reserved (R93, R245). -/
  | reservedOp12
  /-- `OP` 13, reserved (R93, R245). -/
  | reservedOp13
  /-- `OP` 14, reserved (R93, R245). -/
  | reservedOp14
  /-- `RESET` (R244). -/
  | reset
  /-- `GB.RESERVE(B, extra)` (R143). -/
  | gbReserve (b : StageBuf) (extra : U64)
  /-- `GB.APPEND_BYTE(B, v)` (R144). -/
  | gbAppendByte (b : StageBuf) (v : Byte)
  /-- `GB.APPEND_BYTES(B, s)` (R145). -/
  | gbAppendBytes (b : StageBuf) (s : List Byte)
  /-- `GB.APPEND_BIT(B, b)` (R146). -/
  | gbAppendBit (b : StageBuf) (bit : Bool)
  /-- `GB.APPEND_BITS(B, value, width)`, `width ≤ 64` (R147). -/
  | gbAppendBits (b : StageBuf) (value : U64) (width : Byte)
  /-- `GB.READ_BITS(B, width)`, `width ≤ 64` (R148). -/
  | gbReadBits (b : StageBuf) (width : Byte)
  /-- `GB.READ_BYTES(B, a, n)` (R149). -/
  | gbReadBytes (b : StageBuf) (a n : U64)
  /-- `MF.RESET` (R162). -/
  | mfReset
  /-- `MF.INSERT(I, p)` (R163). -/
  | mfInsert (i : StageBuf) (p : U64)
  /-- `MF.FIND_BEST(I, p)` (R164). -/
  | mfFindBest (i : StageBuf) (p : U64)
  /-- `MF.MATCH_AT(I, p)` (R166). -/
  | mfMatchAt (i : StageBuf) (p : U64)
  /-- `LB.EMIT_LIT(O, s)` (R181). -/
  | lbEmitLit (o : StageBuf) (s : List Byte)
  /-- `LB.EMIT_MATCH(O, d, L)` (R182). -/
  | lbEmitMatch (o : StageBuf) (d len : U64)
  /-- `LB.ENCODE(I)` (R183). -/
  | lbEncode (i : StageBuf)
  /-- `LB.DECODE(S)` (R185). -/
  | lbDecode (s : StageBuf)
  /-- `HUF.COUNT(I)` (R200). -/
  | hufCount (i : StageBuf)
  /-- `HUF.BUILD` (R201). -/
  | hufBuild
  /-- `HUF.ASSIGN` (R205). -/
  | hufAssign
  /-- `HUF.WRITE_TREE(O, i)` (R207). -/
  | hufWriteTree (o : StageBuf) (i : BitVec 9)
  /-- `HUF.ENCODE(I)` (R208). -/
  | hufEncode (i : StageBuf)
  /-- `HUF.READ_TREE(S)` (R209). -/
  | hufReadTree (s : StageBuf)
  /-- `HUF.DECODE(S)` (R210). -/
  | hufDecode (s : StageBuf)
  /-- `DF.FORWARD(B, d)` (R231). -/
  | dfForward (b : StageBuf) (d : Byte)
  /-- `DF.INVERSE(B, d)` (R232). -/
  | dfInverse (b : StageBuf) (d : Byte)
  /-- `CK.SUM(B)` (R247). -/
  | ckSum (src : SumSrc)
  /-- `CON.COMPRESS(I, lb, huf, delta)`, `I` being `IN` (R60, R248). -/
  | conCompress (lb huf : Bool) (delta : Byte)
  /-- `CON.DECOMPRESS(C)`, `C` being `IN` (R60, R249). -/
  | conDecompress
  /-- `LB.HDR`: the header of a lookback stream (R95, R186). -/
  | lbHdr (n : U64)
  /-- `LIT.S`: a short literal token's header (R97, R187). -/
  | litS (len : BitVec 6)
  /-- `LIT.L`: a long literal token's header (R98, R187). -/
  | litL (len : BitVec 14)
  /-- `DIST1`: a class 1 distance field (R99, R188). -/
  | dist1 (d : BitVec 6)
  /-- `DIST2`: a class 2 distance field (R99, R188). -/
  | dist2 (d : BitVec 13)
  /-- `DIST3`: a class 3 distance field (R99, R188). -/
  | dist3 (d : BitVec 20)
  /-- `DIST4`: a class 4 distance field (R99, R188). -/
  | dist4 (d : BitVec 27)
  /-- `DIST5`: a class 5 distance field (R99, R188). -/
  | dist5 (d : BitVec 34)
  /-- `DIST.RESERVED`: six or more tag ones (R104, R188). -/
  | distReserved
  /-- `LEN.S`: a short length field (R102, R188). -/
  | lenS (len : BitVec 7)
  /-- `LEN.L`: a long length field (R102, R188). -/
  | lenL (len : BitVec 15)
  /-- `HUF.HDR`: the header of a Huffman stream (R110, R210). -/
  | hufHdr (n : U64)
  /-- `NODE.I`: an internal node of the serialized tree (R111, R209). -/
  | nodeI
  /-- `NODE.L`: a leaf of the serialized tree (R111, R209). -/
  | nodeL (v : Byte)
  /-- `SYM`: a coded byte, whose bits the tree and not the format delimits (R113, R210). -/
  | sym
  /-- `CON`: the container header after the magic: the three flag bytes and the stored checksum (R120, R250). -/
  | con (delta lb huf : Byte) (cksum : U32)
deriving DecidableEq, Repr

end Sys2Proof
end

