-- ==== Sys2Proof/Machine/State.lean ====
section
/-! DEFINITION. The state of BARPH-CORE (spec 10_state.md R20 to R43), the reasons a step can stop, and the state after
reset. Every piece of state of R20's table is a field, grouped by unit. The fields marked MODEL are the model's own: what
the operation level needs and R20's tuple does not have. -/

namespace Sys2Proof.Machine

/-- The values of the register `STATE` (R27, R285). -/
inductive SeqState where
  | idle
  | busy
  | fatal
deriving DecidableEq, Repr

/-- The values of the register `PHASE` (R28). -/
inductive Phase where
  | idle
  | cCksum
  | cDelta
  | cLb
  | cHuf
  | cEmit
  | dHeader
  | dHuf
  | dLb
  | dDelta
  | dCksum
deriving DecidableEq, Repr

/-- The errors an operation can raise (R13, R270). -/
inductive Err where
  /-- `FormatError`: bad magic (R272). -/
  | format
  /-- `MalformedStreamError` (R273). -/
  | malformed
  /-- `ChecksumMismatchError` (R274). -/
  | checksum
  /-- `InternalInvariantViolation`, fatal (R275). -/
  | internal
deriving DecidableEq, Repr

/-- The values of the field `STATUS.ERR` (R23, R271). -/
inductive ErrCode where
  | none
  | raised (e : Err)
  | illegalCommand
deriving DecidableEq, Repr

/-- A bit cursor: a byte index and a bit offset 0 to 7 (R31). -/
structure Cursor where
  byte : Nat := 0
  bit : Nat := 0
deriving DecidableEq, Repr

/-- A Growable Buffer with its two cursors (R31, R36); `len` is the length of `data`, and the bytes between `len` and
`cap`, which no rule reads (R41), are not represented. -/
structure Buffer where
  data : List Byte := []
  cap : Nat := 0
  wcur : Cursor := {}
  rcur : Cursor := {}
deriving DecidableEq, Repr

/-- A bucket of the match table (R37): `MF_K` slots, the ring cursor, the number of valid slots. -/
structure Bucket where
  slot : List Nat
  cur : Nat
  cnt : Nat
deriving DecidableEq, Repr

/-- The match finder (R30, R37): the table `MT`, by bucket index, with the buckets that are not empty and zeroed; and the
registers of the search. -/
structure MatchFinder where
  mt : List (Nat × Bucket) := []
  bestLen : Nat := 0
  bestPos : Nat := 0
deriving DecidableEq, Repr

/-- The lookback codec's registers (R29), less `pos`, which the stages share. -/
structure Lookback where
  runStart : Nat := 0
  olen : Nat := 0
  ip : Nat := 0
  /-- MODEL: the distance of the match token whose length field is still to come (the local `d` of R188). -/
  dist : Nat := 0
deriving DecidableEq, Repr

/-- The variant part of a node (R39). -/
inductive NodeKind where
  | leaf (value : Byte)
  | internal (left right : Nat)
deriving DecidableEq, Repr

/-- A node of the arena (R39). -/
structure Node where
  kind : NodeKind := .leaf 0#8
  freq : Nat := 0
deriving DecidableEq, Repr

/-- The Huffman codec (R32, R38 to R40). `FREQ`, `NODE` and `CODE` are held by index, less the entries that hold the value
named at reset; `WL[0..wl_len)` is a list, whose length is the register `wl_len`. -/
structure Huffman where
  freq : List (Nat × Nat) := []
  node : List (Nat × Node) := []
  wl : List Nat := []
  code : List (Nat × List Bool) := []
  nnodes : Nat := 0
  root : Nat := 0
  walk : Nat := 0
  merges : Nat := 0
  hlen : Nat := 0
deriving DecidableEq, Repr

/-- The register `wl_len` (R32). -/
def Huffman.wlLen (h : Huffman) : Nat := h.wl.length

/-- MODEL: the result of the last unit operation that returns one (`return v`, R12); a result that is a buffer stands in
that buffer. -/
inductive Ret where
  | empty
  /-- A number: a bit field, a checksum, a node index. -/
  | value (v : Nat)
  /-- A byte sequence (`GB.READ_BYTES`). -/
  | bytes (bs : List Byte)
  /-- `none` of a match search. -/
  | noMatch
  /-- A pair of a match search: (candidate, length) or (distance, length). -/
  | pair (a b : Nat)
deriving DecidableEq, Repr

/-- The moves of the host (R282). -/
inductive HostMove where
  /-- Write byte `v` at index `i` of `IN`. -/
  | writeIn (i : U64) (v : Byte)
  /-- Write the register with word index `idx`; index 0 is `CMD`, 2 is `IN_LEN`, every other write is ignored (R21). -/
  | writeReg (idx : Nat) (v : U64)
  /-- Read the register with word index `idx`. -/
  | readReg (idx : Nat)
  /-- Read byte `i` of `OUT`. -/
  | readOut (i : U64)
  /-- Read byte `i` of `IN`. -/
  | readIn (i : U64)
  /-- Assert the reset input (R300). -/
  | hardwareReset
deriving DecidableEq, Repr

/-- MODEL: what the next step acts on, at the two levels of R7: a move of the host, a unit operation issued by the
sequencer, or the next element of a stream or container met by its decoder. -/
inductive Input where
  | host (m : HostMove)
  /-- The select code of a unit operation and its operands (R92). -/
  | op (bytes : List Byte)
  /-- The element that stands at the cursor of the given place. -/
  | wire (p : Place)
deriving DecidableEq, Repr

/-- Why a step stops with a fault. Both are safe: the machine stops where the spec gives no effect, and neither is
reachable from a tree that `HUF.BUILD` or `HUF.READ_TREE` made. -/
inductive Fault where
  /-- `HUF.WRITE_TREE`, `HUF.ASSIGN`, `HUF.DECODE` or `SYM` reads `NODE` at an index that is not below `nnodes`, which R60
  says is no valid index. -/
  | nodeIndex
  /-- `HUF.ASSIGN` follows child indices round a cycle, which R39's tree has none of: the operation would not end. -/
  | nodeCycle
deriving DecidableEq, Repr

/-- Why a step refuses. All are safe. -/
inductive Refusal where
  /-- Raised by `exec` for an instruction that has no meaning yet. -/
  | notModelled (mnemonic : String)
  /-- Raised by `GB.APPEND_BITS` and `GB.READ_BITS` with `width > 64`, which U21 says is no operation and is refused. -/
  | widthAbove64
  /-- Raised by `step` when the sequencer issues a select code that is unused, which R92 says names no operation. -/
  | notAnOperation
  /-- Raised by `step` for a host move that R282 does not allow: an access to `IN`, `IN_LEN` or `OUT` while `BUSY` (U9), or
  a write of `IN` at or beyond `MAXBUF`. -/
  | notAHostMove
deriving DecidableEq, Repr

/-- The state of the block (R20). -/
structure State where
  /-- `STATE` (R27), which `STATUS.STATE` shows. -/
  seq : SeqState
  /-- `STATUS.DONE` (R23). -/
  done : Bool
  /-- `STATUS.ERR` (R23). -/
  err : ErrCode
  /-- `IN_LEN` (R24). -/
  inLen : U64
  /-- `OUT_LEN` (R25). -/
  outLen : U64
  /-- `CKSUM` (R26). -/
  cksum : U32
  /-- `CKSUM_STORED` (R26). -/
  cksumStored : U32
  /-- `PHASE` (R28). -/
  phase : Phase
  /-- `pos` (R28, R29). -/
  pos : Nat
  /-- `FL_DELTA` (R27). -/
  flDelta : Byte
  /-- `FL_LB` (R27). -/
  flLb : Bool
  /-- `FL_HUF` (R27). -/
  flHuf : Bool
  /-- `acc` (R33). -/
  acc : U32
  /-- `run_start`, `olen`, `ip` (R29). -/
  lb : Lookback
  /-- `MT`, `best_len`, `best_pos` (R30, R37). -/
  mf : MatchFinder
  /-- `FREQ`, `NODE`, `WL`, `CODE` and the registers of R32. -/
  huf : Huffman
  /-- The bytes of `IN` (R35), by index; an index that is not listed reads as 0 (log entry 6). -/
  inMem : List Host.Cell
  /-- `OUT` (R35). -/
  out : Buffer
  /-- `SB0` (R35). -/
  sb0 : Buffer
  /-- `SB1` (R35). -/
  sb1 : Buffer
  /-- MODEL: the open parameter `MAXBUF` (R8), which no step changes. -/
  maxBuf : U64
  /-- MODEL: the stage buffer the decoder in progress reads; its output goes to the other. -/
  src : StageBuf
  /-- MODEL: the last unit operation's result. -/
  ret : Ret
  /-- MODEL: the inputs still to be acted on, the next first. -/
  queue : List Input
  /-- MODEL: what the host's last read returned. -/
  hostData : U64
  /-- MODEL: how many unspecified bytes host reads have returned so far (U8). -/
  freeReads : Nat
  /-- MODEL: how many literals longer than any header holds have been emitted so far (R181, log entry 20). -/
  freeLits : Nat
deriving DecidableEq, Repr

/-- The bound `MAXBUF` as a number. -/
def State.max (s : State) : Nat := s.maxBuf.toNat

/-- The state after reset (R42, R300) of a block whose OPEN parameter `MAXBUF` has the given value (R8): `STATE`, `PHASE`,
`STATUS`, the lengths, the checksums, the flags and the cursors as R42 states them; the registers and tables that R42 leaves
unspecified are zero or empty (log entry 2), and so are the bytes and capacities of the buffers. -/
def State.resetWith (maxBuf : U64) : State where
  seq := .idle
  done := false
  err := .none
  inLen := 0#64
  outLen := 0#64
  cksum := 0#32
  cksumStored := 0#32
  phase := .idle
  pos := 0
  flDelta := 0#8
  flLb := false
  flHuf := false
  acc := 0#32
  lb := {}
  mf := {}
  huf := {}
  inMem := []
  out := {}
  sb0 := {}
  sb1 := {}
  maxBuf := maxBuf
  src := .sb0
  ret := .empty
  queue := []
  hostData := 0#64
  freeReads := 0
  freeLits := 0

/-- The state after reset, for the value of `MAXBUF` that log entry 1 names. -/
def State.reset : State := State.resetWith 0x100000#64

end Sys2Proof.Machine
end

