-- ==== Sys2Proof/Machine/Ops.lean ====
section
/-! DEFINITION. The operations the meanings share: how an operation ends, indexed tables and the memory `IN`, the Growable
Buffer (spec 40_buffer_bitstream.md), and what `raise` and the refusal of a command do to the state (60_exceptions.md). -/

namespace Sys2Proof.Machine

/-! ### How an operation ends -/

/-- Why an operation ends before its last step. -/
inductive Stop where
  /-- `raise e` (R12). -/
  | raise (e : Err)
  /-- An access the spec gives no effect. -/
  | fault (f : Fault)
deriving DecidableEq, Repr

/-- How an operation on a state of type `σ` ends: it returns, or it stops with the state as it stood there (R276). -/
inductive Res (σ α : Type) where
  | ok (a : α) (s : σ)
  | stop (e : Stop) (s : σ)
deriving DecidableEq, Repr

/-- Run `f` after an operation that returned. -/
def Res.andThen {σ α β : Type} (r : Res σ α) (f : α → σ → Res σ β) : Res σ β :=
  match r with
  | .ok a s => f a s
  | .stop e s => .stop e s

/-- An operation on a part of a larger state. -/
def Res.inside {σ τ α : Type} (r : Res σ α) (put : σ → τ) : Res τ α :=
  match r with
  | .ok a s => .ok a (put s)
  | .stop e s => .stop e (put s)

/-! ### Tables by index, in one canonical form -/

/-- The element at index `k`; an index that is not listed holds `d`. -/
def tableGet {α : Type} (d : α) : List (Nat × α) → Nat → α
  | [], _ => d
  | (k', v) :: t, k => if k < k' then d else if k = k' then v else tableGet d t k

/-- Write `v` at index `k`, keeping the indices strictly rising and listing no element equal to `d`. -/
def tablePut {α : Type} [DecidableEq α] (d : α) : List (Nat × α) → Nat → α → List (Nat × α)
  | [], k, v => if v = d then [] else [(k, v)]
  | (k', v') :: t, k, v =>
    if k < k' then (if v = d then (k', v') :: t else (k, v) :: (k', v') :: t)
    else if k = k' then (if v = d then t else (k, v) :: t)
    else (k', v') :: tablePut d t k v

/-- The canonical form: indices strictly rising, no element equal to `d`. -/
def tableWf {α : Type} [DecidableEq α] (d : α) : List (Nat × α) → Bool
  | [] => true
  | [(_, v)] => decide (v ≠ d)
  | (k, v) :: (k', v') :: t => decide (v ≠ d) && decide (k < k') && tableWf d ((k', v') :: t)

/-- The content of a byte of `IN` that nothing has written (log entry 6). -/
def Memory.unwritten : Byte := 0#8

/-- Byte `a` of the memory. -/
def Memory.read (m : List Host.Cell) (a : Nat) : Byte := tableGet Memory.unwritten m a

/-- Write byte `v` at `a`. -/
def Memory.write (m : List Host.Cell) (a : Nat) (v : Byte) : List Host.Cell := tablePut Memory.unwritten m a v

/-- The canonical form of the memory. -/
def Memory.wf (m : List Host.Cell) : Bool := tableWf Memory.unwritten m

/-- The bytes `[a, a+n)` of the memory. -/
def Memory.range (m : List Host.Cell) (a n : Nat) : List Byte := (List.range n).map fun k => Memory.read m (a + k)

/-- Write the bytes `bs` from `a` on. -/
def Memory.writeAll (m : List Host.Cell) (a : Nat) : List Byte → List Host.Cell
  | [] => m
  | b :: bs => Memory.writeAll (Memory.write m a b) (a + 1) bs

/-- `IN[0..IN_LEN)` (R24, R35). -/
def State.input (s : State) : List Byte := Memory.range s.inMem 0 s.inLen.toNat

/-! ### The Growable Buffer -/

/-- `len(B)` (R36). -/
def Buffer.len (b : Buffer) : Nat := b.data.length

/-- The number of bits written (R31). -/
def Buffer.wbits (b : Buffer) : Nat := 8 * b.wcur.byte + b.wcur.bit

/-- The number of bits read (R31). -/
def Buffer.rbits (b : Buffer) : Nat := 8 * b.rcur.byte + b.rcur.bit

/-- The cursor at bit number `k` (R148). -/
def Cursor.atBit (k : Nat) : Cursor := { byte := k / 8, bit := k % 8 }

/-- Release a buffer (R151), which also makes it a fresh one (R140): empty, cursors at 0, its capacity kept. -/
def Buffer.release (b : Buffer) : Buffer := { data := [], cap := b.cap, wcur := {}, rcur := {} }

/-- Doubling growth (R141): 64 doublings pass every `u64` need. -/
def growCap : Nat → Nat → Nat → Nat
  | 0, _, cap => cap
  | fuel + 1, need, cap => if cap < need then growCap fuel need (max 8 (2 * cap)) else cap

/-- `ensure(B, need)` (R141, R142), with `max` for `MAXBUF`. -/
def ensure (max need : Nat) (b : Buffer) : Res Buffer Unit :=
  if max < need then .stop (.raise .internal) b
  else .ok () { b with cap := growCap 64 need b.cap }

/-- `GB.RESERVE` (R143). -/
def reserve (max extra : Nat) (b : Buffer) : Res Buffer Unit := ensure max (b.len + extra) b

/-- `GB.APPEND_BYTE` (R144). -/
def appendByte (max : Nat) (v : Byte) (b : Buffer) : Res Buffer Unit :=
  (ensure max (b.len + 1) b).andThen fun _ b =>
    .ok () { b with data := b.data ++ [v], wcur := { byte := b.len + 1, bit := 0 } }

/-- The appends of `GB.APPEND_BYTES`, one byte after another (R145). -/
def appendEach (max : Nat) : List Byte → Buffer → Res Buffer Unit
  | [], b => .ok () b
  | v :: vs, b => (appendByte max v b).andThen fun _ b => appendEach max vs b

/-- `GB.APPEND_BYTES` (R145): the bound is tested once, before the first byte. -/
def appendBytes (max : Nat) (s : List Byte) (b : Buffer) : Res Buffer Unit :=
  if max < b.len + s.length then .stop (.raise .internal) b else appendEach max s b

/-- Set bit `k` of byte `i` of the data to its value or `bit` (R146). -/
def orBit (data : List Byte) (i k : Nat) (bit : Bool) : List Byte :=
  data.set i (data.getD i 0#8 ||| (BitVec.ofBool bit).zeroExtend 8 <<< k)

/-- `GB.APPEND_BIT` (R146). -/
def appendBit (max : Nat) (bit : Bool) (b : Buffer) : Res Buffer Unit :=
  (if b.wcur.bit = 0 then
      (ensure max (b.len + 1) b).andThen fun _ b => .ok () { b with data := b.data ++ [0#8] }
    else .ok () b).andThen fun _ b =>
      .ok () { b with
        data := orBit b.data b.wcur.byte b.wcur.bit bit
        wcur := if b.wcur.bit = 7 then { byte := b.wcur.byte + 1, bit := 0 }
                else { byte := b.wcur.byte, bit := b.wcur.bit + 1 } }

/-- A sequence of bit appends, the first bit first. -/
def appendBitList (max : Nat) : List Bool → Buffer → Res Buffer Unit
  | [], b => .ok () b
  | x :: xs, b => (appendBit max x b).andThen fun _ b => appendBitList max xs b

/-- The `width` low bits of `value`, least significant first (R147). -/
def lowBits (value width : Nat) : List Bool := (List.range width).map fun i => value.testBit i

/-- `GB.APPEND_BITS` (R147). -/
def appendBits (max value width : Nat) (b : Buffer) : Res Buffer Unit := appendBitList max (lowBits value width) b

/-- `GB.READ_BITS` (R148). -/
def readBits (width : Nat) (b : Buffer) : Res Buffer Nat :=
  if 8 * b.len < b.rbits + width then .stop (.raise .malformed) b
  else .ok (bitsValue b.data b.rbits width) { b with rcur := Cursor.atBit (b.rbits + width) }

/-- `GB.READ_BYTES` (R149), on the bytes of the buffer read. A range of no bytes that starts beyond the end raises, as the
pseudocode's test has it, by the model's choice: the rule's sentence that `n = 0` cannot fail names `a = B.len` and no index
beyond (log entry 28). -/
def readBytes (data : List Byte) (a n : Nat) : Option (List Byte) :=
  if data.length < a + n then none else some (slice data a n)

/-! ### Errors -/

/-- `raise e` (R276, R277): taking an error, the one entry all of them share. The stage buffers and `OUT` are released,
`OUT_LEN` is 0, `STATUS.ERR` holds the code, `DONE` is set, `PHASE` is `IDLE`, and `STATE` is `FATAL` for
`InternalInvariantViolation` and `IDLE` for the others; everything else stays as it stood. -/
def takeError (e : Err) (s : State) : State :=
  { s with
    sb0 := s.sb0.release
    sb1 := s.sb1.release
    out := s.out.release
    outLen := 0#64
    err := .raised e
    done := true
    phase := .idle
    seq := if e = .internal then .fatal else .idle }

/-- The refusal of a `CMD` write (R245, R278): `IllegalCommand`. -/
def illegalCommand (s : State) : State := { s with err := .illegalCommand, done := true, outLen := 0#64 }

/-- The return from an error is a reset (R281): every piece of the block's state takes its reset value (R42, R244, R301);
the parameter `MAXBUF` and what belongs to the host (its queue, what it has read) are no state of the block. -/
def resetBlock (s : State) : State :=
  { State.resetWith s.maxBuf with
    queue := s.queue
    hostData := s.hostData
    freeReads := s.freeReads
    freeLits := s.freeLits }

/-- How an operation of the state becomes a step: a `raise` takes its error. -/
def finish (r : Res State Unit) : Host.Outcome State Fault Refusal :=
  match r with
  | .ok _ s => .next s
  | .stop (.raise e) s => .next (takeError e s)
  | .stop (.fault f) _ => .fault f

/-- A command acts only in `STATE = IDLE`; in `FATAL` and in `BUSY` the write is ignored (R240). -/
def whenIdle (s : State) (r : Host.Outcome State Fault Refusal) : Host.Outcome State Fault Refusal :=
  match s.seq with
  | .idle => r
  | .busy | .fatal => .next s

/-- A unit operation, or an element met by a decoder, acts unless the block has stopped in `FATAL` (R277, R285), where the
sequencer issues nothing and the state stays as it is (log entry 5). -/
def unlessFatal (s : State) (r : Host.Outcome State Fault Refusal) : Host.Outcome State Fault Refusal :=
  match s.seq with
  | .fatal => .next s
  | .idle | .busy => r

/-- Run a unit operation. -/
def runUnit (op : State → Res State Unit) (s : State) : Host.Outcome State Fault Refusal := unlessFatal s (finish (op s))

end Sys2Proof.Machine
end

