-- ==== Sys2Proof/Machine/Operands.lean ====
section
/-! DEFINITION. The operand forms: a stage buffer, the source of `CK.SUM`, a result, and an operation that acts on one
stage buffer or on `OUT` (spec 20_memory.md R60, 10_state.md R35). -/

namespace Sys2Proof

/-- The other stage buffer: a stage's output never is its input (R76). -/
def StageBuf.other : StageBuf → StageBuf
  | .sb0 => .sb1
  | .sb1 => .sb0

end Sys2Proof

namespace Sys2Proof.Machine

/-- The content of a stage buffer. -/
def State.buf (s : State) : StageBuf → Buffer
  | .sb0 => s.sb0
  | .sb1 => s.sb1

/-- Replace a stage buffer. -/
def State.putBuf (s : State) (b : StageBuf) (v : Buffer) : State :=
  match b with
  | .sb0 => { s with sb0 := v }
  | .sb1 => { s with sb1 := v }

/-- Release a stage buffer (R151). -/
def State.releaseBuf (s : State) (b : StageBuf) : State := s.putBuf b (s.buf b).release

/-- Give the result of a unit operation. -/
def State.answer (s : State) (r : Ret) : State := { s with ret := r }

/-- The bytes `CK.SUM` reads. -/
def State.sumBytes (s : State) : SumSrc → List Byte
  | .input => s.input
  | .stage b => (s.buf b).data

/-- An operation on one stage buffer, within `MAXBUF`. -/
def onBuf {α : Type} (b : StageBuf) (op : Nat → Buffer → Res Buffer α) (s : State) : Res State α :=
  (op s.max (s.buf b)).inside (s.putBuf b)

/-- An operation on `OUT`, within `MAXBUF`. -/
def onOut {α : Type} (op : Nat → Buffer → Res Buffer α) (s : State) : Res State α :=
  (op s.max s.out).inside fun v => { s with out := v }

/-- The value a `for` register holds after the loop: the last it was given, or its old one when the loop did not run (log
entry 7). -/
def afterLoop (old first count last : Nat) : Nat := if first < count then last else old

end Sys2Proof.Machine
end

