-- ==== Sys2Proof/WellFormed.lean ====
section
/-! DEFINITION. Which operand values an operation admits (spec 40_buffer_bitstream.md R147, R148 and U21: `width` is 0 to
64; a byte sequence's length is a `u64`, R10).
Every other operand admits every value of its type. -/

namespace Sys2Proof

/-- A bit count of `GB.APPEND_BITS` or `GB.READ_BITS`: 0 to 64 (R147, R148). -/
def widthOk (width : Byte) : Bool := decide (width.toNat ≤ 64)

/-- The operands of the operation lie in the ranges its rule gives. -/
def Instr.wf : Instr → Bool
  | .gbAppendBytes _ s => decide (s.length < 2 ^ 64)
  | .gbAppendBits _ _ width => widthOk width
  | .gbReadBits _ width => widthOk width
  | .lbEmitLit _ s => decide (s.length < 2 ^ 64)
  | .nop | .compress .. | .decompress
  | .reservedOp3 | .reservedOp4 | .reservedOp5 | .reservedOp6 | .reservedOp7 | .reservedOp8
  | .reservedOp9 | .reservedOp10 | .reservedOp11 | .reservedOp12 | .reservedOp13 | .reservedOp14 | .reset
  | .gbReserve .. | .gbAppendByte .. | .gbAppendBit .. | .gbReadBytes ..
  | .mfReset | .mfInsert .. | .mfFindBest .. | .mfMatchAt ..
  | .lbEmitMatch .. | .lbEncode .. | .lbDecode ..
  | .hufCount .. | .hufBuild | .hufAssign | .hufWriteTree .. | .hufEncode .. | .hufReadTree .. | .hufDecode ..
  | .dfForward .. | .dfInverse .. | .ckSum .. | .conCompress .. | .conDecompress
  | .lbHdr .. | .litS .. | .litL .. | .dist1 .. | .dist2 .. | .dist3 .. | .dist4 .. | .dist5 .. | .distReserved
  | .lenS .. | .lenL .. | .hufHdr .. | .nodeI | .nodeL .. | .sym | .con .. => true

end Sys2Proof
end

