-- ==== Sys2Proof/Machine/BitStream.lean ====
section
/-! DEFINITION. The meanings of the buffer and bit-stream operations (spec 40_buffer_bitstream.md R143 to R149). -/

namespace Sys2Proof.Machine

/-- `GB.RESERVE` (R143). -/
def execGbReserve (b : StageBuf) (extra : U64) (s : State) : Host.Outcome State Fault Refusal :=
  runUnit (onBuf b fun max => reserve max extra.toNat) s

/-- `GB.APPEND_BYTE` (R144). -/
def execGbAppendByte (b : StageBuf) (v : Byte) (s : State) : Host.Outcome State Fault Refusal :=
  runUnit (onBuf b fun max => appendByte max v) s

/-- `GB.APPEND_BYTES` (R145). -/
def execGbAppendBytes (b : StageBuf) (bytes : List Byte) (s : State) : Host.Outcome State Fault Refusal :=
  runUnit (onBuf b fun max => appendBytes max bytes) s

/-- `GB.APPEND_BIT` (R146). -/
def execGbAppendBit (b : StageBuf) (bit : Bool) (s : State) : Host.Outcome State Fault Refusal :=
  runUnit (onBuf b fun max => appendBit max bit) s

/-- `GB.APPEND_BITS` (R147); a width above 64 is no operation (U21). -/
def execGbAppendBits (b : StageBuf) (value : U64) (width : Byte) (s : State) : Host.Outcome State Fault Refusal :=
  if widthOk width then runUnit (onBuf b fun max => appendBits max value.toNat width.toNat) s
  else .refused .widthAbove64

/-- `GB.READ_BITS` (R148); a width above 64 is no operation (U21). -/
def execGbReadBits (b : StageBuf) (width : Byte) (s : State) : Host.Outcome State Fault Refusal :=
  if widthOk width then
    runUnit (fun s => (onBuf b (fun _ => readBits width.toNat) s).andThen fun v s => .ok () (s.answer (.value v))) s
  else .refused .widthAbove64

/-- `GB.READ_BYTES` (R149). -/
def execGbReadBytes (b : StageBuf) (a n : U64) (s : State) : Host.Outcome State Fault Refusal :=
  runUnit (fun s =>
    match readBytes (s.buf b).data a.toNat n.toNat with
    | none => .stop (.raise .malformed) s
    | some bs => .ok () (s.answer (.bytes bs))) s

end Sys2Proof.Machine
end

