-- ==== Sys2Proof/Machine/Delta.lean ====
section
/-! DEFINITION. The delta filter (spec 44_delta_filter.md): in place, modulo 256, the forward filter from the last byte down
and the inverse from the front up (R312). -/

namespace Sys2Proof.Machine

/-- The forward loop over positions `d + k - 1` down to `d` (R231). -/
def deltaDown (d : Nat) : Nat → List Byte → List Byte
  | 0, b => b
  | k + 1, b => deltaDown d k (b.set (d + k) (b.getD (d + k) 0#8 - b.getD k 0#8))

/-- The inverse loop over the positions `p` to `p + k - 1` (R232). -/
def deltaUp (d : Nat) : Nat → Nat → List Byte → List Byte
  | 0, _, b => b
  | k + 1, p, b => deltaUp d k (p + 1) (b.set p (b.getD p 0#8 + b.getD (p - d) 0#8))

/-- `DF.FORWARD` on the bytes of a buffer (R231). -/
def deltaForward (d : Nat) (b : List Byte) : List Byte := if d = 0 then b else deltaDown d (b.length - d) b

/-- `DF.INVERSE` on the bytes of a buffer (R232). -/
def deltaInverse (d : Nat) (b : List Byte) : List Byte := if d = 0 then b else deltaUp d (b.length - d) d b

/-- `pos` after the forward loop: it steps down to `d` (R28, R231). -/
def deltaForwardPos (old d n : Nat) : Nat := if d = 0 then old else afterLoop old d n d

/-- `pos` after the inverse loop: it steps up to `n - 1` (R28, R232). -/
def deltaInversePos (old d n : Nat) : Nat := if d = 0 then old else afterLoop old d n (n - 1)

/-- `DF.FORWARD(B, d)` on a stage buffer (R231): every byte of it, one that bit appends have not filled (R140) too, by the
model's choice (log entry 18). -/
def opDeltaForward (b : StageBuf) (d : Byte) (s : State) : State :=
  let v := s.buf b
  { s.putBuf b { v with data := deltaForward d.toNat v.data } with pos := deltaForwardPos s.pos d.toNat v.len }

/-- `DF.INVERSE(B, d)` on a stage buffer (R232): every byte of it, one that bit appends have not filled (R140) too, by the
model's choice (log entry 18). -/
def opDeltaInverse (b : StageBuf) (d : Byte) (s : State) : State :=
  let v := s.buf b
  { s.putBuf b { v with data := deltaInverse d.toNat v.data } with pos := deltaInversePos s.pos d.toNat v.len }

/-! ### Meanings -/

/-- `DF.FORWARD` (R231). -/
def execDfForward (b : StageBuf) (d : Byte) (s : State) : Host.Outcome State Fault Refusal :=
  runUnit (fun s => .ok () (opDeltaForward b d s)) s

/-- `DF.INVERSE` (R232). -/
def execDfInverse (b : StageBuf) (d : Byte) (s : State) : Host.Outcome State Fault Refusal :=
  runUnit (fun s => .ok () (opDeltaInverse b d s)) s

end Sys2Proof.Machine
end

