-- ==== Sys2Proof/Machine/Flags.lean ====
section
/-! DEFINITION. The block has no condition codes (spec 10_state.md R34); its flags are `STATUS.DONE`, `STATUS.ERR` and the
three stage enables. This file holds the views of them: the `STATUS` word (R23, R271), the registers as the host reads them
(R21), and the stage enables of a container (R251). -/

namespace Sys2Proof.Machine

/-- `STATUS.STATE` (R23). -/
def seqCode : SeqState → Nat
  | .idle => 0
  | .busy => 1
  | .fatal => 2

/-- `STATUS.ERR` (R23, R271). -/
def errCode : ErrCode → Nat
  | .none => 0
  | .raised .format => 1
  | .raised .malformed => 2
  | .raised .checksum => 3
  | .raised .internal => 4
  | .illegalCommand => 5

/-- The register `STATUS` (R23): `STATE` in bits 1:0, `DONE` in bit 4, `ERR` in bits 10:8, every other bit 0. -/
def State.status (s : State) : U32 := BitVec.ofNat 32 (seqCode s.seq + 16 * s.done.toNat + 256 * errCode s.err)

/-- What the host reads at a register index (R21, R282): `CMD` and the reserved indices read as 0. -/
def State.readReg (s : State) (idx : Nat) : U64 :=
  match idx with
  | 1 => s.status.zeroExtend 64
  | 2 => s.inLen
  | 3 => s.outLen
  | 4 => s.cksum.zeroExtend 64
  | 5 => s.cksumStored.zeroExtend 64
  | _ => 0#64

/-- A stage is on for any nonzero flag byte (R251). -/
def flagOn (b : Byte) : Bool := decide (b ≠ 0#8)

/-- The flag byte the encoder writes for an enable (R248). -/
def flagByte (on : Bool) : Byte := if on then 1#8 else 0#8

end Sys2Proof.Machine
end

