-- ==== Sys2Proof/Machine/Huffman.lean ====
section
/-! DEFINITION. The Huffman codec (spec 43_huffman.md): the count, the builder, the code assignment, the tree writer and
reader, the packer and the decoder; and the meanings of the `HUF.` operations and of the Huffman stream's elements. -/

namespace Sys2Proof.Machine

/-! ### The builder -/

/-- `NODE[i]` (R39). -/
def Huffman.nodeAt (h : Huffman) (i : Nat) : Node := tableGet {} h.node i

/-- `NODE[i] <- n`. -/
def Huffman.putNode (h : Huffman) (i : Nat) (n : Node) : Huffman := { h with node := tablePut {} h.node i n }

/-- `FREQ[v]` (R38). -/
def Huffman.freqAt (h : Huffman) (v : Nat) : Nat := tableGet 0 h.freq v

/-- `CODE[v]` (R40). -/
def Huffman.codeAt (h : Huffman) (v : Nat) : List Bool := tableGet [] h.code v

/-- `FREQ[v] <- FREQ[v] + 1`. -/
def countByte (freq : List (Nat × Nat)) (v : Byte) : List (Nat × Nat) :=
  tablePut 0 freq v.toNat (tableGet 0 freq v.toNat + 1)

/-- `HUF.COUNT` (R200). -/
def hufCount (I : List Byte) (h : Huffman) : Huffman := { h with freq := I.foldl countByte [] }

/-- Put node `x` into a worklist after every node of greater or equal frequency (R201 (c)). -/
def insertByFreq (freq : Nat → Nat) (wl : List Nat) (x : Nat) : List Nat :=
  let j := wl.countP fun i => decide (freq x ≤ freq i)
  wl.take j ++ x :: wl.drop j

/-- A leaf for byte value `v`, when it occurs (R201). -/
def addLeaf (h : Huffman) (v : Nat) : Huffman :=
  if 0 < h.freqAt v then
    { h.putNode h.nnodes { kind := .leaf (BitVec.ofNat 8 v), freq := h.freqAt v } with
      wl := h.wl ++ [h.nnodes]
      nnodes := h.nnodes + 1 }
  else h

/-- The stable sort by descending frequency (R201 (a)). -/
def sortByFreq (freq : Nat → Nat) (wl : List Nat) : List Nat := wl.foldl (insertByFreq freq) []

/-- One merge: `lo` was popped first and becomes the right child, `hi` the left (R201 (b)), with the assertion of R203. -/
def mergeTwo (lo hi : Nat) (h : Huffman) : Res Huffman Unit :=
  if Config.hufMaxMerges ≤ h.merges then .stop (.raise .internal) h
  else
    let f := (h.nodeAt hi).freq + (h.nodeAt lo).freq
    let h1 := { h.putNode h.nnodes { kind := .internal hi lo, freq := f } with merges := h.merges + 1 }
    .ok () { h1 with
      wl := insertByFreq (fun i => (h1.nodeAt i).freq) h1.wl h1.nnodes
      nnodes := h1.nnodes + 1 }

/-- The `while wl_len > 1` of R201: every turn shortens the worklist by one. -/
def mergeLoop : Nat → Huffman → Res Huffman Unit
  | 0, h => .ok () h
  | fuel + 1, h =>
    match h.wl.reverse with
    | lo :: hi :: rest =>
      (mergeTwo lo hi { h with wl := rest.reverse }).andThen fun _ h => mergeLoop fuel h
    | _ => .ok () h

/-- `if wl_len = 1: root <- WL[0]` (R201). -/
def setRoot (h : Huffman) : Huffman :=
  match h.wl with
  | [r] => { h with root := r }
  | _ => h

/-- `HUF.BUILD` (R201). -/
def hufBuild (h : Huffman) : Res Huffman Unit :=
  let h := (List.range 256).foldl addLeaf { h with nnodes := 0, wl := [], merges := 0 }
  let h := { h with wl := sortByFreq (fun i => (h.nodeAt i).freq) h.wl }
  (mergeLoop h.wl.length h).andThen fun _ h => .ok () (setRoot h)

/-! ### The codes -/

/-- `visit(i, pre)` of R205, on the code table. A path longer than the arena has a cycle in it. -/
def assignVisit (h : Huffman) : Nat → Nat → List Bool → List (Nat × List Bool) → Res (List (Nat × List Bool)) Unit
  | 0, _, _, code => .stop (.fault .nodeCycle) code
  | fuel + 1, i, pre, code =>
    if h.nnodes ≤ i then .stop (.fault .nodeIndex) code
    else
      match (h.nodeAt i).kind with
      | .leaf v => .ok () (tablePut [] code v.toNat pre)
      | .internal l r =>
        (assignVisit h fuel l (pre ++ [false]) code).andThen fun _ code => assignVisit h fuel r (pre ++ [true]) code

/-- `HUF.ASSIGN` (R205), with the single leaf's code of R206. -/
def hufAssign (h : Huffman) : Res Huffman Unit :=
  if h.nnodes = 0 then .ok () { h with code := [] }
  else if h.nnodes ≤ h.root then .stop (.fault .nodeIndex) h
  else
    match (h.nodeAt h.root).kind with
    | .leaf v => .ok () { h with code := tablePut [] [] v.toNat [false] }
    | .internal _ _ => (assignVisit h (h.nnodes + 1) h.root [] []).inside fun code => { h with code := code }

/-! ### The tree writer -/

/-- `HUF.WRITE_TREE(O, i)` (R207). A path longer than the arena has a cycle in it: the recursion would append bits until
the buffer is full, which is the allocation failure of R142. -/
def writeTree (h : Huffman) (max : Nat) : Nat → Nat → Buffer → Res Buffer Unit
  | 0, _, o => .stop (.raise .internal) o
  | fuel + 1, i, o =>
    if h.nnodes ≤ i then .stop (.fault .nodeIndex) o
    else
      match (h.nodeAt i).kind with
      | .leaf v => (appendBit max false o).andThen fun _ o => appendBits max v.toNat 8 o
      | .internal l r =>
        (appendBit max true o).andThen fun _ o =>
          (writeTree h max fuel l o).andThen fun _ o => writeTree h max fuel r o

/-! ### The packer -/

/-- What `HUF.ENCODE` works on. -/
structure HufEnc where
  huf : Huffman
  pos : Nat
  out : Buffer
deriving DecidableEq, Repr

/-- An operation on the output buffer. -/
def HufEnc.emit (c : HufEnc) (op : Buffer → Res Buffer Unit) : Res HufEnc Unit :=
  (op c.out).inside fun o => { c with out := o }

/-- An operation on the codec's tables. -/
def HufEnc.tables (c : HufEnc) (op : Huffman → Res Huffman Unit) : Res HufEnc Unit :=
  (op c.huf).inside fun h => { c with huf := h }

/-- The codes of the bytes of `I`, each appended bit by bit (R208). -/
def packBytes (max : Nat) : List Byte → Nat → HufEnc → Res HufEnc Unit
  | [], _, c => .ok () c
  | v :: vs, p, c =>
    ({ c with pos := p }.emit (appendBitList max (c.huf.codeAt v.toNat))).andThen fun _ c => packBytes max vs (p + 1) c

/-- `HUF.ENCODE` (R208) on the bytes `I` of the input buffer. -/
def hufEncode (I : List Byte) (max : Nat) (c : HufEnc) : Res HufEnc Unit :=
  ({ c with out := c.out.release, huf := { c.huf with hlen := I.length } }.emit
      (appendBits max I.length 64)).andThen fun _ c =>
    if I.length = 0 then .ok () c
    else
      ({ c with huf := hufCount I c.huf, pos := I.length - 1 }.tables hufBuild).andThen fun _ c =>
        (c.tables hufAssign).andThen fun _ c =>
          (c.emit (writeTree c.huf max (c.huf.nnodes + 1) c.huf.root)).andThen fun _ c => packBytes max I 0 c

/-- `HUF.ENCODE(I)` on the state: the result is the other stage buffer. -/
def opHufEncode (i : StageBuf) (s : State) : Res State Unit :=
  (hufEncode (s.buf i).data s.max { huf := s.huf, pos := s.pos, out := s.buf i.other }).inside fun c =>
    { s.putBuf i.other c.out with huf := c.huf, pos := c.pos }

/-! ### The tree reader and the decoder -/

/-- What `HUF.READ_TREE` and `HUF.DECODE` work on: the tables and registers, the stream with its read cursor, and the
output buffer. -/
structure HufDec where
  huf : Huffman
  inp : Buffer
  out : Buffer
deriving DecidableEq, Repr

/-- `GB.READ_BITS` on the stream (R148). -/
def HufDec.bits (c : HufDec) (width : Nat) : Res HufDec Nat := (readBits width c.inp).inside fun b => { c with inp := b }

/-- `i <- nnodes ; nnodes <- nnodes + 1`, or the refusal of a 512th node (R209). -/
def allocNode (cfg : Config) (c : HufDec) : Res HufDec Nat :=
  if cfg.hufMaxNodes ≤ c.huf.nnodes then .stop (.raise .malformed) c
  else .ok c.huf.nnodes { c with huf := { c.huf with nnodes := c.huf.nnodes + 1 } }

/-- `NODE[i] <- kind`; `freq` is not set (R209). -/
def storeNode (i : Nat) (kind : NodeKind) (c : HufDec) : HufDec :=
  { c with huf := c.huf.putNode i { (c.huf.nodeAt i) with kind := kind } }

/-- `HUF.READ_TREE` (R209): the index of the subtree's root. The depth of the recursion is below `HUF_MAXNODES`. -/
def readTree (cfg : Config) : Nat → HufDec → Res HufDec Nat
  | 0, c => .stop (.raise .malformed) c
  | fuel + 1, c =>
    (allocNode cfg c).andThen fun i c =>
      (c.bits 1).andThen fun tag c =>
        if tag = 1 then
          (readTree cfg fuel c).andThen fun l c =>
            (readTree cfg fuel c).andThen fun r c => .ok i (storeNode i (.internal l r) c)
        else
          (c.bits 8).andThen fun v c => .ok i (storeNode i (.leaf (BitVec.ofNat 8 v)) c)

/-- A tree node that cannot be decoded (R209): its index is taken before its first bit is missed. -/
def readNoNode (cfg : Config) (c : HufDec) : Res HufDec Nat :=
  (allocNode cfg c).andThen fun _ c => .stop (.raise .malformed) c

/-- `NODE.I` met (R209): the tag bit is consumed and the two subtrees are read. -/
def readInternal (cfg : Config) (c : HufDec) : Res HufDec Nat :=
  (allocNode cfg c).andThen fun i c =>
    (c.bits 1).andThen fun _ c =>
      (readTree cfg cfg.hufMaxNodes c).andThen fun l c =>
        (readTree cfg cfg.hufMaxNodes c).andThen fun r c => .ok i (storeNode i (.internal l r) c)

/-- `NODE.L` met (R209): its nine bits are consumed. -/
def readLeaf (cfg : Config) (v : Byte) (c : HufDec) : Res HufDec Nat :=
  (allocNode cfg c).andThen fun i c =>
    (c.bits 9).andThen fun _ c => .ok i (storeNode i (.leaf v) c)

/-- `root <- i` for a node read at top level (R209). -/
def asRoot (r : Res HufDec Nat) : Res HufDec Nat :=
  r.andThen fun i c => .ok i { c with huf := { c.huf with root := i } }

/-- The header of a Huffman stream (R210), for the declared length `n`: the 64 bits are consumed, the length is checked,
the output is fresh, and the tree is about to be read unless the length is 0. -/
def hufHeader (max n : Nat) (c : HufDec) : Res HufDec Unit :=
  (({ c with inp := { c.inp with rcur := {} } }).bits 64).andThen fun _ c =>
    let c := { c with huf := { c.huf with hlen := n } }
    if max < n then .stop (.raise .malformed) c
    else
      let c := { c with out := c.out.release }
      if n = 0 then .ok () c else .ok () { c with huf := { c.huf with nnodes := 0 } }

/-- The walk from the node `walk` to a leaf (R210); every step down consumes a bit. -/
def walkTree : Nat → HufDec → Res HufDec Byte
  | 0, c => .stop (.raise .malformed) c
  | fuel + 1, c =>
    if c.huf.nnodes ≤ c.huf.walk then .stop (.fault .nodeIndex) c
    else
      match (c.huf.nodeAt c.huf.walk).kind with
      | .leaf v => .ok v c
      | .internal l r =>
        (c.bits 1).andThen fun bit c =>
          walkTree fuel { c with huf := { c.huf with walk := if bit = 0 then l else r } }

/-- The byte value of the next coded byte (R210): with a one-leaf tree a bit is consumed whatever its value; otherwise the
walk starts at the root. -/
def symbolByte (c : HufDec) : Res HufDec Byte :=
  if c.huf.nnodes ≤ c.huf.root then .stop (.fault .nodeIndex) c
  else
    match (c.huf.nodeAt c.huf.root).kind with
    | .leaf v => (c.bits 1).andThen fun _ c => .ok v c
    | .internal _ _ => walkTree (8 * c.inp.len + 1) { c with huf := { c.huf with walk := c.huf.root } }

/-- One coded byte (R210). Met on its own it tests no `hlen`, which is the line of R210's loop: by the model's choice it is read
whatever the output's length is (log entry 16). -/
def readSymbol (max : Nat) (c : HufDec) : Res HufDec Unit :=
  (symbolByte c).andThen fun v c => (appendByte max v c.out).inside fun o => { c with out := o }

/-- The loop of R210: a symbol consumes at least one bit, so `8 * len(S) + 1` turns are enough. -/
def symbolLoop (max : Nat) : Nat → HufDec → Res HufDec Unit
  | 0, c => .stop (.raise .malformed) c
  | fuel + 1, c =>
    if c.out.len < c.huf.hlen then (readSymbol max c).andThen fun _ c => symbolLoop max fuel c
    else .ok () c

/-- `HUF.DECODE` (R210). -/
def hufDecode (cfg : Config) (max : Nat) (c : HufDec) : Res HufDec Unit :=
  (hufHeader max (bitsValue c.inp.data 0 64) c).andThen fun _ c =>
    if c.huf.hlen = 0 then .ok () c
    else (asRoot (readTree cfg (cfg.hufMaxNodes + 1) c)).andThen fun _ c => symbolLoop max (8 * c.inp.len + 1) c

/-- An operation of the Huffman decoder on the state: it reads the stage buffer `src` and writes the other. -/
def onHufDec {α : Type} (op : Nat → HufDec → Res HufDec α) (s : State) : Res State α :=
  (op s.max { huf := s.huf, inp := s.buf s.src, out := s.buf s.src.other }).inside fun c =>
    { (s.putBuf s.src c.inp).putBuf s.src.other c.out with huf := c.huf }

/-- An operation of the Huffman decoder whose result is a node index. -/
def onHufNode (op : HufDec → Res HufDec Nat) (s : State) : Res State Unit :=
  (onHufDec (fun _ c => asRoot (op c)) s).andThen fun i s => .ok () (s.answer (.value i))

/-- `HUF.DECODE(S)` on the state: the result is the other stage buffer. -/
def opHufDecode (cfg : Config) (src : StageBuf) (s : State) : Res State Unit := onHufDec (hufDecode cfg) { s with src := src }

/-! ### Meanings -/

/-- `HUF.COUNT` (R200). -/
def execHufCount (i : StageBuf) (s : State) : Host.Outcome State Fault Refusal :=
  runUnit (fun s =>
    let I := (s.buf i).data
    .ok () { s with huf := hufCount I s.huf, pos := afterLoop s.pos 0 I.length (I.length - 1) }) s

/-- `HUF.BUILD` (R201). -/
def execHufBuild (s : State) : Host.Outcome State Fault Refusal :=
  runUnit (fun s => (hufBuild s.huf).inside fun h => { s with huf := h }) s

/-- `HUF.ASSIGN` (R205). -/
def execHufAssign (s : State) : Host.Outcome State Fault Refusal :=
  runUnit (fun s => (hufAssign s.huf).inside fun h => { s with huf := h }) s

/-- `HUF.WRITE_TREE` (R207). -/
def execHufWriteTree (o : StageBuf) (i : BitVec 9) (s : State) : Host.Outcome State Fault Refusal :=
  runUnit (fun s => onBuf o (fun max => writeTree s.huf max (s.huf.nnodes + 1) i.toNat) s) s

/-- `HUF.ENCODE` (R208). -/
def execHufEncode (i : StageBuf) (s : State) : Host.Outcome State Fault Refusal := runUnit (opHufEncode i) s

/-- `HUF.READ_TREE` (R209). -/
def execHufReadTree (src : StageBuf) (s : State) : Host.Outcome State Fault Refusal :=
  runUnit (fun s => onHufNode (readTree Config.barph (Config.barph.hufMaxNodes + 1)) { s with src := src }) s

/-- `HUF.DECODE` (R210). -/
def execHufDecode (src : StageBuf) (s : State) : Host.Outcome State Fault Refusal := runUnit (opHufDecode Config.barph src) s

/-- `HUF.HDR` (R210). -/
def execHufHdr (n : U64) (s : State) : Host.Outcome State Fault Refusal :=
  runUnit (onHufDec fun max => hufHeader max n.toNat) s

/-- `NODE.I` (R209). -/
def execNodeI (s : State) : Host.Outcome State Fault Refusal := runUnit (onHufNode (readInternal Config.barph)) s

/-- `NODE.L` (R209). -/
def execNodeL (v : Byte) (s : State) : Host.Outcome State Fault Refusal := runUnit (onHufNode (readLeaf Config.barph v)) s

/-- `SYM` (R210). -/
def execSym (s : State) : Host.Outcome State Fault Refusal := runUnit (onHufDec readSymbol) s

end Sys2Proof.Machine
end

