-- ==== Sys2Proof/Decode.lean ====
section
/-! DEFINITION. The decoder and the encoder (spec 30_encoding.md). `decode` reads the element that stands at the head of a
byte sequence met in a given place (`Space`), is total, and rejects by name. The wire formats, the container and the
command word are the spec's own layouts. The operands of a unit operation follow its 6-bit select code in a layout of the
model's own, since R92 says that no wire format contains them (log entry 3): a buffer operand is one byte, a `u64` or a
count is little-endian, a byte sequence is its 8-byte length and then its bytes. -/

namespace Sys2Proof

/-- Why bytes are no element of the place they are met in. -/
inductive DecodeErr where
  /-- The bytes end inside the element (R66). -/
  | truncated
  /-- The first `N` bytes are not `MAGIC`, or there are fewer than `N` (R121, R250). -/
  | badMagic
  /-- A select code that R92 leaves unused. -/
  | unusedSelect
deriving DecidableEq, Repr

/-- What `decode` answers: the operation and the bits its encoding takes. -/
abbrev Decoded := Except DecodeErr (Instr × Nat)

/-! ### The command word -/

/-- `F-CMD` (R91, R93): every 32-bit value is a command, the reserved and unused bits being ignored. -/
def decodeCmd (w : U32) : Instr :=
  match (w.extractLsb' 0 4).toNat with
  | 0 => .nop
  | 1 => .compress (w.getLsbD 8) (w.getLsbD 9) (w.extractLsb' 16 8)
  | 2 => .decompress
  | 3 => .reservedOp3
  | 4 => .reservedOp4
  | 5 => .reservedOp5
  | 6 => .reservedOp6
  | 7 => .reservedOp7
  | 8 => .reservedOp8
  | 9 => .reservedOp9
  | 10 => .reservedOp10
  | 11 => .reservedOp11
  | 12 => .reservedOp12
  | 13 => .reservedOp13
  | 14 => .reservedOp14
  | _ => .reset

/-- The command word of a `COMPRESS` (R130). -/
def compressWord (lb huf : Bool) (delta : Byte) : Nat :=
  1 + 256 * lb.toNat + 512 * huf.toNat + 65536 * delta.toNat

/-! ### Reading operands -/

/-- The `n`-byte little-endian value at the head of the bytes, and what follows it. -/
def withLE {α : Type} (n : Nat) (bs : List Byte) (k : Nat → List Byte → Except DecodeErr α) : Except DecodeErr α :=
  if bs.length < n then .error .truncated else k (fromLE (bs.take n)) (bs.drop n)

/-- A `u64` field. -/
def withU64 {α : Type} (bs : List Byte) (k : U64 → List Byte → Except DecodeErr α) : Except DecodeErr α :=
  withLE 8 bs fun v rest => k (BitVec.ofNat 64 v) rest

/-- A byte field. -/
def withByte {α : Type} (bs : List Byte) (k : Byte → List Byte → Except DecodeErr α) : Except DecodeErr α :=
  withLE 1 bs fun v rest => k (BitVec.ofNat 8 v) rest

/-! ### The unit operations

The operand layout is the model's (log entry 3), and no sequence of bytes is without a meaning in it: an operand byte that is
missing is 0, and the bits of an operand byte beyond its operand's are ignored. -/

/-- The `n`-byte little-endian operand at the head of the bytes, and what follows it. -/
def argLE {α : Type} (n : Nat) (bs : List Byte) (k : Nat → List Byte → α) : α := k (fromLE (bs.take n)) (bs.drop n)

/-- A stage buffer, bit 0 of a byte. -/
def argBuf {α : Type} (bs : List Byte) (k : StageBuf → List Byte → α) : α :=
  argLE 1 bs fun v rest => k (if v % 2 = 0 then .sb0 else .sb1) rest

/-- A one-bit operand, bit 0 of a byte. -/
def argBool {α : Type} (bs : List Byte) (k : Bool → List Byte → α) : α :=
  argLE 1 bs fun v rest => k (decide (v % 2 = 1)) rest

/-- A `u64` operand. -/
def argU64 {α : Type} (bs : List Byte) (k : U64 → List Byte → α) : α :=
  argLE 8 bs fun v rest => k (BitVec.ofNat 64 v) rest

/-- A byte operand. -/
def argByte {α : Type} (bs : List Byte) (k : Byte → List Byte → α) : α :=
  argLE 1 bs fun v rest => k (BitVec.ofNat 8 v) rest

/-- A node index, the low nine bits of two bytes. -/
def argNode {α : Type} (bs : List Byte) (k : BitVec 9 → List Byte → α) : α :=
  argLE 2 bs fun v rest => k (BitVec.ofNat 9 v) rest

/-- What `CK.SUM` reads, bits 1:0 of a byte. -/
def argSum {α : Type} (bs : List Byte) (k : SumSrc → List Byte → α) : α :=
  argLE 1 bs fun v rest =>
    k (match v % 4 with
      | 0 => .input
      | 1 => .stage .sb0
      | _ => .stage .sb1) rest

/-- A byte-sequence operand: its length as a `u64`, then its bytes, as many of them as there are. -/
def argSeq {α : Type} (bs : List Byte) (k : List Byte → List Byte → α) : α :=
  argLE 8 bs fun n rest => k (rest.take n) (rest.drop n)

/-- The operation that select code `code` names (R92), with its operands read from `bs`, and what follows them; an unused
code names none. -/
def decodeUopBody (code : Nat) (bs : List Byte) : Option (Instr × List Byte) :=
  match code with
  | 0x01 => argBuf bs fun b bs => argU64 bs fun extra bs => some (.gbReserve b extra, bs)
  | 0x02 => argBuf bs fun b bs => argByte bs fun v bs => some (.gbAppendByte b v, bs)
  | 0x03 => argBuf bs fun b bs => argSeq bs fun s bs => some (.gbAppendBytes b s, bs)
  | 0x04 => argBuf bs fun b bs => argBool bs fun bit bs => some (.gbAppendBit b bit, bs)
  | 0x05 => argBuf bs fun b bs => argU64 bs fun v bs => argByte bs fun w bs => some (.gbAppendBits b v w, bs)
  | 0x06 => argBuf bs fun b bs => argByte bs fun w bs => some (.gbReadBits b w, bs)
  | 0x07 => argBuf bs fun b bs => argU64 bs fun a bs => argU64 bs fun n bs => some (.gbReadBytes b a n, bs)
  | 0x08 => some (.mfReset, bs)
  | 0x09 => argBuf bs fun b bs => argU64 bs fun p bs => some (.mfInsert b p, bs)
  | 0x0A => argBuf bs fun b bs => argU64 bs fun p bs => some (.mfFindBest b p, bs)
  | 0x0B => argBuf bs fun b bs => argU64 bs fun p bs => some (.mfMatchAt b p, bs)
  | 0x10 => argBuf bs fun b bs => argSeq bs fun s bs => some (.lbEmitLit b s, bs)
  | 0x11 => argBuf bs fun b bs => argU64 bs fun d bs => argU64 bs fun l bs => some (.lbEmitMatch b d l, bs)
  | 0x12 => argBuf bs fun b bs => some (.lbEncode b, bs)
  | 0x13 => argBuf bs fun b bs => some (.lbDecode b, bs)
  | 0x18 => argBuf bs fun b bs => some (.hufCount b, bs)
  | 0x19 => some (.hufBuild, bs)
  | 0x1A => some (.hufAssign, bs)
  | 0x1B => argBuf bs fun b bs => argNode bs fun i bs => some (.hufWriteTree b i, bs)
  | 0x1C => argBuf bs fun b bs => some (.hufEncode b, bs)
  | 0x1D => argBuf bs fun b bs => some (.hufReadTree b, bs)
  | 0x1E => argBuf bs fun b bs => some (.hufDecode b, bs)
  | 0x20 => argBuf bs fun b bs => argByte bs fun d bs => some (.dfForward b d, bs)
  | 0x21 => argBuf bs fun b bs => argByte bs fun d bs => some (.dfInverse b d, bs)
  | 0x28 => argSum bs fun src bs => some (.ckSum src, bs)
  | 0x29 => argBool bs fun lb bs => argBool bs fun huf bs => argByte bs fun d bs => some (.conCompress lb huf d, bs)
  | 0x2A => some (.conDecompress, bs)
  | _ => none

/-- `F-UOP` (R92): the select code is the low six bits of the first byte. -/
def decodeUop (bs : List Byte) : Decoded :=
  argLE 1 bs fun code rest =>
    match decodeUopBody (code % 64) rest with
    | none => .error .unusedSelect
    | some (i, rest') => .ok (i, 8 * (bs.length - rest'.length))

/-! ### The wire formats -/

/-- The first part of a lookback token (R96 to R99, R104, R106): the tag bit is bit 0 of the first byte, a literal's size
flag bit 1, and a match's class the run of ones. -/
def decodeLbToken (bs : List Byte) : Decoded :=
  match bs with
  | [] => .error .truncated
  | b0 :: _ =>
    if b0.getLsbD 0 then
      match onesRun b0 with
      | 1 => withLE 1 bs fun v _ => .ok (.dist1 (BitVec.ofNat 6 (v >>> 2)), 8)
      | 2 => withLE 2 bs fun v _ => .ok (.dist2 (BitVec.ofNat 13 (v >>> 3)), 16)
      | 3 => withLE 3 bs fun v _ => .ok (.dist3 (BitVec.ofNat 20 (v >>> 4)), 24)
      | 4 => withLE 4 bs fun v _ => .ok (.dist4 (BitVec.ofNat 27 (v >>> 5)), 32)
      | 5 => withLE 5 bs fun v _ => .ok (.dist5 (BitVec.ofNat 34 (v >>> 6)), 40)
      | _ => .ok (.distReserved, 8)
    else if b0.getLsbD 1 then
      withLE 2 bs fun v _ => .ok (.litL (BitVec.ofNat 14 (v >>> 2)), 16)
    else
      withLE 1 bs fun v _ => .ok (.litS (BitVec.ofNat 6 (v >>> 2)), 8)

/-- The length field of a match token (R102, R106): bit 0 of the first byte says whether a second follows. -/
def decodeLbLen (bs : List Byte) : Decoded :=
  match bs with
  | [] => .error .truncated
  | l0 :: _ =>
    if l0.getLsbD 0 then
      withLE 2 bs fun v _ => .ok (.lenL (BitVec.ofNat 15 (v >>> 1)), 16)
    else
      withLE 1 bs fun v _ => .ok (.lenS (BitVec.ofNat 7 (v >>> 1)), 8)

/-- A tree node, its first bit being bit 0 of the first byte (R111). -/
def decodeHufNode (bs : List Byte) : Decoded :=
  match bs with
  | [] => .error .truncated
  | b0 :: _ =>
    if b0.getLsbD 0 then .ok (.nodeI, 1)
    else withLE 2 bs fun v _ => .ok (.nodeL (BitVec.ofNat 8 (v >>> 1)), 9)

/-- The container header (R120, R121, R250): the magic is compared before the length of the rest is. -/
def decodeCon (cfg : Config) (bs : List Byte) : Decoded :=
  if bs.take cfg.magic.length = cfg.magic then
    withByte (bs.drop cfg.magic.length) fun delta rest =>
      withByte rest fun lb rest =>
        withByte rest fun huf rest =>
          withLE 4 rest fun ck _ => .ok (.con delta lb huf (BitVec.ofNat 32 ck), 8 * (cfg.magic.length + 7))
  else .error .badMagic

/-- The element at the head of `bs` in the place `sp`, and its size in bits. -/
def decode (sp : Space) (bs : List Byte) : Decoded :=
  match sp with
  | .cmd => withLE 4 bs fun v _ => .ok (decodeCmd (BitVec.ofNat 32 v), 32)
  | .uop => decodeUop bs
  | .lbHdr => withU64 bs fun n _ => .ok (.lbHdr n, 64)
  | .lbToken => decodeLbToken bs
  | .lbLen => decodeLbLen bs
  | .hufHdr => withU64 bs fun n _ => .ok (.hufHdr n, 64)
  | .hufNode => decodeHufNode bs
  | .hufSym => .ok (.sym, 0)
  | .con => decodeCon Config.barph bs

/-! ### The encoder -/

/-- A stage buffer's operand byte. -/
def encBuf : StageBuf → Byte
  | .sb0 => 0#8
  | .sb1 => 1#8

/-- `CK.SUM`'s operand byte. -/
def encSum : SumSrc → Byte
  | .input => 0#8
  | .stage .sb0 => 1#8
  | .stage .sb1 => 2#8

/-- A one-bit operand's byte. -/
def encBool : Bool → Byte
  | false => 0#8
  | true => 1#8

/-- A byte-sequence operand. -/
def encSeq (s : List Byte) : List Byte := leBytes s.length 8 ++ s

/-- A distance field of class `n` (R101): `n` tag ones, a zero, and the distance above them. -/
def encDist (n d : Nat) : List Byte := leBytes ((2 ^ n - 1) ||| (d <<< (n + 1))) n

/-- The place each operation's encoding is met in. -/
def Instr.space : Instr → Space
  | .nop | .compress .. | .decompress
  | .reservedOp3 | .reservedOp4 | .reservedOp5 | .reservedOp6 | .reservedOp7 | .reservedOp8
  | .reservedOp9 | .reservedOp10 | .reservedOp11 | .reservedOp12 | .reservedOp13 | .reservedOp14 | .reset => .cmd
  | .gbReserve .. | .gbAppendByte .. | .gbAppendBytes .. | .gbAppendBit .. | .gbAppendBits .. | .gbReadBits ..
  | .gbReadBytes .. | .mfReset | .mfInsert .. | .mfFindBest .. | .mfMatchAt ..
  | .lbEmitLit .. | .lbEmitMatch .. | .lbEncode .. | .lbDecode ..
  | .hufCount .. | .hufBuild | .hufAssign | .hufWriteTree .. | .hufEncode .. | .hufReadTree .. | .hufDecode ..
  | .dfForward .. | .dfInverse .. | .ckSum .. | .conCompress .. | .conDecompress => .uop
  | .lbHdr .. => .lbHdr
  | .litS .. | .litL .. | .dist1 .. | .dist2 .. | .dist3 .. | .dist4 .. | .dist5 .. | .distReserved => .lbToken
  | .lenS .. | .lenL .. => .lbLen
  | .hufHdr .. => .hufHdr
  | .nodeI | .nodeL .. => .hufNode
  | .sym => .hufSym
  | .con .. => .con

/-- The bytes of an operation, the ignored bits of a command word written as 0; `NODE.I` and `NODE.L` stand in the low bits
of their bytes, and a coded byte has none of its own (its bits are `CODE[v]`, R113). -/
def encode : Instr → List Byte
  | .nop => leBytes 0 4
  | .compress lb huf delta => leBytes (compressWord lb huf delta) 4
  | .decompress => leBytes 2 4
  | .reservedOp3 => leBytes 3 4
  | .reservedOp4 => leBytes 4 4
  | .reservedOp5 => leBytes 5 4
  | .reservedOp6 => leBytes 6 4
  | .reservedOp7 => leBytes 7 4
  | .reservedOp8 => leBytes 8 4
  | .reservedOp9 => leBytes 9 4
  | .reservedOp10 => leBytes 10 4
  | .reservedOp11 => leBytes 11 4
  | .reservedOp12 => leBytes 12 4
  | .reservedOp13 => leBytes 13 4
  | .reservedOp14 => leBytes 14 4
  | .reset => leBytes 15 4
  | .gbReserve b extra => [0x01#8, encBuf b] ++ leBytes extra.toNat 8
  | .gbAppendByte b v => [0x02#8, encBuf b, v]
  | .gbAppendBytes b s => [0x03#8, encBuf b] ++ encSeq s
  | .gbAppendBit b bit => [0x04#8, encBuf b, encBool bit]
  | .gbAppendBits b value width => [0x05#8, encBuf b] ++ leBytes value.toNat 8 ++ [width]
  | .gbReadBits b width => [0x06#8, encBuf b, width]
  | .gbReadBytes b a n => [0x07#8, encBuf b] ++ leBytes a.toNat 8 ++ leBytes n.toNat 8
  | .mfReset => [0x08#8]
  | .mfInsert i p => [0x09#8, encBuf i] ++ leBytes p.toNat 8
  | .mfFindBest i p => [0x0A#8, encBuf i] ++ leBytes p.toNat 8
  | .mfMatchAt i p => [0x0B#8, encBuf i] ++ leBytes p.toNat 8
  | .lbEmitLit o s => [0x10#8, encBuf o] ++ encSeq s
  | .lbEmitMatch o d len => [0x11#8, encBuf o] ++ leBytes d.toNat 8 ++ leBytes len.toNat 8
  | .lbEncode i => [0x12#8, encBuf i]
  | .lbDecode s => [0x13#8, encBuf s]
  | .hufCount i => [0x18#8, encBuf i]
  | .hufBuild => [0x19#8]
  | .hufAssign => [0x1A#8]
  | .hufWriteTree o i => [0x1B#8, encBuf o] ++ leBytes i.toNat 2
  | .hufEncode i => [0x1C#8, encBuf i]
  | .hufReadTree s => [0x1D#8, encBuf s]
  | .hufDecode s => [0x1E#8, encBuf s]
  | .dfForward b d => [0x20#8, encBuf b, d]
  | .dfInverse b d => [0x21#8, encBuf b, d]
  | .ckSum src => [0x28#8, encSum src]
  | .conCompress lb huf delta => [0x29#8, encBool lb, encBool huf, delta]
  | .conDecompress => [0x2A#8]
  | .lbHdr n => leBytes n.toNat 8
  | .litS len => leBytes (len.toNat <<< 2) 1
  | .litL len => leBytes ((len.toNat <<< 2) ||| 2) 2
  | .dist1 d => encDist 1 d.toNat
  | .dist2 d => encDist 2 d.toNat
  | .dist3 d => encDist 3 d.toNat
  | .dist4 d => encDist 4 d.toNat
  | .dist5 d => encDist 5 d.toNat
  | .distReserved => [0x3F#8]
  | .lenS len => leBytes (len.toNat <<< 1) 1
  | .lenL len => leBytes ((len.toNat <<< 1) ||| 1) 2
  | .hufHdr n => leBytes n.toNat 8
  | .nodeI => [0x01#8]
  | .nodeL v => leBytes (v.toNat <<< 1) 2
  | .sym => []
  | .con delta lb huf ck => Config.barph.magic ++ [delta, lb, huf] ++ leBytes ck.toNat 4

/-- The size in bits of an operation's encoding (R90, R111, R120). -/
def Instr.sizeBits : Instr → Nat
  | .nodeI => 1
  | .nodeL _ => 9
  | i => 8 * (encode i).length

/-! ### The opcode table's words -/

/-- The place in which a table row of `nbits` bits (whole bytes) and bits `w` is met. The rows of spec/opcode_table.json
share bit patterns that only their place tells apart (R131), and a word alone does not carry its place, so this picks one:
by size; among the 32-bit rows a word with a class 4 tag and a payload is `DIST4`; among the 8-bit rows a used select code
is a unit operation, then a token's first byte, then a length; among the 16-bit rows by the format's low bits (log
entry 4). -/
def tableSpace (nbits w : Nat) : Option Space :=
  match nbits with
  | 0 => some .hufSym
  | 8 =>
    if w < 64 ∧ (decodeUopBody w []).isSome = true then some .uop
    else match decodeLbToken (leBytes w 1) with
      | .ok (_, 8) => some .lbToken
      | _ => some .lbLen
  | 16 =>
    if w % 8 = 3 then some .lbToken
    else if w % 4 = 2 ∧ (w = 2 ∨ 512 ≤ w) then some .lbToken
    else if w % 2 = 0 then some .hufNode
    else some .lbLen
  | 24 => some .lbToken
  | 32 => if w % 32 = 15 ∧ 15 < w then some .lbToken else some .cmd
  | 40 => some .lbToken
  | 64 => some .lbHdr
  | 104 => some .con
  | _ => none

/-- The bytes a table row's word stands for: the word's own, lowest first, and zeros for every bit above `nbits`. -/
def tableBytes (nbits w : Nat) : List Byte := leBytes w (nbits / 8) ++ List.replicate 32 0#8

end Sys2Proof

/-- The operation the decoder reads from a table row of `nbits` bits whose bits are `w`. -/
def Sys2Proof.decodeTableWord (nbits w : Nat) : Option Sys2Proof.Instr :=
  match Sys2Proof.tableSpace nbits w with
  | none => none
  | some sp =>
    match Sys2Proof.decode sp (Sys2Proof.tableBytes nbits w) with
    | .ok (i, _) => some i
    | .error _ => none
end

