-- ==== Sys2Proof/Machine/MatchFinder.lean ====
section
/-! DEFINITION. The match finder (spec 41_match_finder.md): the hash, the table, the search and the economical-match filter;
and the meanings of `MF.RESET`, `MF.INSERT`, `MF.FIND_BEST` and `MF.MATCH_AT`. `I` is the bytes of the input buffer. -/

namespace Sys2Proof.Machine

/-- A zeroed bucket (R162). -/
def emptyBucket (cfg : Config) : Bucket := { slot := List.replicate cfg.mfK 0, cur := 0, cnt := 0 }

/-- Bucket `MT[h]` (R37). -/
def MatchFinder.bucket (mf : MatchFinder) (cfg : Config) (h : Nat) : Bucket := tableGet (emptyBucket cfg) mf.mt h

/-- `MF_HASH(I, p)` (R161), for a position with a 4-byte prefix, `p + 4 ≤ n` (R160): the top `MF_HB` bits of the 32-bit
product of the prefix and the multiplier. -/
def mfHash (cfg : Config) (I : List Byte) (p : Nat) : Nat :=
  ((BitVec.ofNat 32 (fromLE (slice I p 4)) * cfg.hashMul) >>> (32 - cfg.mfHB)).toNat

/-- The length of the common part of two sequences, at most `cap`. -/
def commonLen : Nat → List Byte → List Byte → Nat
  | cap + 1, x :: xs, y :: ys => if x = y then commonLen cap xs ys + 1 else 0
  | _, _, _ => 0

/-- `mlen(I, c, p)` (R165). -/
def matchLen (cfg : Config) (I : List Byte) (c p : Nat) : Nat := commonLen cfg.maxLen (I.drop c) (I.drop p)

/-- `MF.RESET` (R162). -/
def mfClear (mf : MatchFinder) : MatchFinder := { mf with mt := [] }

/-- A bucket after a position is written into its ring (R163). -/
def Bucket.push (b : Bucket) (cfg : Config) (p : Nat) : Bucket :=
  { slot := b.slot.set b.cur p
    cur := (b.cur + 1) % cfg.mfK
    cnt := min (b.cnt + 1) cfg.mfK }

/-- `MF.INSERT` (R163). -/
def mfInsert (cfg : Config) (I : List Byte) (p : Nat) (mf : MatchFinder) : MatchFinder :=
  if p + 4 ≤ I.length then
    let h := mfHash cfg I p
    { mf with mt := tablePut (emptyBucket cfg) mf.mt h ((mf.bucket cfg h).push cfg p) }
  else mf

/-- The valid slots of a bucket, newest first (R37, R164). -/
def Bucket.newestFirst (b : Bucket) (cfg : Config) : List Nat :=
  (List.range b.cnt).map fun i => b.slot.getD ((b.cur + cfg.mfK - (i + 1)) % cfg.mfK) 0

/-- One candidate of the search (R164): causality, the distance bound, and the tie-break to the larger position. `best` is
(`best_len`, `best_pos`). -/
def consider (cfg : Config) (I : List Byte) (p : Nat) (best : Nat × Nat) (c : Nat) : Nat × Nat :=
  if p ≤ c then best
  else if cfg.distMax 5 < p - c then best
  else if best.1 < matchLen cfg I c p ∨ (matchLen cfg I c p = best.1 ∧ 0 < matchLen cfg I c p ∧ best.2 < c) then
    (matchLen cfg I c p, c)
  else best

/-- `MF.FIND_BEST` (R164): the result (candidate, length) and the registers of the search. -/
def mfFindBest (cfg : Config) (I : List Byte) (p : Nat) (mf : MatchFinder) : Option (Nat × Nat) × MatchFinder :=
  if p + 4 ≤ I.length then
    let best := ((mf.bucket cfg (mfHash cfg I p)).newestFirst cfg).foldl (consider cfg I p) (0, mf.bestPos)
    (if best.1 ≤ cfg.minMatchThreshold then none else some (best.2, best.1),
      { mf with bestLen := best.1, bestPos := best.2 })
  else (none, mf)

/-- The class of a distance (R101): the least `n` with `d ≤ DIST_MAX[n]`. -/
def distClass (cfg : Config) (d : Nat) : Nat :=
  if d ≤ cfg.distMax 1 then 1
  else if d ≤ cfg.distMax 2 then 2
  else if d ≤ cfg.distMax 3 then 3
  else if d ≤ cfg.distMax 4 then 4
  else 5

/-- `cost(d, L)` (R107). -/
def tokenCost (cfg : Config) (d len : Nat) : Nat := distClass cfg d + (if len ≤ 127 then 1 else 2)

/-- `MF.MATCH_AT` (R166): the result (distance, length) and the registers of the search. -/
def mfMatchAt (cfg : Config) (I : List Byte) (p : Nat) (mf : MatchFinder) : Option (Nat × Nat) × MatchFinder :=
  match mfFindBest cfg I p mf with
  | (none, mf') => (none, mf')
  | (some (c, len), mf') => (if tokenCost cfg (p - c) len < len then some (p - c, len) else none, mf')

/-- The result of a search as a unit operation gives it. -/
def searchRet : Option (Nat × Nat) → Ret
  | none => .noMatch
  | some (a, b) => .pair a b

/-! ### Meanings -/

/-- `MF.RESET` (R162). -/
def execMfReset (s : State) : Host.Outcome State Fault Refusal :=
  runUnit (fun s => .ok () { s with mf := mfClear s.mf }) s

/-- `MF.INSERT` (R163). -/
def execMfInsert (i : StageBuf) (p : U64) (s : State) : Host.Outcome State Fault Refusal :=
  runUnit (fun s => .ok () { s with mf := mfInsert Config.barph (s.buf i).data p.toNat s.mf }) s

/-- `MF.FIND_BEST` (R164). -/
def execMfFindBest (i : StageBuf) (p : U64) (s : State) : Host.Outcome State Fault Refusal :=
  runUnit (fun s =>
    let r := mfFindBest Config.barph (s.buf i).data p.toNat s.mf
    .ok () { s with mf := r.2, ret := searchRet r.1 }) s

/-- `MF.MATCH_AT` (R166). -/
def execMfMatchAt (i : StageBuf) (p : U64) (s : State) : Host.Outcome State Fault Refusal :=
  runUnit (fun s =>
    let r := mfMatchAt Config.barph (s.buf i).data p.toNat s.mf
    .ok () { s with mf := r.2, ret := searchRet r.1 }) s

end Sys2Proof.Machine
end

