-- ==== Sys2Proof/Machine/Lookback.lean ====
section
/-! DEFINITION. The lookback codec (spec 42_lookback_codec.md): token emission, the greedy encoder, and the decoder, whose
loop reads each element with the decoder of Decode.lean and acts on it as the element's own meaning does; and the
meanings of `LB.EMIT_LIT`, `LB.EMIT_MATCH`, `LB.ENCODE`, `LB.DECODE` and of the lookback stream's elements. -/

namespace Sys2Proof.Machine

/-! ### Token emission -/

/-- `LB.EMIT_LIT` (R181), with `high` for the second byte of a long header. -/
def emitLitWith (high : Byte) (max : Nat) (s : List Byte) (o : Buffer) : Res Buffer Unit :=
  (if s.length ≤ 63 then appendByte max (BitVec.ofNat 8 (s.length <<< 2)) o
    else (appendByte max (BitVec.ofNat 8 (((s.length &&& 0x3F) <<< 2) ||| 2)) o).andThen fun _ o =>
      appendByte max high o).andThen fun _ o => appendBytes max s o

/-- `LB.EMIT_LIT` (R181) of at most `LITMAX` bytes. -/
def emitLit (max : Nat) (s : List Byte) (o : Buffer) : Res Buffer Unit :=
  emitLitWith (BitVec.ofNat 8 (s.length >>> 6)) max s o

/-- `LB.EMIT_LIT(O, s)` on the state. Of more than `LITMAX` bytes, `r >> 6` is no byte: R181 states no value for the second
header byte, and it is a free one; the rest of the rule holds as it stands (log entry 20). -/
def opEmitLit (cfg : Config) (o : StageBuf) (bytes : List Byte) (s : State) : Res State Unit :=
  if bytes.length ≤ cfg.litMax then onBuf o (fun max => emitLit max bytes) s
  else onBuf o (fun max => emitLitWith (Config.freeLitByte s.freeLits) max bytes) { s with freeLits := s.freeLits + 1 }

/-- The length field (R102, R182). -/
def emitLen (max len : Nat) (o : Buffer) : Res Buffer Unit :=
  if len ≤ 127 then appendByte max (BitVec.ofNat 8 (len <<< 1)) o
  else (appendByte max (BitVec.ofNat 8 (((len &&& 0x7F) <<< 1) ||| 1)) o).andThen fun _ o =>
    appendByte max (BitVec.ofNat 8 (len >>> 7)) o

/-- `LB.EMIT_MATCH` (R182). -/
def emitMatch (cfg : Config) (max d len : Nat) (o : Buffer) : Res Buffer Unit :=
  if d = 0 ∨ cfg.distMax 5 < d ∨ cfg.maxLen < len then .stop (.raise .internal) o
  else (appendBytes max (encDist (distClass cfg d) d) o).andThen fun _ o => emitLen max len o

/-! ### The encoder -/

/-- What `LB.ENCODE` works on: the match finder, `pos`, `run_start` and the output buffer. -/
structure LbEnc where
  mf : MatchFinder
  pos : Nat
  runStart : Nat
  out : Buffer
deriving DecidableEq, Repr

/-- Emit into the output buffer. -/
def LbEnc.emit (c : LbEnc) (op : Buffer → Res Buffer Unit) : Res LbEnc Unit :=
  (op c.out).inside fun o => { c with out := o }

/-- `for q from p to p + k − 1: MF.INSERT(I, q)` (R183). -/
def insertRun (cfg : Config) (I : List Byte) : Nat → Nat → MatchFinder → MatchFinder
  | 0, _, mf => mf
  | k + 1, p, mf => insertRun cfg I k (p + 1) (mfInsert cfg I p mf)

/-- The `repeat` of R183: insert the position, step on, and stop at the end of the input, at `LITMAX` bytes, or where a
match is found. -/
def literalScan (cfg : Config) (I : List Byte) : Nat → LbEnc → LbEnc
  | 0, c => c
  | fuel + 1, c =>
    let c1 := { c with mf := mfInsert cfg I c.pos c.mf, pos := c.pos + 1 }
    if c1.pos = I.length ∨ c1.pos - c1.runStart = cfg.litMax then c1
    else
      let r := mfMatchAt cfg I c1.pos c1.mf
      let c2 := { c1 with mf := r.2 }
      if r.1.isSome then c2 else literalScan cfg I fuel c2

/-- One turn of the `while` of R183 at a position where the search found `(d, len)`. -/
def encodeMatch (cfg : Config) (I : List Byte) (max d len : Nat) (c : LbEnc) : Res LbEnc Unit :=
  (c.emit (emitMatch cfg max d len)).andThen fun _ c =>
    .ok () { c with mf := insertRun cfg I len c.pos c.mf, pos := c.pos + len }

/-- One turn of the `while` of R183 at a position where the search found nothing. -/
def encodeLiteral (cfg : Config) (I : List Byte) (max : Nat) (c : LbEnc) : Res LbEnc Unit :=
  let c := literalScan cfg I cfg.litMax { c with runStart := c.pos }
  c.emit (emitLit max (slice I c.runStart (c.pos - c.runStart)))

/-- The `while` of R183: every turn advances `pos`, so `len(I)` turns are enough (R316). -/
def encodeLoop (cfg : Config) (I : List Byte) (max : Nat) : Nat → LbEnc → Res LbEnc Unit
  | 0, c => .ok () c
  | fuel + 1, c =>
    if c.pos < I.length then
      let r := mfMatchAt cfg I c.pos c.mf
      let c1 := { c with mf := r.2 }
      (match r.1 with
        | some (d, len) => encodeMatch cfg I max d len c1
        | none => encodeLiteral cfg I max c1).andThen fun _ c => encodeLoop cfg I max fuel c
    else .ok () c

/-- `LB.ENCODE` (R183) on the bytes `I` of the input buffer. -/
def lbEncode (cfg : Config) (I : List Byte) (max : Nat) (c : LbEnc) : Res LbEnc Unit :=
  ({ c with mf := mfClear c.mf, out := c.out.release }.emit (appendBytes max (leBytes I.length 8))).andThen fun _ c =>
    encodeLoop cfg I max I.length { c with pos := 0 }

/-- `LB.ENCODE(I)` on the state: the result is the other stage buffer. -/
def opLbEncode (cfg : Config) (i : StageBuf) (s : State) : Res State Unit :=
  (lbEncode cfg (s.buf i).data s.max
      { mf := s.mf, pos := s.pos, runStart := s.lb.runStart, out := s.buf i.other }).inside fun c =>
    { s.putBuf i.other c.out with mf := c.mf, pos := c.pos, lb := { s.lb with runStart := c.runStart } }

/-! ### The decoder -/

/-- What `LB.DECODE` works on: its registers and the output buffer. -/
structure LbDec where
  lb : Lookback
  out : Buffer
deriving DecidableEq, Repr

/-- `MalformedStreamError` (R273). -/
def LbDec.malformed (c : LbDec) : Res LbDec Unit := .stop (.raise .malformed) c

/-- The header read (R186), for the declared length `n`, and the fresh output buffer. -/
def lbHeader (S : List Byte) (max n : Nat) (c : LbDec) : Res LbDec Unit :=
  if S.length < 8 then c.malformed
  else
    let c := { c with lb := { c.lb with olen := n, ip := 8 } }
    if max < n then c.malformed else .ok () { c with out := c.out.release }

/-- A literal token of `r` bytes with `h` header bytes (R187). -/
def lbLiteral (S : List Byte) (max h r : Nat) (c : LbDec) : Res LbDec Unit :=
  if S.length < c.lb.ip + h then c.malformed
  else
    let c := { c with lb := { c.lb with ip := c.lb.ip + h } }
    if S.length < c.lb.ip + r then c.malformed
    else if c.lb.olen < c.out.len + r then c.malformed
    else ((appendBytes max (slice S c.lb.ip r) c.out).inside fun o => { c with out := o }).andThen fun _ c =>
      .ok () { c with lb := { c.lb with ip := c.lb.ip + r } }

/-- A distance field of class `t` (R188). -/
def lbDistance (S : List Byte) (t d : Nat) (c : LbDec) : Res LbDec Unit :=
  if S.length < c.lb.ip + t then c.malformed
  else .ok () { c with lb := { c.lb with ip := c.lb.ip + t, dist := d } }

/-- The match copy (R190): byte by byte, each source byte read after the byte before it was written (R310). -/
def matchCopy (max d : Nat) : Nat → Buffer → Res Buffer Unit
  | 0, o => .ok () o
  | k + 1, o => (appendByte max (o.data.getD (o.len - d) 0#8) o).andThen fun _ o => matchCopy max d k o

/-- A length field that the input ends inside is malformed; `ip` has passed those of its bytes that are there, as R188's lines
leave it, though after the error it may hold anything (U6; log entry 8). -/
def lbLengthCut (S : List Byte) (c : LbDec) : Res LbDec Unit :=
  { c with lb := { c.lb with ip := max c.lb.ip S.length } }.malformed

/-- A length field of `h` bytes, with the checks of the match token (R188, R189) and its copy (R190). -/
def lbLength (S : List Byte) (max h len : Nat) (c : LbDec) : Res LbDec Unit :=
  if S.length < c.lb.ip + h then lbLengthCut S c
  else
    let c := { c with lb := { c.lb with ip := c.lb.ip + h } }
    if c.lb.dist = 0 ∨ c.out.len < c.lb.dist then c.malformed
    else if c.lb.olen < c.out.len + len then c.malformed
    else (matchCopy max c.lb.dist len c.out).inside fun o => { c with out := o }

/-- The length field that follows a distance field (R188). -/
def lbLengthField (S : List Byte) (max : Nat) (c : LbDec) : Res LbDec Unit :=
  match decode .lbLen (S.drop c.lb.ip) with
  | .ok (.lenS len, _) => lbLength S max 1 len.toNat c
  | .ok (.lenL len, _) => lbLength S max 2 len.toNat c
  | _ => lbLengthCut S c

/-- One token (R187 to R190). -/
def lbToken (S : List Byte) (max : Nat) (c : LbDec) : Res LbDec Unit :=
  match decode .lbToken (S.drop c.lb.ip) with
  | .ok (.litS len, _) => lbLiteral S max 1 len.toNat c
  | .ok (.litL len, _) => lbLiteral S max 2 len.toNat c
  | .ok (.dist1 d, _) => (lbDistance S 1 d.toNat c).andThen fun _ c => lbLengthField S max c
  | .ok (.dist2 d, _) => (lbDistance S 2 d.toNat c).andThen fun _ c => lbLengthField S max c
  | .ok (.dist3 d, _) => (lbDistance S 3 d.toNat c).andThen fun _ c => lbLengthField S max c
  | .ok (.dist4 d, _) => (lbDistance S 4 d.toNat c).andThen fun _ c => lbLengthField S max c
  | .ok (.dist5 d, _) => (lbDistance S 5 d.toNat c).andThen fun _ c => lbLengthField S max c
  | _ => c.malformed

/-- The `while` of R185: every turn reads at least one byte of `S` or raises (R191), so `len(S) + 1` turns are enough. -/
def decodeLoop (S : List Byte) (max : Nat) : Nat → LbDec → Res LbDec Unit
  | 0, c => c.malformed
  | fuel + 1, c =>
    if c.out.len < c.lb.olen then (lbToken S max c).andThen fun _ c => decodeLoop S max fuel c
    else .ok () c

/-- `LB.DECODE` (R185) on the bytes `S` of the input buffer. -/
def lbDecode (S : List Byte) (max : Nat) (c : LbDec) : Res LbDec Unit :=
  (lbHeader S max (fromLE (S.take 8)) c).andThen fun _ c => decodeLoop S max (S.length + 1) c

/-- An operation of the lookback decoder on the state: it reads the stage buffer `src` and writes the other. -/
def onLbDec (op : List Byte → Nat → LbDec → Res LbDec Unit) (s : State) : Res State Unit :=
  (op (s.buf s.src).data s.max { lb := s.lb, out := s.buf s.src.other }).inside fun c =>
    { s.putBuf s.src.other c.out with lb := c.lb }

/-- `LB.DECODE(S)` on the state: the result is the other stage buffer. -/
def opLbDecode (src : StageBuf) (s : State) : Res State Unit := onLbDec lbDecode { s with src := src }

/-! ### Meanings -/

/-- `LB.EMIT_LIT` (R181). -/
def execLbEmitLit (o : StageBuf) (bytes : List Byte) (s : State) : Host.Outcome State Fault Refusal :=
  runUnit (opEmitLit Config.barph o bytes) s

/-- `LB.EMIT_MATCH` (R182). -/
def execLbEmitMatch (o : StageBuf) (d len : U64) (s : State) : Host.Outcome State Fault Refusal :=
  runUnit (onBuf o fun max => emitMatch Config.barph max d.toNat len.toNat) s

/-- `LB.ENCODE` (R183). -/
def execLbEncode (i : StageBuf) (s : State) : Host.Outcome State Fault Refusal := runUnit (opLbEncode Config.barph i) s

/-- `LB.DECODE` (R185). -/
def execLbDecode (src : StageBuf) (s : State) : Host.Outcome State Fault Refusal := runUnit (opLbDecode src) s

/-- `LB.HDR` (R186). -/
def execLbHdr (n : U64) (s : State) : Host.Outcome State Fault Refusal :=
  runUnit (onLbDec fun S max => lbHeader S max n.toNat) s

/-- `LIT.S` (R187). -/
def execLitS (len : BitVec 6) (s : State) : Host.Outcome State Fault Refusal :=
  runUnit (onLbDec fun S max => lbLiteral S max 1 len.toNat) s

/-- `LIT.L` (R187). -/
def execLitL (len : BitVec 14) (s : State) : Host.Outcome State Fault Refusal :=
  runUnit (onLbDec fun S max => lbLiteral S max 2 len.toNat) s

/-- `DIST1` (R188). -/
def execDist1 (d : BitVec 6) (s : State) : Host.Outcome State Fault Refusal :=
  runUnit (onLbDec fun S _ => lbDistance S 1 d.toNat) s

/-- `DIST2` (R188). -/
def execDist2 (d : BitVec 13) (s : State) : Host.Outcome State Fault Refusal :=
  runUnit (onLbDec fun S _ => lbDistance S 2 d.toNat) s

/-- `DIST3` (R188). -/
def execDist3 (d : BitVec 20) (s : State) : Host.Outcome State Fault Refusal :=
  runUnit (onLbDec fun S _ => lbDistance S 3 d.toNat) s

/-- `DIST4` (R188). -/
def execDist4 (d : BitVec 27) (s : State) : Host.Outcome State Fault Refusal :=
  runUnit (onLbDec fun S _ => lbDistance S 4 d.toNat) s

/-- `DIST5` (R188). -/
def execDist5 (d : BitVec 34) (s : State) : Host.Outcome State Fault Refusal :=
  runUnit (onLbDec fun S _ => lbDistance S 5 d.toNat) s

/-- `DIST.RESERVED` (R104, R188): the decoder raises `MalformedStreamError`. -/
def execDistReserved (s : State) : Host.Outcome State Fault Refusal :=
  runUnit (fun s => .stop (.raise .malformed) s) s

/-- `LEN.S` (R188 to R190). -/
def execLenS (len : BitVec 7) (s : State) : Host.Outcome State Fault Refusal :=
  runUnit (onLbDec fun S max => lbLength S max 1 len.toNat) s

/-- `LEN.L` (R188 to R190). -/
def execLenL (len : BitVec 15) (s : State) : Host.Outcome State Fault Refusal :=
  runUnit (onLbDec fun S max => lbLength S max 2 len.toNat) s

end Sys2Proof.Machine
end

