-- ==== Sys2Proof/Machine/Container.lean ====
section
/-! DEFINITION. The container pipeline (spec 45_container.md R247 to R252): the checksum, `CON.COMPRESS` and
`CON.DECOMPRESS`; and the meanings of `CK.SUM`, of the two and of the container header. Which stage buffer holds which
intermediate result is not observable (R35): the first one is `SB0`. -/

namespace Sys2Proof.Machine

/-- One step of the checksum (R247): `pos` as a number, of which the low 32 bits enter. -/
def ckStep (cfg : Config) (acc : U32) (pos : Nat) (b : Byte) : U32 := (acc ^^^ BitVec.ofNat 32 (b.toNat + pos)) * cfg.ckMul

/-- The loop of `CK.SUM` from position `pos` on (R247). -/
def ckLoop (cfg : Config) : List Byte → Nat → U32 → U32
  | [], _, acc => acc
  | b :: bs, pos, acc => ckLoop cfg bs (pos + 1) (ckStep cfg acc pos b)

/-- `CK.SUM(B)` (R247). -/
def ckSum (cfg : Config) (bs : List Byte) : U32 := ckLoop cfg bs 0 cfg.ckSeed

/-- `CK.SUM` on the state: `acc` and `pos` (R33, R247). -/
def opCkSum (cfg : Config) (bs : List Byte) (s : State) : State :=
  { s with acc := ckSum cfg bs, pos := afterLoop s.pos 0 bs.length (bs.length - 1) }

/-- A fresh buffer that holds a copy of `bs` (R248, R249). -/
def opCopy (b : StageBuf) (bs : List Byte) (s : State) : Res State Unit :=
  onBuf b (fun max => appendBytes max bs) (s.releaseBuf b)

/-- A stage that replaces its input buffer by its output: the operation, then the release of the input (R35, R248); a
stage that is off passes its buffer on (R28). The result names the buffer that holds the output. -/
def opStage (on : Bool) (op : StageBuf → State → Res State Unit) (b : StageBuf) (s : State) : Res State StageBuf :=
  if on then (op b s).andThen fun _ s => .ok b.other (s.releaseBuf b) else .ok b s

/-! ### Compression -/

/-- The bytes of a container (R120, R121, R248). -/
def containerBytes (cfg : Config) (lb huf : Bool) (delta : Byte) (ck : U32) (payload : List Byte) : List Byte :=
  cfg.magic ++ [delta, flagByte lb, flagByte huf] ++ leBytes ck.toNat 4 ++ payload

/-- Phase `C_EMIT` of R248: the container's fields are appended to the fresh `OUT` one after another. -/
def opEmit (cfg : Config) (lb huf : Bool) (delta : Byte) (payload : List Byte) (s : State) : Res State Unit :=
  onOut (fun max o =>
    (appendBytes max cfg.magic o.release).andThen fun _ o =>
      (appendByte max delta o).andThen fun _ o =>
        (appendByte max (flagByte lb) o).andThen fun _ o =>
          (appendByte max (flagByte huf) o).andThen fun _ o =>
            (appendBytes max (leBytes s.acc.toNat 4) o).andThen fun _ o => appendBytes max payload o) s

/-- `CON.COMPRESS(I, lb, huf, delta)` (R248), `I` being `IN[0..IN_LEN)` and the result `OUT`. -/
def opConCompress (cfg : Config) (lb huf : Bool) (delta : Byte) (s : State) : Res State Unit :=
  let s := opCkSum cfg s.input { s with phase := .cCksum }
  let s := { s with cksum := s.acc, phase := .cDelta }
  (opCopy .sb0 s.input s).andThen fun _ s =>
    let s := opDeltaForward .sb0 delta s
    (opStage lb (opLbEncode cfg) .sb0 { s with phase := .cLb }).andThen fun b s =>
      (opStage huf opHufEncode b { s with phase := .cHuf }).andThen fun b s =>
        (opEmit cfg lb huf delta (s.buf b).data { s with phase := .cEmit }).andThen fun _ s => .ok () (s.releaseBuf b)

/-! ### Decompression -/

/-- The header parse once the magic is found (R250, R251): the flags, the stored checksum, and the payload copied into the
fresh `SB0`. A header met on its own leaves `PHASE` at `D_HEADER`, by the model's choice: R28 has a phase only while a command is
in progress (log entry 15). -/
def opHeader (cfg : Config) (delta lb huf : Byte) (ck : U32) (s : State) : Res State Unit :=
  let s := { s with phase := .dHeader, src := .sb0 }
  if s.inLen.toNat < cfg.magic.length + 7 then .stop (.raise .malformed) s
  else
    let s := { s with flDelta := delta, flLb := flagOn lb, flHuf := flagOn huf, cksumStored := ck }
    opCopy .sb0 (s.input.drop (cfg.magic.length + 7)) s

/-- The bytes of `IN` that the header parse looks at. -/
def headerBytes (cfg : Config) (s : State) : List Byte := Memory.range s.inMem 0 (min s.inLen.toNat (cfg.magic.length + 7))

/-- The error of a container header that cannot be decoded (R250). -/
def headerErr : DecodeErr → Err
  | .badMagic => .format
  | .truncated | .unusedSelect => .malformed

/-- Phase `D_HEADER` of R249. -/
def opParse (cfg : Config) (s : State) : Res State Unit :=
  let s := { s with phase := .dHeader }
  match decodeCon cfg (headerBytes cfg s) with
  | .ok (.con delta lb huf ck, _) => opHeader cfg delta lb huf ck s
  | .ok _ => .stop (.raise .malformed) s
  | .error e => .stop (.raise (headerErr e)) s

/-- Hand the stage buffer `b` over as the result `OUT` (R36: ownership transfers); `b` takes the released buffer of
`OUT`. -/
def opDeliver (b : StageBuf) (s : State) : State := { s.putBuf b s.out.release with out := s.buf b }

/-- Whether a container passes the checksum test (R252): the checksums agree, or, where the parameter `ZERO_CK_SKIPS` asks
for it, the stored one is 0. -/
def checksumPasses (cfg : Config) (acc stored : U32) : Bool := decide (acc = stored) || (cfg.zeroCkSkips && decide (stored = 0#32))

/-- `CON.DECOMPRESS(C)` (R249), `C` being `IN[0..IN_LEN)` and the result `OUT`. -/
def opConDecompress (cfg : Config) (s : State) : Res State Unit :=
  (opParse cfg s).andThen fun _ s =>
    (opStage s.flHuf (opHufDecode cfg) .sb0 { s with phase := .dHuf }).andThen fun b s =>
      (opStage s.flLb opLbDecode b { s with phase := .dLb }).andThen fun b s =>
        let s := opDeltaInverse b s.flDelta { s with phase := .dDelta }
        let s := opCkSum cfg (s.buf b).data { s with phase := .dCksum }
        let s := { s with cksum := s.acc }
        if checksumPasses cfg s.acc s.cksumStored then .ok () (opDeliver b s) else .stop (.raise .checksum) s

/-! ### Meanings -/

/-- `CK.SUM` (R247). -/
def execCkSum (src : SumSrc) (s : State) : Host.Outcome State Fault Refusal :=
  runUnit (fun s => .ok () ((opCkSum Config.barph (s.sumBytes src) s).answer (.value (ckSum Config.barph (s.sumBytes src)).toNat))) s

/-- `CON.COMPRESS` (R248). -/
def execConCompress (lb huf : Bool) (delta : Byte) (s : State) : Host.Outcome State Fault Refusal :=
  runUnit (opConCompress Config.barph lb huf delta) s

/-- `CON.DECOMPRESS` (R249). -/
def execConDecompress (s : State) : Host.Outcome State Fault Refusal := runUnit (opConDecompress Config.barph) s

/-- `CON` (R250): the container header met by the header parse. -/
def execCon (delta lb huf : Byte) (ck : U32) (s : State) : Host.Outcome State Fault Refusal :=
  runUnit (opHeader Config.barph delta lb huf ck) s

end Sys2Proof.Machine
end

