-- ==== Sys2Proof/Machine/Command.lean ====
section
/-! DEFINITION. The host commands (spec 45_container.md R240 to R246). A command is one transition (R7): `STATE` is `BUSY`
only inside it. -/

namespace Sys2Proof.Machine

/-- The start of a COMPRESS (R241). -/
def startCompress (lb huf : Bool) (delta : Byte) (s : State) : State :=
  { s with
    done := false
    err := .none
    outLen := 0#64
    seq := .busy
    flDelta := delta
    flLb := lb
    flHuf := huf }

/-- The start of a DECOMPRESS (R242). -/
def startDecompress (s : State) : State :=
  { s with done := false, err := .none, outLen := 0#64, cksum := 0#32, cksumStored := 0#32, seq := .busy }

/-- The end of a command that raised nothing (R241, R242). -/
def endCommand (s : State) : State :=
  { s with outLen := BitVec.ofNat 64 s.out.len, done := true, seq := .idle, phase := .idle }

/-- A command that reads `IN`: refused when `IN_LEN > MAXBUF` (R24, R245), else run to its end. -/
def runCommand (start : State → State) (op : State → Res State Unit) (s : State) : Host.Outcome State Fault Refusal :=
  whenIdle s
    (if s.max < s.inLen.toNat then .next (illegalCommand s)
      else finish ((op (start s)).andThen fun _ s => .ok () (endCommand s)))

/-- A reserved `OP` (R93, R245). -/
def runReserved (s : State) : Host.Outcome State Fault Refusal := whenIdle s (.next (illegalCommand s))

/-! ### Meanings -/

/-- `NOP` (R243): nothing changes, in every `STATE`. -/
def execNop (s : State) : Host.Outcome State Fault Refusal := .next s

/-- `COMPRESS` (R241). -/
def execCompress (lb huf : Bool) (delta : Byte) (s : State) : Host.Outcome State Fault Refusal :=
  runCommand (startCompress lb huf delta) (opConCompress Config.barph lb huf delta) s

/-- `DECOMPRESS` (R242). -/
def execDecompress (s : State) : Host.Outcome State Fault Refusal := runCommand startDecompress (opConDecompress Config.barph) s

/-- `RESET` (R244, R301): accepted in `IDLE` and in `FATAL`. -/
def execReset (s : State) : Host.Outcome State Fault Refusal :=
  match s.seq with
  | .idle | .fatal => .next (resetBlock s)
  | .busy => .next s

/-- `RESERVED.OP3` (R245). -/
def execReservedOp3 (s : State) : Host.Outcome State Fault Refusal := runReserved s

/-- `RESERVED.OP4` (R245). -/
def execReservedOp4 (s : State) : Host.Outcome State Fault Refusal := runReserved s

/-- `RESERVED.OP5` (R245). -/
def execReservedOp5 (s : State) : Host.Outcome State Fault Refusal := runReserved s

/-- `RESERVED.OP6` (R245). -/
def execReservedOp6 (s : State) : Host.Outcome State Fault Refusal := runReserved s

/-- `RESERVED.OP7` (R245). -/
def execReservedOp7 (s : State) : Host.Outcome State Fault Refusal := runReserved s

/-- `RESERVED.OP8` (R245). -/
def execReservedOp8 (s : State) : Host.Outcome State Fault Refusal := runReserved s

/-- `RESERVED.OP9` (R245). -/
def execReservedOp9 (s : State) : Host.Outcome State Fault Refusal := runReserved s

/-- `RESERVED.OP10` (R245). -/
def execReservedOp10 (s : State) : Host.Outcome State Fault Refusal := runReserved s

/-- `RESERVED.OP11` (R245). -/
def execReservedOp11 (s : State) : Host.Outcome State Fault Refusal := runReserved s

/-- `RESERVED.OP12` (R245). -/
def execReservedOp12 (s : State) : Host.Outcome State Fault Refusal := runReserved s

/-- `RESERVED.OP13` (R245). -/
def execReservedOp13 (s : State) : Host.Outcome State Fault Refusal := runReserved s

/-- `RESERVED.OP14` (R245). -/
def execReservedOp14 (s : State) : Host.Outcome State Fault Refusal := runReserved s

end Sys2Proof.Machine
end

