-- ==== Sys2Proof/Machine/Dispatch.lean ====
section
/-! DEFINITION. One arm per operation, each one call of its meaning. -/

namespace Sys2Proof.Machine

def exec (i : Instr) (s : State) : Host.Outcome State Fault Refusal :=
  match i with
  | .nop => Sys2Proof.Machine.execNop s
  | .compress lb huf delta => Sys2Proof.Machine.execCompress lb huf delta s
  | .decompress => Sys2Proof.Machine.execDecompress s
  | .reservedOp3 => Sys2Proof.Machine.execReservedOp3 s
  | .reservedOp4 => Sys2Proof.Machine.execReservedOp4 s
  | .reservedOp5 => Sys2Proof.Machine.execReservedOp5 s
  | .reservedOp6 => Sys2Proof.Machine.execReservedOp6 s
  | .reservedOp7 => Sys2Proof.Machine.execReservedOp7 s
  | .reservedOp8 => Sys2Proof.Machine.execReservedOp8 s
  | .reservedOp9 => Sys2Proof.Machine.execReservedOp9 s
  | .reservedOp10 => Sys2Proof.Machine.execReservedOp10 s
  | .reservedOp11 => Sys2Proof.Machine.execReservedOp11 s
  | .reservedOp12 => Sys2Proof.Machine.execReservedOp12 s
  | .reservedOp13 => Sys2Proof.Machine.execReservedOp13 s
  | .reservedOp14 => Sys2Proof.Machine.execReservedOp14 s
  | .reset => Sys2Proof.Machine.execReset s
  | .gbReserve b extra => Sys2Proof.Machine.execGbReserve b extra s
  | .gbAppendByte b v => Sys2Proof.Machine.execGbAppendByte b v s
  | .gbAppendBytes b x => Sys2Proof.Machine.execGbAppendBytes b x s
  | .gbAppendBit b bit => Sys2Proof.Machine.execGbAppendBit b bit s
  | .gbAppendBits b value width => Sys2Proof.Machine.execGbAppendBits b value width s
  | .gbReadBits b width => Sys2Proof.Machine.execGbReadBits b width s
  | .gbReadBytes b a n => Sys2Proof.Machine.execGbReadBytes b a n s
  | .mfReset => Sys2Proof.Machine.execMfReset s
  | .mfInsert j p => Sys2Proof.Machine.execMfInsert j p s
  | .mfFindBest j p => Sys2Proof.Machine.execMfFindBest j p s
  | .mfMatchAt j p => Sys2Proof.Machine.execMfMatchAt j p s
  | .lbEmitLit o x => Sys2Proof.Machine.execLbEmitLit o x s
  | .lbEmitMatch o d len => Sys2Proof.Machine.execLbEmitMatch o d len s
  | .lbEncode j => Sys2Proof.Machine.execLbEncode j s
  | .lbDecode x => Sys2Proof.Machine.execLbDecode x s
  | .hufCount j => Sys2Proof.Machine.execHufCount j s
  | .hufBuild => Sys2Proof.Machine.execHufBuild s
  | .hufAssign => Sys2Proof.Machine.execHufAssign s
  | .hufWriteTree o j => Sys2Proof.Machine.execHufWriteTree o j s
  | .hufEncode j => Sys2Proof.Machine.execHufEncode j s
  | .hufReadTree x => Sys2Proof.Machine.execHufReadTree x s
  | .hufDecode x => Sys2Proof.Machine.execHufDecode x s
  | .dfForward b d => Sys2Proof.Machine.execDfForward b d s
  | .dfInverse b d => Sys2Proof.Machine.execDfInverse b d s
  | .ckSum src => Sys2Proof.Machine.execCkSum src s
  | .conCompress lb huf delta => Sys2Proof.Machine.execConCompress lb huf delta s
  | .conDecompress => Sys2Proof.Machine.execConDecompress s
  | .lbHdr n => Sys2Proof.Machine.execLbHdr n s
  | .litS len => Sys2Proof.Machine.execLitS len s
  | .litL len => Sys2Proof.Machine.execLitL len s
  | .dist1 d => Sys2Proof.Machine.execDist1 d s
  | .dist2 d => Sys2Proof.Machine.execDist2 d s
  | .dist3 d => Sys2Proof.Machine.execDist3 d s
  | .dist4 d => Sys2Proof.Machine.execDist4 d s
  | .dist5 d => Sys2Proof.Machine.execDist5 d s
  | .distReserved => Sys2Proof.Machine.execDistReserved s
  | .lenS len => Sys2Proof.Machine.execLenS len s
  | .lenL len => Sys2Proof.Machine.execLenL len s
  | .hufHdr n => Sys2Proof.Machine.execHufHdr n s
  | .nodeI => Sys2Proof.Machine.execNodeI s
  | .nodeL v => Sys2Proof.Machine.execNodeL v s
  | .sym => Sys2Proof.Machine.execSym s
  | .con delta lb huf cksum => Sys2Proof.Machine.execCon delta lb huf cksum s

end Sys2Proof.Machine
end

