-- ==== Sys2Proof/Machine/Fetch.lean ====
section
/-! DEFINITION. Where the next operation's bytes come from: the block has no program counter (spec 10_state.md R28) and
fetches no instructions; a command arrives as a register write (R240), a unit operation from the sequencer (R92), an
element of a stream at the cursor of its decoder (R95, R106, R111), a container header at the start of `IN` (R250). And
the moves of the host that are no command (60_exceptions.md R282). -/

namespace Sys2Proof.Machine

/-- The `n` bits from bit number `r` on, moved to bit 0 of a byte sequence of `n` zero-filled bits or more. -/
def realign (bs : List Byte) (r n : Nat) : List Byte := leBytes (bitsValue bs r n) ((n + 7) / 8)

/-- The bytes at which the element of the given place is met. -/
def wireBytes (p : Place) (s : State) : List Byte :=
  let b := s.buf s.src
  match p with
  | .lbHdr => b.data
  | .lbToken | .lbLen => b.data.drop s.lb.ip
  | .hufHdr => b.data
  | .hufNode => if b.rbits < 8 * b.len then realign b.data b.rbits 9 else []
  | .hufSym => []
  | .con => headerBytes Config.barph s

/-- The write of a register (R21, R282): `CMD` is not here, it is a command; `IN_LEN` is stored; every other index is
read-only or reserved and the write is ignored. -/
def writeReg (idx : Nat) (v : U64) (s : State) : State :=
  match idx with
  | 2 => { s with inLen := v }
  | _ => s

/-- The host gets a value (R282). -/
def State.deliver (s : State) (v : U64) : State := { s with hostData := v }

/-- The host gets a byte the spec does not fix (U8). -/
def State.deliverFree (s : State) : State :=
  { s with hostData := (Config.freeByte s.freeReads).zeroExtend 64, freeReads := s.freeReads + 1 }

/-- A host move other than a `CMD` write (R282), where R282 allows it. A byte of `OUT` is one of its data below `OUT_LEN`; at
an index that `OUT_LEN` covers and the data does not, which only a container operation run on its own leaves (log entry 15),
the byte is free as at every other index that holds none (U5, U8; log entry 9). -/
def hostMove (m : HostMove) (s : State) : Host.Outcome State Fault Refusal :=
  match m with
  | .writeIn i v =>
    if s.seq = .busy ∨ s.max ≤ i.toNat then .refused .notAHostMove
    else .next { s with inMem := Memory.write s.inMem i.toNat v }
  | .writeReg idx v => if s.seq = .busy ∧ idx = 2 then .refused .notAHostMove else .next (writeReg idx v s)
  | .readReg idx => .next (s.deliver (s.readReg idx))
  | .readOut i =>
    if s.seq = .busy then .refused .notAHostMove
    else if i.toNat < s.outLen.toNat ∧ i.toNat < s.out.len then .next (s.deliver ((s.out.data.getD i.toNat 0#8).zeroExtend 64))
    else .next s.deliverFree
  | .readIn _ => if s.seq = .busy then .refused .notAHostMove else .next s.deliverFree
  | .hardwareReset => .next (resetBlock s)

/-- A stage buffer that holds the given bytes, its read cursor at bit 0. -/
def Buffer.holding (b : Buffer) (bs : List Byte) : Buffer :=
  { data := bs, cap := growCap 64 bs.length b.cap, wcur := { byte := bs.length, bit := 0 }, rcur := {} }

/-- The state with an element's bytes where the decoder of the given place meets it, and that place the next input. -/
def placeWire (p : Place) (bs : List Byte) (s : State) : State :=
  match p with
  | .con =>
    { s with
      inMem := Memory.writeAll [] 0 bs
      inLen := BitVec.ofNat 64 bs.length
      queue := .wire p :: s.queue }
  | .lbHdr | .lbToken | .lbLen | .hufHdr | .hufNode | .hufSym =>
    { s.putBuf s.src ((s.buf s.src).holding bs) with
      lb := { s.lb with ip := 0 }
      queue := .wire p :: s.queue }

end Sys2Proof.Machine
end

