-- ==== Sys2Proof/Machine/Input.lean ====
section
/-! DEFINITION. What the next input does: an element met by its decoder, a unit operation issued by the sequencer, a move of
the host (spec 60_exceptions.md R282, 45_container.md R240, 30_encoding.md R92). -/

namespace Sys2Proof.Machine

/-- An element that its decoder cannot read: the error of its format, with what the element's rule did before it. -/
def unreadable (p : Place) (e : DecodeErr) (s : State) : Res State Unit :=
  match p with
  | .lbLen => onLbDec (fun S _ => lbLengthCut S) s
  | .hufNode => onHufNode (readNoNode Config.barph) s
  | .lbHdr | .lbToken | .hufHdr | .hufSym | .con => .stop (.raise (headerErr e)) s

/-- Act on what a decoder read: run the operation; an element its decoder cannot read raises the error of its format,
unless the block has stopped in `FATAL`. -/
def stepWire (p : Place) (s : State) : Host.Outcome State Fault Refusal :=
  match decode p.space (wireBytes p s) with
  | .ok (i, _) => exec i s
  | .error e => runUnit (unreadable p e) s

/-- Act on what the sequencer issued (R92): the operation its select code names; an unused code names none. -/
def stepOp (bytes : List Byte) (s : State) : Host.Outcome State Fault Refusal :=
  match decode .uop bytes with
  | .ok (i, _) => exec i s
  | .error _ => .refused .notAnOperation

/-- Act on a host move (R282): a write of register index 0 is a command (R240), its value the low 32 bits. -/
def stepHost (m : HostMove) (s : State) : Host.Outcome State Fault Refusal :=
  match m with
  | .writeReg 0 v => exec (decodeCmd (v.truncate 32)) s
  | m => hostMove m s

end Sys2Proof.Machine
end

