-- ==== Sys2Proof/Machine/Step.lean ====
section
/-! DEFINITION. One step: the next input is taken and acted on. With no input the block does nothing (spec
70_reset_and_hazards.md R300: it waits for a `CMD` write). -/

namespace Sys2Proof.Machine

/-- One step of the machine. -/
def step (s : State) : Host.Outcome State Fault Refusal :=
  match s.queue with
  | [] => .next s
  | m :: rest =>
    let s := { s with queue := rest }
    match m with
    | .host m => stepHost m s
    | .op bytes => stepOp bytes s
    | .wire p => stepWire p s

/-- The state with the operation of a table row placed so that the next step runs it: a command word as a write of `CMD`,
a unit operation as the sequencer's next issue, an element of a stream or of a container at its decoder's cursor. -/
def State.withFetchWord (s : State) (nbits w : Nat) : State :=
  match tableSpace nbits w with
  | none => s
  | some .cmd => { s with queue := .host (.writeReg 0 (BitVec.ofNat 64 w)) :: s.queue }
  | some .uop => { s with queue := .op (tableBytes nbits w) :: s.queue }
  | some .lbHdr => placeWire .lbHdr (tableBytes nbits w) s
  | some .lbToken => placeWire .lbToken (tableBytes nbits w) s
  | some .lbLen => placeWire .lbLen (tableBytes nbits w) s
  | some .hufHdr => placeWire .hufHdr (tableBytes nbits w) s
  | some .hufNode => placeWire .hufNode (tableBytes nbits w) s
  | some .hufSym => placeWire .hufSym (tableBytes nbits w) s
  | some .con => placeWire .con (tableBytes nbits w) s

end Sys2Proof.Machine
end

