-- ==== Sys2Proof/Safety.lean ====
section
/-! DEFINITION. What the statements speak in: the bits of a buffer, the cursor invariant, the meaning of a lookback stream
(spec 42_lookback_codec.md R180), the trees of a Huffman stream (43_huffman.md R204 to R209), and the invariants that every
step keeps. Nothing here is called by the machine. -/

namespace Sys2Proof.Machine

/-! ### Buffers and bits -/

/-- The cursor invariant (R140): a write cursor at a byte boundary stands at the end; one inside a byte stands in the last
byte, whose unwritten bits are 0. -/
abbrev Buffer.CursorOk (b : Buffer) : Prop :=
  b.wcur.bit < 8 ∧
  (b.wcur.bit = 0 → b.wcur.byte = b.len) ∧
  (b.wcur.bit ≠ 0 → b.wcur.byte + 1 = b.len ∧
    ∀ k, k < 8 → b.wcur.bit ≤ k → (b.data.getD b.wcur.byte 0#8).getLsbD k = false)

/-- A fresh buffer (R140), whatever its capacity (R36: it never shrinks). -/
abbrev Buffer.Fresh (b : Buffer) : Prop := b.data = [] ∧ b.wcur = {} ∧ b.rcur = {}

/-- The buffer `v` is `b` with the given bits appended at its write cursor: its older bits and its read cursor are as they
were, and every bit after the new ones is 0 (R63, R146, R147). -/
def Buffer.BitsAppended (b v : Buffer) (bits : List Bool) : Prop :=
  v.wbits = b.wbits + bits.length ∧ v.CursorOk ∧ v.rcur = b.rcur ∧
  ∀ k, bitAt v.data k = if k < b.wbits then bitAt b.data k else bits.getD (k - b.wbits) false

/-- The bits of the stream from bit number `r` on are the given ones, all of them inside the data (R63). -/
abbrev BitsAt (data : List Byte) (r : Nat) (bits : List Bool) : Prop :=
  r + bits.length ≤ 8 * data.length ∧ ∀ k, k < bits.length → bitAt data (r + k) = bits.getD k false

/-- The data ends inside the given bits, which stand from bit number `r` on as far as it goes (R63, R66). -/
abbrev BitsCut (data : List Byte) (r : Nat) (bits : List Bool) : Prop :=
  8 * data.length < r + bits.length ∧
  ∀ k, k < bits.length → r + k < 8 * data.length → bitAt data (r + k) = bits.getD k false

/-- The writes `GB.APPEND_BITS(B, v, w)` of a list of pairs, in order (R150). -/
def appendFields (max : Nat) : List (U64 × Nat) → Buffer → Res Buffer Unit
  | [], b => .ok () b
  | (v, w) :: fs, b => (appendBits max v.toNat w b).andThen fun _ b => appendFields max fs b

/-- The reads `GB.READ_BITS(B, w)` of a list of widths, in order, and what they return (R150). -/
def readFields : List Nat → Buffer → Res Buffer (List Nat)
  | [], b => .ok [] b
  | w :: ws, b => (readBits w b).andThen fun v b => (readFields ws b).andThen fun vs b => .ok (v :: vs) b

/-! ### The match finder -/

/-- The candidates of a search at `p` (R164): the valid slots of the bucket of its prefix, at an earlier position and no
farther than the largest distance. -/
def MatchFinder.Candidate (mf : MatchFinder) (cfg : Config) (I : List Byte) (p c : Nat) : Prop :=
  c ∈ (mf.bucket cfg (mfHash cfg I p)).newestFirst cfg ∧ c < p ∧ p - c ≤ cfg.distMax 5

/-- A common part of length `len` of the input from two positions on, within the cap and the input (R165). -/
def Matches (cfg : Config) (I : List Byte) (c p len : Nat) : Prop :=
  len ≤ cfg.maxLen ∧ p + len ≤ I.length ∧ ∀ k, k < len → I.getD (c + k) 0#8 = I.getD (p + k) 0#8

/-! ### The lookback stream -/

/-- A token of a lookback stream (R94), with the form of each of its fields: a literal run, whose header is long or short;
a match, with the class of its distance field and a length field that is long or short. -/
inductive Token where
  | literal (long : Bool) (bytes : List Byte)
  | copy (cls dist : Nat) (long : Bool) (len : Nat)
deriving DecidableEq, Repr

/-- The token's fields lie in the ranges of their forms (R97 to R99, R102). -/
def Token.wf : Token → Bool
  | .literal long bs => decide (bs.length ≤ if long then Config.barph.litMax else 63)
  | .copy cls d long len =>
    decide (1 ≤ cls ∧ cls ≤ 5 ∧ d ≤ Config.barph.distMax cls ∧ len ≤ if long then Config.barph.maxLen else 127)

/-- The bytes of the token (R97 to R99, R102). -/
def Token.bytes : Token → List Byte
  | .literal false bs => encode (.litS (BitVec.ofNat 6 bs.length)) ++ bs
  | .literal true bs => encode (.litL (BitVec.ofNat 14 bs.length)) ++ bs
  | .copy cls d false len => encDist cls d ++ encode (.lenS (BitVec.ofNat 7 len))
  | .copy cls d true len => encDist cls d ++ encode (.lenL (BitVec.ofNat 15 len))

/-- The form the encoder chooses (R103), of a token it may write (R184 (b), (c)). -/
def Token.canonical : Token → Bool
  | .literal long bs => decide (1 ≤ bs.length ∧ (long = true ↔ 63 < bs.length))
  | .copy cls d long len => decide (cls = distClass Config.barph d ∧ (long = true ↔ 127 < len) ∧ tokenCost Config.barph d len < len)

/-- Append, `n` times, the byte that lies `d` places before the end (R180). -/
def repeatBack (d : Nat) : Nat → List Byte → List Byte
  | 0, out => out
  | n + 1, out => repeatBack d n (out ++ [out.getD (out.length - d) 0#8])

/-- What a token does to the output; a distance that is 0 or reaches before the output's start means nothing (R180,
R189). -/
def Token.apply (t : Token) (out : List Byte) : Option (List Byte) :=
  match t with
  | .literal _ bs => some (out ++ bs)
  | .copy _ d _ len => if 1 ≤ d ∧ d ≤ out.length then some (repeatBack d len out) else none

/-- The meaning of a sequence of tokens, from a given output on (R180). -/
def tokensMeaning : List Token → List Byte → Option (List Byte)
  | [], out => some out
  | t :: ts, out => (t.apply out).bind (tokensMeaning ts)

/-- What `LB.ENCODE` finds at position `p` (R183): the search over a table into which `MF.RESET` and then the insertion of every
earlier position, in increasing order, have been made (R313). -/
def searchAt (cfg : Config) (I : List Byte) (p : Nat) : Option (Nat × Nat) :=
  (mfMatchAt cfg I p (insertRun cfg I p 0 {})).1

/-- The greedy parse of R183 from position `p` on: a match token wherever the search finds a match; elsewhere a literal token,
whose run takes every position at which the search finds nothing and stops at the end of the input, at `LITMAX` bytes, or
where the search finds a match. -/
def GreedyFrom (cfg : Config) (I : List Byte) : Nat → List Token → Prop
  | p, [] => p = I.length
  | p, .copy _ d _ len :: ts => searchAt cfg I p = some (d, len) ∧ GreedyFrom cfg I (p + len) ts
  | p, .literal _ bs :: ts =>
    bs = slice I p bs.length ∧ 1 ≤ bs.length ∧ bs.length ≤ cfg.litMax ∧ p + bs.length ≤ I.length ∧
    (∀ k, k < bs.length → searchAt cfg I (p + k) = none) ∧
    (p + bs.length = I.length ∨ bs.length = cfg.litMax ∨ (searchAt cfg I (p + bs.length)).isSome = true) ∧
    GreedyFrom cfg I (p + bs.length) ts

/-- A lookback stream (R94, R95). -/
def lbStream (n : Nat) (ts : List Token) : List Byte := leBytes n 8 ++ (ts.map Token.bytes).flatten

/-- What `LB.DECODE` cannot go on with when the output is `out`, shorter than the declared length `n`, and `rest` is what is left
of the stream: it ends before the next token or inside it (R187, R188, R191 (b); R273 causes 9, 10, 11, 14, 15); that token's
distance reaches outside the output or the token would pass the declared length (R187, R189; causes 12, 16, 17); or it begins
with the reserved tag (R104; cause 13). -/
def BrokenToken (n : Nat) (out rest : List Byte) : Prop :=
  (∃ t k, Token.wf t = true ∧ k < t.bytes.length ∧ rest = t.bytes.take k) ∨
  (∃ t trailing, Token.wf t = true ∧ rest = t.bytes ++ trailing ∧ ∀ o, t.apply out = some o → n < o.length) ∨
  ∃ (b : Byte) (trailing : List Byte), rest = b :: trailing ∧ b.extractLsb' 0 6 = 0x3F#6

/-- A malformed lookback stream: no room for its header, a declared length beyond the bound (R186; R273 causes 7, 8), or tokens
that are in order up to a broken one. -/
def BrokenStream (max : Nat) (S : List Byte) : Prop :=
  S.length < 8 ∨
  (∃ n rest, max < n ∧ n < 2 ^ 64 ∧ S = leBytes n 8 ++ rest) ∨
  ∃ n ts out rest, n ≤ max ∧ (∀ t ∈ ts, t.wf = true) ∧ tokensMeaning ts [] = some out ∧ out.length < n ∧
    S = lbStream n ts ++ rest ∧ BrokenToken n out rest

/-- The distance field of the least class that holds `d` (R101). -/
def distField (d : Nat) : Instr :=
  match distClass Config.barph d with
  | 1 => .dist1 (BitVec.ofNat 6 d)
  | 2 => .dist2 (BitVec.ofNat 13 d)
  | 3 => .dist3 (BitVec.ofNat 20 d)
  | 4 => .dist4 (BitVec.ofNat 27 d)
  | _ => .dist5 (BitVec.ofNat 34 d)

/-- The length field of the form the encoder chooses (R103). -/
def lenField (len : Nat) : Instr :=
  if len ≤ 127 then .lenS (BitVec.ofNat 7 len) else .lenL (BitVec.ofNat 15 len)

/-- The literal header of the form the encoder chooses (R103). -/
def litField (len : Nat) : Instr :=
  if len ≤ 63 then .litS (BitVec.ofNat 6 len) else .litL (BitVec.ofNat 14 len)

/-! ### The Huffman tree -/

/-- A full binary tree over byte values (R39, R204). -/
inductive CodeTree where
  | leaf (v : Byte)
  | node (l r : CodeTree)
deriving DecidableEq, Repr

/-- The serialized tree (R207), in stream order. -/
def CodeTree.bits : CodeTree → List Bool
  | .leaf v => false :: lowBits v.toNat 8
  | .node l r => true :: (l.bits ++ r.bits)

/-- The number of nodes. -/
def CodeTree.size : CodeTree → Nat
  | .leaf _ => 1
  | .node l r => 1 + l.size + r.size

/-- The length of the longest path. -/
def CodeTree.height : CodeTree → Nat
  | .leaf _ => 0
  | .node l r => 1 + max l.height r.height

/-- The leaves with the paths to them, `false` for a left edge, from left to right (R205). -/
def CodeTree.paths : CodeTree → List (Byte × List Bool)
  | .leaf v => [(v, [])]
  | .node l r => l.paths.map (fun p => (p.1, false :: p.2)) ++ r.paths.map (fun p => (p.1, true :: p.2))

/-- The code of every leaf (R205), the single leaf's being the one bit 0 (R206). -/
def CodeTree.codes : CodeTree → List (Byte × List Bool)
  | .leaf v => [(v, [false])]
  | t => t.paths

/-- The bits the decoder reads as byte value `v` (R210): a path to a leaf of that value; with a single leaf, any one
bit. -/
def CodeTree.Reads (t : CodeTree) (v : Byte) (bits : List Bool) : Prop :=
  match t with
  | .leaf w => v = w ∧ bits.length = 1
  | .node l r => (v, bits) ∈ (CodeTree.node l r).paths

/-- The subtree of the arena at index `i` is the given tree (R39). -/
def CodeTree.storedAt (h : Huffman) : CodeTree → Nat → Bool
  | .leaf v, i => decide (i < h.nnodes) && decide ((h.nodeAt i).kind = .leaf v)
  | .node l r, i =>
    decide (i < h.nnodes) &&
      match (h.nodeAt i).kind with
      | .leaf _ => false
      | .internal a b => l.storedAt h a && r.storedAt h b

/-- One merge of R201, from the worklist `wl` to `wl'`, making the node `new`: the last two entries, which are the two of least
frequency, become its children, the last one the right child (b), and it is put after every entry whose frequency is at least
its own (c). -/
def MergeTurn (freq : Nat → Nat) (kind : Nat → NodeKind) (new : Nat) (wl wl' : List Nat) : Prop :=
  ∃ front back hi lo, wl = front ++ back ++ [hi, lo] ∧ kind new = .internal hi lo ∧
    freq lo ≤ freq hi ∧ (∀ i ∈ front ++ back, freq hi ≤ freq i) ∧
    wl' = front ++ new :: back ∧ (∀ i ∈ front, freq new ≤ freq i) ∧ ∀ i ∈ back, freq i < freq new

/-- The order in which the leaves enter the worklist (R201 (a)): by falling frequency, and by rising index among equals. -/
def LeafOrder (freq : Nat → Nat) (a b : Nat) : Prop := freq b < freq a ∨ (freq a = freq b ∧ a < b)

/-- The number of byte values that occur (R201: the distinct values of the input). -/
def Huffman.distinct (h : Huffman) : Nat := (List.range 256).countP fun v => decide (0 < h.freqAt v)

/-- The sum of all counts (R200). -/
def Huffman.total (h : Huffman) : Nat := ((List.range 256).map h.freqAt).sum

/-- What `HUF.BUILD` leaves for the counts in `FREQ`: the sizes and the merge count R201 gives; worklists, the first of which has
the leaves in the order of R201 (a) and each later one comes of one merge; the leaves first, in increasing byte value; every
later node internal, with earlier children and the sum of their frequencies (R204); and, when any byte value occurs, a full tree
at `root` over exactly the values that do. -/
def Huffman.Built (h : Huffman) : Prop :=
  h.nnodes = 2 * h.distinct - 1 ∧ h.merges = h.distinct - 1 ∧ h.wlLen = min 1 h.distinct ∧
  (∃ W : Nat → List Nat,
    (W 0).Perm (List.range h.distinct) ∧ (W 0).Pairwise (LeafOrder fun k => (h.nodeAt k).freq) ∧
    (∀ j, j + 1 < h.distinct →
      MergeTurn (fun k => (h.nodeAt k).freq) (fun k => (h.nodeAt k).kind) (h.distinct + j) (W j) (W (j + 1))) ∧
    h.wl = W (h.distinct - 1)) ∧
  (∀ k, k < h.distinct →
    ∃ v, ((List.range 256).filter fun v => decide (0 < h.freqAt v))[k]? = some v ∧
      h.nodeAt k = { kind := .leaf (BitVec.ofNat 8 v), freq := h.freqAt v }) ∧
  (∀ k, h.distinct ≤ k → k < h.nnodes →
    ∃ l r, h.nodeAt k = { kind := .internal l r, freq := (h.nodeAt l).freq + (h.nodeAt r).freq } ∧ l < k ∧ r < k) ∧
  (0 < h.distinct → h.root = 2 * h.distinct - 2 ∧ (h.nodeAt h.root).freq = h.total ∧
    ∃ T : CodeTree, T.storedAt h h.root = true ∧ T.size = h.nnodes ∧
      (T.paths.map Prod.fst).Nodup ∧ ∀ v : Byte, v ∈ T.paths.map Prod.fst ↔ 0 < h.freqAt v.toNat)

/-! ### Containers -/

/-- The bytes `y` that a payload decodes to through the Huffman stage (R122, R210): those of the paths in its tree, or the
payload itself when the stage is off. -/
def HuffmanPayload (on : Bool) (payload y : List Byte) : Prop :=
  if on then
    ∃ (T : CodeTree) (codes : List (List Bool)), T.size ≤ 511 ∧ List.Forall₂ T.Reads y codes ∧
      BitsAt payload 0 (lowBits y.length 64 ++ if y = [] then [] else T.bits ++ codes.flatten)
  else payload = y

/-- The bytes `y` that a payload decodes to through the lookback stage (R122, R180): the meaning of its tokens, or the
payload itself when the stage is off. -/
def LookbackPayload (on : Bool) (payload y : List Byte) : Prop :=
  if on then
    ∃ (ts : List Token) (trailing : List Byte), (∀ t ∈ ts, t.wf = true) ∧ tokensMeaning ts [] = some y ∧
      payload = lbStream y.length ts ++ trailing
  else payload = y

/-! ### What two states have in common -/

/-- The input, the parameter, what belongs to the host and the counts of free values are the same. -/
abbrev State.SameOutside (s t : State) : Prop :=
  t.inMem = s.inMem ∧ t.inLen = s.inLen ∧ t.maxBuf = s.maxBuf ∧ t.queue = s.queue ∧ t.hostData = s.hostData ∧
  t.freeReads = s.freeReads ∧ t.freeLits = s.freeLits

/-- The codecs' tables and registers are the same. -/
abbrev State.SameCodecs (s t : State) : Prop := t.mf = s.mf ∧ t.lb = s.lb ∧ t.huf = s.huf

/-- What a compression may change of the codecs: an enabled stage's tables and registers, less those that only a decoder
writes (R29, R32). -/
abbrev State.EncoderChanged (s t : State) (lb huf : Bool) : Prop :=
  (lb = false → t.mf = s.mf ∧ t.lb = s.lb) ∧ t.lb = { s.lb with runStart := t.lb.runStart } ∧
  (huf = false → t.huf = s.huf) ∧ t.huf.walk = s.huf.walk

/-- What a decompression may change of the codecs: an enabled stage's registers and the arena (R29, R32, R39). -/
abbrev State.DecoderChanged (s t : State) (lb huf : Bool) : Prop :=
  t.mf = s.mf ∧ (lb = false → t.lb = s.lb) ∧ t.lb.runStart = s.lb.runStart ∧ (huf = false → t.huf = s.huf) ∧
  t.huf.freq = s.huf.freq ∧ t.huf.code = s.huf.code ∧ t.huf.wl = s.huf.wl ∧ t.huf.merges = s.huf.merges

/-! ### Reset -/

/-- The values R42 states for reset. -/
abbrev State.ResetValues (t : State) : Prop :=
  t.seq = .idle ∧ t.phase = .idle ∧ t.status = 0#32 ∧ t.done = false ∧ t.err = .none ∧
  t.inLen = 0#64 ∧ t.outLen = 0#64 ∧ t.cksum = 0#32 ∧ t.cksumStored = 0#32 ∧
  t.flDelta = 0#8 ∧ t.flLb = false ∧ t.flHuf = false ∧ t.sb0.Fresh ∧ t.sb1.Fresh ∧ t.out.Fresh

/-! ### The invariants -/

/-- The sequencer between two steps (R23, R25, R73, R277): no command is in progress; `FATAL` is the state after an
`InternalInvariantViolation` and only that; after an error there is no output and the command is done. -/
abbrev State.ControlInv (s : State) : Prop :=
  s.seq ≠ .busy ∧
  (s.seq = .fatal ↔ s.err = .raised .internal) ∧
  (s.err ≠ .none → s.done = true ∧ s.outLen = 0#64)

/-- A capacity that doubling reaches within the bound (R36): 0, or a member of 8, 16, 32, … whose half, if it has one in the
sequence, is below the bound. -/
abbrev CapOk (max cap : Nat) : Prop :=
  cap = 0 ∨ ∃ k, k < 64 ∧ cap = 8 * 2 ^ k ∧ (k = 0 ∨ 4 * 2 ^ k < max)

/-- A buffer within the bound (R31, R36, R140, R142). -/
abbrev Buffer.Bounded (max : Nat) (b : Buffer) : Prop :=
  b.len ≤ max ∧ b.len ≤ b.cap ∧ CapOk max b.cap ∧
  b.wcur.bit < 8 ∧ b.rcur.bit < 8 ∧ b.wbits ≤ 8 * b.len ∧ b.rbits ≤ 8 * b.len ∧
  (b.wcur.bit = 0 → b.wcur.byte = b.len) ∧ (b.wcur.bit ≠ 0 → b.wcur.byte + 1 = b.len)

/-- Every buffer the block writes is within the bound, and `MAXBUF` is a legal parameter (R8). -/
abbrev State.BufferInv (s : State) : Prop :=
  8 ≤ s.max ∧ s.sb0.Bounded s.max ∧ s.sb1.Bounded s.max ∧ s.out.Bounded s.max

/-- A bucket's shape (R37). -/
abbrev Bucket.Shaped (b : Bucket) : Prop :=
  b.slot.length = Config.barph.mfK ∧ b.cur < Config.barph.mfK ∧ b.cnt ≤ Config.barph.mfK

/-- The child indices of a node lie in the arena (R39). -/
def Node.inArena (n : Node) : Bool :=
  match n.kind with
  | .leaf _ => true
  | .internal l r => decide (l < Config.barph.hufMaxNodes) && decide (r < Config.barph.hufMaxNodes)

/-- The structured memories: canonical, and within their sizes (R30, R32, R37 to R40). -/
abbrev State.TableInv (s : State) : Prop :=
  Memory.wf s.inMem = true ∧
  (tableWf (emptyBucket Config.barph) s.mf.mt = true ∧ (∀ e ∈ s.mf.mt, e.1 < Config.barph.mfNB ∧ e.2.Shaped) ∧ s.mf.bestLen ≤ Config.barph.maxLen) ∧
  (tableWf 0 s.huf.freq = true ∧ ∀ e ∈ s.huf.freq, e.1 < 256) ∧
  (tableWf {} s.huf.node = true ∧ ∀ e ∈ s.huf.node, e.1 < Config.barph.hufMaxNodes ∧ e.2.inArena = true) ∧
  (tableWf [] s.huf.code = true ∧ ∀ e ∈ s.huf.code, e.1 < 256) ∧
  s.huf.nnodes ≤ Config.barph.hufMaxNodes ∧ s.huf.merges ≤ Config.hufMaxMerges ∧ s.huf.wlLen ≤ 256 ∧
  (∀ i ∈ s.huf.wl, i < Config.barph.hufMaxNodes) ∧ s.huf.root < Config.barph.hufMaxNodes ∧ s.huf.walk < Config.barph.hufMaxNodes

/-- The arena of nodes has its canonical form: what `HUF.BUILD` and `HUF.READ_TREE` need of an earlier state. -/
abbrev State.ArenaWf (s : State) : Prop := tableWf {} s.huf.node = true

end Sys2Proof.Machine
end

