-- ==== Sys2Proof/Certificates/Slice0/Obligations.lean ====
section
/-! DEFINITION. The statements about the machine, for the provers. Where a statement speaks of a capacity, it leaves it free:
no rule depends on it (spec 40_buffer_bitstream.md R141). `(s.buf b).rcur` and the like are as they stood before. -/

open Sys2Proof Sys2Proof.Machine

/-! ### Encodings -/

/-- Decoding the encoding of a well-formed operation, in the place it is met in and whatever follows it, gives the operation
and the size of its encoding. Of the model's own choosing: log entry 3. -/
def Obligations.DecodeEncodeAgree : Prop :=
  ∀ (i : Instr) (rest : List Byte), i.wf = true → decode i.space (encode i ++ rest) = .ok (i, i.sizeBits)

/-- No bit of a wire format is dropped: an element read from the head of a byte-aligned stream is written there by its
encoding, byte for byte. The reserved tag, whose two high bits mean nothing (R104), is the one exception. -/
def Obligations.WireDecodeKeepsEveryBit : Prop :=
  ∀ (sp : Space) (bs : List Byte) (i : Instr) (n : Nat),
    (sp = .lbHdr ∨ sp = .lbToken ∨ sp = .lbLen ∨ sp = .hufHdr ∨ sp = .con) →
    decode sp bs = .ok (i, n) → i ≠ .distReserved →
    i.space = sp ∧ n = 8 * (encode i).length ∧ ∃ rest, bs = encode i ++ rest

/-- What an encoding leaves unused: the bits of a command word that its operation does not use are ignored (R91, R93); the
six-bit select codes that R92 does not list name no operation, and a step on one is refused; a width above 64 is no operation
and is refused (R147, R148). Of the model's own choosing: log entry 3. -/
def Obligations.UnusedEncodings : Prop :=
  (∀ w w' : U32, w.extractLsb' 0 4 = w'.extractLsb' 0 4 →
    (w.extractLsb' 0 4 = 1#4 →
      w.getLsbD 8 = w'.getLsbD 8 ∧ w.getLsbD 9 = w'.getLsbD 9 ∧ w.extractLsb' 16 8 = w'.extractLsb' 16 8) →
    decodeCmd w = decodeCmd w') ∧
  (∀ (code : Byte) (rest : List Byte) (s : State) (later : List Input),
    code.toNat % 64 ∉ [0x01, 0x02, 0x03, 0x04, 0x05, 0x06, 0x07, 0x08, 0x09, 0x0A, 0x0B, 0x10, 0x11, 0x12, 0x13,
      0x18, 0x19, 0x1A, 0x1B, 0x1C, 0x1D, 0x1E, 0x20, 0x21, 0x28, 0x29, 0x2A] →
    decode .uop (code :: rest) = .error .unusedSelect ∧
    (s.queue = .op (code :: rest) :: later → step s = .refused .notAnOperation)) ∧
  ∀ (s : State) (b : StageBuf) (v : U64) (width : Byte), 64 < width.toNat →
    exec (.gbAppendBits b v width) s = .refused .widthAbove64 ∧ exec (.gbReadBits b width) s = .refused .widthAbove64

/-- Words written out from the formats decode to the operations they stand for. That the select code of `HUF.BUILD`, which R92
gives as six bits, stands in a byte of its own is the model's choice. Of the model's own choosing: log entry 3. -/
def Obligations.SampleWordsDecode : Prop :=
  decode .cmd [0x01#8, 0x03#8, 0x05#8, 0x00#8] = .ok (.compress true true 5#8, 32) ∧
  decode .cmd [0x0F#8, 0x00#8, 0x00#8, 0x00#8] = .ok (.reset, 32) ∧
  decode .uop [0x19#8] = .ok (.hufBuild, 8) ∧
  decode .lbToken [0x18#8] = .ok (.litS 6#6, 8) ∧
  decode .lbToken [0x02#8, 0x01#8] = .ok (.litL 64#14, 16) ∧
  decode .lbToken [0xFB#8, 0xFF#8] = .ok (.dist2 0x1FFF#13, 16) ∧
  decode .lbToken [0x07#8, 0x00#8, 0x02#8] = .ok (.dist3 0x2000#20, 24) ∧
  decode .lbToken [0xBF#8] = .ok (.distReserved, 8) ∧
  decode .lbLen [0x57#8, 0x02#8] = .ok (.lenL 299#15, 16) ∧
  decode .hufNode [0x82#8, 0x00#8] = .ok (.nodeL 0x41#8, 9) ∧
  decode .con [0x42#8, 0x41#8, 0x52#8, 0x50#8, 0x48#8, 0x01#8, 0x00#8, 0x01#8, 0x00#8, 0x35#8, 0x18#8, 0x1F#8, 0xE0#8] =
    .ok (.con 0#8 1#8 0#8 0xE01F1835#32, 104)

/-! ### Steps, the host, the registers -/

/-- A step takes the next input and runs what it decodes to, on the state without that input: a unit operation issued by the
sequencer, an element of a stream at its decoder's cursor, a write of `CMD`. Of the model's own choosing: log entries 10, 16
and 26. -/
def Obligations.StepRunsTheDecodedInstruction : Prop :=
  ∀ (s : State) (rest : List Input) (i : Instr) (n : Nat),
    (∀ bytes, s.queue = .op bytes :: rest → decode .uop bytes = .ok (i, n) →
      step s = exec i { s with queue := rest }) ∧
    (∀ p, s.queue = .wire p :: rest → decode p.space (wireBytes p s) = .ok (i, n) →
      step s = exec i { s with queue := rest }) ∧
    (∀ v : U64, s.queue = .host (.writeReg 0 v) :: rest → decodeCmd (v.truncate 32) = i →
      step s = exec i { s with queue := rest })

/-- The host's register accesses (R21, R282): a write of `IN_LEN` stores any value, a write of a read-only or reserved
register is ignored; a read gives the register at that index, 0 for `CMD` and the reserved ones, with no side effect. Of the
model's own choosing: log entries 12 and 26. -/
def Obligations.HostAccessesRegisters : Prop :=
  ∀ (s : State) (rest : List Input) (idx : Nat) (v : U64),
    (s.queue = .host (.writeReg idx v) :: rest → s.seq ≠ .busy → idx ≠ 0 →
      step s = .next (if idx = 2 then { s with queue := rest, inLen := v } else { s with queue := rest })) ∧
    (s.queue = .host (.readReg idx) :: rest →
      step s = .next { s with
        queue := rest
        hostData :=
          if idx = 1 then s.status.zeroExtend 64
          else if idx = 2 then s.inLen
          else if idx = 3 then s.outLen
          else if idx = 4 then s.cksum.zeroExtend 64
          else if idx = 5 then s.cksumStored.zeroExtend 64
          else 0#64 })

/-- The host's buffer accesses (R282): a write of `IN` below `MAXBUF` changes that byte and no other state; a read of a byte
of `OUT` below `OUT_LEN` gives it, with no side effect; a read of `OUT` at or beyond `OUT_LEN` or where `OUT` holds no byte,
and of `IN`, gives some byte that the spec does not fix (U5, U8), and changes nothing but the model's count of such reads.
Of the model's own choosing: log entries 9, 12 and 26. -/
def Obligations.HostAccessesBuffers : Prop :=
  ∀ (s : State) (rest : List Input) (i : U64) (v : Byte), s.seq ≠ .busy →
    (s.queue = .host (.writeIn i v) :: rest → i.toNat < s.max → Memory.wf s.inMem = true →
      ∃ m, step s = .next { s with queue := rest, inMem := m } ∧ Memory.wf m = true ∧
        Memory.read m i.toNat = v ∧ ∀ a, a ≠ i.toNat → Memory.read m a = Memory.read s.inMem a) ∧
    (s.queue = .host (.readOut i) :: rest → i.toNat < s.outLen.toNat → i.toNat < s.out.len →
      step s = .next { s with queue := rest, hostData := (s.out.data.getD i.toNat 0#8).zeroExtend 64 }) ∧
    (s.queue = .host (.readOut i) :: rest → s.outLen.toNat ≤ i.toNat ∨ s.out.len ≤ i.toNat →
      ∃ w : Byte, step s = .next { s with queue := rest, hostData := w.zeroExtend 64, freeReads := s.freeReads + 1 }) ∧
    (s.queue = .host (.readIn i) :: rest →
      ∃ w : Byte, step s = .next { s with queue := rest, hostData := w.zeroExtend 64, freeReads := s.freeReads + 1 })

/-- The fields of `STATUS` (R23). -/
def Obligations.StatusWordFields : Prop :=
  ∀ s : State,
    (s.status.extractLsb' 0 2).toNat = (match s.seq with | .idle => 0 | .busy => 1 | .fatal => 2) ∧
    s.status.getLsbD 4 = s.done ∧
    (s.status.extractLsb' 8 3).toNat =
      (match s.err with
        | .none => 0
        | .raised .format => 1
        | .raised .malformed => 2
        | .raised .checksum => 3
        | .raised .internal => 4
        | .illegalCommand => 5) ∧
    s.status.extractLsb' 2 2 = 0#2 ∧ s.status.extractLsb' 5 3 = 0#3 ∧ s.status.extractLsb' 11 21 = 0#21

/-! ### Commands -/

/-- `NOP` changes nothing, in every `STATE` (R243). -/
def Obligations.NopChangesNothing : Prop := ∀ s : State, exec .nop s = .next s

/-- In `FATAL` nothing but `RESET` acts: every other command is ignored (R240, R277), and so, by the model's choice (log
entry 5), is every unit operation and every element of a stream. -/
def Obligations.FatalIgnoresAllButReset : Prop :=
  ∀ (s : State) (i : Instr), s.seq = .fatal → i.wf = true → i ≠ .reset → exec i s = .next s

/-- An illegal command sets `ERR`, `DONE` and `OUT_LEN` and changes nothing else (R245): a reserved `OP`, or a COMPRESS or
DECOMPRESS while `IN_LEN > MAXBUF`. -/
def Obligations.IllegalCommandIsRefused : Prop :=
  ∀ (s : State) (i : Instr), s.seq = .idle →
    (i ∈ [.reservedOp3, .reservedOp4, .reservedOp5, .reservedOp6, .reservedOp7, .reservedOp8, .reservedOp9,
        .reservedOp10, .reservedOp11, .reservedOp12, .reservedOp13, .reservedOp14] ∨
      (((∃ lb huf delta, i = .compress lb huf delta) ∨ i = .decompress) ∧ s.max < s.inLen.toNat)) →
    exec i s = .next { s with err := .illegalCommand, done := true, outLen := 0#64 }

/-- The reset values of R42 hold of the state after reset, and `RESET` in `IDLE` and in `FATAL`, and the hardware reset in
every `STATE`, restore them (R244, R300, R301); the parameter and what belongs to the host, and the counts of free values,
are kept. Of the model's own choosing: log entries 1, 10, 12, 20 and 27. -/
def Obligations.ResetRestoresResetValues : Prop :=
  (∀ m : U64, (State.resetWith m).ResetValues ∧ (State.resetWith m).maxBuf = m) ∧ State.reset.ResetValues ∧
  ∀ s : State,
    ∃ t, (s.seq ≠ .busy → exec .reset s = .next t) ∧
      (∀ u rest, u = { s with queue := .host .hardwareReset :: rest } → step u = .next { t with queue := rest }) ∧
      t.ResetValues ∧
      t.maxBuf = s.maxBuf ∧ t.queue = s.queue ∧ t.hostData = s.hostData ∧ t.freeReads = s.freeReads ∧ t.freeLits = s.freeLits

/-- With room for the worst case of every stage, a COMPRESS with any enables ends with `ERR = 0` and a container of the raw
input's checksum in `OUT`, whose payload decodes, through the enabled stages, to the delta-filtered input; the input and
`CKSUM_STORED` are as they were, and the stage buffers it used are released. Of the model's own choosing: log entries 8 (the
value of `acc` after a command, which U6 leaves open), 13, 19 and 21. -/
def Obligations.CompressCompletes : Prop :=
  ∀ (s : State) (lb huf : Bool) (delta : Byte),
    s.seq = .idle → 64 * s.inLen.toNat + 600 ≤ s.max → s.ArenaWf →
    ∃ t y payload, exec (.compress lb huf delta) s = .next t ∧
      t.seq = .idle ∧ t.done = true ∧ t.err = .none ∧ t.phase = .idle ∧
      t.out.data = [0x42#8, 0x41#8, 0x52#8, 0x50#8, 0x48#8, 0x01#8, delta, if lb then 1#8 else 0#8,
        if huf then 1#8 else 0#8] ++ leBytes (ckSum Config.barph s.input).toNat 4 ++ payload ∧
      LookbackPayload lb y (deltaForward delta.toNat s.input) ∧ HuffmanPayload huf payload y ∧
      t.outLen.toNat = t.out.len ∧ t.cksum = ckSum Config.barph s.input ∧ t.acc = ckSum Config.barph s.input ∧
      t.flDelta = delta ∧ t.flLb = lb ∧ t.flHuf = huf ∧
      t.sb0.Fresh ∧ (lb = true ∨ huf = true → t.sb1.Fresh) ∧ (lb = false → huf = false → t.sb1 = s.sb1) ∧
      t.cksumStored = s.cksumStored ∧ t.src = s.src ∧ t.ret = s.ret ∧ s.SameOutside t ∧ s.EncoderChanged t lb huf

/-- COMPRESS with both codecs off frames the delta-filtered input: header, flags, checksum, bytes; no codec's table or
register changes. With `delta = 0` the filtered input is the input (R253 (b)). Of the model's own choosing: log entries 8
(the value of `acc` after a command, which U6 leaves open), 13 and 19. -/
def Obligations.CompressWithoutCodecsFramesInput : Prop :=
  ∀ (s : State) (delta : Byte), s.seq = .idle → s.inLen.toNat + 13 ≤ s.max →
    ∃ t, exec (.compress false false delta) s = .next t ∧
      t.out.data = [0x42#8, 0x41#8, 0x52#8, 0x50#8, 0x48#8, 0x01#8, delta, 0#8, 0#8] ++
        leBytes (ckSum Config.barph s.input).toNat 4 ++ deltaForward delta.toNat s.input ∧
      (delta = 0#8 → deltaForward delta.toNat s.input = s.input) ∧
      t.outLen.toNat = t.out.len ∧ t.seq = .idle ∧ t.done = true ∧ t.err = .none ∧ t.phase = .idle ∧
      t.cksum = ckSum Config.barph s.input ∧ t.acc = ckSum Config.barph s.input ∧ t.cksumStored = s.cksumStored ∧
      t.flDelta = delta ∧ t.flLb = false ∧ t.flHuf = false ∧ t.sb0.Fresh ∧ t.sb1 = s.sb1 ∧
      t.src = s.src ∧ t.ret = s.ret ∧ s.SameOutside t ∧ s.SameCodecs t

/-- A COMPRESS of a legal input ends in one of two ways: a complete result, or the fatal entry with no output. It never ends
in a recoverable error, a fault or a refusal. Of the model's own choosing: log entry 21. -/
def Obligations.CompressEndsInResultOrFatal : Prop :=
  ∀ (s : State) (lb huf : Bool) (delta : Byte),
    s.seq = .idle → s.inLen.toNat ≤ s.max → s.ArenaWf →
    ∃ t, exec (.compress lb huf delta) s = .next t ∧ t.done = true ∧ t.phase = .idle ∧
      s.SameOutside t ∧ t.cksumStored = s.cksumStored ∧ t.cksum = ckSum Config.barph s.input ∧
      ((t.seq = .idle ∧ t.err = .none ∧ t.outLen.toNat = t.out.len) ∨
        (t.seq = .fatal ∧ t.err = .raised .internal ∧ t.outLen = 0#64 ∧ t.out.Fresh ∧ t.sb0.Fresh ∧ t.sb1.Fresh))

/-- The empty input (R255): its containers for the four choices of codecs and every delta, and `ERR = 0`. Of the model's own
choosing: log entry 21. -/
def Obligations.EmptyInputContainers : Prop :=
  ∀ (s : State) (lb huf : Bool) (delta : Byte),
    s.seq = .idle → s.inLen = 0#64 → 24 ≤ s.max → s.ArenaWf →
    ∃ t, exec (.compress lb huf delta) s = .next t ∧ t.err = .none ∧ t.seq = .idle ∧ t.cksum = 0x811C9DC5#32 ∧
      t.out.data = [0x42#8, 0x41#8, 0x52#8, 0x50#8, 0x48#8, 0x01#8, delta, if lb then 1#8 else 0#8,
          if huf then 1#8 else 0#8, 0xC5#8, 0x9D#8, 0x1C#8, 0x81#8] ++
        (match lb, huf with
          | false, false => []
          | true, false => List.replicate 8 0#8
          | false, true => List.replicate 8 0#8
          | true, true => 0x08#8 :: List.replicate 10 0#8)

/-- No input makes DECOMPRESS fatal, a fault or a refusal (R242): it ends in `IDLE` with a complete result, or with one of
the three recoverable errors and no output; the input is as it was. Of the model's own choosing: log entry 21. -/
def Obligations.DecompressNeverFatal : Prop :=
  ∀ s : State, s.seq = .idle → s.inLen.toNat ≤ s.max → s.ArenaWf →
    ∃ t, exec .decompress s = .next t ∧ t.seq = .idle ∧ t.done = true ∧ t.phase = .idle ∧ s.SameOutside t ∧
      ((t.err = .none ∧ t.outLen.toNat = t.out.len ∧ t.cksum = ckSum Config.barph t.out.data ∧ t.cksum = t.cksumStored) ∨
        ((t.err = .raised .format ∨ t.err = .raised .malformed ∨ t.err = .raised .checksum) ∧
          t.outLen = 0#64 ∧ t.out.Fresh ∧ t.sb0.Fresh ∧ t.sb1.Fresh))

/-- The header parse of DECOMPRESS (R250, R272, R273 cause 1): an input without the magic, or shorter than it, ends with
`FormatError` and takes that entry; one that has the magic and is cut off in the rest of the header ends with
`MalformedStreamError`; both keep the flags, the input and the codecs as they were (R276). -/
def Obligations.DecompressHeaderErrors : Prop :=
  ∀ (s : State) (e : Err), s.seq = .idle → s.inLen.toNat ≤ s.max →
    ((e = .format ∧ s.input.take 6 ≠ [0x42#8, 0x41#8, 0x52#8, 0x50#8, 0x48#8, 0x01#8]) ∨
      (e = .malformed ∧ s.input.take 6 = [0x42#8, 0x41#8, 0x52#8, 0x50#8, 0x48#8, 0x01#8] ∧ s.inLen.toNat < 13)) →
    ∃ t, exec .decompress s = .next t ∧ t.err = .raised e ∧ t.seq = .idle ∧ t.done = true ∧
      t.outLen = 0#64 ∧ t.out.Fresh ∧ t.sb0.Fresh ∧ t.sb1.Fresh ∧ t.phase = .idle ∧
      t.cksum = 0#32 ∧ t.cksumStored = 0#32 ∧ t.flDelta = s.flDelta ∧ t.flLb = s.flLb ∧ t.flHuf = s.flHuf ∧
      s.SameOutside t ∧ s.SameCodecs t

/-- DECOMPRESS of a container whose payload decodes, through the stages its flags enable, to `y2` (any nonzero flag byte
enables): the result is `y2` through the inverse filter when its checksum is the stored one, a stored 0 included (R252);
otherwise `ChecksumMismatchError` and no output, with both values left to read. Of the model's own choosing: log entry 21.
-/
def Obligations.DecompressDecodesStages : Prop :=
  ∀ (s : State) (delta lb huf : Byte) (ck : U32) (payload y1 y2 : List Byte),
    s.seq = .idle → s.ArenaWf → s.inLen.toNat ≤ s.max → y1.length ≤ s.max → y2.length ≤ s.max →
    s.input = [0x42#8, 0x41#8, 0x52#8, 0x50#8, 0x48#8, 0x01#8, delta, lb, huf] ++ leBytes ck.toNat 4 ++ payload →
    HuffmanPayload (decide (huf ≠ 0#8)) payload y1 → LookbackPayload (decide (lb ≠ 0#8)) y1 y2 →
    ∃ t, exec .decompress s = .next t ∧ t.seq = .idle ∧ t.done = true ∧ t.phase = .idle ∧
      t.cksum = ckSum Config.barph (deltaInverse delta.toNat y2) ∧ t.cksumStored = ck ∧
      t.flDelta = delta ∧ t.flLb = decide (lb ≠ 0#8) ∧ t.flHuf = decide (huf ≠ 0#8) ∧
      s.SameOutside t ∧ s.DecoderChanged t (decide (lb ≠ 0#8)) (decide (huf ≠ 0#8)) ∧ t.ret = s.ret ∧
      (t.cksum = ck → t.err = .none ∧ t.out.data = deltaInverse delta.toNat y2 ∧ t.outLen.toNat = t.out.len) ∧
      (t.cksum ≠ ck → t.err = .raised .checksum ∧ t.out.Fresh ∧ t.outLen = 0#64 ∧ t.sb0.Fresh ∧ t.sb1.Fresh)

/-- A container of COMPRESS with all stages off in which one payload byte was changed ends a DECOMPRESS with
`ChecksumMismatchError` and no output (R253 (c)). -/
def Obligations.OneChangedByteIsDetected : Prop :=
  ∀ (s : State) (payload : List Byte) (i : Nat) (b : Byte),
    s.seq = .idle → s.inLen.toNat ≤ s.max → i < payload.length → payload.getD i 0#8 ≠ b →
    s.input = [0x42#8, 0x41#8, 0x52#8, 0x50#8, 0x48#8, 0x01#8, 0#8, 0#8, 0#8] ++
      leBytes (ckSum Config.barph payload).toNat 4 ++ payload.set i b →
    ∃ t, exec .decompress s = .next t ∧ t.err = .raised .checksum ∧ t.seq = .idle ∧
      t.outLen = 0#64 ∧ t.out.data = [] ∧ t.cksumStored = ckSum Config.barph payload ∧ t.cksum ≠ ckSum Config.barph payload

/-- The round trip (R253 (a)): when a COMPRESS with any enables ends with `ERR = 0`, a DECOMPRESS of its output, in any idle
block with the same bound, ends with `ERR = 0` and the input in `OUT`. Of the model's own choosing: log entry 21. -/
def Obligations.CompressDecompressRoundTrip : Prop :=
  ∀ (s t u : State) (lb huf : Bool) (delta : Byte),
    s.seq = .idle → s.ArenaWf → exec (.compress lb huf delta) s = .next t → t.err = .none →
    u.seq = .idle → u.ArenaWf → u.maxBuf = s.maxBuf → u.input = t.out.data →
    ∃ v, exec .decompress u = .next v ∧ v.seq = .idle ∧ v.done = true ∧ v.err = .none ∧
      v.out.data = s.input ∧ v.outLen = s.inLen ∧ v.cksum = v.cksumStored ∧ v.cksum = t.cksum

/-- The result of a command is a function of the input, the command word and the parameters alone (R43). Of the model's own
choosing: log entry 21. -/
def Obligations.ResultIsFunctionOfInput : Prop :=
  ∀ (s s' t t' : State) (i : Instr),
    ((∃ lb huf delta, i = .compress lb huf delta) ∨ i = .decompress) →
    s.seq = .idle → s'.seq = .idle → s.ArenaWf → s'.ArenaWf → s.maxBuf = s'.maxBuf →
    s.inLen.toNat ≤ s.max → s.input = s'.input →
    exec i s = .next t → exec i s' = .next t' →
    t.out.data = t'.out.data ∧ t.outLen = t'.outLen ∧ t.err = t'.err ∧ t.done = t'.done ∧ t.seq = t'.seq ∧
      t.cksum = t'.cksum ∧ (i = .decompress → t.cksumStored = t'.cksumStored)

/-! ### Buffers and bit streams -/

/-- `GB.RESERVE` changes at most the capacity of its buffer; `GB.APPEND_BYTE` and `GB.APPEND_BYTES` append their bytes, move
the write cursor to the end and touch nothing else (R143 to R145); each past the bound changes no byte and raises the fatal
error (R142). -/
def Obligations.ByteAppendsExtendBuffer : Prop :=
  ∀ (s : State) (b : StageBuf) (extra : U64) (i : Instr) (bs : List Byte), s.seq ≠ .fatal →
    ((s.buf b).len + extra.toNat ≤ s.max →
      ∃ cap, exec (.gbReserve b extra) s = .next (s.putBuf b { s.buf b with cap := cap }) ∧
        (s.buf b).len + extra.toNat ≤ cap ∧ (s.buf b).cap ≤ cap ∧
        ((s.buf b).len + extra.toNat ≤ (s.buf b).cap → cap = (s.buf b).cap)) ∧
    (s.max < (s.buf b).len + extra.toNat → exec (.gbReserve b extra) s = .next (takeError .internal s)) ∧
    ((∃ v, i = .gbAppendByte b v ∧ bs = [v]) ∨ i = .gbAppendBytes b bs →
      ((s.buf b).len + bs.length ≤ s.max →
        ∃ cap, exec i s = .next (s.putBuf b
          { data := (s.buf b).data ++ bs
            cap := cap
            wcur := if bs = [] then (s.buf b).wcur else { byte := (s.buf b).len + bs.length, bit := 0 }
            rcur := (s.buf b).rcur })) ∧
      (s.max < (s.buf b).len + bs.length → exec i s = .next (takeError .internal s)))

/-- `GB.APPEND_BIT` and `GB.APPEND_BITS` append their bits at the write cursor, the least significant first, and touch
nothing else (R146, R147); bits that pass the bound raise the fatal error, which leaves of the buffer its capacity only
(R142). -/
def Obligations.AppendBitsExtendsStream : Prop :=
  ∀ (s : State) (b : StageBuf) (i : Instr) (bits : List Bool), s.seq ≠ .fatal →
    ((∃ x, i = .gbAppendBit b x ∧ bits = [x]) ∨
      (∃ (value : U64) (width : Byte), width.toNat ≤ 64 ∧ i = .gbAppendBits b value width ∧
        bits = (List.range width.toNat).map fun k => value.getLsbD k)) →
    (s.buf b).CursorOk →
    ((s.buf b).wbits + bits.length ≤ 8 * s.max →
      ∃ v, exec i s = .next (s.putBuf b v) ∧ (s.buf b).BitsAppended v bits) ∧
    ((s.buf b).len ≤ s.max → 8 * s.max < (s.buf b).wbits + bits.length →
      ∃ cap, exec i s = .next (takeError .internal (s.putBuf b { s.buf b with cap := cap })))

/-- `GB.READ_BITS` returns the bits at the read cursor, the first the least significant, and moves that cursor alone (R148);
`GB.READ_BYTES` returns a byte range and moves no cursor (R149); past the end each raises `MalformedStreamError`, a range of no
bytes that starts beyond it too, which is the model's choice. Of the model's own choosing: log entries 11, 12 and 28. -/
def Obligations.ReadsReturnStream : Prop :=
  ∀ (s : State) (b : StageBuf) (width : Byte) (a n : U64), s.seq ≠ .fatal →
    (width.toNat ≤ 64 →
      ((s.buf b).rbits + width.toNat ≤ 8 * (s.buf b).len →
        ∃ v, exec (.gbReadBits b width) s =
            .next { s.putBuf b { s.buf b with rcur := Cursor.atBit ((s.buf b).rbits + width.toNat) } with
              ret := .value v } ∧
          v < 2 ^ width.toNat ∧
          ∀ k, k < width.toNat → v.testBit k = bitAt (s.buf b).data ((s.buf b).rbits + k)) ∧
      (8 * (s.buf b).len < (s.buf b).rbits + width.toNat →
        exec (.gbReadBits b width) s = .next (takeError .malformed s))) ∧
    (a.toNat + n.toNat ≤ (s.buf b).len →
      exec (.gbReadBytes b a n) s = .next { s with ret := .bytes (((s.buf b).data.drop a.toNat).take n.toNat) }) ∧
    ((s.buf b).len < a.toNat + n.toNat → exec (.gbReadBytes b a n) s = .next (takeError .malformed s))

/-- The inverse law (R150): fields written one after another into a fresh buffer and read back with the same widths return
their values modulo two to the width. -/
def Obligations.ReadFieldsInvertsAppendFields : Prop :=
  ∀ (max : Nat) (fs : List (U64 × Nat)) (b : Buffer), max < 2 ^ 64 → b.Fresh → (∀ f ∈ fs, f.2 ≤ 64) →
    (fs.map Prod.snd).sum ≤ 8 * max →
    ∃ w r, appendFields max fs b = .ok () w ∧
      readFields (fs.map Prod.snd) w = .ok (fs.map fun f => f.1.toNat % 2 ^ f.2) r

/-! ### The match finder -/

/-- `MF.RESET` empties every bucket, so that a search after it finds nothing (R162); `MF.INSERT` writes a position into the
ring of the bucket of its prefix, and does nothing at a position without a prefix (R160, R163); they touch the table only.
Of the model's own choosing: log entry 21. -/
def Obligations.MatchTableUpdates : Prop :=
  ∀ (s : State) (i : StageBuf) (p : U64), s.seq ≠ .fatal →
    (∃ mf, exec .mfReset s = .next { s with mf := mf } ∧ mf.bestLen = s.mf.bestLen ∧ mf.bestPos = s.mf.bestPos ∧
      (∀ h, mf.bucket Config.barph h = { slot := [0, 0, 0, 0], cur := 0, cnt := 0 }) ∧
      ∀ (I : List Byte) (q : Nat), (Machine.mfFindBest Config.barph I q mf).1 = none) ∧
    (p.toNat + 4 ≤ (s.buf i).len → tableWf (emptyBucket Config.barph) s.mf.mt = true →
      ∃ mf, exec (.mfInsert i p) s = .next { s with mf := mf } ∧
        mf.bestLen = s.mf.bestLen ∧ mf.bestPos = s.mf.bestPos ∧
        ∀ h, mf.bucket Config.barph h =
          if h = mfHash Config.barph (s.buf i).data p.toNat then
            { slot := (s.mf.bucket Config.barph h).slot.set (s.mf.bucket Config.barph h).cur p.toNat
              cur := ((s.mf.bucket Config.barph h).cur + 1) % 4
              cnt := min ((s.mf.bucket Config.barph h).cnt + 1) 4 }
          else s.mf.bucket Config.barph h) ∧
    ((s.buf i).len < p.toNat + 4 → exec (.mfInsert i p) s = .next s)

/-- The match length is the largest length of a common part (R165), whatever the parameters are. -/
def Obligations.MatchLengthIsLargest : Prop :=
  ∀ (cfg : Config) (I : List Byte) (c p : Nat), c < p → p < I.length →
    Matches cfg I c p (matchLen cfg I c p) ∧ ∀ len, Matches cfg I c p len → len ≤ matchLen cfg I c p

/-- `MF.FIND_BEST` answers the candidate that maximises the pair of length and position, or none when there is no candidate
longer than the threshold (R164); it changes the registers of the search only. Of the model's own choosing: log entry 12. -/
def Obligations.FindBestMaximises : Prop :=
  ∀ (s : State) (i : StageBuf) (p : U64), s.seq ≠ .fatal →
    ∃ bl bp r, exec (.mfFindBest i p) s = .next { s with mf := { s.mf with bestLen := bl, bestPos := bp }, ret := r } ∧
      ((s.buf i).len < p.toNat + 4 → r = .noMatch ∧ bl = s.mf.bestLen ∧ bp = s.mf.bestPos) ∧
      (p.toNat + 4 ≤ (s.buf i).len →
        (r = .noMatch ∧ ∀ c, s.mf.Candidate Config.barph (s.buf i).data p.toNat c → matchLen Config.barph (s.buf i).data c p.toNat ≤ 3) ∨
        (∃ c len, r = .pair c len ∧ bl = len ∧ bp = c ∧ s.mf.Candidate Config.barph (s.buf i).data p.toNat c ∧
          len = matchLen Config.barph (s.buf i).data c p.toNat ∧ 4 ≤ len ∧
          ∀ c', s.mf.Candidate Config.barph (s.buf i).data p.toNat c' →
            matchLen Config.barph (s.buf i).data c' p.toNat < len ∨ (matchLen Config.barph (s.buf i).data c' p.toNat = len ∧ c' ≤ c)))

/-- `MF.MATCH_AT` answers what `MF.FIND_BEST` answers, as a distance, exactly when the length exceeds the token's cost, and
none otherwise (R166, R107); whatever the table holds, its result is a match of earlier bytes (R167, R168); it changes the
registers of the search only, as `MF.FIND_BEST` does. Of the model's own choosing: log entry 12. -/
def Obligations.MatchAtIsCausalAndEconomical : Prop :=
  ∀ (s : State) (i : StageBuf) (p : U64), s.seq ≠ .fatal →
    ∃ bl bp q r,
      exec (.mfFindBest i p) s = .next { s with mf := { s.mf with bestLen := bl, bestPos := bp }, ret := q } ∧
      exec (.mfMatchAt i p) s = .next { s with mf := { s.mf with bestLen := bl, bestPos := bp }, ret := r } ∧
      ((q = .noMatch ∧ r = .noMatch) ∨
        ∃ c d len, q = .pair c len ∧ d = p.toNat - c ∧
          r = if (if d ≤ 0x3F then 1 else if d ≤ 0x1FFF then 2 else if d ≤ 0xFFFFF then 3 else if d ≤ 0x7FFFFFF then 4 else 5) +
              (if len ≤ 127 then 1 else 2) < len then .pair d len else .noMatch) ∧
      (r = .noMatch ∨ ∃ d len, r = .pair d len ∧ 1 ≤ d ∧ d ≤ p.toNat ∧ d ≤ 0x3FFFFFFFF ∧
        4 ≤ len ∧ Matches Config.barph (s.buf i).data (p.toNat - d) p.toNat len)

/-! ### The lookback codec -/

/-- `LB.EMIT_LIT` appends the header of the form R103 chooses and the bytes (R181); of more bytes than a header can count,
everything R181 states and some second header byte, which it does not; `LB.EMIT_MATCH` appends the distance field of the least
class and the length field of the form R103 chooses, as many bytes as the token's cost, and a distance or length out of range is
the fatal error (R182); they touch nothing else but the count of free values; a token that passes the bound is the fatal error
too (R142). Of the model's own choosing: log entry 20. -/
def Obligations.EmittedTokens : Prop :=
  ∀ (s : State) (o : StageBuf) (bs : List Byte) (d len : U64), s.seq ≠ .fatal →
    (bs.length ≤ 0x3FFF → (s.buf o).len + (if bs.length ≤ 63 then 1 else 2) + bs.length ≤ s.max →
      ∃ cap, exec (.lbEmitLit o bs) s = .next (s.putBuf o
        { data := (s.buf o).data ++ encode (litField bs.length) ++ bs
          cap := cap
          wcur := { byte := (s.buf o).len + (if bs.length ≤ 63 then 1 else 2) + bs.length, bit := 0 }
          rcur := (s.buf o).rcur })) ∧
    (bs.length ≤ 0x3FFF → s.max < (s.buf o).len + (if bs.length ≤ 63 then 1 else 2) + bs.length →
      ∃ cap, exec (.lbEmitLit o bs) s = .next (takeError .internal (s.putBuf o { s.buf o with cap := cap }))) ∧
    (0x3FFF < bs.length → (s.buf o).len + 2 + bs.length ≤ s.max →
      ∃ (cap : Nat) (high : Byte), exec (.lbEmitLit o bs) s = .next { s.putBuf o
        { data := (s.buf o).data ++ [BitVec.ofNat 8 (4 * (bs.length % 64) + 2), high] ++ bs
          cap := cap
          wcur := { byte := (s.buf o).len + 2 + bs.length, bit := 0 }
          rcur := (s.buf o).rcur } with freeLits := s.freeLits + 1 }) ∧
    (0x3FFF < bs.length → s.max < (s.buf o).len + 2 + bs.length →
      ∃ cap, exec (.lbEmitLit o bs) s =
        .next (takeError .internal { s.putBuf o { s.buf o with cap := cap } with freeLits := s.freeLits + 1 })) ∧
    (1 ≤ d.toNat → d.toNat ≤ 0x3FFFFFFFF → len.toNat ≤ 0x7FFF → (s.buf o).len + tokenCost Config.barph d.toNat len.toNat ≤ s.max →
      ∃ cap, exec (.lbEmitMatch o d len) s = .next (s.putBuf o
        { data := (s.buf o).data ++ encode (distField d.toNat) ++ encode (lenField len.toNat)
          cap := cap
          wcur := { byte := (s.buf o).len + tokenCost Config.barph d.toNat len.toNat, bit := 0 }
          rcur := (s.buf o).rcur }) ∧
        (encode (distField d.toNat) ++ encode (lenField len.toNat)).length = tokenCost Config.barph d.toNat len.toNat) ∧
    (1 ≤ d.toNat → d.toNat ≤ 0x3FFFFFFFF → len.toNat ≤ 0x7FFF →
      s.max < (s.buf o).len + tokenCost Config.barph d.toNat len.toNat →
      ∃ cap, exec (.lbEmitMatch o d len) s = .next (takeError .internal (s.putBuf o { s.buf o with cap := cap }))) ∧
    (d.toNat = 0 ∨ 0x3FFFFFFFF < d.toNat ∨ 0x7FFF < len.toNat →
      exec (.lbEmitMatch o d len) s = .next (takeError .internal s))

/-- `LB.ENCODE` with room for its worst case leaves, in the other stage buffer, a stream of canonical tokens that means its
input, of at most `8 + 2n` bytes, and that is the greedy parse: a match token wherever the search finds one, a literal run
that stops only at a match, at `LITMAX` bytes or at the end (R183, R184); it changes the registers of the parse and nothing
else. Of the model's own choosing: log entry 19. -/
def Obligations.LookbackEncodeMeansItsInput : Prop :=
  ∀ (s : State) (i : StageBuf), s.seq ≠ .fatal → 8 + 2 * (s.buf i).len ≤ s.max →
    ∃ o mf pos runStart ts,
      exec (.lbEncode i) s =
        .next { s.putBuf i.other o with mf := mf, pos := pos, lb := { s.lb with runStart := runStart } } ∧
      o.data = lbStream (s.buf i).len ts ∧ tokensMeaning ts [] = some (s.buf i).data ∧
      (∀ t ∈ ts, t.wf = true ∧ t.canonical = true) ∧ GreedyFrom Config.barph (s.buf i).data 0 ts ∧ o.len ≤ 8 + 2 * (s.buf i).len

/-- `LB.DECODE` computes the meaning of a stream of well-formed tokens, in whatever forms they are written and whatever
follows the stream; it changes its registers and the other stage buffer and nothing else (R180, R185, R191). A stream without
room for its header, or whose declared length is beyond the bound, or that ends or goes wrong before that length is reached, is
malformed (R186 to R189, R191 (b), R273 causes 7 to 17). Of the model's own choosing: log entries 11, 13 and 19. -/
def Obligations.LookbackDecodeComputesMeaning : Prop :=
  (∀ (s : State) (b : StageBuf) (ts : List Token) (out trailing : List Byte), s.seq ≠ .fatal →
    (∀ t ∈ ts, t.wf = true) → tokensMeaning ts [] = some out → out.length ≤ s.max →
    (s.buf b).data = lbStream out.length ts ++ trailing →
    ∃ o ip dist, exec (.lbDecode b) s =
        .next { ({ s with src := b }).putBuf b.other o with
          lb := { s.lb with olen := out.length, ip := ip, dist := dist } } ∧
      o.data = out) ∧
  ∀ (s : State) (b : StageBuf), s.seq ≠ .fatal → BrokenStream s.max (s.buf b).data →
    ∃ cap olen ip dist, exec (.lbDecode b) s =
      .next (takeError .malformed { ({ s with src := b }).putBuf b.other { s.buf b.other with cap := cap } with
        lb := { s.lb with olen := olen, ip := ip, dist := dist } })

/-- The lookback round trip (R192): of the two operations, and of the encoder and decoder they run, for every `MF_K`,
`MF_HB`, hash multiplier, `MAXLEN`, `MIN_MATCH_THRESHOLD` and `LITMAX` that R192 admits. Of the model's own choosing: log
entries 19 and 23. -/
def Obligations.LookbackRoundTrip : Prop :=
  (∀ (s t : State) (i : StageBuf), s.seq ≠ .fatal → (s.buf i).len ≤ s.max →
    exec (.lbEncode i) s = .next t → t.seq ≠ .fatal →
    ∃ u, exec (.lbDecode i.other) t = .next u ∧ (u.buf i).data = (s.buf i).data ∧ u.seq = s.seq ∧ u.err = s.err) ∧
  ∀ (cfg : Config) (I : List Byte) (max : Nat) (c c' : LbEnc) (d : LbDec),
    cfg.distMax = Config.barph.distMax → cfg.maxLen ≤ 0x7FFF → 1 ≤ cfg.litMax → cfg.litMax ≤ 0x3FFF →
    I.length ≤ max → max < 2 ^ 64 → lbEncode cfg I max c = .ok () c' →
    ∃ d', lbDecode c'.out.data max d = .ok () d' ∧ d'.out.data = I

/-- The header of a stream met. Of a lookback stream (R186): the declared length is recorded and the output is fresh. Of a
Huffman stream (R210): the 64 bits are consumed too, and the arena is empty unless the length is 0. A stream without room
for its header, or a length past the bound, is malformed. Of the model's own choosing: log entries 11, 13 and 16. -/
def Obligations.StreamHeaderMet : Prop :=
  ∀ (s : State) (n : U64), s.seq ≠ .fatal →
    (8 ≤ (s.buf s.src).len → n.toNat ≤ s.max →
      exec (.lbHdr n) s =
        .next { s.putBuf s.src.other (s.buf s.src.other).release with lb := { s.lb with olen := n.toNat, ip := 8 } } ∧
      exec (.hufHdr n) s =
        .next { (s.putBuf s.src { s.buf s.src with rcur := { byte := 8, bit := 0 } }).putBuf s.src.other
            (s.buf s.src.other).release with
          huf := { s.huf with hlen := n.toNat, nnodes := if n = 0#64 then s.huf.nnodes else 0 } }) ∧
    ((s.buf s.src).len < 8 ∨ s.max < n.toNat →
      (∃ lb, exec (.lbHdr n) s = .next (takeError .malformed { s with lb := lb })) ∧
      ∃ inp hlen, exec (.hufHdr n) s =
        .next (takeError .malformed { s.putBuf s.src inp with huf := { s.huf with hlen := hlen } }))

/-- A literal header met (R187): the run's bytes are appended and the cursor passes them; a run that ends past the input or
past the declared length is malformed. Of the model's own choosing: log entries 11, 13 and 16. -/
def Obligations.LiteralTokenMet : Prop :=
  ∀ (s : State) (i : Instr) (h r : Nat), s.seq ≠ .fatal →
    ((∃ len, i = .litS len ∧ h = 1 ∧ r = len.toNat) ∨ (∃ len, i = .litL len ∧ h = 2 ∧ r = len.toNat)) →
    (s.lb.ip + h + r ≤ (s.buf s.src).len → (s.buf s.src.other).len + r ≤ s.lb.olen →
      (s.buf s.src.other).len + r ≤ s.max →
      ∃ o, exec i s = .next { s.putBuf s.src.other o with lb := { s.lb with ip := s.lb.ip + h + r } } ∧
        o.data = (s.buf s.src.other).data ++ ((s.buf s.src).data.drop (s.lb.ip + h)).take r ∧
        o.rcur = (s.buf s.src.other).rcur) ∧
    ((s.buf s.src).len < s.lb.ip + h + r ∨ s.lb.olen < (s.buf s.src.other).len + r →
      ∃ ip, exec i s = .next (takeError .malformed { s with lb := { s.lb with ip := ip } }))

/-- A distance field met (R188): the distance waits for its length field and the cursor passes the field; a field cut short
and a reserved tag are malformed. Of the model's own choosing: log entries 11, 13 and 16. -/
def Obligations.DistanceFieldMet : Prop :=
  ∀ (s : State) (i : Instr) (t d : Nat), s.seq ≠ .fatal →
    exec .distReserved s = .next (takeError .malformed s) ∧
    ((∃ x, i = .dist1 x ∧ t = 1 ∧ d = x.toNat) ∨ (∃ x, i = .dist2 x ∧ t = 2 ∧ d = x.toNat) ∨
        (∃ x, i = .dist3 x ∧ t = 3 ∧ d = x.toNat) ∨ (∃ x, i = .dist4 x ∧ t = 4 ∧ d = x.toNat) ∨
        (∃ x, i = .dist5 x ∧ t = 5 ∧ d = x.toNat) →
      (s.lb.ip + t ≤ (s.buf s.src).len →
        exec i s = .next { s with lb := { s.lb with ip := s.lb.ip + t, dist := d } }) ∧
      ((s.buf s.src).len < s.lb.ip + t → exec i s = .next (takeError .malformed s)))

/-- A length field met (R188 to R190): the match is copied byte by byte from the waiting distance; a distance of 0 or beyond
the output, a match past the declared length and a field cut short are malformed, and copy nothing. Of the model's own
choosing: log entries 11, 13 and 16. -/
def Obligations.LengthFieldMet : Prop :=
  ∀ (s : State) (i : Instr) (h len : Nat), s.seq ≠ .fatal →
    ((∃ x, i = .lenS x ∧ h = 1 ∧ len = x.toNat) ∨ (∃ x, i = .lenL x ∧ h = 2 ∧ len = x.toNat)) →
    (s.lb.ip + h ≤ (s.buf s.src).len → 1 ≤ s.lb.dist → s.lb.dist ≤ (s.buf s.src.other).len →
      (s.buf s.src.other).len + len ≤ s.lb.olen → (s.buf s.src.other).len + len ≤ s.max →
      ∃ o, exec i s = .next { s.putBuf s.src.other o with lb := { s.lb with ip := s.lb.ip + h } } ∧
        o.len = (s.buf s.src.other).len + len ∧ o.rcur = (s.buf s.src.other).rcur ∧
        (∀ k, k < (s.buf s.src.other).len → o.data.getD k 0#8 = (s.buf s.src.other).data.getD k 0#8) ∧
        ∀ k, k < len → o.data.getD ((s.buf s.src.other).len + k) 0#8 =
          o.data.getD ((s.buf s.src.other).len + k - s.lb.dist) 0#8) ∧
    ((s.buf s.src).len < s.lb.ip + h ∨ s.lb.dist = 0 ∨ (s.buf s.src.other).len < s.lb.dist ∨
        s.lb.olen < (s.buf s.src.other).len + len →
      ∃ ip, exec i s = .next (takeError .malformed { s with lb := { s.lb with ip := ip } }))

/-! ### The Huffman codec -/

/-- `HUF.COUNT` leaves in `FREQ` how often each byte value occurs, and touches `FREQ` and `pos` only (R200). -/
def Obligations.HuffmanCountCounts : Prop :=
  ∀ (s : State) (i : StageBuf), s.seq ≠ .fatal →
    ∃ freq pos, exec (.hufCount i) s = .next { s with huf := { s.huf with freq := freq }, pos := pos } ∧
      ∀ v : Byte, tableGet 0 freq v.toNat = (s.buf i).data.count v

/-- `HUF.BUILD` makes a full tree over exactly the byte values that occur, of the size, root and merge count R201 gives,
with the leaves first and in increasing byte value, and with every frequency the sum below it (R201, R202, R204). The
worklist starts with the leaves in the order of R201 (a), and each merge takes the two entries of least frequency, as R201
(b) and (c) say. It writes `NODE`, `WL`, `nnodes`, `root` and `merges` only. Of the model's own choosing: log entry 21. -/
def Obligations.HuffmanBuildMakesFullTree : Prop :=
  ∀ s : State, s.seq ≠ .fatal → s.ArenaWf →
    ∃ h, exec .hufBuild s = .next { s with huf := h } ∧
      h = { s.huf with node := h.node, wl := h.wl, nnodes := h.nnodes, root := h.root, merges := h.merges } ∧
      h.Built ∧ (s.huf.distinct = 0 → h.root = s.huf.root)

/-- `HUF.ASSIGN` gives every byte value its path in the tree, the single leaf's being the bit 0, and every other value the
empty code; without a tree every code is empty; it touches `CODE` only (R205, R206). -/
def Obligations.HuffmanAssignReadsPaths : Prop :=
  ∀ (s : State) (T : CodeTree), s.seq ≠ .fatal →
    (s.huf.nnodes = 0 → exec .hufAssign s = .next { s with huf := { s.huf with code := [] } }) ∧
    (T.storedAt s.huf s.huf.root = true → T.height ≤ s.huf.nnodes →
      ∃ code, exec .hufAssign s = .next { s with huf := { s.huf with code := code } } ∧
        ∀ v : Byte, tableGet [] code v.toNat = (T.codes.reverse.lookup v).getD [])

/-- `HUF.WRITE_TREE` appends the tree in pre-order and touches nothing else (R207). -/
def Obligations.HuffmanWriteTreeWritesPreorder : Prop :=
  ∀ (s : State) (o : StageBuf) (i : BitVec 9) (T : CodeTree), s.seq ≠ .fatal →
    T.storedAt s.huf i.toNat = true → T.height ≤ s.huf.nnodes → (s.buf o).CursorOk →
    (s.buf o).wbits + T.bits.length ≤ 8 * s.max →
    ∃ v, exec (.hufWriteTree o i) s = .next (s.putBuf o v) ∧ (s.buf o).BitsAppended v T.bits

/-- `HUF.READ_TREE` rebuilds the tree whose bits stand at the read cursor, and consumes exactly those; it touches the arena,
`nnodes`, `root` and that cursor only (R209). When the bits run out inside the tree, or the tree has a 512th node, it is
malformed (R209, R273 causes 4 and 5). Of the model's own choosing: log entries 11, 12, 13, 14 and 21. -/
def Obligations.HuffmanReadTreeRebuildsTree : Prop :=
  ∀ (s : State) (b : StageBuf) (T : CodeTree), s.seq ≠ .fatal →
    (s.ArenaWf → s.huf.nnodes + T.size ≤ 511 → BitsAt (s.buf b).data (s.buf b).rbits T.bits →
      ∃ node, exec (.hufReadTree b) s =
          .next { ({ s with src := b }).putBuf b
              { s.buf b with rcur := Cursor.atBit ((s.buf b).rbits + T.bits.length) } with
            huf := { s.huf with node := node, nnodes := s.huf.nnodes + T.size, root := s.huf.nnodes }
            ret := .value s.huf.nnodes } ∧
        T.storedAt { s.huf with node := node, nnodes := s.huf.nnodes + T.size } s.huf.nnodes = true) ∧
    (BitsCut (s.buf b).data (s.buf b).rbits T.bits ∨
        (511 < s.huf.nnodes + T.size ∧ BitsAt (s.buf b).data (s.buf b).rbits T.bits) →
      ∃ node nnodes, exec (.hufReadTree b) s =
        .next (takeError .malformed { s with src := b, huf := { s.huf with node := node, nnodes := nnodes } }))

/-- `HUF.ENCODE` with room for its worst case leaves, in the other stage buffer, the length, the tree that `HUF.BUILD` makes of
the input's own counts, as it stands at `root` (R200, R201), and the codes of the input's bytes in `CODE`, which are those that
tree gives them, and nothing else (R208, R110); with an empty input, the length alone. Of the model's own choosing: log entries
19 and 21. -/
def Obligations.HuffmanEncodeWritesStream : Prop :=
  ∀ (s : State) (i : StageBuf), s.seq ≠ .fatal → s.ArenaWf → 8 + 320 + 32 * (s.buf i).len ≤ s.max →
    ∃ o huf pos, exec (.hufEncode i) s = .next { s.putBuf i.other o with huf := huf, pos := pos } ∧
      huf.hlen = (s.buf i).len ∧ huf.walk = s.huf.walk ∧
      ((s.buf i).data = [] → o.data = leBytes 0 8 ∧ pos = s.pos ∧ huf = { s.huf with hlen := 0 }) ∧
      ((s.buf i).data ≠ [] →
        (∀ v : Byte, huf.freqAt v.toNat = (s.buf i).data.count v) ∧ huf.Built ∧
        ∃ T : CodeTree, T.storedAt huf huf.root = true ∧ T.size ≤ 511 ∧
          (∀ v : Byte, huf.codeAt v.toNat = (T.codes.lookup v).getD []) ∧
          (∀ v ∈ (s.buf i).data, (v, huf.codeAt v.toNat) ∈ T.codes) ∧
          (s.buf i.other).release.BitsAppended o
            (lowBits (s.buf i).len 64 ++ T.bits ++ ((s.buf i).data.map fun v => huf.codeAt v.toNat).flatten))

/-- `HUF.DECODE` reads the length, a tree and as many paths in it as the length says, whatever tree of at most 511 nodes it
is and whatever follows, and leaves the bytes of the paths in the other stage buffer (R210); it touches the arena, the
registers of the decoder and the two buffers only. When the bits run out in the header, the tree or the paths, or the tree
has a 512th node, it is malformed (R210, R273 causes 2 and 4 to 6). Of the model's own choosing: log entries 11, 13, 19 and
21. -/
def Obligations.HuffmanDecodeReadsPaths : Prop :=
  ∀ (s : State) (b : StageBuf) (T : CodeTree) (out : List Byte) (codes : List (List Bool)) (bits : List Bool),
    s.seq ≠ .fatal → s.ArenaWf → out.length ≤ s.max → List.Forall₂ T.Reads out codes →
    bits = lowBits out.length 64 ++ (if out = [] then [] else T.bits ++ codes.flatten) →
    (T.size ≤ 511 → BitsAt (s.buf b).data 0 bits →
      ∃ inp o node nnodes root walk,
        exec (.hufDecode b) s =
          .next { (({ s with src := b }).putBuf b inp).putBuf b.other o with
            huf := { s.huf with node := node, nnodes := nnodes, root := root, walk := walk, hlen := out.length } } ∧
        o.data = out ∧ inp.data = (s.buf b).data ∧ inp.wcur = (s.buf b).wcur ∧ inp.rbits = bits.length) ∧
    (BitsCut (s.buf b).data 0 bits ∨ (511 < T.size ∧ out ≠ [] ∧ BitsAt (s.buf b).data 0 bits) →
      ∃ cap node nnodes root walk hlen,
        exec (.hufDecode b) s =
          .next (takeError .malformed { ({ s with src := b }).putBuf b.other { s.buf b.other with cap := cap } with
            huf := { s.huf with node := node, nnodes := nnodes, root := root, walk := walk, hlen := hlen } }))

/-- The Huffman round trip (R211). Of the model's own choosing: log entries 19 and 21. -/
def Obligations.HuffmanRoundTrip : Prop :=
  ∀ (s t : State) (i : StageBuf), s.seq ≠ .fatal → s.ArenaWf → (s.buf i).len ≤ s.max →
    exec (.hufEncode i) s = .next t → t.seq ≠ .fatal →
    ∃ u, exec (.hufDecode i.other) t = .next u ∧ (u.buf i).data = (s.buf i).data ∧ u.seq = s.seq ∧ u.err = s.err

/-- Tree nodes met (R209): a leaf takes the next index and its nine bits; an internal node takes the next index and the bits
of its two subtrees; both become the root. When the bits run out, or for a node beyond the 511th, they are malformed (R273
causes 4 and 5). Of the model's own choosing: log entries 8, 11, 12, 13, 14, 16 and 21. -/
def Obligations.TreeNodesMet : Prop :=
  ∀ (s : State) (v : Byte) (l r : CodeTree), s.seq ≠ .fatal → s.ArenaWf →
    (s.huf.nnodes < 511 → (s.buf s.src).rbits + 9 ≤ 8 * (s.buf s.src).len →
      ∃ node, exec (.nodeL v) s =
          .next { s.putBuf s.src { s.buf s.src with rcur := Cursor.atBit ((s.buf s.src).rbits + 9) } with
            huf := { s.huf with node := node, nnodes := s.huf.nnodes + 1, root := s.huf.nnodes }
            ret := .value s.huf.nnodes } ∧
        ∀ k, tableGet {} node k =
          if k = s.huf.nnodes then { kind := .leaf v, freq := (s.huf.nodeAt k).freq } else s.huf.nodeAt k) ∧
    (s.huf.nnodes + (CodeTree.node l r).size ≤ 511 →
      BitsAt (s.buf s.src).data ((s.buf s.src).rbits + 1) (l.bits ++ r.bits) →
      ∃ node, exec .nodeI s =
          .next { s.putBuf s.src
              { s.buf s.src with rcur := Cursor.atBit ((s.buf s.src).rbits + (CodeTree.node l r).bits.length) } with
            huf := { s.huf with
              node := node, nnodes := s.huf.nnodes + (CodeTree.node l r).size, root := s.huf.nnodes }
            ret := .value s.huf.nnodes } ∧
        (CodeTree.node l r).storedAt
          { s.huf with node := node, nnodes := s.huf.nnodes + (CodeTree.node l r).size } s.huf.nnodes = true) ∧
    (s.huf.nnodes < 511 → 8 * (s.buf s.src).len < (s.buf s.src).rbits + 9 →
      exec (.nodeL v) s =
        .next (takeError .malformed { s with huf := { s.huf with nnodes := s.huf.nnodes + 1 } })) ∧
    (BitsCut (s.buf s.src).data ((s.buf s.src).rbits + 1) (l.bits ++ r.bits) ∨
        (511 < s.huf.nnodes + (CodeTree.node l r).size ∧
          BitsAt (s.buf s.src).data ((s.buf s.src).rbits + 1) (l.bits ++ r.bits)) →
      ∃ node nnodes, exec .nodeI s =
        .next (takeError .malformed { s with huf := { s.huf with node := node, nnodes := nnodes } })) ∧
    (511 ≤ s.huf.nnodes →
      exec (.nodeL v) s = .next (takeError .malformed s) ∧ exec .nodeI s = .next (takeError .malformed s))

/-- A coded byte met (R210): the bits of a path from the root are consumed and the leaf's byte is appended; it touches
`walk`, the read cursor and the output only. When the bits run out inside the path it is malformed (R273 cause 6). That it
is met whatever `hlen` says is the model's choice (log entry 16). Of the model's own choosing: log entries 11, 13 and 16. -/
def Obligations.CodedByteMet : Prop :=
  ∀ (s : State) (T : CodeTree) (v : Byte) (bits : List Bool), s.seq ≠ .fatal →
    T.storedAt s.huf s.huf.root = true → T.Reads v bits →
    (BitsAt (s.buf s.src).data (s.buf s.src).rbits bits → (s.buf s.src.other).len + 1 ≤ s.max →
      ∃ o walk, exec .sym s =
          .next { (s.putBuf s.src { s.buf s.src with
              rcur := Cursor.atBit ((s.buf s.src).rbits + bits.length) }).putBuf s.src.other o with
            huf := { s.huf with walk := walk } } ∧
        o.data = (s.buf s.src.other).data ++ [v] ∧ o.rcur = (s.buf s.src.other).rcur) ∧
    (BitsCut (s.buf s.src).data (s.buf s.src).rbits bits →
      ∃ walk, exec .sym s = .next (takeError .malformed { s with huf := { s.huf with walk := walk } }))

/-! ### The delta filter, the checksum, the container -/

/-- `DF.FORWARD` subtracts original bytes and `DF.INVERSE` adds restored ones (R231, R232): the closed forms, and that
nothing but the buffer's bytes and `pos` changes. -/
def Obligations.DeltaFilterClosedForms : Prop :=
  ∀ (s : State) (b : StageBuf) (d : Byte), s.seq ≠ .fatal →
    (∃ data pos, exec (.dfForward b d) s = .next { s.putBuf b { s.buf b with data := data } with pos := pos } ∧
      data.length = (s.buf b).len ∧
      ∀ k, k < (s.buf b).len → data.getD k 0#8 =
        if d = 0#8 ∨ k < d.toNat then (s.buf b).data.getD k 0#8
        else (s.buf b).data.getD k 0#8 - (s.buf b).data.getD (k - d.toNat) 0#8) ∧
    (∃ data pos, exec (.dfInverse b d) s = .next { s.putBuf b { s.buf b with data := data } with pos := pos } ∧
      data.length = (s.buf b).len ∧
      ∀ k, k < (s.buf b).len → data.getD k 0#8 =
        if d = 0#8 ∨ k < d.toNat then (s.buf b).data.getD k 0#8
        else (s.buf b).data.getD k 0#8 + data.getD (k - d.toNat) 0#8)

/-- The inverse law of the delta filter, both ways (R233). -/
def Obligations.DeltaFilterInverse : Prop :=
  ∀ (s : State) (b : StageBuf) (d : Byte), s.seq ≠ .fatal →
    ∃ t u v w, exec (.dfForward b d) s = .next t ∧ exec (.dfInverse b d) t = .next u ∧ (u.buf b).data = (s.buf b).data ∧
      exec (.dfInverse b d) s = .next v ∧ exec (.dfForward b d) v = .next w ∧ (w.buf b).data = (s.buf b).data

/-- `CK.SUM` (R247): the result and `acc` are the checksum of the bytes read, which starts from the seed and folds in each
byte plus its position; it touches `acc`, `pos` and the result only. Of the model's own choosing: log entry 12. -/
def Obligations.ChecksumFoldsBytes : Prop :=
  ∀ (s : State) (src : SumSrc), s.seq ≠ .fatal →
    ∃ pos, exec (.ckSum src) s =
        .next { s with acc := ckSum Config.barph (s.sumBytes src), pos := pos, ret := .value (ckSum Config.barph (s.sumBytes src)).toNat } ∧
      ckSum Config.barph [] = 0x811C9DC5#32 ∧
      ∀ (bs : List Byte) (b : Byte), ckSum Config.barph (bs ++ [b]) =
        (ckSum Config.barph bs ^^^ BitVec.ofNat 32 ((b.toNat + bs.length) % 2 ^ 32)) * 0x01000193#32

/-- `CON.COMPRESS` with room for the worst case of every stage leaves a container of the raw input's checksum in `OUT`,
whose payload decodes, through the enabled stages, to the delta-filtered input, in phase `C_EMIT`, and touches no result
register but `CKSUM` (R248). Of the model's own choosing: log entries 8 (the value of `acc`, which U6 leaves open), 15, 19
and 21. -/
def Obligations.ContainerCompressCompletes : Prop :=
  ∀ (s : State) (lb huf : Bool) (delta : Byte),
    s.seq ≠ .fatal → 64 * s.inLen.toNat + 600 ≤ s.max → s.ArenaWf →
    ∃ t y payload, exec (.conCompress lb huf delta) s = .next t ∧
      t.out.data = containerBytes Config.barph lb huf delta (ckSum Config.barph s.input) payload ∧
      LookbackPayload lb y (deltaForward delta.toNat s.input) ∧ HuffmanPayload huf payload y ∧
      (lb = false → huf = false → payload = deltaForward delta.toNat s.input) ∧
      t.cksum = ckSum Config.barph s.input ∧ t.acc = ckSum Config.barph s.input ∧ t.phase = .cEmit ∧
      t.sb0.Fresh ∧ (lb = true ∨ huf = true → t.sb1.Fresh) ∧ (lb = false → huf = false → t.sb1 = s.sb1) ∧
      t.seq = s.seq ∧ t.done = s.done ∧ t.err = s.err ∧ t.outLen = s.outLen ∧ t.cksumStored = s.cksumStored ∧
      t.flDelta = s.flDelta ∧ t.flLb = s.flLb ∧ t.flHuf = s.flHuf ∧ t.src = s.src ∧ t.ret = s.ret ∧
      s.SameOutside t ∧ s.EncoderChanged t lb huf

/-- `CON.DECOMPRESS` of a container whose payload decodes, through the stages its flags enable, to `y2`, and whose checksum
is right, leaves `y2` through the inverse filter in `OUT` (R249), in phase `D_CKSUM`, and touches no result register but the
two checksums. Of the model's own choosing: log entries 8, 15, 19 and 21. -/
def Obligations.ContainerDecompressDecodesStages : Prop :=
  ∀ (s : State) (delta lb huf : Byte) (payload y1 y2 : List Byte),
    s.seq ≠ .fatal → s.ArenaWf → s.inLen.toNat ≤ s.max → y1.length ≤ s.max → y2.length ≤ s.max →
    s.input = Config.barph.magic ++ [delta, lb, huf] ++ leBytes (ckSum Config.barph (deltaInverse delta.toNat y2)).toNat 4 ++ payload →
    HuffmanPayload (decide (huf ≠ 0#8)) payload y1 → LookbackPayload (decide (lb ≠ 0#8)) y1 y2 →
    ∃ t, exec .conDecompress s = .next t ∧
      t.out.data = deltaInverse delta.toNat y2 ∧
      t.cksum = ckSum Config.barph t.out.data ∧ t.cksumStored = t.cksum ∧ t.acc = t.cksum ∧ t.phase = .dCksum ∧
      t.flDelta = delta ∧ t.flLb = decide (lb ≠ 0#8) ∧ t.flHuf = decide (huf ≠ 0#8) ∧
      t.sb0.Fresh ∧ (lb ≠ 0#8 ∨ huf ≠ 0#8 → t.sb1.Fresh) ∧ (lb = 0#8 → huf = 0#8 → t.sb1 = s.sb1) ∧
      t.seq = s.seq ∧ t.done = s.done ∧ t.err = s.err ∧ t.outLen = s.outLen ∧ t.ret = s.ret ∧
      s.SameOutside t ∧ s.DecoderChanged t (decide (lb ≠ 0#8)) (decide (huf ≠ 0#8))

/-- A container header met (R250, R251): the flags, any nonzero byte enabling a codec, the stored checksum, and a copy of
the payload; an input too short for the header is malformed. Of the model's own choosing: log entries 11, 15, 16 and 19. -/
def Obligations.ContainerHeaderMet : Prop :=
  ∀ (s : State) (delta lb huf : Byte) (ck : U32), s.seq ≠ .fatal → s.inLen.toNat ≤ s.max →
    (13 ≤ s.inLen.toNat →
      ∃ o, exec (.con delta lb huf ck) s =
          .next { s with
            phase := .dHeader, src := .sb0, flDelta := delta, flLb := decide (lb ≠ 0#8), flHuf := decide (huf ≠ 0#8)
            cksumStored := ck, sb0 := o } ∧
        o.data = s.input.drop 13 ∧ o.rcur = {} ∧ o.wcur = { byte := s.inLen.toNat - 13, bit := 0 }) ∧
    (s.inLen.toNat < 13 →
      exec (.con delta lb huf ck) s = .next (takeError .malformed { s with phase := .dHeader, src := .sb0 }))

/-! ### Invariants and rules of the whole machine -/

/-- Every step keeps the sequencer's invariant: no command stays in progress, `FATAL` goes with the fatal error, and after an
error there is no output. -/
def Obligations.StepKeepsControlInv : Prop :=
  ∀ s t : State, s.ControlInv → step s = .next t → t.ControlInv

/-- Every step keeps every buffer within its bounds: length within `MAXBUF` and the capacity, the capacity a doubling
within the bound, both cursors within the data. -/
def Obligations.StepKeepsBufferInv : Prop :=
  ∀ s t : State, s.BufferInv → step s = .next t → t.BufferInv

/-- Every step keeps the tables canonical and within their sizes. Of the model's own choosing: log entry 21. -/
def Obligations.StepKeepsTableInv : Prop :=
  ∀ s t : State, s.TableInv → step s = .next t → t.TableInv

/-- The three invariants hold after reset, for every `MAXBUF` that R8 admits. Of the model's own choosing: log entries 1, 2
and 6. -/
def Obligations.ResetMeetsInvariants : Prop :=
  (∀ m : U64, 8 ≤ m.toNat →
    (State.resetWith m).ControlInv ∧ (State.resetWith m).BufferInv ∧ (State.resetWith m).TableInv) ∧
  State.reset.ControlInv ∧ State.reset.BufferInv ∧ State.reset.TableInv

/-- No operation but `RESET` writes `IN` or `IN_LEN`, and none writes the parameter or what belongs to the host (R35, R24).
Of the model's own choosing: log entries 1, 10 and 12. -/
def Obligations.OperationsOnlyReadTheInput : Prop :=
  ∀ (s t : State) (i : Instr), exec i s = .next t →
    (i ≠ .reset → t.inMem = s.inMem ∧ t.inLen = s.inLen) ∧
    t.maxBuf = s.maxBuf ∧ t.queue = s.queue ∧ t.hostData = s.hostData ∧ t.freeReads = s.freeReads

/-- `FATAL` is left only by `RESET` or a hardware reset, and until then `STATUS` reads 0x00000412 once it does (R244, R277,
R285). Of the model's own choosing: log entries 5 and 27. -/
def Obligations.FatalIsLeftOnlyByReset : Prop :=
  ∀ s t : State, s.seq = .fatal → step s = .next t →
    (t.seq = .fatal ∧ t.status = s.status) ∨
    (∃ rest, s.queue = .host .hardwareReset :: rest) ∨
    (∃ (v : U64) (rest : List Input), s.queue = .host (.writeReg 0 v) :: rest ∧ v.extractLsb' 0 4 = 15#4)
end

