-- ==== Sys2Proof/Laws/State.lean ====
section
/-! SUPPORT. The small lemmas of the state and of the shared record updates: what each update leaves in each field. -/

namespace Sys2Proof.Machine

/-! ### How an operation ends -/

@[simp] theorem Res.andThen_ok {σ α β : Type} (a : α) (s : σ) (f : α → σ → Res σ β) :
    (Res.ok a s).andThen f = f a s := rfl

@[simp] theorem Res.andThen_stop {σ α β : Type} (e : Stop) (s : σ) (f : α → σ → Res σ β) :
    (Res.stop e s : Res σ α).andThen f = .stop e s := rfl

@[simp] theorem Res.inside_ok {σ τ α : Type} (a : α) (s : σ) (put : σ → τ) :
    (Res.ok a s).inside put = .ok a (put s) := rfl

@[simp] theorem Res.inside_stop {σ τ α : Type} (e : Stop) (s : σ) (put : σ → τ) :
    (Res.stop e s : Res σ α).inside put = .stop e (put s) := rfl

/-- A sequence returns exactly when both of its parts do. -/
theorem Res.andThen_eq_ok {σ α β : Type} {r : Res σ α} {f : α → σ → Res σ β} {b : β} {t : σ} :
    r.andThen f = .ok b t ↔ ∃ a s, r = .ok a s ∧ f a s = .ok b t := by
  cases r <;> simp

/-- A sequence stops in its first part, or in its second after the first returned. -/
theorem Res.andThen_eq_stop {σ α β : Type} {r : Res σ α} {f : α → σ → Res σ β} {e : Stop} {t : σ} :
    r.andThen f = .stop e t ↔ r = .stop e t ∨ ∃ a s, r = .ok a s ∧ f a s = .stop e t := by
  cases r <;> simp

/-- An operation on a part returns exactly when the part's operation does. -/
theorem Res.inside_eq_ok {σ τ α : Type} {r : Res σ α} {put : σ → τ} {a : α} {t : τ} :
    r.inside put = .ok a t ↔ ∃ s, r = .ok a s ∧ put s = t := by
  cases r <;> simp

/-- An operation on a part stops exactly when the part's operation does. -/
theorem Res.inside_eq_stop {σ τ α : Type} {r : Res σ α} {put : σ → τ} {e : Stop} {t : τ} :
    r.inside put = .stop e t ↔ ∃ s, r = .stop e s ∧ put s = t := by
  cases r <;> simp

@[simp] theorem finish_ok (a : Unit) (s : State) : finish (.ok a s) = .next s := rfl
@[simp] theorem finish_raise (e : Err) (s : State) : finish (.stop (.raise e) s) = .next (takeError e s) := rfl
@[simp] theorem finish_fault (f : Fault) (s : State) : finish (.stop (.fault f) s) = .fault f := rfl

/-- Everything `finish` can answer. -/
theorem finish_cases (r : Res State Unit) :
    (∃ a s, r = .ok a s ∧ finish r = .next s) ∨
    (∃ e s, r = .stop (.raise e) s ∧ finish r = .next (takeError e s)) ∨
    (∃ f s, r = .stop (.fault f) s ∧ finish r = .fault f) := by
  rcases r with ⟨a, s⟩ | ⟨_ | _, s⟩ <;> simp

theorem whenIdle_idle {s : State} (h : s.seq = .idle) (r : Host.Outcome State Fault Refusal) : whenIdle s r = r := by
  simp [whenIdle, h]

theorem whenIdle_fatal {s : State} (h : s.seq = .fatal) (r : Host.Outcome State Fault Refusal) :
    whenIdle s r = .next s := by
  simp [whenIdle, h]

theorem unlessFatal_fatal {s : State} (h : s.seq = .fatal) (r : Host.Outcome State Fault Refusal) :
    unlessFatal s r = .next s := by
  simp [unlessFatal, h]

theorem unlessFatal_running {s : State} (h : s.seq ≠ .fatal) (r : Host.Outcome State Fault Refusal) :
    unlessFatal s r = r := by
  unfold unlessFatal
  split
  · contradiction
  · rfl
  · rfl

/-- A unit operation of a block that has not stopped in `FATAL` ends as its operation does. -/
theorem runUnit_running {s : State} (h : s.seq ≠ .fatal) (op : State → Res State Unit) :
    runUnit op s = finish (op s) := unlessFatal_running h _

theorem runUnit_fatal {s : State} (h : s.seq = .fatal) (op : State → Res State Unit) : runUnit op s = .next s :=
  unlessFatal_fatal h _

/-- Everything a unit operation can answer: nothing in `FATAL`; otherwise what its operation returns, the entry of the error
it raises, or its fault. -/
theorem runUnit_cases (op : State → Res State Unit) (s : State) :
    (s.seq = .fatal ∧ runUnit op s = .next s) ∨
    (s.seq ≠ .fatal ∧ ∃ a t, op s = .ok a t ∧ runUnit op s = .next t) ∨
    (s.seq ≠ .fatal ∧ ∃ e t, op s = .stop (.raise e) t ∧ runUnit op s = .next (takeError e t)) ∨
    (s.seq ≠ .fatal ∧ ∃ f t, op s = .stop (.fault f) t ∧ runUnit op s = .fault f) := by
  by_cases h : s.seq = .fatal
  · exact .inl ⟨h, runUnit_fatal h op⟩
  · rw [runUnit_running h]
    rcases finish_cases (op s) with ⟨a, t, h1, h2⟩ | ⟨e, t, h1, h2⟩ | ⟨f, t, h1, h2⟩
    · exact .inr (.inl ⟨h, a, t, h1, h2⟩)
    · exact .inr (.inr (.inl ⟨h, e, t, h1, h2⟩))
    · exact .inr (.inr (.inr ⟨h, f, t, h1, h2⟩))

/-- A command in `IDLE` whose input is within the bound runs to its end, or ends in the error it raises. -/
theorem runCommand_legal {s : State} (start : State → State) (op : State → Res State Unit) (hs : s.seq = .idle)
    (hm : s.inLen.toNat ≤ s.max) :
    runCommand start op s = finish ((op (start s)).andThen fun _ t => .ok () (endCommand t)) := by
  rw [runCommand, whenIdle_idle hs, if_neg (by omega)]

/-- A command in `IDLE` whose input is longer than the bound is refused (R245). -/
theorem runCommand_illegal {s : State} (start : State → State) (op : State → Res State Unit) (hs : s.seq = .idle)
    (hm : s.max < s.inLen.toNat) : runCommand start op s = .next (illegalCommand s) := by
  rw [runCommand, whenIdle_idle hs, if_pos hm]

/-! ### Stage buffers -/

@[simp] theorem other_other (b : StageBuf) : b.other.other = b := by cases b <;> rfl
@[simp] theorem other_ne (b : StageBuf) : b.other ≠ b := by cases b <;> decide
@[simp] theorem ne_other (b : StageBuf) : b ≠ b.other := by cases b <;> decide

@[simp] theorem buf_putBuf (s : State) (b : StageBuf) (v : Buffer) : (s.putBuf b v).buf b = v := by cases b <;> rfl

@[simp] theorem buf_putBuf_other (s : State) (b : StageBuf) (v : Buffer) :
    (s.putBuf b.other v).buf b = s.buf b := by cases b <;> rfl

@[simp] theorem buf_other_putBuf (s : State) (b : StageBuf) (v : Buffer) :
    (s.putBuf b v).buf b.other = s.buf b.other := by cases b <;> rfl

@[simp] theorem putBuf_buf (s : State) (b : StageBuf) : s.putBuf b (s.buf b) = s := by cases b <;> rfl

@[simp] theorem putBuf_putBuf (s : State) (b : StageBuf) (v w : Buffer) :
    (s.putBuf b v).putBuf b w = s.putBuf b w := by cases b <;> rfl

@[simp] theorem putBuf_putBuf_other_buf (s : State) (b : StageBuf) (v : Buffer) :
    (s.putBuf b v).putBuf b.other (s.buf b.other) = s.putBuf b v := by cases b <;> rfl

theorem putBuf_comm (s : State) (b : StageBuf) (v w : Buffer) :
    (s.putBuf b v).putBuf b.other w = (s.putBuf b.other w).putBuf b v := by cases b <;> rfl

@[simp] theorem putBuf_seq (s : State) (b : StageBuf) (v : Buffer) : (s.putBuf b v).seq = s.seq := by cases b <;> rfl
@[simp] theorem putBuf_done (s : State) (b : StageBuf) (v : Buffer) : (s.putBuf b v).done = s.done := by cases b <;> rfl
@[simp] theorem putBuf_err (s : State) (b : StageBuf) (v : Buffer) : (s.putBuf b v).err = s.err := by cases b <;> rfl
@[simp] theorem putBuf_inLen (s : State) (b : StageBuf) (v : Buffer) : (s.putBuf b v).inLen = s.inLen := by
  cases b <;> rfl
@[simp] theorem putBuf_outLen (s : State) (b : StageBuf) (v : Buffer) : (s.putBuf b v).outLen = s.outLen := by
  cases b <;> rfl
@[simp] theorem putBuf_cksum (s : State) (b : StageBuf) (v : Buffer) : (s.putBuf b v).cksum = s.cksum := by
  cases b <;> rfl
@[simp] theorem putBuf_cksumStored (s : State) (b : StageBuf) (v : Buffer) :
    (s.putBuf b v).cksumStored = s.cksumStored := by cases b <;> rfl
@[simp] theorem putBuf_phase (s : State) (b : StageBuf) (v : Buffer) : (s.putBuf b v).phase = s.phase := by
  cases b <;> rfl
@[simp] theorem putBuf_pos (s : State) (b : StageBuf) (v : Buffer) : (s.putBuf b v).pos = s.pos := by cases b <;> rfl
@[simp] theorem putBuf_flDelta (s : State) (b : StageBuf) (v : Buffer) : (s.putBuf b v).flDelta = s.flDelta := by
  cases b <;> rfl
@[simp] theorem putBuf_flLb (s : State) (b : StageBuf) (v : Buffer) : (s.putBuf b v).flLb = s.flLb := by
  cases b <;> rfl
@[simp] theorem putBuf_flHuf (s : State) (b : StageBuf) (v : Buffer) : (s.putBuf b v).flHuf = s.flHuf := by
  cases b <;> rfl
@[simp] theorem putBuf_acc (s : State) (b : StageBuf) (v : Buffer) : (s.putBuf b v).acc = s.acc := by cases b <;> rfl
@[simp] theorem putBuf_lb (s : State) (b : StageBuf) (v : Buffer) : (s.putBuf b v).lb = s.lb := by cases b <;> rfl
@[simp] theorem putBuf_mf (s : State) (b : StageBuf) (v : Buffer) : (s.putBuf b v).mf = s.mf := by cases b <;> rfl
@[simp] theorem putBuf_huf (s : State) (b : StageBuf) (v : Buffer) : (s.putBuf b v).huf = s.huf := by cases b <;> rfl
@[simp] theorem putBuf_inMem (s : State) (b : StageBuf) (v : Buffer) : (s.putBuf b v).inMem = s.inMem := by
  cases b <;> rfl
@[simp] theorem putBuf_out (s : State) (b : StageBuf) (v : Buffer) : (s.putBuf b v).out = s.out := by cases b <;> rfl
@[simp] theorem putBuf_maxBuf (s : State) (b : StageBuf) (v : Buffer) : (s.putBuf b v).maxBuf = s.maxBuf := by
  cases b <;> rfl
@[simp] theorem putBuf_max (s : State) (b : StageBuf) (v : Buffer) : (s.putBuf b v).max = s.max := by cases b <;> rfl
@[simp] theorem putBuf_src (s : State) (b : StageBuf) (v : Buffer) : (s.putBuf b v).src = s.src := by cases b <;> rfl
@[simp] theorem putBuf_ret (s : State) (b : StageBuf) (v : Buffer) : (s.putBuf b v).ret = s.ret := by cases b <;> rfl
@[simp] theorem putBuf_queue (s : State) (b : StageBuf) (v : Buffer) : (s.putBuf b v).queue = s.queue := by
  cases b <;> rfl
@[simp] theorem putBuf_hostData (s : State) (b : StageBuf) (v : Buffer) : (s.putBuf b v).hostData = s.hostData := by
  cases b <;> rfl
@[simp] theorem putBuf_freeReads (s : State) (b : StageBuf) (v : Buffer) : (s.putBuf b v).freeReads = s.freeReads := by
  cases b <;> rfl
@[simp] theorem putBuf_freeLits (s : State) (b : StageBuf) (v : Buffer) : (s.putBuf b v).freeLits = s.freeLits := by
  cases b <;> rfl
@[simp] theorem putBuf_input (s : State) (b : StageBuf) (v : Buffer) : (s.putBuf b v).input = s.input := by
  cases b <;> rfl

/-! ### Released buffers -/

@[simp] theorem release_data (b : Buffer) : b.release.data = [] := rfl
@[simp] theorem release_cap (b : Buffer) : b.release.cap = b.cap := rfl
@[simp] theorem release_wcur (b : Buffer) : b.release.wcur = {} := rfl
@[simp] theorem release_rcur (b : Buffer) : b.release.rcur = {} := rfl
@[simp] theorem release_len (b : Buffer) : b.release.len = 0 := rfl
@[simp] theorem release_release (b : Buffer) : b.release.release = b.release := rfl

/-! ### Errors, refusals, resets: the fields they write and the fields they keep -/

@[simp] theorem takeError_sb0 (e : Err) (s : State) : (takeError e s).sb0 = s.sb0.release := rfl
@[simp] theorem takeError_sb1 (e : Err) (s : State) : (takeError e s).sb1 = s.sb1.release := rfl
@[simp] theorem takeError_out (e : Err) (s : State) : (takeError e s).out = s.out.release := rfl
@[simp] theorem takeError_outLen (e : Err) (s : State) : (takeError e s).outLen = 0#64 := rfl
@[simp] theorem takeError_err (e : Err) (s : State) : (takeError e s).err = .raised e := rfl
@[simp] theorem takeError_done (e : Err) (s : State) : (takeError e s).done = true := rfl
@[simp] theorem takeError_phase (e : Err) (s : State) : (takeError e s).phase = .idle := rfl
@[simp] theorem takeError_seq (e : Err) (s : State) :
    (takeError e s).seq = if e = .internal then .fatal else .idle := rfl
@[simp] theorem takeError_inMem (e : Err) (s : State) : (takeError e s).inMem = s.inMem := rfl
@[simp] theorem takeError_inLen (e : Err) (s : State) : (takeError e s).inLen = s.inLen := rfl
@[simp] theorem takeError_cksum (e : Err) (s : State) : (takeError e s).cksum = s.cksum := rfl
@[simp] theorem takeError_cksumStored (e : Err) (s : State) : (takeError e s).cksumStored = s.cksumStored := rfl
@[simp] theorem takeError_lb (e : Err) (s : State) : (takeError e s).lb = s.lb := rfl
@[simp] theorem takeError_mf (e : Err) (s : State) : (takeError e s).mf = s.mf := rfl
@[simp] theorem takeError_huf (e : Err) (s : State) : (takeError e s).huf = s.huf := rfl
@[simp] theorem takeError_maxBuf (e : Err) (s : State) : (takeError e s).maxBuf = s.maxBuf := rfl
@[simp] theorem takeError_queue (e : Err) (s : State) : (takeError e s).queue = s.queue := rfl
@[simp] theorem takeError_ret (e : Err) (s : State) : (takeError e s).ret = s.ret := rfl

@[simp] theorem illegalCommand_err (s : State) : (illegalCommand s).err = .illegalCommand := rfl
@[simp] theorem illegalCommand_done (s : State) : (illegalCommand s).done = true := rfl
@[simp] theorem illegalCommand_outLen (s : State) : (illegalCommand s).outLen = 0#64 := rfl
@[simp] theorem illegalCommand_seq (s : State) : (illegalCommand s).seq = s.seq := rfl
@[simp] theorem illegalCommand_out (s : State) : (illegalCommand s).out = s.out := rfl
@[simp] theorem illegalCommand_maxBuf (s : State) : (illegalCommand s).maxBuf = s.maxBuf := rfl

/-- The width `POSW` of a position is that of `u64` (R8). -/
theorem posW_is_width : U64 = BitVec Config.barph.posW := rfl

@[simp] theorem resetWith_maxBuf (m : U64) : (State.resetWith m).maxBuf = m := rfl
@[simp] theorem resetWith_seq (m : U64) : (State.resetWith m).seq = .idle := rfl
@[simp] theorem resetWith_err (m : U64) : (State.resetWith m).err = .none := rfl
@[simp] theorem resetWith_inMem (m : U64) : (State.resetWith m).inMem = [] := rfl
@[simp] theorem resetBlock_maxBuf (s : State) : (resetBlock s).maxBuf = s.maxBuf := rfl
@[simp] theorem resetBlock_freeReads (s : State) : (resetBlock s).freeReads = s.freeReads := rfl
@[simp] theorem resetBlock_freeLits (s : State) : (resetBlock s).freeLits = s.freeLits := rfl
@[simp] theorem resetBlock_queue (s : State) : (resetBlock s).queue = s.queue := rfl
@[simp] theorem resetBlock_seq (s : State) : (resetBlock s).seq = .idle := rfl
@[simp] theorem resetBlock_err (s : State) : (resetBlock s).err = .none := rfl
@[simp] theorem resetBlock_inLen (s : State) : (resetBlock s).inLen = 0#64 := rfl
@[simp] theorem resetBlock_out (s : State) : (resetBlock s).out = {} := rfl
@[simp] theorem resetBlock_sb0 (s : State) : (resetBlock s).sb0 = {} := rfl
@[simp] theorem resetBlock_sb1 (s : State) : (resetBlock s).sb1 = {} := rfl

end Sys2Proof.Machine
end

