-- ==== Sys2Proof/Laws/Buffers.lean ====
section
/-! SUPPORT. What each buffer operation does, said once (spec 40_buffer_bitstream.md): its result and its only way to
stop. -/

namespace Sys2Proof.Machine

@[simp] theorem len_eq (b : Buffer) : b.len = b.data.length := rfl

/-- The bits of a little-endian byte sequence are those of its value (R11, R63). -/
theorem bitAt_leBytes (n : Nat) : ∀ (v k : Nat), k < 8 * n → bitAt (leBytes v n) k = v.testBit k := by
  induction n with
  | zero => intro v k h; omega
  | succ n ih =>
    intro v k h
    by_cases hk : k < 8
    · have h0 : k / 8 = 0 := by omega
      simp only [bitAt, leBytes, h0, Nat.mod_eq_of_lt hk, List.getD_cons_zero]
      simp [BitVec.getLsbD_ofNat, hk, -BitVec.getLsbD_eq_getElem]
    · obtain ⟨j, rfl⟩ : ∃ j, k = j + 8 := ⟨k - 8, by omega⟩
      have hj := ih (v / 256) j (by omega)
      have h1 : (j + 8) / 8 = j / 8 + 1 := by omega
      have h2 : (j + 8) % 8 = j % 8 := by omega
      simp only [bitAt, leBytes, h1, h2, List.getD_cons_succ] at hj ⊢
      rw [hj, show (256 : Nat) = 2 ^ 8 from rfl, Nat.testBit_div_two_pow]

/-- `ensure` answers with the capacity grown, or raises `InternalInvariantViolation` with the buffer as it was (R141,
R142). -/
theorem ensure_cases (max need : Nat) (b : Buffer) :
    (need ≤ max ∧ ensure max need b = .ok () { b with cap := growCap 64 need b.cap }) ∨
    (max < need ∧ ensure max need b = .stop (.raise .internal) b) := by
  unfold ensure
  split
  · exact .inr ⟨by assumption, rfl⟩
  · exact .inl ⟨by omega, rfl⟩

/-- Doubling growth never lowers the capacity (R36). -/
theorem growCap_ge (fuel need cap : Nat) : cap ≤ growCap fuel need cap := by
  induction fuel generalizing cap with
  | zero => exact Nat.le_refl _
  | succ n ih =>
    simp only [growCap]
    split
    · exact Nat.le_trans (by omega) (ih _)
    · exact Nat.le_refl _

/-- `GB.APPEND_BYTE` with room (R144). -/
theorem appendByte_room {max : Nat} {b : Buffer} (v : Byte) (h : b.len + 1 ≤ max) :
    appendByte max v b = .ok () { b with
      data := b.data ++ [v], cap := growCap 64 (b.len + 1) b.cap, wcur := { byte := b.len + 1, bit := 0 } } := by
  simp only [appendByte]
  rcases ensure_cases max (b.len + 1) b with ⟨_, he⟩ | ⟨h', _⟩
  · rw [he]; rfl
  · omega

/-- `GB.APPEND_BYTE` without room (R142, R144). -/
theorem appendByte_full {max : Nat} {b : Buffer} (v : Byte) (h : max < b.len + 1) :
    appendByte max v b = .stop (.raise .internal) b := by
  simp only [appendByte]
  rcases ensure_cases max (b.len + 1) b with ⟨h', _⟩ | ⟨_, he⟩
  · omega
  · rw [he]; rfl

/-- The appends of a byte sequence with room leave its bytes at the end and move no read cursor (R145). -/
theorem appendEach_room (max : Nat) (bs : List Byte) : ∀ b : Buffer, b.len + bs.length ≤ max →
    ∃ cap w, appendEach max bs b = .ok () { b with data := b.data ++ bs, cap := cap, wcur := w } ∧
      (bs ≠ [] → w = { byte := b.len + bs.length, bit := 0 }) ∧ (bs = [] → w = b.wcur ∧ cap = b.cap) := by
  induction bs with
  | nil => intro b _; exact ⟨b.cap, b.wcur, by simp [appendEach], by simp, by simp⟩
  | cons v vs ih =>
    intro b h
    simp only [List.length_cons, len_eq] at h
    rw [appendEach, appendByte_room v (by simp only [len_eq]; omega), Res.andThen_ok]
    obtain ⟨cap, w, he, h1, h2⟩ := ih { b with
      data := b.data ++ [v], cap := growCap 64 (b.len + 1) b.cap, wcur := { byte := b.len + 1, bit := 0 } }
      (by simp only [len_eq, List.length_append, List.length_cons, List.length_nil]; omega)
    refine ⟨cap, w, ?_, ?_, by simp⟩
    · rw [he]; simp
    · intro _
      by_cases hv : vs = []
      · subst hv; simpa using (h2 rfl).1
      · rw [h1 hv]; simp; omega

/-- `GB.APPEND_BYTES` with room (R145). -/
theorem appendBytes_room {max : Nat} {b : Buffer} (bs : List Byte) (h : b.len + bs.length ≤ max) :
    ∃ cap w, appendBytes max bs b = .ok () { b with data := b.data ++ bs, cap := cap, wcur := w } ∧
      (bs ≠ [] → w = { byte := b.len + bs.length, bit := 0 }) ∧ (bs = [] → w = b.wcur ∧ cap = b.cap) := by
  rw [appendBytes, if_neg (by omega)]
  exact appendEach_room max bs b h

/-- `GB.APPEND_BYTES` without room appends nothing (R145). -/
theorem appendBytes_full {max : Nat} {b : Buffer} (bs : List Byte) (h : max < b.len + bs.length) :
    appendBytes max bs b = .stop (.raise .internal) b := by
  rw [appendBytes, if_pos h]

/-- `GB.APPEND_BIT` inside a byte: the bit is set there, and nothing can fail (R146). -/
theorem appendBit_inside {max : Nat} {b : Buffer} (x : Bool) (h : b.wcur.bit ≠ 0) :
    appendBit max x b = .ok () { b with
      data := orBit b.data b.wcur.byte b.wcur.bit x
      wcur := if b.wcur.bit = 7 then { byte := b.wcur.byte + 1, bit := 0 }
              else { byte := b.wcur.byte, bit := b.wcur.bit + 1 } } := by
  simp [appendBit, h]

/-- `GB.APPEND_BIT` at a byte boundary, with room: a zero byte is appended and the bit is set in it (R146). -/
theorem appendBit_boundary {max : Nat} {b : Buffer} (x : Bool) (h : b.wcur.bit = 0) (hr : b.len + 1 ≤ max) :
    appendBit max x b = .ok () { b with
      data := orBit (b.data ++ [0#8]) b.wcur.byte 0 x
      cap := growCap 64 (b.len + 1) b.cap
      wcur := { byte := b.wcur.byte, bit := 1 } } := by
  simp only [appendBit, h, if_true]
  rcases ensure_cases max (b.len + 1) b with ⟨_, he⟩ | ⟨h', _⟩
  · rw [he]; simp [h]
  · omega

/-- `GB.APPEND_BIT` at a byte boundary, without room (R142, R146). -/
theorem appendBit_full {max : Nat} {b : Buffer} (x : Bool) (h : b.wcur.bit = 0) (hr : max < b.len + 1) :
    appendBit max x b = .stop (.raise .internal) b := by
  simp only [appendBit, h, if_true]
  rcases ensure_cases max (b.len + 1) b with ⟨h', _⟩ | ⟨_, he⟩
  · omega
  · rw [he]; rfl

/-- Everything `GB.READ_BITS` can answer (R148). -/
theorem readBits_cases (width : Nat) (b : Buffer) :
    (b.rbits + width ≤ 8 * b.len ∧
      readBits width b = .ok (bitsValue b.data b.rbits width) { b with rcur := Cursor.atBit (b.rbits + width) }) ∨
    (8 * b.len < b.rbits + width ∧ readBits width b = .stop (.raise .malformed) b) := by
  unfold readBits
  split
  · exact .inr ⟨by assumption, rfl⟩
  · exact .inl ⟨by omega, rfl⟩

/-- Everything `GB.READ_BYTES` can answer (R149). -/
theorem readBytes_cases (data : List Byte) (a n : Nat) :
    (a + n ≤ data.length ∧ readBytes data a n = some (slice data a n)) ∨
    (data.length < a + n ∧ readBytes data a n = none) := by
  unfold readBytes
  split
  · exact .inr ⟨by assumption, rfl⟩
  · exact .inl ⟨by omega, rfl⟩

/-- A cursor set at a bit number stands there (R31). -/
@[simp] theorem atBit_bits (k : Nat) : 8 * (Cursor.atBit k).byte + (Cursor.atBit k).bit = k := by
  simp only [Cursor.atBit]; omega

@[simp] theorem deltaDown_length (d : Nat) : ∀ (k : Nat) (b : List Byte), (deltaDown d k b).length = b.length
  | 0, _ => rfl
  | k + 1, b => by simp [deltaDown, deltaDown_length d k]

@[simp] theorem deltaUp_length (d : Nat) : ∀ (k p : Nat) (b : List Byte), (deltaUp d k p b).length = b.length
  | 0, _, _ => rfl
  | k + 1, p, b => by simp [deltaUp, deltaUp_length d k]

end Sys2Proof.Machine
end

