-- ==== Sys2Proof/Laws/Codecs.lean ====
section
/-! SUPPORT. What the shared operations of the codecs and of the pipeline do, said once each: their result and every way they
can stop. -/

namespace Sys2Proof.Machine

/-- An operation on a stage buffer returns with that buffer replaced, or stops with it as the operation left it. -/
theorem onBuf_cases {α : Type} (b : StageBuf) (op : Nat → Buffer → Res Buffer α) (s : State) :
    (∃ a v, op s.max (s.buf b) = .ok a v ∧ onBuf b op s = .ok a (s.putBuf b v)) ∨
    (∃ e v, op s.max (s.buf b) = .stop e v ∧ onBuf b op s = .stop e (s.putBuf b v)) := by
  unfold onBuf
  cases h : op s.max (s.buf b) with
  | ok a v => exact .inl ⟨a, v, rfl, rfl⟩
  | stop e v => exact .inr ⟨e, v, rfl, rfl⟩

/-- A copy into a fresh buffer with room (R248, R249). -/
theorem opCopy_room {s : State} (b : StageBuf) (bs : List Byte) (h : bs.length ≤ s.max) :
    ∃ cap, opCopy b bs s =
      .ok () (s.putBuf b { data := bs, cap := cap, wcur := { byte := bs.length, bit := 0 }, rcur := {} }) := by
  have hb : (s.releaseBuf b).buf b = (s.buf b).release := by simp [State.releaseBuf]
  have hm : (s.releaseBuf b).max = s.max := by simp [State.releaseBuf]
  obtain ⟨cap, w, he, h1, h2⟩ := appendBytes_room (max := s.max) (b := (s.buf b).release) bs (by simpa using h)
  refine ⟨cap, ?_⟩
  have hw : w = { byte := bs.length, bit := 0 } := by
    by_cases hn : bs = []
    · subst hn; exact (h2 rfl).1
    · simpa using h1 hn
  subst hw
  simp only [opCopy, onBuf]
  rw [hb, hm, he]
  simp [State.releaseBuf]

/-- A copy into a fresh buffer without room raises the fatal error (R142). -/
theorem opCopy_full {s : State} (b : StageBuf) (bs : List Byte) (h : s.max < bs.length) :
    opCopy b bs s = .stop (.raise .internal) (s.releaseBuf b) := by
  have hb : (s.releaseBuf b).buf b = (s.buf b).release := by simp [State.releaseBuf]
  have hm : (s.releaseBuf b).max = s.max := by simp [State.releaseBuf]
  simp only [opCopy, onBuf, hb, hm, appendBytes_full bs (b := (s.buf b).release) (max := s.max) (by simpa using h)]
  simp [State.releaseBuf]

/-- A stage that is off passes its buffer on (R28). -/
@[simp] theorem opStage_off (op : StageBuf → State → Res State Unit) (b : StageBuf) (s : State) :
    opStage false op b s = .ok b s := rfl

/-- A stage that is on runs and releases its input (R35, R248). -/
@[simp] theorem opStage_on (op : StageBuf → State → Res State Unit) (b : StageBuf) (s : State) :
    opStage true op b s = (op b s).andThen fun _ s => .ok b.other (s.releaseBuf b) := rfl

/-- The match copy with room appends as many bytes as asked, each the one `d` places back, and keeps the bytes before them
and the read cursor (R190). -/
theorem matchCopy_room (max d : Nat) : ∀ (n : Nat) (o : Buffer), o.len + n ≤ max → 1 ≤ d → d ≤ o.len →
    ∃ v, matchCopy max d n o = .ok () v ∧ v.rcur = o.rcur ∧ ∃ bs, bs.length = n ∧ v.data = o.data ++ bs ∧
      ∀ k, k < n → v.data.getD (o.len + k) 0#8 = v.data.getD (o.len + k - d) 0#8 := by
  intro n
  induction n with
  | zero => intro o _ _ _; exact ⟨o, rfl, rfl, [], rfl, by simp, by omega⟩
  | succ n ih =>
    intro o hr h1 h2
    simp only [len_eq] at hr h2
    let x := o.data.getD (o.data.length - d) 0#8
    let o1 : Buffer := { o with
      data := o.data ++ [x], cap := growCap 64 (o.len + 1) o.cap, wcur := { byte := o.len + 1, bit := 0 } }
    have hl1 : o1.data.length = o.data.length + 1 := by simp [o1]
    rw [matchCopy, appendByte_room _ (by simp only [len_eq]; omega), Res.andThen_ok]
    obtain ⟨v, hv, hrc, bs, hl, hd, hk⟩ := ih o1 (by simp only [len_eq, hl1]; omega) h1 (by simp only [len_eq, hl1]; omega)
    have hd' : v.data = o.data ++ (x :: bs) := by rw [hd]; simp [o1]
    refine ⟨v, hv, hrc, x :: bs, by simp [hl], hd', ?_⟩
    intro k hkn
    cases k with
    | zero =>
      have e1 : (o.data ++ x :: bs).getD (o.len + 0) 0#8 = x := by simp
      have e2 : (o.data ++ x :: bs).getD (o.len + 0 - d) 0#8 = x := by
        simp only [len_eq, Nat.add_zero, List.getD_eq_getElem?_getD, x]
        rw [List.getElem?_append_left (by omega)]
      rw [hd', e1, e2]
    | succ k =>
      have h := hk k (by omega)
      simp only [len_eq, hl1] at h ⊢
      rwa [show o.data.length + (k + 1) = o.data.length + 1 + k by omega]

/-- `LB.EMIT_LIT` with a header that counts its bytes (R181). -/
theorem opEmitLit_short {cfg : Config} {bytes : List Byte} (h : bytes.length ≤ cfg.litMax) (o : StageBuf) (s : State) :
    opEmitLit cfg o bytes s = onBuf o (fun bound => emitLit bound bytes) s := if_pos h

/-- `LB.EMIT_LIT` of more bytes than a header counts: one free value is used, and the rest is as R181 states it. -/
theorem opEmitLit_long {cfg : Config} {bytes : List Byte} (h : cfg.litMax < bytes.length) (o : StageBuf) (s : State) :
    opEmitLit cfg o bytes s =
      onBuf o (fun bound => emitLitWith (Config.freeLitByte s.freeLits) bound bytes) { s with freeLits := s.freeLits + 1 } :=
  if_neg (by omega)

/-- A distance field is consumed whole, or is malformed and changes nothing (R188). -/
theorem lbDistance_cases (S : List Byte) (t d : Nat) (c : LbDec) :
    (c.lb.ip + t ≤ S.length ∧
      lbDistance S t d c = .ok () { c with lb := { c.lb with ip := c.lb.ip + t, dist := d } }) ∨
    (S.length < c.lb.ip + t ∧ lbDistance S t d c = .stop (.raise .malformed) c) := by
  unfold lbDistance
  split
  · exact .inr ⟨by assumption, rfl⟩
  · exact .inl ⟨by omega, rfl⟩

/-- A length field cut short is malformed and moves `ip` past the bytes that are there (R188). -/
@[simp] theorem lbLengthCut_eq (S : List Byte) (c : LbDec) :
    lbLengthCut S c = .stop (.raise .malformed) { c with lb := { c.lb with ip := max c.lb.ip S.length } } := rfl

/-- A length field is cut short, or refers outside the output, or would pass the declared length, or its match is copied, the
first three being malformed (R188 to R190). -/
theorem lbLength_cases (S : List Byte) (bound h len : Nat) (c : LbDec) :
    (S.length < c.lb.ip + h ∧
      lbLength S bound h len c = .stop (.raise .malformed) { c with lb := { c.lb with ip := max c.lb.ip S.length } }) ∨
    (c.lb.ip + h ≤ S.length ∧ (c.lb.dist = 0 ∨ c.out.len < c.lb.dist ∨ c.lb.olen < c.out.len + len) ∧
      lbLength S bound h len c = .stop (.raise .malformed) { c with lb := { c.lb with ip := c.lb.ip + h } }) ∨
    (c.lb.ip + h ≤ S.length ∧ 1 ≤ c.lb.dist ∧ c.lb.dist ≤ c.out.len ∧ c.out.len + len ≤ c.lb.olen ∧
      lbLength S bound h len c = (matchCopy bound c.lb.dist len c.out).inside fun o =>
        { lb := { c.lb with ip := c.lb.ip + h }, out := o }) := by
  unfold lbLength
  split
  · exact .inl ⟨by assumption, rfl⟩
  · refine .inr ?_
    dsimp only
    split
    · rename_i h1 h2
      exact .inl ⟨by omega, h2.imp_right .inl, rfl⟩
    · split
      · exact .inl ⟨by omega, .inr (.inr (by assumption)), rfl⟩
      · exact .inr ⟨by omega, by omega, by omega, by omega, rfl⟩

/-- A node index is allocated, or the arena is full (R209). -/
theorem allocNode_cases (cfg : Config) (c : HufDec) :
    (c.huf.nnodes < cfg.hufMaxNodes ∧
      allocNode cfg c = .ok c.huf.nnodes { c with huf := { c.huf with nnodes := c.huf.nnodes + 1 } }) ∨
    (cfg.hufMaxNodes ≤ c.huf.nnodes ∧ allocNode cfg c = .stop (.raise .malformed) c) := by
  unfold allocNode
  split
  · exact .inr ⟨by assumption, rfl⟩
  · exact .inl ⟨by omega, rfl⟩

/-- Bits of the Huffman stream are read, or they run out and nothing is consumed (R148, R210). -/
theorem HufDec.bits_cases (c : HufDec) (width : Nat) :
    (c.inp.rbits + width ≤ 8 * c.inp.len ∧
      c.bits width = .ok (bitsValue c.inp.data c.inp.rbits width)
        { c with inp := { c.inp with rcur := Cursor.atBit (c.inp.rbits + width) } }) ∨
    (8 * c.inp.len < c.inp.rbits + width ∧ c.bits width = .stop (.raise .malformed) c) := by
  unfold HufDec.bits
  rcases readBits_cases width c.inp with ⟨h, e⟩ | ⟨h, e⟩
  · exact .inl ⟨h, by rw [e]; rfl⟩
  · exact .inr ⟨h, by rw [e]; rfl⟩

/-- One merge of the builder: a new internal node, or the assertion of R203. -/
theorem mergeTwo_cases (lo hi : Nat) (h : Huffman) :
    (Config.hufMaxMerges ≤ h.merges ∧ mergeTwo lo hi h = .stop (.raise .internal) h) ∨
    (h.merges < Config.hufMaxMerges ∧ ∃ wl,
      mergeTwo lo hi h = .ok () { h with
        node := tablePut {} h.node h.nnodes
          { kind := .internal hi lo, freq := (h.nodeAt hi).freq + (h.nodeAt lo).freq }
        merges := h.merges + 1
        wl := wl
        nnodes := h.nnodes + 1 }) := by
  unfold mergeTwo
  split
  · exact .inl ⟨by assumption, rfl⟩
  · exact .inr ⟨by omega, _, rfl⟩

end Sys2Proof.Machine
end

