-- ==== Sys2Proof/Laws/Memory.lean ====
section
/-! SUPPORT. The laws of the indexed tables and of the memory `IN`: a read after a write, and the canonical form that every
write keeps. -/

namespace Sys2Proof.Machine

variable {α : Type} [DecidableEq α]

/-- Every index of the table is above `k`. -/
def tableAbove (k : Nat) : List (Nat × α) → Prop
  | [] => True
  | (k', _) :: _ => k < k'

omit [DecidableEq α] in
theorem tableGet_of_above (d : α) {t : List (Nat × α)} {k j : Nat} (h : tableAbove k t) (hj : j ≤ k) :
    tableGet d t j = d := by
  cases t with
  | nil => rfl
  | cons e t => obtain ⟨k', v⟩ := e; simp only [tableAbove] at h; simp [tableGet, show j < k' by omega]

/-- The canonical form of a table that is not empty. -/
theorem tableWf_cons (d : α) (k : Nat) (v : α) (t : List (Nat × α)) :
    tableWf d ((k, v) :: t) = true ↔ v ≠ d ∧ tableAbove k t ∧ tableWf d t = true := by
  cases t with
  | nil => simp [tableWf, tableAbove]
  | cons e t => obtain ⟨k', v'⟩ := e; simp [tableWf, tableAbove, and_assoc]

theorem tablePut_above (d : α) {t : List (Nat × α)} {j k : Nat} {v : α} (h : tableAbove j t) (hk : j < k)
    (hw : tableWf d t = true) : tableAbove j (tablePut d t k v) := by
  cases t with
  | nil => simp only [tablePut]; split <;> simp [tableAbove, hk]
  | cons e t =>
    obtain ⟨k', v'⟩ := e
    simp only [tableAbove] at h
    rw [tableWf_cons] at hw
    simp only [tablePut]
    split
    · split <;> simp [tableAbove, h, hk]
    · split
      · split
        · obtain ⟨_, ha, _⟩ := hw
          cases t with
          | nil => trivial
          | cons e t => obtain ⟨k2, v2⟩ := e; simp only [tableAbove] at ha ⊢; omega
        · simp [tableAbove, hk]
      · simp [tableAbove, h]

/-- A write keeps the canonical form. -/
theorem tablePut_wf (d : α) (t : List (Nat × α)) (k : Nat) (v : α) (hw : tableWf d t = true) :
    tableWf d (tablePut d t k v) = true := by
  induction t with
  | nil => simp only [tablePut]; split <;> simp_all [tableWf]
  | cons e t ih =>
    obtain ⟨k', v'⟩ := e
    have hw' := hw
    rw [tableWf_cons] at hw'
    obtain ⟨hne, ha, ht⟩ := hw'
    simp only [tablePut]
    split
    · split
      · exact hw
      · rw [tableWf_cons]; exact ⟨by assumption, by simpa [tableAbove], hw⟩
    · split
      · split
        · exact ht
        · rw [tableWf_cons]; subst_vars; exact ⟨by assumption, ha, ht⟩
      · rw [tableWf_cons]
        exact ⟨hne, tablePut_above d ha (by omega) ht, ih ht⟩

/-- A read after a write: the written value at its index, the old one elsewhere. -/
theorem tableGet_tablePut (d : α) (t : List (Nat × α)) (k j : Nat) (v : α) (hw : tableWf d t = true) :
    tableGet d (tablePut d t k v) j = if j = k then v else tableGet d t j := by
  induction t with
  | nil =>
    simp only [tablePut]
    split
    · subst_vars; simp [tableGet]
    · simp only [tableGet]; split_ifs <;> first | rfl | omega
  | cons e t ih =>
    obtain ⟨k', v'⟩ := e
    rw [tableWf_cons] at hw
    obtain ⟨hne, ha, ht⟩ := hw
    simp only [tablePut]
    split
    · split
      · subst_vars
        by_cases hj : j = k
        · subst hj; simp [tableGet, *]
        · simp [hj]
      · simp only [tableGet]; split_ifs <;> first | rfl | omega
    · split
      · rename_i hkk
        subst hkk
        split
        · rename_i hv
          by_cases hj : j = k
          · subst hj; simp [tableGet_of_above d ha (Nat.le_refl _), hv]
          · simp only [hj, if_false, tableGet]
            split
            · exact tableGet_of_above d ha (by omega)
            · rfl
        · simp only [tableGet]; split_ifs <;> first | rfl | omega
      · simp only [tableGet, ih ht]
        split_ifs <;> first | rfl | omega

/-- Reading a written byte gives it, and every other byte is as before. -/
theorem Memory.read_write (m : List Host.Cell) (a b : Nat) (v : Byte) (hw : Memory.wf m = true) :
    Memory.read (Memory.write m a v) b = if b = a then v else Memory.read m b := tableGet_tablePut _ m a b v hw

/-- A write of a byte keeps the canonical form of the memory. -/
theorem Memory.write_wf (m : List Host.Cell) (a : Nat) (v : Byte) (hw : Memory.wf m = true) :
    Memory.wf (Memory.write m a v) = true := tablePut_wf _ m a v hw

/-- A write of several bytes keeps the canonical form of the memory. -/
theorem Memory.writeAll_wf (bs : List Byte) : ∀ (m : List Host.Cell) (a : Nat), Memory.wf m = true →
    Memory.wf (Memory.writeAll m a bs) = true := by
  induction bs with
  | nil => intro m a h; exact h
  | cons b bs ih => intro m a h; exact ih _ _ (Memory.write_wf m a b h)

/-- The memory after reset has the canonical form. -/
theorem reset_memory_wf : Memory.wf State.reset.inMem = true := rfl

@[simp] theorem Memory.range_length (m : List Host.Cell) (a n : Nat) : (Memory.range m a n).length = n := by
  simp [Memory.range]

@[simp] theorem input_length (s : State) : s.input.length = s.inLen.toNat := by simp [State.input]

end Sys2Proof.Machine
end

