-- ==== Sys2Proof/Laws/PerInstr.lean ====
section
/-! SUPPORT. Facts about every operation as syntax, one lemma per constructor. Family `Sized`: the encoder writes as many
bytes as the operation's size in bits takes. -/

namespace Sys2Proof

/-- `LE(v, n)` has `n` bytes (R11). -/
@[simp] theorem leBytes_length (v n : Nat) : (leBytes v n).length = n := by
  induction n generalizing v with
  | zero => rfl
  | succ n ih => simp [leBytes, ih]

/-- `FromLE` undoes `LE`, up to the bits that do not fit (R11). -/
theorem fromLE_leBytes (n : Nat) : ∀ v, fromLE (leBytes v n) = v % 256 ^ n := by
  induction n with
  | zero => intro v; simp [leBytes, fromLE, Nat.mod_one]
  | succ n ih =>
    intro v
    have h : v % 256 ^ (n + 1) = v % 256 + 256 * (v / 256 % 256 ^ n) := by rw [Nat.pow_succ', Nat.mod_mul]
    rw [leBytes, fromLE, ih, BitVec.toNat_ofNat, h]

/-- An operand that stands whole at the head of the bytes is read, and what follows it is left (R92, log entry 3). -/
theorem argLE_append {α : Type} {n : Nat} {a : List Byte} (h : a.length = n) (rest : List Byte) (k : Nat → List Byte → α) :
    argLE n (a ++ rest) k = k (fromLE a) rest := by
  simp [argLE, ← h]

end Sys2Proof

namespace Sys2Proof.Laws.Sized

-- One lemma after another: side by side, lemmas that wait for the same equations each hold a thread, and threads hold memory.
set_option Elab.async false

/-- The encoding of the operation has the whole bytes its size takes. -/
def Statement (i : Instr) : Prop := (encode i).length = (i.sizeBits + 7) / 8

theorem nop : Statement .nop := by
  simp [Statement, Instr.sizeBits, encode]

theorem compress : ∀ x_lb x_huf x_delta, Statement (.compress x_lb x_huf x_delta) := by
  intro x_lb x_huf x_delta; simp [Statement, Instr.sizeBits, encode]

theorem decompress : Statement .decompress := by
  simp [Statement, Instr.sizeBits, encode]

theorem reservedOp3 : Statement .reservedOp3 := by
  simp [Statement, Instr.sizeBits, encode]

theorem reservedOp4 : Statement .reservedOp4 := by
  simp [Statement, Instr.sizeBits, encode]

theorem reservedOp5 : Statement .reservedOp5 := by
  simp [Statement, Instr.sizeBits, encode]

theorem reservedOp6 : Statement .reservedOp6 := by
  simp [Statement, Instr.sizeBits, encode]

theorem reservedOp7 : Statement .reservedOp7 := by
  simp [Statement, Instr.sizeBits, encode]

theorem reservedOp8 : Statement .reservedOp8 := by
  simp [Statement, Instr.sizeBits, encode]

theorem reservedOp9 : Statement .reservedOp9 := by
  simp [Statement, Instr.sizeBits, encode]

theorem reservedOp10 : Statement .reservedOp10 := by
  simp [Statement, Instr.sizeBits, encode]

theorem reservedOp11 : Statement .reservedOp11 := by
  simp [Statement, Instr.sizeBits, encode]

theorem reservedOp12 : Statement .reservedOp12 := by
  simp [Statement, Instr.sizeBits, encode]

theorem reservedOp13 : Statement .reservedOp13 := by
  simp [Statement, Instr.sizeBits, encode]

theorem reservedOp14 : Statement .reservedOp14 := by
  simp [Statement, Instr.sizeBits, encode]

theorem reset : Statement .reset := by
  simp [Statement, Instr.sizeBits, encode]

theorem gbReserve : ∀ x_b x_extra, Statement (.gbReserve x_b x_extra) := by
  intro x_b x_extra; simp [Statement, Instr.sizeBits, encode]

theorem gbAppendByte : ∀ x_b x_v, Statement (.gbAppendByte x_b x_v) := by
  intro x_b x_v; simp [Statement, Instr.sizeBits, encode]

theorem gbAppendBytes : ∀ x_b x_s, Statement (.gbAppendBytes x_b x_s) := by
  intro x_b x_s; simp [Statement, Instr.sizeBits, encode]; omega

theorem gbAppendBit : ∀ x_b x_bit, Statement (.gbAppendBit x_b x_bit) := by
  intro x_b x_bit; simp [Statement, Instr.sizeBits, encode]

theorem gbAppendBits : ∀ x_b x_value x_width, Statement (.gbAppendBits x_b x_value x_width) := by
  intro x_b x_value x_width; simp [Statement, Instr.sizeBits, encode]

theorem gbReadBits : ∀ x_b x_width, Statement (.gbReadBits x_b x_width) := by
  intro x_b x_width; simp [Statement, Instr.sizeBits, encode]

theorem gbReadBytes : ∀ x_b x_a x_n, Statement (.gbReadBytes x_b x_a x_n) := by
  intro x_b x_a x_n; simp [Statement, Instr.sizeBits, encode]

theorem mfReset : Statement .mfReset := by
  simp [Statement, Instr.sizeBits, encode]

theorem mfInsert : ∀ x_i x_p, Statement (.mfInsert x_i x_p) := by
  intro x_i x_p; simp [Statement, Instr.sizeBits, encode]

theorem mfFindBest : ∀ x_i x_p, Statement (.mfFindBest x_i x_p) := by
  intro x_i x_p; simp [Statement, Instr.sizeBits, encode]

theorem mfMatchAt : ∀ x_i x_p, Statement (.mfMatchAt x_i x_p) := by
  intro x_i x_p; simp [Statement, Instr.sizeBits, encode]

theorem lbEmitLit : ∀ x_o x_s, Statement (.lbEmitLit x_o x_s) := by
  intro x_o x_s; simp [Statement, Instr.sizeBits, encode]; omega

theorem lbEmitMatch : ∀ x_o x_d x_len, Statement (.lbEmitMatch x_o x_d x_len) := by
  intro x_o x_d x_len; simp [Statement, Instr.sizeBits, encode]

theorem lbEncode : ∀ x_i, Statement (.lbEncode x_i) := by
  intro x_i; simp [Statement, Instr.sizeBits, encode]

theorem lbDecode : ∀ x_s, Statement (.lbDecode x_s) := by
  intro x_s; simp [Statement, Instr.sizeBits, encode]

theorem hufCount : ∀ x_i, Statement (.hufCount x_i) := by
  intro x_i; simp [Statement, Instr.sizeBits, encode]

theorem hufBuild : Statement .hufBuild := by
  simp [Statement, Instr.sizeBits, encode]

theorem hufAssign : Statement .hufAssign := by
  simp [Statement, Instr.sizeBits, encode]

theorem hufWriteTree : ∀ x_o x_i, Statement (.hufWriteTree x_o x_i) := by
  intro x_o x_i; simp [Statement, Instr.sizeBits, encode]

theorem hufEncode : ∀ x_i, Statement (.hufEncode x_i) := by
  intro x_i; simp [Statement, Instr.sizeBits, encode]

theorem hufReadTree : ∀ x_s, Statement (.hufReadTree x_s) := by
  intro x_s; simp [Statement, Instr.sizeBits, encode]

theorem hufDecode : ∀ x_s, Statement (.hufDecode x_s) := by
  intro x_s; simp [Statement, Instr.sizeBits, encode]

theorem dfForward : ∀ x_b x_d, Statement (.dfForward x_b x_d) := by
  intro x_b x_d; simp [Statement, Instr.sizeBits, encode]

theorem dfInverse : ∀ x_b x_d, Statement (.dfInverse x_b x_d) := by
  intro x_b x_d; simp [Statement, Instr.sizeBits, encode]

theorem ckSum : ∀ x_src, Statement (.ckSum x_src) := by
  intro x_src; simp [Statement, Instr.sizeBits, encode]

theorem conCompress : ∀ x_lb x_huf x_delta, Statement (.conCompress x_lb x_huf x_delta) := by
  intro x_lb x_huf x_delta; simp [Statement, Instr.sizeBits, encode]

theorem conDecompress : Statement .conDecompress := by
  simp [Statement, Instr.sizeBits, encode]

theorem lbHdr : ∀ x_n, Statement (.lbHdr x_n) := by
  intro x_n; simp [Statement, Instr.sizeBits, encode]

theorem litS : ∀ x_len, Statement (.litS x_len) := by
  intro x_len; simp [Statement, Instr.sizeBits, encode]

theorem litL : ∀ x_len, Statement (.litL x_len) := by
  intro x_len; simp [Statement, Instr.sizeBits, encode]

theorem dist1 : ∀ x_d, Statement (.dist1 x_d) := by
  intro x_d; simp [Statement, Instr.sizeBits, encode, encDist]

theorem dist2 : ∀ x_d, Statement (.dist2 x_d) := by
  intro x_d; simp [Statement, Instr.sizeBits, encode, encDist]

theorem dist3 : ∀ x_d, Statement (.dist3 x_d) := by
  intro x_d; simp [Statement, Instr.sizeBits, encode, encDist]

theorem dist4 : ∀ x_d, Statement (.dist4 x_d) := by
  intro x_d; simp [Statement, Instr.sizeBits, encode, encDist]

theorem dist5 : ∀ x_d, Statement (.dist5 x_d) := by
  intro x_d; simp [Statement, Instr.sizeBits, encode, encDist]

theorem distReserved : Statement .distReserved := by
  simp [Statement, Instr.sizeBits, encode]

theorem lenS : ∀ x_len, Statement (.lenS x_len) := by
  intro x_len; simp [Statement, Instr.sizeBits, encode]

theorem lenL : ∀ x_len, Statement (.lenL x_len) := by
  intro x_len; simp [Statement, Instr.sizeBits, encode]

theorem hufHdr : ∀ x_n, Statement (.hufHdr x_n) := by
  intro x_n; simp [Statement, Instr.sizeBits, encode]

theorem nodeI : Statement .nodeI := by
  simp [Statement, Instr.sizeBits, encode]

theorem nodeL : ∀ x_v, Statement (.nodeL x_v) := by
  intro x_v; simp [Statement, Instr.sizeBits, encode]

theorem sym : Statement .sym := by
  simp [Statement, Instr.sizeBits, encode]

theorem con : ∀ x_delta x_lb x_huf x_cksum, Statement (.con x_delta x_lb x_huf x_cksum) := by
  intro x_delta x_lb x_huf x_cksum; simp [Statement, Instr.sizeBits, encode, Config.barph]

end Sys2Proof.Laws.Sized
end

