-- ==== Sys2Proof/Tests/Slice0.lean ====
section
/-! SUPPORT. Tests of the model against words and values that the spec gives (the rule is named at each), and a witness for
the hypotheses of each statement that has some: a state and operands that meet all of them together. -/

namespace Sys2Proof.Tests

-- One test after another: side by side, tests that wait for the same equations each hold a thread, and threads hold memory.
set_option Elab.async false

open Sys2Proof Sys2Proof.Machine

/-- A stage buffer that holds the bytes, its write cursor at the end. -/
def bufOf (bs : List Byte) : Buffer := { data := bs, cap := 16, wcur := { byte := bs.length, bit := 0 }, rcur := {} }

/-- A block with the given bound, input and stage buffers, idle after reset. -/
def blockOf (max : Nat) (input a b : List Byte) : State :=
  { State.reset with
    maxBuf := BitVec.ofNat 64 max
    inMem := Memory.writeAll [] 0 input
    inLen := BitVec.ofNat 64 input.length
    sb0 := bufOf a
    sb1 := bufOf b }

/-- The outcome is a next state with the property. -/
def leads (o : Host.Outcome State Fault Refusal) (p : State → Bool) : Bool :=
  match o with
  | .next t => p t
  | _ => false

/-- The next state of an outcome that is one. -/
def nextOf (o : Host.Outcome State Fault Refusal) : State :=
  match o with
  | .next t => t
  | _ => State.reset

/-- An outcome that leads somewhere is the next state it leads to. -/
theorem leads_next {o : Host.Outcome State Fault Refusal} {p : State → Bool} (h : leads o p = true) :
    o = .next (nextOf o) ∧ p (nextOf o) = true := by
  cases o with
  | next t => exact ⟨rfl, h⟩
  | fault f => cases h
  | refused r => cases h

/-- The bytes of an ASCII text given by their codes. -/
def bytesOf (ns : List Nat) : List Byte := ns.map (BitVec.ofNat 8)

/-! ### Well-formedness -/

theorem test_wf_append_bits_64 : (Instr.gbAppendBits .sb0 1#64 64#8).wf = true := by decide
theorem test_wf_refuses_append_bits_65 : (Instr.gbAppendBits .sb0 1#64 65#8).wf = false := by decide
theorem test_wf_refuses_read_bits_65 : (Instr.gbReadBits .sb1 65#8).wf = false := by decide
theorem test_wf_refuses_literal_beyond_u64 (bs : List Byte) (h : bs.length = 2 ^ 64) :
    (Instr.lbEmitLit .sb0 bs).wf = false := by simp [Instr.wf, h]
theorem test_wf_refuses_sequence_beyond_u64 (bs : List Byte) (h : bs.length = 2 ^ 64) :
    (Instr.gbAppendBytes .sb0 bs).wf = false := by simp [Instr.wf, h]

/-! ### Words of the encodings -/

/-- Command words (R91, R93, R130), with ignored bits set in some. -/
theorem test_decode_commands :
    decode .cmd [0x00#8, 0x00#8, 0x00#8, 0x00#8] = .ok (.nop, 32) ∧
    decode .cmd [0xF1#8, 0xFD#8, 0xAB#8, 0xFF#8] = .ok (.compress true false 0xAB#8, 32) ∧
    decode .cmd [0x01#8, 0x02#8, 0x07#8, 0x00#8] = .ok (.compress false true 7#8, 32) ∧
    decode .cmd [0x02#8, 0x03#8, 0x00#8, 0x00#8] = .ok (.decompress, 32) ∧
    decode .cmd [0x0F#8, 0x00#8, 0x00#8, 0x00#8] = .ok (.reset, 32) := ⟨rfl, rfl, rfl, rfl, rfl⟩

/-- Reserved command words (R93). -/
theorem test_decode_reserved_commands :
    decodeCmd 0x03#32 = .reservedOp3 ∧ decodeCmd 0x04#32 = .reservedOp4 ∧ decodeCmd 0x05#32 = .reservedOp5 ∧
    decodeCmd 0x06#32 = .reservedOp6 ∧ decodeCmd 0x07#32 = .reservedOp7 ∧ decodeCmd 0x08#32 = .reservedOp8 ∧
    decodeCmd 0x09#32 = .reservedOp9 ∧ decodeCmd 0x0A#32 = .reservedOp10 ∧ decodeCmd 0x0B#32 = .reservedOp11 ∧
    decodeCmd 0x0C#32 = .reservedOp12 ∧ decodeCmd 0x0D#32 = .reservedOp13 ∧ decodeCmd 0xFE#32 = .reservedOp14 := by
  decide

/-- Select codes of the buffer operations (R92), with the model's operand bytes (log entry 3). -/
theorem test_decode_buffer_operations :
    decode .uop [0x01#8, 1#8, 9#8, 0#8, 0#8, 0#8, 0#8, 0#8, 0#8, 0#8] = .ok (.gbReserve .sb1 9#64, 80) ∧
    decode .uop [0x02#8, 0#8, 0x41#8] = .ok (.gbAppendByte .sb0 0x41#8, 24) ∧
    decode .uop [0x03#8, 0#8, 2#8, 0#8, 0#8, 0#8, 0#8, 0#8, 0#8, 0#8, 0x61#8, 0x62#8] =
      .ok (.gbAppendBytes .sb0 [0x61#8, 0x62#8], 96) ∧
    decode .uop [0x04#8, 1#8, 1#8] = .ok (.gbAppendBit .sb1 true, 24) ∧
    decode .uop [0x05#8, 0#8, 5#8, 0#8, 0#8, 0#8, 0#8, 0#8, 0#8, 0#8, 3#8] = .ok (.gbAppendBits .sb0 5#64 3#8, 88) ∧
    decode .uop [0x06#8, 0#8, 64#8] = .ok (.gbReadBits .sb0 64#8, 24) ∧
    decode .uop ([0x07#8, 0#8, 1#8, 0#8, 0#8, 0#8, 0#8, 0#8, 0#8, 0#8] ++ [2#8, 0#8, 0#8, 0#8, 0#8, 0#8, 0#8, 0#8]) =
      .ok (.gbReadBytes .sb0 1#64 2#64, 144) := ⟨rfl, rfl, rfl, rfl, rfl, rfl, rfl⟩

/-- The model's operand layout gives every operand byte a meaning (log entry 3): the code's byte has two bits more than the
code, an operand's byte more bits than the operand, and bytes that are missing are 0. -/
theorem test_decode_operands_total :
    decode .uop [0x59#8] = .ok (.hufBuild, 8) ∧ decode .uop [0x02#8, 0xFE#8, 7#8] = .ok (.gbAppendByte .sb0 7#8, 24) ∧
    decode .uop [0x01#8, 1#8, 9#8] = .ok (.gbReserve .sb1 9#64, 24) ∧
    decode .uop [0x03#8, 0#8, 2#8, 0#8, 0#8, 0#8, 0#8, 0#8, 0#8, 0#8, 0x61#8] = .ok (.gbAppendBytes .sb0 [0x61#8], 88) ∧
    decode .uop [0x06#8, 0#8, 65#8] = .ok (.gbReadBits .sb0 65#8, 24) ∧ decode .uop [] = .error .unusedSelect :=
  ⟨rfl, rfl, rfl, rfl, rfl, rfl⟩

/-- Select codes of the match finder and of the lookback codec (R92). -/
theorem test_decode_lookback_operations :
    decode .uop [0x08#8] = .ok (.mfReset, 8) ∧
    decode .uop [0x09#8, 0#8, 0#8, 1#8, 0#8, 0#8, 0#8, 0#8, 0#8, 0#8] = .ok (.mfInsert .sb0 256#64, 80) ∧
    decode .uop [0x0A#8, 1#8, 5#8, 0#8, 0#8, 0#8, 0#8, 0#8, 0#8, 0#8] = .ok (.mfFindBest .sb1 5#64, 80) ∧
    decode .uop [0x0B#8, 0#8, 5#8, 0#8, 0#8, 0#8, 0#8, 0#8, 0#8, 0#8] = .ok (.mfMatchAt .sb0 5#64, 80) ∧
    decode .uop [0x10#8, 0#8, 1#8, 0#8, 0#8, 0#8, 0#8, 0#8, 0#8, 0#8, 0x41#8] = .ok (.lbEmitLit .sb0 [0x41#8], 88) ∧
    decode .uop ([0x11#8, 0#8, 1#8, 0#8, 0#8, 0#8, 0#8, 0#8, 0#8, 0#8] ++ [0x2B#8, 1#8, 0#8, 0#8, 0#8, 0#8, 0#8, 0#8]) =
      .ok (.lbEmitMatch .sb0 1#64 299#64, 144) ∧
    decode .uop [0x12#8, 0#8] = .ok (.lbEncode .sb0, 16) ∧
    decode .uop [0x13#8, 1#8] = .ok (.lbDecode .sb1, 16) := ⟨rfl, rfl, rfl, rfl, rfl, rfl, rfl, rfl⟩

/-- Select codes of the Huffman codec (R92). -/
theorem test_decode_huffman_operations :
    decode .uop [0x18#8, 0#8] = .ok (.hufCount .sb0, 16) ∧ decode .uop [0x19#8] = .ok (.hufBuild, 8) ∧
    decode .uop [0x1A#8] = .ok (.hufAssign, 8) ∧
    decode .uop [0x1B#8, 1#8, 0xFE#8, 1#8] = .ok (.hufWriteTree .sb1 510#9, 32) ∧
    decode .uop [0x1C#8, 0#8] = .ok (.hufEncode .sb0, 16) ∧ decode .uop [0x1D#8, 0#8] = .ok (.hufReadTree .sb0, 16) ∧
    decode .uop [0x1E#8, 1#8] = .ok (.hufDecode .sb1, 16) := ⟨rfl, rfl, rfl, rfl, rfl, rfl, rfl⟩

/-- Select codes of the filter, the checksum and the container (R92). -/
theorem test_decode_container_operations :
    decode .uop [0x20#8, 0#8, 3#8] = .ok (.dfForward .sb0 3#8, 24) ∧
    decode .uop [0x21#8, 1#8, 3#8] = .ok (.dfInverse .sb1 3#8, 24) ∧
    decode .uop [0x28#8, 0#8] = .ok (.ckSum .input, 16) ∧
    decode .uop [0x28#8, 2#8] = .ok (.ckSum (.stage .sb1), 16) ∧
    decode .uop [0x29#8, 1#8, 0#8, 5#8] = .ok (.conCompress true false 5#8, 32) ∧
    decode .uop [0x2A#8] = .ok (.conDecompress, 8) := ⟨rfl, rfl, rfl, rfl, rfl, rfl⟩

/-- Literal headers and headers of streams (R95, R97, R98, R103, R110). -/
theorem test_decode_stream_headers :
    decode .lbHdr [0x2C#8, 1#8, 0#8, 0#8, 0#8, 0#8, 0#8, 0#8] = .ok (.lbHdr 300#64, 64) ∧
    decode .hufHdr [0x0B#8, 0#8, 0#8, 0#8, 0#8, 0#8, 0#8, 0x80#8] = .ok (.hufHdr 0x800000000000000B#64, 64) ∧
    decode .lbToken [0xFC#8] = .ok (.litS 63#6, 8) ∧ decode .lbToken [0xFE#8, 0xFF#8] = .ok (.litL 16383#14, 16) ∧
    decode .lbToken [0x02#8] = .error .truncated := ⟨rfl, rfl, rfl, rfl, rfl⟩

/-- Distance fields (R99, R101, R104, R105). -/
theorem test_decode_distances :
    decode .lbToken [0xFD#8] = .ok (.dist1 0x3F#6, 8) ∧ decode .lbToken [0x0B#8, 0x00#8] = .ok (.dist2 1#13, 16) ∧
    decode .lbToken [0x07#8, 0x00#8, 0x02#8] = .ok (.dist3 0x2000#20, 24) ∧
    decode .lbToken [0xEF#8, 0xFF#8, 0xFF#8, 0xFF#8] = .ok (.dist4 0x7FFFFFF#27, 32) ∧
    decode .lbToken [0xDF#8, 0xFF#8, 0xFF#8, 0xFF#8, 0xFF#8] = .ok (.dist5 0x3FFFFFFFF#34, 40) ∧
    decode .lbToken [0x3F#8] = .ok (.distReserved, 8) ∧ decode .lbToken [0xFF#8] = .ok (.distReserved, 8) :=
  ⟨rfl, rfl, rfl, rfl, rfl, rfl, rfl⟩

/-- Length fields (R102, R103), tree nodes (R111), a coded byte (R113), the container header (R120). -/
theorem test_decode_lengths_nodes_container :
    decode .lbLen [0xFE#8] = .ok (.lenS 127#7, 8) ∧ decode .lbLen [0x01#8, 0x01#8] = .ok (.lenL 128#15, 16) ∧
    decode .hufNode [0x01#8, 0x00#8] = .ok (.nodeI, 1) ∧ decode .hufNode [0x82#8, 0x00#8] = .ok (.nodeL 0x41#8, 9) ∧
    decode .hufSym [] = .ok (.sym, 0) ∧
    decode .con (bytesOf [0x42, 0x41, 0x52, 0x50, 0x48, 1, 5, 0, 2, 0x35, 0x18, 0x1F, 0xE0]) =
      .ok (.con 5#8 0#8 2#8 0xE01F1835#32, 104) ∧
    decode .con (bytesOf [0x42, 0x41, 0x52, 0x50, 0x48, 2]) = .error .badMagic ∧
    decode .con (bytesOf [0x42, 0x41, 0x52, 0x50, 0x48, 1, 0]) = .error .truncated :=
  ⟨rfl, rfl, rfl, rfl, rfl, rfl, rfl, rfl⟩

/-! ### One operation each -/

/-- R243, after an error: the result registers stay. -/
theorem test_nop_keeps_status :
    leads (exec .nop { State.reset with err := .raised .checksum, done := true }) (fun t => decide (t.status = 0x310#32)) =
      true := by decide

/-- R241's example, on one byte: `IN` = 41, both codecs off. -/
theorem test_compress_frames_byte :
    leads (exec (.compress false false 0#8) (blockOf 100 [0x41#8] [] [])) (fun t =>
      decide (t.status = 0x10#32 ∧ t.out.data = bytesOf [0x42, 0x41, 0x52, 0x50, 0x48, 1, 0, 0, 0, 0xCC, 0xF6, 0x0B, 0xC4,
        0x41])) = true := by decide +kernel

/-- R248's example: `huf=1` alone on "abc". -/
theorem test_compress_huffman_abc :
    leads (exec (.compress false true 0#8) (blockOf 100 (bytesOf [0x61, 0x62, 0x63]) [] [])) (fun t =>
      decide (t.out.data = bytesOf [0x42, 0x41, 0x52, 0x50, 0x48, 1, 0, 0, 1, 0x28, 0x5D, 0x4A, 0x3C,
        3, 0, 0, 0, 0, 0, 0, 0, 0x13, 0x33, 0x26, 0x2C, 2])) = true := by decide +kernel

/-- R249's example: the delta-only container of "abc". -/
theorem test_decompress_delta_abc :
    leads (exec .decompress (blockOf 100 (bytesOf [0x42, 0x41, 0x52, 0x50, 0x48, 1, 1, 0, 0, 0x28, 0x5D, 0x4A, 0x3C,
        0x61, 1, 1]) [] [])) (fun t =>
      decide (t.err = .none ∧ t.out.data = bytesOf [0x61, 0x62, 0x63] ∧ t.outLen = 3#64)) = true := by decide +kernel

/-- R252's example: a stored checksum of 0 is compared. -/
theorem test_decompress_zero_checksum_is_compared :
    leads (exec .decompress (blockOf 100 (bytesOf [0x42, 0x41, 0x52, 0x50, 0x48, 1, 0, 0, 0, 0, 0, 0, 0,
        0x61, 0x62, 0x63]) [] [])) (fun t =>
      decide (t.err = .raised .checksum ∧ t.cksum = 0x3C4A5D28#32 ∧ t.cksumStored = 0#32 ∧ t.outLen = 0#64)) = true := by
  decide +kernel

/-- R245: each reserved `OP` is refused, `OUT_LEN` drops to 0 and `OUT`'s bytes stay. -/
theorem test_reserved_ops_are_refused :
    ([.reservedOp3, .reservedOp4, .reservedOp5, .reservedOp6, .reservedOp7, .reservedOp8, .reservedOp9, .reservedOp10,
      .reservedOp11, .reservedOp12, .reservedOp13, .reservedOp14] : List Instr).all (fun i =>
        leads (exec i { State.reset with outLen := 1#64, out := bufOf [7#8] }) (fun t =>
          decide (t.status = 0x510#32 ∧ t.outLen = 0#64 ∧ t.out.data = [7#8]))) = true := by decide

/-- R244's example: `RESET` out of `FATAL` with `STATUS = 0x00000412`. -/
theorem test_reset_leaves_fatal :
    leads (exec .reset (takeError .internal (blockOf 8 [1#8] [2#8] []))) (fun t =>
      decide ((takeError .internal (blockOf 8 [1#8] [2#8] [])).status = 0x412#32 ∧ t.status = 0#32 ∧ t.inLen = 0#64)) =
      true := by decide

/-- R143's example: a fresh buffer, `extra = 9`. -/
theorem test_reserve_9_gives_cap_16 :
    leads (exec (.gbReserve .sb0 9#64) State.reset) (fun t => decide (t.sb0.cap = 16 ∧ t.sb0.len = 0)) = true := by decide

/-- R144's example. -/
theorem test_append_byte :
    leads (exec (.gbAppendByte .sb0 0x41#8) (blockOf 100 [] [0x04#8] [])) (fun t =>
      decide (t.sb0.data = [0x04#8, 0x41#8] ∧ t.sb0.wcur = { byte := 2, bit := 0 })) = true := by decide

/-- R145: past the bound nothing is appended and the block is `FATAL`. -/
theorem test_append_bytes_past_bound_is_fatal :
    leads (exec (.gbAppendBytes .sb1 [1#8, 2#8]) (blockOf 8 [] [] (List.replicate 7 0#8))) (fun t =>
      decide (t.status = 0x412#32 ∧ t.sb1.data = [])) = true := by decide

/-- R146's example, the last of its three bits. -/
theorem test_append_bit :
    leads (exec (.gbAppendBit .sb0 true) { State.reset with sb0 := { data := [1#8], cap := 8, wcur := { byte := 0, bit := 2 } } })
      (fun t => decide (t.sb0.data = [5#8] ∧ t.sb0.wcur = { byte := 0, bit := 3 })) = true := by decide

/-- R147's example: nine bits after three. -/
theorem test_append_bits_cross_byte :
    leads (exec (.gbAppendBits .sb0 0x1FF#64 9#8)
        { State.reset with sb0 := { data := [5#8], cap := 8, wcur := { byte := 0, bit := 3 } } })
      (fun t => decide (t.sb0.data = [0xFD#8, 0x0F#8] ∧ t.sb0.wbits = 12)) = true := by decide

/-- R148's example: the second read, and the third, which raises. -/
theorem test_read_bits :
    leads (exec (.gbReadBits .sb0 9#8) { State.reset with sb0 := { bufOf [0xFD#8, 0x0F#8] with rcur := { byte := 0, bit := 3 } } })
        (fun t => decide (t.ret = .value 511 ∧ t.sb0.rcur = { byte := 1, bit := 4 })) = true ∧
    leads (exec (.gbReadBits .sb0 5#8) { State.reset with sb0 := { bufOf [0xFD#8, 0x0F#8] with rcur := { byte := 1, bit := 4 } } })
        (fun t => decide (t.err = .raised .malformed)) = true := by decide

/-- R149's example. -/
theorem test_read_bytes :
    leads (exec (.gbReadBytes .sb0 1#64 2#64) (blockOf 100 [] [0x04#8, 0x41#8, 0x05#8] [])) (fun t =>
      decide (t.ret = .bytes [0x41#8, 0x05#8])) = true := by decide

/-- R163's example, the insertion of position 4 in a full bucket. -/
theorem test_push_evicts_oldest :
    ({ slot := [0, 1, 2, 3], cur := 0, cnt := 4 } : Bucket).push Config.barph 4 = { slot := [4, 1, 2, 3], cur := 1, cnt := 4 } ∧
    ({ slot := [4, 5, 2, 3], cur := 2, cnt := 4 } : Bucket).newestFirst Config.barph = [5, 4, 3, 2] := by decide

/-- R161's values of the hash. -/
theorem test_hash_values :
    mfHash Config.barph (bytesOf [0x41, 0x41, 0x41, 0x41]) 0 = 0x18EC ∧ mfHash Config.barph (bytesOf [0, 0, 0, 0]) 0 = 0 ∧
    mfHash Config.barph (bytesOf [1, 0, 0, 0]) 0 = 0x9E37 ∧ mfHash Config.barph (bytesOf [0xFF, 0xFF, 0xFF, 0xFF]) 0 = 0x61C8 ∧
    mfHash Config.barph (bytesOf [0x61, 0x62, 0x63, 0x61]) 0 = 0x500D := by decide +kernel

/-- `MF.RESET` and `MF.INSERT` on the table (R162, R163). -/
theorem test_insert_after_reset :
    leads (exec (.mfInsert .sb0 0#64) (nextOf (exec .mfReset (blockOf 100 [] (bytesOf [1, 0, 0, 0]) [])))) (fun t =>
      decide (t.mf.mt = [(0x9E37, { slot := [0, 0, 0, 0], cur := 1, cnt := 1 })])) = true := by decide +kernel

/-- A table in which the bucket of "aaaa" holds position 0. -/
def tableOfA : MatchFinder := { mt := [(mfHash Config.barph (bytesOf [0x61, 0x61, 0x61, 0x61]) 0, { slot := [0, 0, 0, 0], cur := 1, cnt := 1 })] }

/-- A run of six bytes at position 1: `mlen = 5` (R165), distance 1 (R166). -/
theorem test_search_in_run :
    leads (exec (.mfFindBest .sb0 1#64) { blockOf 100 [] (List.replicate 6 0x61#8) [] with mf := tableOfA }) (fun t =>
      decide (t.ret = .pair 0 5)) = true ∧
    leads (exec (.mfMatchAt .sb0 1#64) { blockOf 100 [] (List.replicate 6 0x61#8) [] with mf := tableOfA }) (fun t =>
      decide (t.ret = .pair 1 5)) = true := by decide +kernel

/-- R181's and R182's examples. -/
theorem test_emit_tokens :
    leads (exec (.lbEmitLit .sb0 [0x41#8]) State.reset) (fun t => decide (t.sb0.data = [0x04#8, 0x41#8])) = true ∧
    leads (exec (.lbEmitMatch .sb0 1#64 299#64) State.reset) (fun t =>
      decide (t.sb0.data = [0x05#8, 0x57#8, 0x02#8])) = true ∧
    leads (exec (.lbEmitMatch .sb0 0x2000#64 5#64) State.reset) (fun t =>
      decide (t.sb0.data = [0x07#8, 0x00#8, 0x02#8, 0x0A#8])) = true := by decide +kernel

/-- A run longer than the headers can count (here with another `LITMAX`): R181's first header byte, some second one, and the
bytes. -/
theorem test_emit_literal_above_litmax :
    (match opEmitLit { Config.barph with litMax := 63 } .sb0 (List.replicate 64 7#8) (blockOf 100 [] [] []) with
      | .ok _ t => decide (t.sb0.data.length = 66 ∧ t.sb0.data.getD 0 0#8 = 2#8 ∧ t.sb0.data.drop 2 = List.replicate 64 7#8 ∧
          t.freeLits = 1)
      | .stop _ _ => false) = true := by decide +kernel

/-- R183's example, one period shorter: "abcabcabc" is `HDR(9) L("abc") M(3, 6)`. -/
theorem test_lookback_encode_abc :
    leads (exec (.lbEncode .sb0) (blockOf 100 [] (bytesOf [0x61, 0x62, 0x63, 0x61, 0x62, 0x63, 0x61, 0x62, 0x63]) []))
      (fun t => decide (t.sb1.data = bytesOf [9, 0, 0, 0, 0, 0, 0, 0, 0x0C, 0x61, 0x62, 0x63, 0x0D, 0x0C])) = true := by
  decide +kernel

/-- R185's example. -/
theorem test_lookback_decode_example :
    leads (exec (.lbDecode .sb0) (blockOf 100 [] (bytesOf [0x0E, 0, 0, 0, 0, 0, 0, 0, 0x14, 0x61, 0x62, 0x63, 0x64, 0x58,
        0x15, 8, 4, 0x59, 0x15, 8]) []))
      (fun t => decide (t.sb1.data = bytesOf [0x61, 0x62, 0x63, 0x64, 0x58, 0x61, 0x62, 0x63, 0x64, 0x59, 0x61, 0x62, 0x63,
        0x64])) = true := by decide +kernel

/-- R200's counts, R205's codes of "AB", and R208's stream of "AB". -/
theorem test_huffman_ab :
    leads (exec (.hufCount .sb0) (blockOf 100 [] (bytesOf [0x61, 0x62, 0x61]) [])) (fun t =>
      decide (t.huf.freq = [(0x61, 2), (0x62, 1)])) = true ∧
    leads (exec (.hufEncode .sb0) (blockOf 100 [] [0x41#8, 0x42#8] [])) (fun t =>
      decide (t.sb1.data = bytesOf [2, 0, 0, 0, 0, 0, 0, 0, 5, 0x11, 0x12] ∧
        t.huf.code = [(0x41, [false]), (0x42, [true])])) = true := by decide +kernel

/-- The state of the builder on "abracadabra" (R201's example). -/
def abra : State := nextOf (exec (.hufCount .sb0) (blockOf 100 [] (bytesOf [0x61, 0x62, 0x72, 0x61, 0x63, 0x61, 0x64, 0x61,
  0x62, 0x72, 0x61]) []))

/-- R201's and R205's examples: nine nodes, and the codes of a, b, r, c, d. -/
theorem test_huffman_abracadabra :
    leads (exec .hufBuild abra) (fun t => decide (t.huf.nnodes = 9 ∧ t.huf.root = 8) &&
      leads (exec .hufAssign t) (fun u => decide (u.huf.codeAt 0x61 = [true] ∧ u.huf.codeAt 0x62 = [false, true] ∧
        u.huf.codeAt 0x72 = [false, false, false] ∧ u.huf.codeAt 0x63 = [false, false, true, false] ∧
        u.huf.codeAt 0x64 = [false, false, true, true]))) = true := by decide +kernel

/-- The arena of the tree of "AB" (R207's example). -/
def arenaAB : Huffman :=
  { node := [(0, { kind := .leaf 0x41#8, freq := 1 }), (1, { kind := .leaf 0x42#8, freq := 1 }),
      (2, { kind := .internal 0 1, freq := 2 })]
    nnodes := 3
    root := 2 }

/-- R207's example: the 19 bits of the tree of "AB", and R209's, which reads them back. -/
theorem test_write_and_read_tree :
    leads (exec (.hufWriteTree .sb0 2#9) { State.reset with huf := arenaAB }) (fun t =>
      decide (t.sb0.data = [0x05#8, 0x11#8, 0x02#8] ∧ t.sb0.wbits = 19)) = true ∧
    leads (exec (.hufReadTree .sb0) (blockOf 100 [] [0x05#8, 0x11#8, 0x02#8] [])) (fun t =>
      decide (t.huf.node = [(0, { kind := .internal 1 2, freq := 0 }), (1, { kind := .leaf 0x41#8, freq := 0 }),
        (2, { kind := .leaf 0x42#8, freq := 0 })] ∧ t.huf.root = 0 ∧ t.sb0.rbits = 19)) = true := by decide +kernel

/-- R210's examples: five symbols of a one-leaf tree; nine do not fit. -/
theorem test_huffman_decode_one_leaf :
    leads (exec (.hufDecode .sb0) (blockOf 100 [] (bytesOf [5, 0, 0, 0, 0, 0, 0, 0, 0x82, 0]) [])) (fun t =>
      decide (t.sb1.data = List.replicate 5 0x41#8)) = true ∧
    leads (exec (.hufDecode .sb0) (blockOf 100 [] (bytesOf [9, 0, 0, 0, 0, 0, 0, 0, 0x82, 0]) [])) (fun t =>
      decide (t.err = .raised .malformed)) = true := by decide +kernel

/-- R231's and R232's examples. -/
theorem test_delta_filter :
    leads (exec (.dfForward .sb0 1#8) (blockOf 100 [] (bytesOf [0x0A, 0x14, 5, 0xFA, 0]) [])) (fun t =>
      decide (t.sb0.data = bytesOf [0x0A, 0x0A, 0xF1, 0xF5, 6])) = true ∧
    leads (exec (.dfInverse .sb0 1#8) (blockOf 100 [] (bytesOf [0x0A, 0x0A, 0xF1, 0xF5, 6]) [])) (fun t =>
      decide (t.sb0.data = bytesOf [0x0A, 0x14, 5, 0xFA, 0])) = true := by decide +kernel

/-- R247's values. -/
theorem test_checksum_values :
    ckSum Config.barph [] = 0x811C9DC5#32 ∧ ckSum Config.barph [0x41#8] = 0xC40BF6CC#32 ∧ ckSum Config.barph (bytesOf [0x41, 0x42]) = 0x2DD5231D#32 ∧
    ckSum Config.barph (bytesOf [0x61, 0x62, 0x63]) = 0x3C4A5D28#32 ∧ ckSum Config.barph [0#8, 0#8] = 0x1076963A#32 := by decide +kernel

/-- `CK.SUM`, `CON.COMPRESS` and `CON.DECOMPRESS` as unit operations (R247 to R249). -/
theorem test_container_operations :
    leads (exec (.ckSum .input) (blockOf 100 [0x41#8] [] [])) (fun t => decide (t.ret = .value 0xC40BF6CC)) = true ∧
    leads (exec (.conCompress true false 0#8) (blockOf 100 (bytesOf [0x61, 0x62, 0x63]) [] [])) (fun t =>
      decide (t.out.data = bytesOf [0x42, 0x41, 0x52, 0x50, 0x48, 1, 0, 1, 0, 0x28, 0x5D, 0x4A, 0x3C,
        3, 0, 0, 0, 0, 0, 0, 0, 0x0C, 0x61, 0x62, 0x63] ∧ t.done = false)) = true ∧
    leads (exec .conDecompress (blockOf 100 (bytesOf [0x42, 0x41, 0x52, 0x50, 0x48, 1, 0, 1, 0, 0x28, 0x5D, 0x4A, 0x3C,
        3, 0, 0, 0, 0, 0, 0, 0, 0x0C, 0x61, 0x62, 0x63]) [] [])) (fun t =>
      decide (t.out.data = bytesOf [0x61, 0x62, 0x63] ∧ t.flLb = true)) = true := by decide +kernel

/-- A lookback stream met element by element: the header, a literal, a distance and a length (R186 to R190). -/
def midStream : State :=
  { blockOf 100 [] (bytesOf [8, 0, 0, 0, 0, 0, 0, 0, 0x0C, 0x61, 0x62, 0x63, 0x0D, 0x0A]) [] with src := .sb0 }

/-- R190's example: "abc", then (3, 5), gives "abcabcab". -/
theorem test_elements_of_lookback_stream :
    leads (exec (.lbHdr 8#64) midStream) (fun t => decide (t.lb.olen = 8 ∧ t.lb.ip = 8) &&
      leads (exec (.litS 3#6) t) (fun t => decide (t.sb1.data = bytesOf [0x61, 0x62, 0x63] ∧ t.lb.ip = 12) &&
        leads (exec (.dist1 3#6) t) (fun t => decide (t.lb.dist = 3 ∧ t.lb.ip = 13) &&
          leads (exec (.lenS 5#7) t) (fun t =>
            decide (t.sb1.data = bytesOf [0x61, 0x62, 0x63, 0x61, 0x62, 0x63, 0x61, 0x62]))))) = true := by decide +kernel

/-- The long forms and the larger classes move the cursor by their own sizes (R187, R188). -/
theorem test_element_sizes :
    ([(.dist2 5#13, 10), (.dist3 5#20, 11), (.dist4 5#27, 12), (.dist5 5#34, 13)] : List (Instr × Nat)).all (fun e =>
      leads (exec e.1 { midStream with lb := { ip := 8, olen := 8 } }) (fun t =>
        decide (t.lb.dist = 5 ∧ t.lb.ip = e.2))) = true ∧
    leads (exec (.litL 4#14) { midStream with lb := { ip := 8, olen := 8 } }) (fun t =>
      decide (t.lb.ip = 14 ∧ t.sb1.data = bytesOf [0x62, 0x63, 0x0D, 0x0A])) = true ∧
    leads (exec (.lenL 2#15) { midStream with sb1 := bufOf [1#8], lb := { ip := 8, olen := 8, dist := 1 } }) (fun t =>
      decide (t.lb.ip = 10 ∧ t.sb1.data = [1#8, 1#8, 1#8])) = true ∧
    leads (exec .distReserved midStream) (fun t => decide (t.err = .raised .malformed ∧ t.seq = .idle)) = true := by
  decide +kernel

/-- A length field whose extension byte is missing has been passed as far as it is there (R188), met as LEN.L or read by its
decoder. -/
theorem test_length_field_cut :
    leads (exec (.lenL 2#15) { blockOf 8 [] [3#8] [1#8] with lb := { olen := 8, dist := 1 } }) (fun t =>
      decide (t.err = .raised .malformed ∧ t.lb.ip = 1)) = true ∧
    leads (step { blockOf 8 [] [3#8] [1#8] with lb := { olen := 8, dist := 1 }, queue := [.wire .lbLen] }) (fun t =>
      decide (t.err = .raised .malformed ∧ t.lb.ip = 1)) = true := by decide +kernel

/-- The elements of the stream of "AB" (R208's example): header, tree, two codes. -/
theorem test_elements_of_huffman_stream :
    leads (exec (.hufHdr 2#64) (blockOf 100 [] (bytesOf [2, 0, 0, 0, 0, 0, 0, 0, 5, 0x11, 0x12]) [])) (fun t =>
      decide (t.huf.hlen = 2 ∧ t.sb0.rbits = 64) &&
      leads (exec .nodeI t) (fun t => decide (t.huf.nnodes = 3 ∧ t.sb0.rbits = 83) &&
        leads (exec .sym t) (fun t => decide (t.sb1.data = [0x41#8]) &&
          leads (exec .sym t) (fun t => decide (t.sb1.data = [0x41#8, 0x42#8] ∧ t.sb0.rbits = 85))))) = true ∧
    leads (exec (.nodeL 0x41#8) (blockOf 100 [] [0x82#8, 0#8] [])) (fun t =>
      decide (t.huf.nodeAt 0 = { kind := .leaf 0x41#8, freq := 0 } ∧ t.sb0.rbits = 9)) = true := by decide +kernel

/-- A container header met (R250, R251): a flag byte of 2 enables. -/
theorem test_container_header_met :
    leads (exec (.con 1#8 2#8 0#8 5#32) (blockOf 100 (List.replicate 13 0#8 ++ [7#8]) [9#8] [])) (fun t =>
      decide (t.flLb = true ∧ t.flHuf = false ∧ t.cksumStored = 5#32 ∧ t.sb0.data = [7#8])) = true := by decide +kernel

/-- A step runs what was placed: a command, a unit operation, an element. -/
theorem test_step_runs_placed_words :
    leads (step (State.reset.withFetchWord 32 3)) (fun t => decide (t.err = .illegalCommand)) = true ∧
    leads (step (State.reset.withFetchWord 8 0x19)) (fun t => decide (t.huf.nnodes = 0)) = true ∧
    leads (step (State.reset.withFetchWord 64 0)) (fun t => decide (t.lb.ip = 8)) = true := by decide +kernel

/-! ### Witnesses of the statements' hypotheses -/

/-- A block that has stopped in `FATAL`. -/
def fatalBlock : State := takeError .internal (blockOf 8 [1#8] [] [])

/-- A block with the given input waiting. -/
def waiting (m : Input) : State := { State.reset with queue := [m] }

/-- A block with the given `OUT_LEN` and bytes of `OUT`, and a read of `OUT` at the given index waiting. -/
def outputOf (n : Nat) (bs : List Byte) (i : Nat) : State :=
  { waiting (.host (.readOut (BitVec.ofNat 64 i))) with outLen := BitVec.ofNat 64 n, out := bufOf bs }

/-- A read of `OUT` between its bytes and `OUT_LEN`, and at `OUT_LEN`, is a free one; below both it is not (log entry 9). -/
theorem test_free_reads_of_output :
    leads (step (outputOf 1 [7#8] 0)) (fun t => decide (t.hostData = 7#64 ∧ t.freeReads = 0)) = true ∧
    leads (step (outputOf 1 [7#8] 1)) (fun t => decide (t.freeReads = 1)) = true ∧
    leads (step (outputOf 2 [7#8] 1)) (fun t => decide (t.freeReads = 1)) = true := by
  refine ⟨by decide, ?_, ?_⟩ <;> rfl

theorem witness_DecodeEncodeAgree :
    (Instr.gbAppendBits .sb0 5#64 64#8).wf = true ∧ (Instr.gbReadBits .sb1 64#8).wf = true ∧
    (Instr.lbEmitLit .sb0 [1#8]).wf = true ∧ (Instr.gbAppendBytes .sb1 []).wf = true ∧
    Instr.distReserved.wf = true ∧ (Instr.con 1#8 2#8 3#8 4#32).wf = true := by decide

theorem witness_WireDecodeKeepsEveryBit :
    decode .lbHdr (bytesOf [8, 0, 0, 0, 0, 0, 0, 0, 1]) = .ok (.lbHdr 8#64, 64) ∧
    decode .lbToken (bytesOf [0xFD, 0x02]) = .ok (.dist1 0x3F#6, 8) ∧ Instr.dist1 0x3F#6 ≠ .distReserved ∧
    decode .lbLen (bytesOf [0xFF, 0xFF]) = .ok (.lenL 32767#15, 16) ∧
    decode .hufHdr (bytesOf [0, 0, 0, 0, 0, 0, 0, 0]) = .ok (.hufHdr 0#64, 64) ∧
    decode .con (bytesOf [0x42, 0x41, 0x52, 0x50, 0x48, 1, 0xFF, 0, 0, 1, 2, 3, 4]) =
      .ok (.con 0xFF#8 0#8 0#8 0x04030201#32, 104) := ⟨rfl, rfl, by decide, rfl, rfl, rfl⟩

theorem witness_UnusedEncodings :
    ((0xFFFFFFF2#32).extractLsb' 0 4 = (0x00000002#32).extractLsb' 0 4 ∧ (0xFFFFFFF2#32).extractLsb' 0 4 ≠ 1#4) ∧
    ((0xFF05FCF1#32).extractLsb' 0 4 = 1#4 ∧ (0x00050001#32).extractLsb' 0 4 = 1#4 ∧
      (0xFF05FCF1#32).getLsbD 8 = (0x00050001#32).getLsbD 8 ∧ (0xFF05FCF1#32).getLsbD 9 = (0x00050001#32).getLsbD 9 ∧
      (0xFF05FCF1#32).extractLsb' 16 8 = (0x00050001#32).extractLsb' 16 8) ∧
    (∀ c ∈ [0x00, 0x0C, 0x0F, 0x14, 0x17, 0x1F, 0x22, 0x27, 0x2B, 0x3F, 0x40, 0xFF],
      c % 64 ∉ [0x01, 0x02, 0x03, 0x04, 0x05, 0x06, 0x07, 0x08, 0x09, 0x0A, 0x0B, 0x10, 0x11, 0x12, 0x13,
        0x18, 0x19, 0x1A, 0x1B, 0x1C, 0x1D, 0x1E, 0x20, 0x21, 0x28, 0x29, 0x2A]) ∧
    64 < (65#8).toNat ∧ (waiting (.op [0x40#8, 1#8])).queue = [.op [0x40#8, 1#8]] := by decide

theorem witness_StepRunsTheDecodedInstruction :
    ((waiting (.op [0x19#8])).queue = [.op [0x19#8]] ∧ decode .uop [0x19#8] = .ok (.hufBuild, 8)) ∧
    ((waiting (.wire .hufSym)).queue = [.wire .hufSym] ∧
      decode .hufSym (wireBytes .hufSym (waiting (.wire .hufSym))) = .ok (.sym, 0)) ∧
    ((waiting (.host (.writeReg 0 15#64))).queue = [.host (.writeReg 0 15#64)] ∧
      decodeCmd ((15#64).truncate 32) = .reset) := ⟨⟨rfl, rfl⟩, ⟨rfl, rfl⟩, ⟨rfl, rfl⟩⟩

theorem witness_HostAccessesRegisters :
    (∀ idx ∈ [1, 2, 3, 6], (waiting (.host (.writeReg idx 7#64))).queue = [.host (.writeReg idx 7#64)] ∧
      (waiting (.host (.writeReg idx 7#64))).seq ≠ .busy ∧ idx ≠ 0) ∧
    (∀ idx ∈ [0, 1, 2, 3, 4, 5, 6], (waiting (.host (.readReg idx))).queue = [.host (.readReg idx)]) := by decide

theorem witness_HostAccessesBuffers :
    ((waiting (.host (.writeIn 0xFFFFF#64 7#8))).queue = [.host (.writeIn 0xFFFFF#64 7#8)] ∧
      (0xFFFFF#64).toNat < (waiting (.host (.writeIn 0xFFFFF#64 7#8))).max ∧ State.reset.seq ≠ .busy ∧
      Memory.wf State.reset.inMem = true) ∧
    (outputOf 1 [7#8] 0).queue = [.host (.readOut 0#64)] ∧ (0#64).toNat < (outputOf 1 [7#8] 0).outLen.toNat ∧
    (0#64).toNat < (outputOf 1 [7#8] 0).out.len ∧
    ((outputOf 1 [7#8] 1).queue = [.host (.readOut 1#64)] ∧ (outputOf 1 [7#8] 1).outLen.toNat ≤ (1#64).toNat) ∧
    ((outputOf 2 [7#8] 1).queue = [.host (.readOut 1#64)] ∧ (outputOf 2 [7#8] 1).out.len ≤ (1#64).toNat ∧
      (1#64).toNat < (outputOf 2 [7#8] 1).outLen.toNat) ∧
    (waiting (.host (.readIn 0#64))).queue = [.host (.readIn 0#64)] := by decide

theorem witness_FatalIgnoresAllButReset :
    fatalBlock.seq = .fatal ∧ Instr.nop ≠ .reset ∧ Instr.nop.wf = true ∧
    (Instr.gbReadBits .sb0 64#8).wf = true ∧ (Instr.lbEmitLit .sb0 []).wf = true := by decide

theorem witness_IllegalCommandIsRefused :
    State.reset.seq = .idle ∧ Instr.reservedOp3 ≠ .reservedOp14 ∧
    ({ blockOf 8 [] [] [] with inLen := 9#64 }.seq = .idle ∧
      { blockOf 8 [] [] [] with inLen := 9#64 }.max < ({ blockOf 8 [] [] [] with inLen := 9#64 }).inLen.toNat) := by decide

theorem witness_ResetRestoresResetValues : State.reset.seq ≠ .busy ∧ fatalBlock.seq ≠ .busy := by decide

theorem witness_CompressCompletes :
    (blockOf 664 [7#8] [] []).seq = .idle ∧
    64 * (blockOf 664 [7#8] [] []).inLen.toNat + 600 = (blockOf 664 [7#8] [] []).max ∧
    (blockOf 664 [7#8] [] []).ArenaWf := by decide

theorem witness_CompressWithoutCodecsFramesInput :
    (blockOf 14 [7#8] [] []).seq = .idle ∧
    (blockOf 14 [7#8] [] []).inLen.toNat + 13 = (blockOf 14 [7#8] [] []).max := by decide

theorem witness_CompressEndsInResultOrFatal :
    (blockOf 8 (List.replicate 8 7#8) [] []).seq = .idle ∧
    (blockOf 8 (List.replicate 8 7#8) [] []).inLen.toNat = (blockOf 8 (List.replicate 8 7#8) [] []).max ∧
    (blockOf 8 (List.replicate 8 7#8) [] []).ArenaWf := by decide

theorem witness_EmptyInputContainers :
    (blockOf 24 [] [1#8] []).seq = .idle ∧ (blockOf 24 [] [1#8] []).inLen = 0#64 ∧ (blockOf 24 [] [1#8] []).max = 24 ∧
    (blockOf 24 [] [1#8] []).ArenaWf := by decide

theorem witness_DecompressNeverFatal :
    (blockOf 8 (List.replicate 8 7#8) [] []).seq = .idle ∧
    (blockOf 8 (List.replicate 8 7#8) [] []).inLen.toNat ≤ (blockOf 8 (List.replicate 8 7#8) [] []).max ∧
    (blockOf 8 (List.replicate 8 7#8) [] []).ArenaWf := by decide

/-- Five bytes of the magic; another version; the magic alone; twelve bytes of a header. -/
theorem witness_DecompressHeaderErrors :
    (∀ bs ∈ [bytesOf [0x42, 0x41, 0x52, 0x50, 0x48], bytesOf [0x42, 0x41, 0x52, 0x50, 0x48, 2]],
      (blockOf 100 bs [] []).seq = .idle ∧ (blockOf 100 bs [] []).inLen.toNat ≤ (blockOf 100 bs [] []).max ∧
      (blockOf 100 bs [] []).input.take 6 ≠ [0x42#8, 0x41#8, 0x52#8, 0x50#8, 0x48#8, 0x01#8]) ∧
    (∀ bs ∈ [bytesOf [0x42, 0x41, 0x52, 0x50, 0x48, 1],
        bytesOf [0x42, 0x41, 0x52, 0x50, 0x48, 1, 0, 0, 0, 0xC5, 0x9D, 0x1C]],
      (blockOf 100 bs [] []).seq = .idle ∧ (blockOf 100 bs [] []).inLen.toNat ≤ (blockOf 100 bs [] []).max ∧
      (blockOf 100 bs [] []).input.take 6 = [0x42#8, 0x41#8, 0x52#8, 0x50#8, 0x48#8, 0x01#8] ∧
      (blockOf 100 bs [] []).inLen.toNat < 13) := by decide +kernel

/-- Eight zero bytes as a Huffman stream: its header, the one-leaf tree of 0 and eight coded bytes (R255). -/
def zerosPacked : List Byte := bytesOf [8, 0, 0, 0, 0, 0, 0, 0, 0, 0, 0]

theorem zerosPacked_decodes : HuffmanPayload true zerosPacked (List.replicate 8 0#8) := by
  refine ⟨.leaf 0#8, List.replicate 8 [false], by decide, ?_, by decide⟩
  simp only [List.replicate]
  repeat first | exact List.Forall₂.nil | refine List.Forall₂.cons ⟨rfl, rfl⟩ ?_

theorem zeros_decode : LookbackPayload true (List.replicate 8 0#8) [] := ⟨[], [], by simp, rfl, rfl⟩

/-- R255's container with both codecs on, flag bytes 1 and 2; and one with both off, with the right and a wrong checksum. -/
theorem witness_DecompressDecodesStages :
    (let s := blockOf 24 (bytesOf [0x42, 0x41, 0x52, 0x50, 0x48, 1, 0, 1, 2, 0xC5, 0x9D, 0x1C, 0x81] ++ zerosPacked) [] [];
      s.seq = .idle ∧ s.ArenaWf ∧ s.inLen.toNat ≤ s.max ∧ (List.replicate 8 0#8).length ≤ s.max ∧
      s.input = [0x42#8, 0x41#8, 0x52#8, 0x50#8, 0x48#8, 0x01#8, 0#8, 1#8, 2#8] ++
        leBytes (0x811C9DC5#32).toNat 4 ++ zerosPacked) ∧
    HuffmanPayload (decide (2#8 ≠ 0#8)) zerosPacked (List.replicate 8 0#8) ∧
    LookbackPayload (decide (1#8 ≠ 0#8)) (List.replicate 8 0#8) [] ∧
    ckSum Config.barph (deltaInverse 0 []) = 0x811C9DC5#32 ∧ ckSum Config.barph (deltaInverse 0 []) ≠ 0#32 ∧
    HuffmanPayload (decide (0#8 ≠ 0#8)) [7#8] [7#8] ∧ LookbackPayload (decide (0#8 ≠ 0#8)) [7#8] [7#8] :=
  ⟨by decide +kernel, zerosPacked_decodes, zeros_decode, by decide +kernel, by decide +kernel, rfl, rfl⟩

theorem witness_OneChangedByteIsDetected :
    let s := blockOf 15 (bytesOf [0x42, 0x41, 0x52, 0x50, 0x48, 1, 0, 0, 0] ++
      leBytes (ckSum Config.barph [0x61#8, 0x62#8]).toNat 4 ++ [0x61#8, 0x63#8]) [] []
    s.seq = .idle ∧ s.inLen.toNat ≤ s.max ∧ 1 < [0x61#8, 0x62#8].length ∧ [0x61#8, 0x62#8].getD 1 0#8 ≠ 0x63#8 ∧
    s.input = [0x42#8, 0x41#8, 0x52#8, 0x50#8, 0x48#8, 0x01#8, 0#8, 0#8, 0#8] ++
      leBytes (ckSum Config.barph [0x61#8, 0x62#8]).toNat 4 ++ [0x61#8, 0x62#8].set 1 0x63#8 := by decide +kernel

/-- A compression that leads to no error has a next state whose output a block can hold. -/
theorem output_fits_a_block (o : Host.Outcome State Fault Refusal)
    (h : leads o (fun t => decide (t.err = .none ∧ (blockOf 100 t.out.data [] []).input = t.out.data)) = true) :
    o = .next (nextOf o) ∧ (nextOf o).err = .none ∧ (blockOf 100 (nextOf o).out.data [] []).seq = .idle ∧
      (blockOf 100 (nextOf o).out.data [] []).ArenaWf ∧ (blockOf 100 (nextOf o).out.data [] []).maxBuf = 100#64 ∧
      (blockOf 100 (nextOf o).out.data [] []).input = (nextOf o).out.data :=
  ⟨(leads_next h).1, (of_decide_eq_true (leads_next h).2).1, rfl, rfl, rfl, (of_decide_eq_true (leads_next h).2).2⟩

/-- A compression of two bytes with every stage on, and a block that holds its output. -/
theorem witness_CompressDecompressRoundTrip :
    (blockOf 100 [5#8, 5#8] [] []).seq = .idle ∧ (blockOf 100 [5#8, 5#8] [] []).ArenaWf ∧
    (blockOf 100 [5#8, 5#8] [] []).maxBuf = 100#64 ∧
    ∃ t u : State, exec (.compress true true 1#8) (blockOf 100 [5#8, 5#8] [] []) = .next t ∧ t.err = .none ∧
      u.seq = .idle ∧ u.ArenaWf ∧ u.maxBuf = 100#64 ∧ u.input = t.out.data :=
  ⟨rfl, rfl, rfl, _, _, output_fits_a_block _ (by decide +kernel)⟩

/-- Two blocks that agree on the input and the bound and differ elsewhere, both idle, each with a next state. -/
theorem witness_ResultIsFunctionOfInput :
    let s := blockOf 100 [5#8] [1#8] []
    let s' := { blockOf 100 [5#8] [] [2#8] with huf := arenaAB, mf := tableOfA, cksum := 9#32 }
    s.seq = .idle ∧ s'.seq = .idle ∧ s.ArenaWf ∧ s'.ArenaWf ∧ s.maxBuf = s'.maxBuf ∧ s.inLen.toNat ≤ s.max ∧
      s.input = s'.input ∧ (∃ t, exec (.compress true true 1#8) s = .next t) ∧
      (∃ t, exec (.compress true true 1#8) s' = .next t) ∧ (∃ t, exec .decompress s = .next t) ∧
      ∃ t, exec .decompress s' = .next t := by
  intro s s'
  have h : leads (exec (.compress true true 1#8) s) (fun _ => true) = true ∧
      leads (exec (.compress true true 1#8) s') (fun _ => true) = true ∧
      leads (exec .decompress s) (fun _ => true) = true ∧ leads (exec .decompress s') (fun _ => true) = true := by
    decide +kernel
  exact ⟨rfl, rfl, rfl, by decide, rfl, by decide, by decide, ⟨_, (leads_next h.1).1⟩, ⟨_, (leads_next h.2.1).1⟩,
    ⟨_, (leads_next h.2.2.1).1⟩, ⟨_, (leads_next h.2.2.2).1⟩⟩

/-- Exactly full, and one byte too many. -/
theorem witness_ByteAppendsExtendBuffer :
    let s := blockOf 9 [] [1#8] []
    s.seq ≠ .fatal ∧ (s.buf .sb0).len + (8#64).toNat = s.max ∧ s.max < (s.buf .sb0).len + (9#64).toNat ∧
      (s.buf .sb0).len + [2#8].length ≤ s.max ∧ (s.buf .sb0).len + (List.replicate 8 2#8).length = s.max ∧
      s.max < (s.buf .sb0).len + (List.replicate 9 2#8).length ∧
      (blockOf 8 [] (List.replicate 8 1#8) []).max < ((blockOf 8 [] (List.replicate 8 1#8) []).buf .sb0).len + [2#8].length := by
  decide

/-- A stage buffer of three bits, with room for its bound of bits and no more. -/
def threeBits : Buffer := { data := [5#8], cap := 8, wcur := { byte := 0, bit := 3 }, rcur := {} }

theorem witness_AppendBitsExtendsStream :
    let s := { blockOf 8 [] [] [] with sb0 := threeBits }
    s.seq ≠ .fatal ∧ (61#8).toNat ≤ 64 ∧ (s.buf .sb0).CursorOk ∧ (s.buf .sb0).wbits + 61 = 8 * s.max ∧
      (s.buf .sb0).wbits + [true].length ≤ 8 * s.max ∧ (s.buf .sb0).len ≤ s.max ∧
      8 * s.max < (s.buf .sb0).wbits + (62#8).toNat ∧
      8 * 8 < ((blockOf 8 [] (List.replicate 8 1#8) []).buf .sb0).wbits + [true].length := by decide

theorem witness_ReadsReturnStream :
    let s := blockOf 100 [] [0xFD#8, 0x0F#8] []
    s.seq ≠ .fatal ∧ (16#8).toNat ≤ 64 ∧ (s.buf .sb0).rbits + (16#8).toNat = 8 * (s.buf .sb0).len ∧
      8 * (s.buf .sb0).len < (s.buf .sb0).rbits + (17#8).toNat ∧ (17#8).toNat ≤ 64 ∧
      (1#64).toNat + (1#64).toNat = (s.buf .sb0).len ∧ (s.buf .sb0).len < (2#64).toNat + (1#64).toNat := by decide

theorem witness_ReadFieldsInvertsAppendFields :
    (1 : Nat) < 2 ^ 64 ∧ (bufOf []).Fresh ∧ (∀ f ∈ [((0xFF#64 : U64), 3), (0#64, 0), (2#64, 5)], f.2 ≤ 64) ∧
    ([((0xFF#64 : U64), 3), (0#64, 0), (2#64, 5)].map Prod.snd).sum = 8 * 1 := by decide

theorem witness_MatchTableUpdates :
    let s := { blockOf 100 [] (bytesOf [1, 2, 3, 4, 5]) [] with mf := tableOfA }
    s.seq ≠ .fatal ∧ (1#64).toNat + 4 = (s.buf .sb0).len ∧ tableWf (emptyBucket Config.barph) s.mf.mt = true ∧
      (s.buf .sb0).len < (2#64).toNat + 4 := by decide +kernel

theorem witness_MatchLengthIsLargest : 0 < 1 ∧ 1 < (List.replicate 2 0x41#8).length := by decide

theorem witness_FindBestMaximises :
    let s := { blockOf 100 [] (List.replicate 5 0x61#8) [] with mf := tableOfA }
    s.seq ≠ .fatal ∧ (1#64).toNat + 4 = (s.buf .sb0).len ∧ (s.buf .sb0).len < (2#64).toNat + 4 ∧
      (0 ∈ (s.mf.bucket Config.barph (mfHash Config.barph (s.buf .sb0).data 1)).newestFirst Config.barph ∧ 0 < 1 ∧ 1 - 0 ≤ Config.barph.distMax 5) := by
  decide +kernel

theorem witness_MatchAtIsCausalAndEconomical :
    { blockOf 100 [] (List.replicate 5 0x61#8) [] with mf := tableOfA }.seq ≠ .fatal := by decide

theorem witness_EmittedTokens :
    (blockOf 100 [] [] []).seq ≠ .fatal ∧
    ((List.replicate 63 0#8).length ≤ 0x3FFF ∧ ((blockOf 64 [] [] []).buf .sb0).len + 1 + 63 = (blockOf 64 [] [] []).max) ∧
    ((List.replicate 64 0#8).length ≤ 0x3FFF ∧ ((blockOf 66 [] [] []).buf .sb0).len + 2 + 64 = (blockOf 66 [] [] []).max) ∧
    (1 ≤ (1#64).toNat ∧ (1#64).toNat ≤ 0x3FFFFFFFF ∧ (4#64).toNat ≤ 0x7FFF ∧
      (bufOf (List.replicate 6 0#8)).len + tokenCost Config.barph (1#64).toNat (4#64).toNat = 8) ∧
    (1 ≤ (0x3FFFFFFFF#64).toNat ∧ (0x3FFFFFFFF#64).toNat ≤ 0x3FFFFFFFF ∧ (0x7FFF#64).toNat ≤ 0x7FFF ∧
      (bufOf [0#8]).len + tokenCost Config.barph (0x3FFFFFFFF#64).toNat (0x7FFF#64).toNat = 8) ∧
    (0#64).toNat = 0 ∧ 0x3FFFFFFFF < (0x400000000#64).toNat ∧ 0x7FFF < (0x8000#64).toNat ∧
    ((blockOf 63 [] [] []).max < ((blockOf 63 [] [] []).buf .sb0).len + 1 + 63 ∧
      (blockOf 65 [] [] []).max < ((blockOf 65 [] [] []).buf .sb0).len + 2 + 64) ∧
    (blockOf 8 [] (List.replicate 7 0#8) []).max <
      ((blockOf 8 [] (List.replicate 7 0#8) []).buf .sb0).len + tokenCost Config.barph (1#64).toNat (4#64).toNat := by decide

theorem witness_EmittedTokens_aboveLitmax :
    let bs := List.replicate 0x4000 7#8
    0x3FFF < bs.length ∧ ((blockOf 0x4002 [] [] []).buf .sb0).len + 2 + bs.length = (blockOf 0x4002 [] [] []).max ∧
    (blockOf 0x4001 [] [] []).max < ((blockOf 0x4001 [] [] []).buf .sb0).len + 2 + bs.length := by
  simp only [List.length_replicate]; decide

theorem witness_LookbackEncodeMeansItsInput :
    (blockOf 12 [] [1#8, 2#8] []).seq ≠ .fatal ∧
    8 + 2 * ((blockOf 12 [] [1#8, 2#8] []).buf .sb0).len = (blockOf 12 [] [1#8, 2#8] []).max := by decide

/-- A literal in the long form, and a match in a class and a form it does not need; the stream's length at the bound. -/
theorem witness_LookbackDecodeComputesMeaning :
    let ts : List Token := [.literal true [7#8], .copy 5 1 true 7]
    let s := blockOf 8 [] (lbStream 8 ts ++ [9#8]) []
    s.seq ≠ .fatal ∧ (∀ t ∈ ts, t.wf = true) ∧ tokensMeaning ts [] = some (List.replicate 8 7#8) ∧
      (List.replicate 8 7#8).length = s.max ∧ (s.buf .sb0).data = lbStream (List.replicate 8 7#8).length ts ++ [9#8] := by
  decide +kernel

/-- Other parameters that R192 admits: one bucket of one slot, every literal run one byte long. -/
def smallConfig : Config :=
  { Config.barph with mfK := 1, mfHB := 0, hashMul := 7#32, maxLen := 5, minMatchThreshold := 0, litMax := 1 }

/-- What the encoder starts from. -/
def freshEnc : LbEnc := { mf := {}, pos := 0, runStart := 0, out := bufOf [] }

/-- What breaks a stream, after the token of a literal 7 in a stream that declares 3 bytes: nothing more, a token cut short in each
of its parts, a token that passes the declared length, a distance of 0 and one beyond the output, the reserved tag; a header cut
short, and a declared length one above the bound. -/
theorem witness_LookbackDecodeComputesMeaning_malformed :
    (∀ k ∈ [0, 1], BrokenToken 3 [7#8] ((Token.literal false [1#8]).bytes.take k)) ∧
    (∀ k ∈ [0, 1, 2, 3], BrokenToken 3 [7#8] ((Token.copy 2 1 true 1).bytes.take k)) ∧
    BrokenToken 3 [7#8] (Token.literal true [1#8, 2#8, 3#8]).bytes ∧ BrokenToken 3 [7#8] (Token.copy 1 1 false 3).bytes ∧
    BrokenToken 3 [7#8] (Token.copy 1 0 false 1).bytes ∧ BrokenToken 3 [7#8] (Token.copy 1 2 false 1).bytes ∧
    BrokenToken 3 [7#8] [0xBF#8] ∧
    (∀ rest, BrokenToken 3 [7#8] rest → BrokenStream 8 (lbStream 3 [.literal false [7#8]] ++ rest)) ∧
    BrokenStream 8 (List.replicate 7 0#8) ∧ BrokenStream 8 (leBytes 9 8 ++ []) ∧
    (blockOf 8 [] (List.replicate 7 0#8) []).seq ≠ .fatal := by
  have cut : ∀ (t : Token) (k : Nat), t.wf = true → k < t.bytes.length → BrokenToken 3 [7#8] (t.bytes.take k) :=
    fun t k h1 h2 => .inl ⟨t, k, h1, h2, rfl⟩
  have whole : ∀ t : Token, t.wf = true → (∀ o, t.apply [7#8] = some o → 3 < o.length) → BrokenToken 3 [7#8] t.bytes :=
    fun t h1 h2 => .inr (.inl ⟨t, [], h1, by simp, h2⟩)
  refine ⟨fun k h => cut _ k (by decide) ?_, fun k h => cut _ k (by decide) ?_, whole _ (by decide) ?_, whole _ (by decide) ?_,
    whole _ (by decide) ?_, whole _ (by decide) ?_, .inr (.inr ⟨_, [], rfl, by decide⟩), fun rest h => ?_, .inl (by decide),
    .inr (.inl ⟨9, [], by decide, by decide, rfl⟩), by decide⟩
  · revert k; decide
  · revert k; decide
  · intro o h; cases h; decide
  · intro o h; cases h; decide
  · intro o h; cases h
  · intro o h; cases h
  · exact .inr (.inr ⟨3, [.literal false [7#8]], [7#8], rest, by decide, by decide, rfl, by decide, rfl, h⟩)

theorem witness_LookbackRoundTrip_everyParameter :
    smallConfig.distMax = Config.barph.distMax ∧ smallConfig.maxLen ≤ 0x7FFF ∧ 1 ≤ smallConfig.litMax ∧
    smallConfig.litMax ≤ 0x3FFF ∧ (List.replicate 9 7#8).length ≤ 100 ∧ 100 < 2 ^ 64 ∧
    ∃ c', lbEncode smallConfig (List.replicate 9 7#8) 100 freshEnc = .ok () c' := by
  refine ⟨rfl, by decide, by decide, by decide, by decide, by decide, ?_⟩
  have h : (match lbEncode smallConfig (List.replicate 9 7#8) 100 freshEnc with | .ok _ _ => true | _ => false) = true := by
    decide +kernel
  revert h
  cases lbEncode smallConfig (List.replicate 9 7#8) 100 freshEnc with
  | ok _ c' => exact fun _ => ⟨c', rfl⟩
  | stop _ _ => exact fun h => by cases h

theorem witness_LookbackRoundTrip :
    let s := blockOf 100 [] [7#8, 7#8, 8#8] []
    let t := nextOf (exec (.lbEncode .sb0) s)
    s.seq ≠ .fatal ∧ (s.buf .sb0).len ≤ s.max ∧ exec (.lbEncode .sb0) s = .next t ∧ t.seq ≠ .fatal := by
  intro s t
  have h : leads (exec (.lbEncode .sb0) s) (fun t => decide (t.seq ≠ .fatal)) = true := by decide +kernel
  exact ⟨by decide, by decide, (leads_next h).1, of_decide_eq_true (leads_next h).2⟩

theorem witness_StreamHeaderMet :
    let s := blockOf 8 [] (List.replicate 8 0#8) []
    s.seq ≠ .fatal ∧ (s.buf s.src).len = 8 ∧ (8#64).toNat = s.max ∧ s.max < (9#64).toNat ∧
      ((blockOf 8 [] (List.replicate 7 0#8) []).buf (blockOf 8 [] (List.replicate 7 0#8) []).src).len < 8 := by decide

/-- A run that ends with the input, the declared length and the bound; one byte more. -/
theorem witness_LiteralTokenMet :
    let s := { blockOf 8 [] (List.replicate 9 1#8) (List.replicate 2 0#8) with lb := { ip := 2, olen := 8 } }
    s.seq ≠ .fatal ∧ s.lb.ip + 1 + (6#6).toNat = (s.buf s.src).len ∧
      (s.buf s.src.other).len + (6#6).toNat = s.lb.olen ∧ (s.buf s.src.other).len + (6#6).toNat = s.max ∧
      s.lb.ip + 2 + (5#14).toNat ≤ (s.buf s.src).len ∧ (s.buf s.src.other).len + (5#14).toNat ≤ s.lb.olen ∧
      (s.buf s.src).len < s.lb.ip + 1 + (7#6).toNat ∧ s.lb.olen < (s.buf s.src.other).len + (7#6).toNat := by decide

theorem witness_DistanceFieldMet :
    let s := { blockOf 8 [] (List.replicate 7 1#8) [] with lb := { ip := 2, olen := 8 } }
    s.seq ≠ .fatal ∧ s.lb.ip + 5 = (s.buf s.src).len ∧ s.lb.ip + 1 ≤ (s.buf s.src).len ∧
      (({ s with lb := { ip := 3, olen := 8 } }).buf s.src).len < 3 + 5 := by decide

/-- A match that ends with the declared length and the bound, from the first byte of the output; and each of its faults. -/
theorem witness_LengthFieldMet :
    let s := { blockOf 8 [] (List.replicate 3 1#8) [1#8, 2#8] with lb := { ip := 1, olen := 8, dist := 2 } }
    s.seq ≠ .fatal ∧ s.lb.ip + 2 = (s.buf s.src).len ∧ s.lb.ip + 1 ≤ (s.buf s.src).len ∧ 1 ≤ s.lb.dist ∧
      s.lb.dist = (s.buf s.src.other).len ∧ (s.buf s.src.other).len + (6#7).toNat = s.lb.olen ∧
      (s.buf s.src.other).len + (6#15).toNat = s.max ∧ s.lb.olen < (s.buf s.src.other).len + (7#7).toNat ∧
      (s.buf s.src).len < 3 + 1 ∧ (s.buf s.src.other).len < 3 ∧ ({ s.lb with dist := 0 }).dist = 0 := by decide

theorem witness_HuffmanCountCounts : (blockOf 8 [] [1#8] []).seq ≠ .fatal := by decide

theorem witness_HuffmanBuildMakesFullTree :
    { State.reset with huf := { arenaAB with freq := [(3, 1), (5, 2)] } }.seq ≠ .fatal ∧
    { State.reset with huf := { arenaAB with freq := [(3, 1), (5, 2)] } }.ArenaWf ∧
    ({ arenaAB with freq := [(3, 1), (5, 2)] } : Huffman).distinct = 2 ∧ ({ arenaAB with freq := [] } : Huffman).distinct = 0 := by
  decide +kernel

/-- The tree of "AB". -/
def treeAB : CodeTree := .node (.leaf 0x41#8) (.leaf 0x42#8)

theorem witness_HuffmanAssignReadsPaths :
    State.reset.seq ≠ .fatal ∧ State.reset.huf.nnodes = 0 ∧
    (treeAB.storedAt arenaAB arenaAB.root = true ∧ treeAB.height ≤ arenaAB.nnodes) ∧
    ((CodeTree.leaf 0x41#8).storedAt { arenaAB with nnodes := 1, root := 0 } 0 = true ∧ (CodeTree.leaf 0x41#8).height ≤ 1) := by
  decide

theorem witness_HuffmanWriteTreeWritesPreorder :
    let s := { blockOf 8 [] [] [] with huf := arenaAB, sb0 := { bufOf (List.replicate 6 0#8) with wcur := { byte := 5, bit := 5 } } }
    s.seq ≠ .fatal ∧ treeAB.storedAt s.huf (2#9).toNat = true ∧ treeAB.height ≤ s.huf.nnodes ∧ (s.buf .sb0).CursorOk ∧
      (s.buf .sb0).wbits + treeAB.bits.length = 8 * s.max := by decide

theorem witness_HuffmanReadTreeRebuildsTree :
    let s := { blockOf 8 [] [0x05#8, 0x11#8, 0x02#8] [] with huf := { nnodes := 508 } }
    s.seq ≠ .fatal ∧ s.ArenaWf ∧ s.huf.nnodes + treeAB.size = 511 ∧
      BitsAt (s.buf .sb0).data (s.buf .sb0).rbits treeAB.bits ∧
      BitsCut [0x05#8, 0x11#8] (s.buf .sb0).rbits treeAB.bits ∧ BitsCut [] (s.buf .sb0).rbits treeAB.bits ∧
      511 < ({ nnodes := 509 } : Huffman).nnodes + treeAB.size := by decide

theorem witness_HuffmanEncodeWritesStream :
    (blockOf 360 [] [1#8] []).seq ≠ .fatal ∧ (blockOf 360 [] [1#8] []).ArenaWf ∧
    8 + 320 + 32 * ((blockOf 360 [] [1#8] []).buf .sb0).len = (blockOf 360 [] [1#8] []).max ∧
    ((blockOf 360 [] [1#8] []).buf .sb0).data ≠ [] ∧ ((blockOf 360 [] [1#8] []).buf .sb1).data = [] := by decide

/-- A tree of `n` internal nodes, each the right child of the one before. -/
def spine : Nat → CodeTree
  | 0 => .leaf 0#8
  | n + 1 => .node (.leaf 1#8) (spine n)

/-- A stream of bits as a number. -/
def bitsNumber (bits : List Bool) : Nat := bits.foldr (fun (x : Bool) n => 2 * n + x.toNat) 0

/-- The bytes of a stream of bits. -/
def packed (bits : List Bool) : List Byte := leBytes (bitsNumber bits) ((bits.length + 7) / 8)

theorem bitsNumber_testBit (bits : List Bool) : ∀ k, (bitsNumber bits).testBit k = bits.getD k false := by
  induction bits with
  | nil => simp [bitsNumber]
  | cons b bs ih =>
    intro k
    have hc : bitsNumber (b :: bs) = 2 * bitsNumber bs + b.toNat := rfl
    cases k with
    | zero => rw [hc]; cases b <;> simp [Nat.testBit_zero]
    | succ k =>
      have hd : (2 * bitsNumber bs + b.toNat) / 2 = bitsNumber bs := by cases b <;> simp; omega
      rw [hc, Nat.testBit_succ, hd, ih, List.getD_cons_succ]

theorem packed_bitsAt (bits : List Bool) : BitsAt (packed bits) 0 bits := by
  refine ⟨by simp only [packed, leBytes_length]; omega, fun k hk => ?_⟩
  rw [Nat.zero_add, packed, bitAt_leBytes _ _ _ (by omega), bitsNumber_testBit]

/-- R208's stream of "AB", and a stream of length 0. -/
theorem witness_HuffmanDecodeReadsPaths :
    (let s := blockOf 8 [] (bytesOf [2, 0, 0, 0, 0, 0, 0, 0, 5, 0x11, 0x12]) [];
      s.seq ≠ .fatal ∧ s.ArenaWf ∧ treeAB.size ≤ 511 ∧ [0x41#8, 0x42#8].length ≤ s.max ∧
      BitsAt (s.buf .sb0).data 0 (lowBits [0x41#8, 0x42#8].length 64 ++
        (if [0x41#8, 0x42#8] = [] then [] else treeAB.bits ++ [[false], [true]].flatten))) ∧
    List.Forall₂ treeAB.Reads [0x41#8, 0x42#8] [[false], [true]] ∧
    (BitsAt (List.replicate 8 0#8) 0 (lowBits 0 64 ++ []) ∧ List.Forall₂ treeAB.Reads [] []) := by
  refine ⟨by decide, ?_, by decide, List.Forall₂.nil⟩
  refine .cons ?_ (.cons ?_ .nil) <;> simp [treeAB, CodeTree.Reads, CodeTree.paths]

/-- The stream of "AB" cut inside its codes, its tree and its header; and a stream whose tree has 513 nodes. -/
theorem witness_HuffmanDecodeReadsPaths_malformed :
    (∀ n ∈ [10, 9, 8, 7, 0], BitsCut ((bytesOf [2, 0, 0, 0, 0, 0, 0, 0, 5, 0x11, 0x12]).take n) 0
      (lowBits [0x41#8, 0x42#8].length 64 ++ (treeAB.bits ++ [[false], [true]].flatten))) ∧
    511 < (spine 256).size ∧ List.Forall₂ (spine 256).Reads [1#8] [[false]] ∧
    BitsAt (packed (lowBits 1 64 ++ ((spine 256).bits ++ [false]))) 0 (lowBits 1 64 ++ ((spine 256).bits ++ [false])) := by
  refine ⟨by decide +kernel, by decide +kernel, .cons ?_ .nil, packed_bitsAt _⟩
  show (1#8, [false]) ∈ (CodeTree.node (.leaf 1#8) (spine 255)).paths
  simp [CodeTree.paths]

theorem witness_HuffmanRoundTrip :
    let s := blockOf 100 [] [7#8, 7#8, 8#8] []
    let t := nextOf (exec (.hufEncode .sb0) s)
    s.seq ≠ .fatal ∧ s.ArenaWf ∧ (s.buf .sb0).len ≤ s.max ∧ exec (.hufEncode .sb0) s = .next t ∧ t.seq ≠ .fatal := by
  intro s t
  have h : leads (exec (.hufEncode .sb0) s) (fun t => decide (t.seq ≠ .fatal)) = true := by decide +kernel
  exact ⟨by decide, rfl, by decide, (leads_next h).1, of_decide_eq_true (leads_next h).2⟩

theorem witness_TreeNodesMet :
    (let s := { blockOf 8 [] [0x82#8, 0#8] [] with huf := { nnodes := 510 } };
      s.seq ≠ .fatal ∧ s.ArenaWf ∧ s.huf.nnodes < 511 ∧
      (({ s with sb0 := { s.sb0 with rcur := { byte := 0, bit := 7 } } }).buf s.src).rbits + 9 = 8 * (s.buf s.src).len) ∧
    (let s := { blockOf 8 [] [0x05#8, 0x11#8, 0x02#8] [] with huf := { nnodes := 508 } };
      s.huf.nnodes + treeAB.size = 511 ∧
      BitsAt (s.buf s.src).data ((s.buf s.src).rbits + 1) ((CodeTree.leaf 0x41#8).bits ++ (CodeTree.leaf 0x42#8).bits)) ∧
    511 ≤ ({ nnodes := 511 } : Huffman).nnodes ∧
    (let s := { blockOf 8 [] [0x82#8] [] with huf := { nnodes := 510 } };
      s.seq ≠ .fatal ∧ s.ArenaWf ∧ s.huf.nnodes < 511 ∧ 8 * (s.buf s.src).len + 1 = (s.buf s.src).rbits + 9) ∧
    (∀ bs ∈ [[], [0x05#8], [0x05#8, 0x11#8]], BitsCut bs 1 ((CodeTree.leaf 0x41#8).bits ++ (CodeTree.leaf 0x42#8).bits)) ∧
    511 < ({ nnodes := 509 } : Huffman).nnodes + treeAB.size := by decide

theorem witness_CodedByteMet :
    (let s := { blockOf 8 [] [2#8] (List.replicate 7 0#8) with huf := arenaAB };
      s.seq ≠ .fatal ∧ treeAB.storedAt s.huf s.huf.root = true ∧
      BitsAt (s.buf s.src).data (s.buf s.src).rbits [false] ∧ (s.buf s.src.other).len + 1 = s.max) ∧
    treeAB.Reads 0x41#8 [false] ∧ (CodeTree.leaf 0x41#8).Reads 0x41#8 [true] ∧
    (let s := { blockOf 8 [] [] [] with huf := arenaAB };
      s.seq ≠ .fatal ∧ treeAB.storedAt s.huf s.huf.root = true ∧ BitsCut (s.buf s.src).data (s.buf s.src).rbits [false]) := by
  refine ⟨by decide, ?_, ⟨rfl, rfl⟩, by decide⟩
  simp [treeAB, CodeTree.Reads, CodeTree.paths]

theorem witness_DeltaFilterClosedForms : (blockOf 8 [] [1#8, 2#8] []).seq ≠ .fatal := by decide

theorem witness_DeltaFilterInverse : (blockOf 8 [] [1#8, 2#8] []).seq ≠ .fatal := by decide

theorem witness_ChecksumFoldsBytes : (blockOf 8 [1#8] [] []).seq ≠ .fatal := by decide

theorem witness_ContainerCompressCompletes :
    (blockOf 664 [7#8] [] []).seq ≠ .fatal ∧
    64 * (blockOf 664 [7#8] [] []).inLen.toNat + 600 = (blockOf 664 [7#8] [] []).max ∧
    (blockOf 664 [7#8] [] []).ArenaWf := by decide

theorem witness_ContainerDecompressDecodesStages :
    (let s := blockOf 24 (bytesOf [0x42, 0x41, 0x52, 0x50, 0x48, 1, 3, 1, 2, 0xC5, 0x9D, 0x1C, 0x81] ++ zerosPacked) [] [];
      s.seq ≠ .fatal ∧ s.ArenaWf ∧ s.inLen.toNat = s.max ∧ (List.replicate 8 0#8).length ≤ s.max ∧
      s.input = Config.barph.magic ++ [3#8, 1#8, 2#8] ++ leBytes (ckSum Config.barph (deltaInverse (3#8).toNat [])).toNat 4 ++ zerosPacked) ∧
    HuffmanPayload (decide (2#8 ≠ 0#8)) zerosPacked (List.replicate 8 0#8) ∧
    LookbackPayload (decide (1#8 ≠ 0#8)) (List.replicate 8 0#8) [] ∧
    HuffmanPayload (decide (0#8 ≠ 0#8)) [7#8] [7#8] ∧ LookbackPayload (decide (0#8 ≠ 0#8)) [7#8] [7#8] :=
  ⟨by decide +kernel, zerosPacked_decodes, zeros_decode, rfl, rfl⟩

theorem witness_ContainerHeaderMet :
    ((blockOf 13 (List.replicate 13 0#8) [] []).seq ≠ .fatal ∧ (blockOf 13 (List.replicate 13 0#8) [] []).inLen.toNat = 13 ∧
      (blockOf 13 (List.replicate 13 0#8) [] []).max = 13) ∧
    (blockOf 13 (List.replicate 12 0#8) [] []).inLen.toNat < 13 := by decide +kernel

/-- The least `MAXBUF` that R8 admits, and the largest. -/
theorem witness_ResetMeetsInvariants : 8 ≤ (8#64).toNat ∧ 8 ≤ (0xFFFFFFFFFFFFFFFF#64).toNat := by decide

theorem witness_StepKeepsControlInv :
    fatalBlock.ControlInv ∧ (waiting (.host (.writeReg 0 1#64))).ControlInv ∧
    (∃ t, step fatalBlock = .next t) ∧ ∃ t, step (waiting (.host (.writeReg 0 3#64))) = .next t := by
  have h : leads (step (waiting (.host (.writeReg 0 3#64)))) (fun _ => true) = true := by decide
  exact ⟨by decide, by decide, ⟨_, rfl⟩, ⟨_, (leads_next h).1⟩⟩

theorem witness_StepKeepsBufferInv :
    (waiting (.op [0x02#8, 0#8, 7#8])).BufferInv ∧ ∃ t, step (waiting (.op [0x02#8, 0#8, 7#8])) = .next t := by
  have h : leads (step (waiting (.op [0x02#8, 0#8, 7#8]))) (fun _ => true) = true := by decide
  exact ⟨by decide, ⟨_, (leads_next h).1⟩⟩

theorem witness_StepKeepsTableInv :
    (waiting (.host (.writeIn 3#64 7#8))).TableInv ∧ ∃ t, step (waiting (.host (.writeIn 3#64 7#8))) = .next t := by
  have h : leads (step (waiting (.host (.writeIn 3#64 7#8)))) (fun _ => true) = true := by decide
  exact ⟨by decide, ⟨_, (leads_next h).1⟩⟩

theorem witness_OperationsOnlyReadTheInput :
    (∃ t, exec (.compress false false 0#8) (blockOf 100 [5#8] [] []) = .next t) ∧
    Instr.compress false false 0#8 ≠ .reset := by
  have h : leads (exec (.compress false false 0#8) (blockOf 100 [5#8] [] [])) (fun _ => true) = true := by decide +kernel
  exact ⟨⟨_, (leads_next h).1⟩, by decide⟩

theorem witness_FatalIsLeftOnlyByReset :
    fatalBlock.seq = .fatal ∧ (∃ t, step fatalBlock = .next t) ∧
    ∃ t, step { fatalBlock with queue := [.host (.writeReg 0 15#64)] } = .next t :=
  ⟨rfl, ⟨_, rfl⟩, ⟨_, rfl⟩⟩

end Sys2Proof.Tests
end

section
/-! SUPPORT. A program logic for operations: a postcondition of every way an operation can end, and what it gives of the
buffer operations (spec 10_state.md R31, R36; 40_buffer_bitstream.md R140 to R151). -/

namespace Sys2Proof.Machine

/-! ### How an operation ends, as a postcondition -/

/-- `Q` holds of the value and the state an operation returns, and `E` of the state it stops in. -/
inductive Res.Ends {σ α : Type} (Q : α → σ → Prop) (E : σ → Prop) : Res σ α → Prop
  | ok {a : α} {s : σ} : Q a s → Res.Ends Q E (.ok a s)
  | stop {e : Stop} {s : σ} : E s → Res.Ends Q E (.stop e s)

/-- `P` holds of the state, however the operation ends. -/
abbrev Res.Keeps {σ α : Type} (P : σ → Prop) (r : Res σ α) : Prop := r.Ends (fun _ => P) P

section
variable {σ τ α β : Type} {r : Res σ α} {Q : α → σ → Prop} {E P : σ → Prop}

theorem Res.Ends.of_ok {a : α} {s : σ} (h : r.Ends Q E) (hr : r = .ok a s) : Q a s := by
  subst hr; cases h; assumption

theorem Res.Ends.of_stop {e : Stop} {s : σ} (h : r.Ends Q E) (hr : r = .stop e s) : E s := by
  subst hr; cases h; assumption

/-- The rule of sequence: the second operation starts from what the first returned. -/
theorem Res.Ends.andThen {f : α → σ → Res σ β} {Q' : β → σ → Prop} (h : r.Ends Q E)
    (hf : ∀ a s, Q a s → (f a s).Ends Q' E) : (r.andThen f).Ends Q' E := by
  cases h with
  | ok h => exact hf _ _ h
  | stop h => exact .stop h

/-- The rule of an operation on a part of the state. -/
theorem Res.Keeps.inside {put : σ → τ} {P' : τ → Prop} (h : r.Keeps P) (hp : ∀ s, P s → P' (put s)) :
    (r.inside put).Keeps P' := by
  cases h with
  | ok h => exact .ok (hp _ h)
  | stop h => exact .stop (hp _ h)

/-- A property that holds under a condition is kept when it is kept where the condition holds. -/
theorem Res.Keeps.under {B : Prop} (h : B → r.Keeps P) : r.Keeps fun s => B → P s := by
  cases r with
  | ok a s => exact .ok fun hb => (h hb).of_ok rfl
  | stop e s => exact .stop fun hb => (h hb).of_stop rfl

end

/-! ### Capacities -/

/-- One doubling of a capacity below a need that is within the bound (R141). -/
theorem CapOk.double {bound need cap : Nat} (h : CapOk bound cap) (hb : bound < 2 ^ 64) (hn : need ≤ bound)
    (hc : cap < need) : CapOk bound (max 8 (2 * cap)) := by
  rcases h with rfl | ⟨k, -, rfl, -⟩
  · exact .inr ⟨0, by omega, by simp, .inl rfl⟩
  · have hk : k < 63 := by
      have : 2 ^ k < 2 ^ 63 := by omega
      exact (Nat.pow_lt_pow_iff_right (by omega)).mp this
    have h2 : 2 ^ (k + 1) = 2 * 2 ^ k := Nat.pow_succ'
    have hp : 1 ≤ 2 ^ k := Nat.one_le_two_pow
    exact .inr ⟨k + 1, by omega, by omega, .inr (by omega)⟩

/-- Growth reaches only capacities of the doubling sequence within the bound (R36, R141). -/
theorem growCap_capOk {bound need : Nat} (hb : bound < 2 ^ 64) (hn : need ≤ bound) :
    ∀ (fuel cap : Nat), CapOk bound cap → CapOk bound (growCap fuel need cap) := by
  intro fuel
  induction fuel with
  | zero => intro cap h; exact h
  | succ fuel ih =>
    intro cap h
    rw [growCap]
    split
    · exact ih _ (h.double hb hn (by assumption))
    · exact h

/-- Growth from a capacity that is not 0 meets a need within as many doublings (R141). -/
theorem le_growCap_of_le_mul (need : Nat) :
    ∀ (fuel cap : Nat), need ≤ cap * 2 ^ fuel → need ≤ growCap fuel need cap := by
  intro fuel
  induction fuel with
  | zero => intro cap h; simpa [growCap] using h
  | succ fuel ih =>
    intro cap h
    rw [growCap]
    split
    · refine ih _ (Nat.le_trans h ?_)
      calc cap * 2 ^ (fuel + 1) = 2 * cap * 2 ^ fuel := by rw [Nat.pow_succ']; ring
        _ ≤ max 8 (2 * cap) * 2 ^ fuel := Nat.mul_le_mul_right _ (Nat.le_max_right ..)
    · omega

/-- The 64 doublings of `ensure` meet every need of a `u64` (R141). -/
theorem le_growCap {need : Nat} (hn : need < 2 ^ 64) (cap : Nat) : need ≤ growCap 64 need cap := by
  rw [growCap]
  split
  · refine le_growCap_of_le_mul need 63 _ (Nat.le_trans hn.le ?_)
    calc 2 ^ 64 ≤ 8 * 2 ^ 63 := by norm_num
      _ ≤ max 8 (2 * cap) * 2 ^ 63 := Nat.mul_le_mul_right _ (Nat.le_max_left ..)
  · omega

/-! ### Buffers within the bound -/

theorem State.max_lt (s : State) : s.max < 2 ^ 64 := s.maxBuf.isLt

theorem release_bounded {bound : Nat} {b : Buffer} (h : b.Bounded bound) : b.release.Bounded bound := by
  obtain ⟨-, -, hc, -⟩ := h
  exact ⟨by simp, by simp, hc, by simp, by simp, by simp [Buffer.wbits], by simp [Buffer.rbits], by simp, by simp⟩

theorem emptyBuffer_bounded (bound : Nat) : ({} : Buffer).Bounded bound := by
  simp [Buffer.Bounded, CapOk, Buffer.wbits, Buffer.rbits]

/-- Bytes of the same number in the place of a buffer's keep it within the bound. -/
theorem Buffer.Bounded.withData {bound : Nat} {b : Buffer} (h : b.Bounded bound) {data : List Byte}
    (hd : data.length = b.data.length) : ({ b with data := data } : Buffer).Bounded bound := by
  simpa [Buffer.Bounded, Buffer.wbits, Buffer.rbits, hd] using h

/-- A read cursor within the data keeps the buffer within the bound. -/
theorem Buffer.Bounded.withRcur {bound : Nat} {b : Buffer} (h : b.Bounded bound) {c : Cursor} (hc : c.bit < 8)
    (hd : 8 * c.byte + c.bit ≤ 8 * b.len) : ({ b with rcur := c } : Buffer).Bounded bound := by
  obtain ⟨h1, h2, h3, h4, -, h6, -, h8, h9⟩ := h
  exact ⟨h1, h2, h3, h4, hc, h6, hd, h8, h9⟩

/-- What `ensure` does for a need within the bound. -/
theorem Buffer.Bounded.grow {bound need : Nat} {b : Buffer} (h : b.Bounded bound) (hb : bound < 2 ^ 64)
    (hn : need ≤ bound) : ({ b with cap := growCap 64 need b.cap } : Buffer).Bounded bound := by
  obtain ⟨h1, h2, h3, h4, h5, h6, h7, h8, h9⟩ := h
  exact ⟨h1, Nat.le_trans h2 (growCap_ge ..), growCap_capOk hb hn 64 _ h3, h4, h5, h6, h7, h8, h9⟩

/-- An operation on a buffer leaves it within the bound, however it ends. -/
def KeepsBounded {α : Type} (op : Nat → Buffer → Res Buffer α) : Prop :=
  ∀ (bound : Nat) (b : Buffer), bound < 2 ^ 64 → b.Bounded bound → (op bound b).Keeps (Buffer.Bounded bound)

theorem KeepsBounded.andThen {α β : Type} {op : Nat → Buffer → Res Buffer α} {f : Nat → α → Buffer → Res Buffer β}
    (h : KeepsBounded op) (hf : ∀ a, KeepsBounded fun bound => f bound a) :
    KeepsBounded fun bound b => (op bound b).andThen (f bound) :=
  fun bound b hb h1 => Res.Ends.andThen (h bound b hb h1) fun a v h2 => hf a bound v hb h2

theorem keepsBounded_ok {α : Type} (a : α) : KeepsBounded fun _ b => .ok a b := fun _ _ _ h => .ok h

theorem keepsBounded_stop {α : Type} (e : Stop) : KeepsBounded (α := α) fun _ b => .stop e b := fun _ _ _ h => .stop h

theorem reserve_keepsBounded (extra : Nat) : KeepsBounded fun bound => reserve bound extra := by
  intro bound b hb h
  beta_reduce
  rw [reserve]
  rcases ensure_cases bound (b.len + extra) b with ⟨hn, e⟩ | ⟨-, e⟩
  · rw [e]; exact .ok (h.grow hb hn)
  · rw [e]; exact .stop h

theorem appendByte_keepsBounded (v : Byte) : KeepsBounded fun bound => appendByte bound v := by
  intro bound b hb h
  beta_reduce
  by_cases hr : b.len + 1 ≤ bound
  · rw [appendByte_room v hr]
    refine .ok ?_
    obtain ⟨-, -, hc, -, h5, -, h7, -⟩ := h
    have hn := le_growCap (need := b.len + 1) (by omega) b.cap
    have hcap := growCap_capOk hb hr 64 _ hc
    simp only [len_eq, Buffer.rbits] at hr hn hcap h7
    simp [Buffer.Bounded, hr, hn, hcap, h5, Buffer.wbits, Buffer.rbits]
    omega
  · rw [appendByte_full v (by omega)]
    exact .stop h

theorem appendEach_keepsBounded : ∀ bs : List Byte, KeepsBounded fun bound => appendEach bound bs
  | [] => keepsBounded_ok ()
  | v :: vs => (appendByte_keepsBounded v).andThen fun _ => appendEach_keepsBounded vs

theorem appendBytes_keepsBounded (bs : List Byte) : KeepsBounded fun bound => appendBytes bound bs := by
  intro bound b hb h
  beta_reduce
  rw [appendBytes]
  split
  · exact .stop h
  · exact appendEach_keepsBounded bs bound b hb h

@[simp] theorem orBit_length (data : List Byte) (i k : Nat) (bit : Bool) :
    (orBit data i k bit).length = data.length := by simp [orBit]

theorem appendBit_keepsBounded (x : Bool) : KeepsBounded fun bound => appendBit bound x := by
  intro bound b hb h
  beta_reduce
  by_cases hw : b.wcur.bit = 0
  · by_cases hr : b.len + 1 ≤ bound
    · rw [appendBit_boundary x hw hr]
      refine .ok ?_
      obtain ⟨-, -, hc, -, h5, -, h7, h8, -⟩ := h
      have hn := le_growCap (need := b.len + 1) (by omega) b.cap
      have hcap := growCap_capOk hb hr 64 _ hc
      have hend := h8 hw
      simp only [len_eq, Buffer.rbits] at hr hn hcap h7 hend
      simp [Buffer.Bounded, hr, hn, hcap, h5, hend, Buffer.wbits, Buffer.rbits]
      omega
    · rw [appendBit_full x hw (by omega)]
      exact .stop h
  · rw [appendBit_inside x hw]
    refine .ok ?_
    obtain ⟨h1, h2, h3, h4, h5, -, h7, -, h9⟩ := h
    have hend := h9 hw
    simp only [len_eq, Buffer.rbits] at h1 h2 h7 hend
    split
    · simp [Buffer.Bounded, h1, h2, h3, h5, hend, h7, Buffer.wbits, Buffer.rbits]
    · simp [Buffer.Bounded, h1, h2, h3, h5, hend, h7, Buffer.wbits, Buffer.rbits]
      omega

theorem appendBitList_keepsBounded : ∀ bits : List Bool, KeepsBounded fun bound => appendBitList bound bits
  | [] => keepsBounded_ok ()
  | x :: xs => (appendBit_keepsBounded x).andThen fun _ => appendBitList_keepsBounded xs

theorem appendBits_keepsBounded (value width : Nat) : KeepsBounded fun bound => appendBits bound value width :=
  appendBitList_keepsBounded _

theorem readBits_keepsBounded (width : Nat) : KeepsBounded fun _ => readBits width := by
  intro bound b hb h
  beta_reduce
  rcases readBits_cases width b with ⟨hr, e⟩ | ⟨-, e⟩
  · rw [e]
    exact .ok (h.withRcur (Nat.mod_lt _ (by omega)) (by simpa using hr))
  · rw [e]
    exact .stop h

theorem emitLitWith_keepsBounded (high : Byte) (bs : List Byte) :
    KeepsBounded fun bound => emitLitWith high bound bs := by
  refine KeepsBounded.andThen ?_ fun _ => appendBytes_keepsBounded bs
  intro bound b hb h
  beta_reduce
  split
  · exact appendByte_keepsBounded _ bound b hb h
  · exact ((appendByte_keepsBounded _).andThen fun _ => appendByte_keepsBounded _) bound b hb h

theorem emitLen_keepsBounded (len : Nat) : KeepsBounded fun bound => emitLen bound len := by
  intro bound b hb h
  beta_reduce
  rw [emitLen]
  split
  · exact appendByte_keepsBounded _ bound b hb h
  · exact ((appendByte_keepsBounded _).andThen fun _ => appendByte_keepsBounded _) bound b hb h

theorem emitMatch_keepsBounded (cfg : Config) (d len : Nat) :
    KeepsBounded fun bound => emitMatch cfg bound d len := by
  intro bound b hb h
  beta_reduce
  rw [emitMatch]
  split
  · exact .stop h
  · exact ((appendBytes_keepsBounded _).andThen fun _ => emitLen_keepsBounded len) bound b hb h

theorem matchCopy_keepsBounded (d : Nat) : ∀ n : Nat, KeepsBounded fun bound => matchCopy bound d n
  | 0 => keepsBounded_ok ()
  | n + 1 => fun bound b hb h =>
    Res.Ends.andThen (appendByte_keepsBounded _ bound b hb h) fun _ v hv => matchCopy_keepsBounded d n bound v hb hv

/-- The tree writer only appends bits (R207). -/
theorem writeTree_keepsBounded (h : Huffman) :
    ∀ fuel i : Nat, KeepsBounded fun bound => writeTree h bound fuel i := by
  intro fuel
  induction fuel with
  | zero => intro i; exact keepsBounded_stop _
  | succ fuel ih =>
    intro i bound b hb hbd
    beta_reduce
    rw [writeTree]
    split
    · exact .stop hbd
    · split
      · exact ((appendBit_keepsBounded _).andThen fun _ => appendBits_keepsBounded _ _) bound b hb hbd
      · next l r _ =>
        exact ((appendBit_keepsBounded _).andThen fun _ => (ih l).andThen fun _ => ih r) bound b hb hbd

@[simp] theorem deltaForward_length (d : Nat) (b : List Byte) : (deltaForward d b).length = b.length := by
  unfold deltaForward; split <;> simp

@[simp] theorem deltaInverse_length (d : Nat) (b : List Byte) : (deltaInverse d b).length = b.length := by
  unfold deltaInverse; split <;> simp

end Sys2Proof.Machine
end

section
/-! SUPPORT. What the codecs' operations leave of the tables' canonical form and of their sizes (spec 10_state.md R30, R32, R37
to R40; 41_match_finder.md; 43_huffman.md). -/

namespace Sys2Proof.Machine

/-! ### Tables with a property of every entry -/

section
variable {α : Type} [DecidableEq α] {d : α} {P : Nat × α → Prop} {t : List (Nat × α)}

/-- A canonical table all of whose entries have the property `P`. -/
abbrev TableOf (d : α) (P : Nat × α → Prop) (t : List (Nat × α)) : Prop := tableWf d t = true ∧ ∀ e ∈ t, P e

theorem tableOf_nil : TableOf d P [] := ⟨rfl, by simp⟩

/-- An entry of a written table is the one written or one of before. -/
theorem mem_tablePut {k : Nat} {v : α} {e : Nat × α} (h : e ∈ tablePut d t k v) : e = (k, v) ∨ e ∈ t := by
  induction t with
  | nil =>
    simp only [tablePut] at h
    split at h
    · simp at h
    · exact .inl (by simpa using h)
  | cons x t ih =>
    obtain ⟨k', v'⟩ := x
    simp only [tablePut] at h
    split at h
    · split at h
      · exact .inr h
      · exact (List.mem_cons.mp h).imp_right id
    · split at h
      · split at h
        · exact .inr (List.mem_cons_of_mem _ h)
        · exact (List.mem_cons.mp h).imp_right (List.mem_cons_of_mem _)
      · rcases List.mem_cons.mp h with h | h
        · exact .inr (h ▸ List.mem_cons_self)
        · exact (ih h).imp_right (List.mem_cons_of_mem _)

theorem TableOf.put (h : TableOf d P t) {k : Nat} {v : α} (hv : P (k, v)) : TableOf d P (tablePut d t k v) := by
  obtain ⟨hw, hp⟩ := h
  refine ⟨tablePut_wf d t k v hw, fun e he => ?_⟩
  rcases mem_tablePut he with rfl | he
  · exact hv
  · exact hp e he

omit [DecidableEq α] in
/-- A read gives the value of indices that are not listed, or an entry. -/
theorem tableGet_eq_or_mem (d : α) (t : List (Nat × α)) (k : Nat) :
    tableGet d t k = d ∨ (k, tableGet d t k) ∈ t := by
  induction t with
  | nil => exact .inl rfl
  | cons x t ih =>
    obtain ⟨k', v⟩ := x
    simp only [tableGet]
    split
    · exact .inl rfl
    · split
      · next h => exact .inr (h ▸ List.mem_cons_self)
      · exact ih.imp_right (List.mem_cons_of_mem _)

end

/-! ### The match finder -/

/-- The match finder's part of the table invariant. -/
def MatchFinder.Sized (mf : MatchFinder) : Prop :=
  TableOf (emptyBucket Config.barph) (fun e => e.1 < Config.barph.mfNB ∧ e.2.Shaped) mf.mt ∧
  mf.bestLen ≤ Config.barph.maxLen

theorem emptyBucket_shaped : (emptyBucket Config.barph).Shaped := by decide

theorem bucket_shaped {mf : MatchFinder} (h : mf.Sized) (i : Nat) : (mf.bucket Config.barph i).Shaped := by
  rw [MatchFinder.bucket]
  rcases tableGet_eq_or_mem (emptyBucket Config.barph) mf.mt i with e | e
  · rw [e]; exact emptyBucket_shaped
  · exact (h.1.2 _ e).2

theorem Bucket.Shaped.push {b : Bucket} (h : b.Shaped) (p : Nat) : (b.push Config.barph p).Shaped := by
  obtain ⟨hs, -, -⟩ := h
  exact ⟨by simpa [Bucket.push] using hs, Nat.mod_lt _ (by decide), Nat.min_le_right ..⟩

/-- The hash names a bucket (R161). -/
theorem mfHash_lt (I : List Byte) (p : Nat) : mfHash Config.barph I p < Config.barph.mfNB := by
  rw [mfHash, BitVec.toNat_ushiftRight, Nat.shiftRight_eq_div_pow]
  exact Nat.div_lt_of_lt_mul (BitVec.isLt _)

theorem mfClear_sized {mf : MatchFinder} (h : mf.Sized) : (mfClear mf).Sized := ⟨tableOf_nil, h.2⟩

theorem mfInsert_sized {mf : MatchFinder} (h : mf.Sized) (I : List Byte) (p : Nat) :
    (mfInsert Config.barph I p mf).Sized := by
  rw [mfInsert]
  split
  · exact ⟨h.1.put ⟨mfHash_lt I p, (bucket_shaped h _).push p⟩, h.2⟩
  · exact h

theorem commonLen_le : ∀ (cap : Nat) (xs ys : List Byte), commonLen cap xs ys ≤ cap
  | 0, _, _ => by simp [commonLen]
  | _ + 1, [], _ => by simp [commonLen]
  | _ + 1, _ :: _, [] => by simp [commonLen]
  | cap + 1, x :: xs, y :: ys => by
    rw [commonLen]
    split
    · exact Nat.succ_le_succ (commonLen_le cap xs ys)
    · exact Nat.zero_le _

/-- One candidate leaves the best length as it was or takes the candidate's (R164). -/
theorem consider_len (cfg : Config) (I : List Byte) (p : Nat) (best : Nat × Nat) (c : Nat) :
    (consider cfg I p best c).1 = best.1 ∨ (consider cfg I p best c).1 = matchLen cfg I c p := by
  unfold consider
  split_ifs <;> simp

theorem search_le (cfg : Config) (I : List Byte) (p : Nat) : ∀ (cs : List Nat) (best : Nat × Nat),
    best.1 ≤ cfg.maxLen → (cs.foldl (consider cfg I p) best).1 ≤ cfg.maxLen
  | [], _, h => h
  | c :: cs, best, h => by
    refine search_le cfg I p cs _ ?_
    rcases consider_len cfg I p best c with e | e
    · rw [e]; exact h
    · rw [e]; exact commonLen_le ..

theorem mfFindBest_sized {mf : MatchFinder} (h : mf.Sized) (I : List Byte) (p : Nat) :
    (mfFindBest Config.barph I p mf).2.Sized := by
  rw [mfFindBest]
  split
  · exact ⟨h.1, search_le _ I p _ _ (Nat.zero_le _)⟩
  · exact h

theorem mfMatchAt_snd (cfg : Config) (I : List Byte) (p : Nat) (mf : MatchFinder) :
    (mfMatchAt cfg I p mf).2 = (mfFindBest cfg I p mf).2 := by
  unfold mfMatchAt
  split <;> simp [*]

theorem mfMatchAt_sized {mf : MatchFinder} (h : mf.Sized) (I : List Byte) (p : Nat) :
    (mfMatchAt Config.barph I p mf).2.Sized := by
  rw [mfMatchAt_snd]
  exact mfFindBest_sized h I p

theorem insertRun_sized (I : List Byte) : ∀ (n p : Nat) (mf : MatchFinder), mf.Sized →
    (insertRun Config.barph I n p mf).Sized
  | 0, _, _, h => h
  | n + 1, p, _, h => insertRun_sized I n (p + 1) _ (mfInsert_sized h I p)

/-! ### The Huffman tables -/

/-- The Huffman codec's part of the table invariant. -/
structure Huffman.Sized (h : Huffman) : Prop where
  freq : TableOf 0 (fun e => e.1 < 256) h.freq
  node : TableOf {} (fun e => e.1 < Config.barph.hufMaxNodes ∧ e.2.inArena = true) h.node
  code : TableOf [] (fun e => e.1 < 256) h.code
  nnodes : h.nnodes ≤ Config.barph.hufMaxNodes
  merges : h.merges ≤ Config.hufMaxMerges
  wlLen : h.wlLen ≤ 256
  wl : ∀ i ∈ h.wl, i < Config.barph.hufMaxNodes
  root : h.root < Config.barph.hufMaxNodes
  walk : h.walk < Config.barph.hufMaxNodes

/-- The table invariant, by unit. -/
theorem tableInv_iff (s : State) : s.TableInv ↔ Memory.wf s.inMem = true ∧ s.mf.Sized ∧ s.huf.Sized := by
  constructor
  · rintro ⟨hm, ⟨hmf, hme, hl⟩, hfreq, hnode, hcode, hn, hmg, hwl, hw, hr, hk⟩
    exact ⟨hm, ⟨⟨hmf, hme⟩, hl⟩, hfreq, hnode, hcode, hn, hmg, hwl, hw, hr, hk⟩
  · rintro ⟨hm, ⟨⟨hmf, hme⟩, hl⟩, hfreq, hnode, hcode, hn, hmg, hwl, hw, hr, hk⟩
    exact ⟨hm, ⟨hmf, hme, hl⟩, hfreq, hnode, hcode, hn, hmg, hwl, hw, hr, hk⟩

theorem Huffman.Sized.putNode {h : Huffman} (hs : h.Sized) {i : Nat} {n : Node} (hi : i < Config.barph.hufMaxNodes)
    (hn : n.inArena = true) : (h.putNode i n).Sized := { hs with node := hs.node.put ⟨hi, hn⟩ }

/-- Every node of the arena, listed or not, has its children in the arena. -/
theorem Huffman.Sized.nodeAt_inArena {h : Huffman} (hs : h.Sized) (i : Nat) : (h.nodeAt i).inArena = true := by
  rw [Huffman.nodeAt]
  rcases tableGet_eq_or_mem ({} : Node) h.node i with e | e
  · rw [e]; rfl
  · exact (hs.node.2 _ e).2

theorem Huffman.Sized.children_lt {h : Huffman} (hs : h.Sized) {i l r : Nat}
    (hk : (h.nodeAt i).kind = .internal l r) : l < Config.barph.hufMaxNodes ∧ r < Config.barph.hufMaxNodes := by
  have hn := hs.nodeAt_inArena i
  rw [Node.inArena, hk] at hn
  simpa using hn

theorem hufCount_sized {h : Huffman} (hs : h.Sized) (I : List Byte) : (hufCount I h).Sized := by
  have hfold : ∀ (I : List Byte) (t : List (Nat × Nat)), TableOf 0 (fun e => e.1 < 256) t →
      TableOf 0 (fun e => e.1 < 256) (I.foldl countByte t) := by
    intro I
    induction I with
    | nil => exact fun _ ht => ht
    | cons v vs ih => exact fun t ht => ih _ (ht.put v.isLt)
  exact { hs with freq := hfold I [] tableOf_nil }

/-- The leaves entered for byte values below `n`: no more than `n` of them, and a worklist no longer than that. -/
structure Huffman.LeavesBelow (n : Nat) (h : Huffman) : Prop where
  sized : h.Sized
  nnodes : h.nnodes ≤ n
  wl : h.wl.length ≤ h.nnodes

theorem addLeaf_leavesBelow {h : Huffman} {v : Nat} (hl : h.LeavesBelow v) (hv : v < 256) :
    (addLeaf h v).LeavesBelow (v + 1) := by
  obtain ⟨hs, hn, hw⟩ := hl
  have hi : h.nnodes < Config.barph.hufMaxNodes := Nat.lt_of_le_of_lt hn (Nat.lt_trans hv (by decide))
  rw [addLeaf]
  split
  · have hp := hs.putNode (n := { kind := .leaf (BitVec.ofNat 8 v), freq := h.freqAt v }) hi rfl
    refine ⟨{ hp with nnodes := hi, wlLen := ?_, wl := ?_ }, ?_, ?_⟩
    · simp only [Huffman.wlLen, List.length_append, List.length_singleton]
      omega
    · simpa [or_imp, forall_and, hi] using hs.wl
    · exact Nat.succ_le_succ hn
    · simpa using hw
  · exact ⟨hs, by omega, hw⟩

theorem addLeaves_leavesBelow {h : Huffman} (hl : h.LeavesBelow 0) :
    ∀ n, n ≤ 256 → ((List.range n).foldl addLeaf h).LeavesBelow n
  | 0, _ => hl
  | n + 1, hn => by
    rw [List.range_succ, List.foldl_append]
    exact addLeaf_leavesBelow (addLeaves_leavesBelow hl n (by omega)) (by omega)

theorem insertByFreq_perm (freq : Nat → Nat) (wl : List Nat) (x : Nat) : (insertByFreq freq wl x).Perm (x :: wl) := by
  rw [insertByFreq]
  exact List.perm_middle.trans (by rw [List.take_append_drop])

theorem sortByFreq_perm (freq : Nat → Nat) (wl : List Nat) : (sortByFreq freq wl).Perm wl := by
  have hfold : ∀ xs acc : List Nat, (xs.foldl (insertByFreq freq) acc).Perm (xs ++ acc) := by
    intro xs
    induction xs with
    | nil => exact fun _ => .refl _
    | cons x xs ih =>
      intro acc
      exact (ih _).trans (((insertByFreq_perm freq acc x).append_left xs).trans List.perm_middle)
  simpa [sortByFreq] using hfold wl []

/-- The builder between two merges: at most 256 of the nodes are leaves. -/
structure Huffman.Merging (h : Huffman) : Prop where
  sized : h.Sized
  nnodes : h.nnodes ≤ 256 + h.merges

/-- The arena with the node that a merge of `lo` and `hi` makes (R201 (b)). -/
def Huffman.joined (lo hi : Nat) (h : Huffman) : Huffman :=
  h.putNode h.nnodes { kind := .internal hi lo, freq := (h.nodeAt hi).freq + (h.nodeAt lo).freq }

/-- What a merge of `lo` and `hi` leaves: the new node has entered the worklist (R201 (c)). -/
def Huffman.merged (lo hi : Nat) (h : Huffman) : Huffman :=
  { h.joined lo hi with
    merges := h.merges + 1
    wl := insertByFreq (fun i => ((h.joined lo hi).nodeAt i).freq) h.wl h.nnodes
    nnodes := h.nnodes + 1 }

theorem mergeTwo_eq (lo hi : Nat) (h : Huffman) :
    mergeTwo lo hi h =
      if Config.hufMaxMerges ≤ h.merges then .stop (.raise .internal) h else .ok () (h.merged lo hi) := rfl

theorem merged_wl_perm (lo hi : Nat) (h : Huffman) : (h.merged lo hi).wl.Perm (h.nnodes :: h.wl) :=
  insertByFreq_perm (fun i => ((h.joined lo hi).nodeAt i).freq) h.wl h.nnodes

theorem mergeTwo_ends {h : Huffman} {lo hi : Nat} (hm : h.Merging) (hlo : lo < Config.barph.hufMaxNodes)
    (hhi : hi < Config.barph.hufMaxNodes) (hw : h.wl.length < 256) :
    (mergeTwo lo hi h).Ends (fun _ h' => h'.Merging) Huffman.Sized := by
  obtain ⟨hs, hn⟩ := hm
  rw [mergeTwo_eq]
  split
  · exact .stop hs
  · next hge =>
    have hlt : h.merges < 255 := Nat.lt_of_not_le hge
    have hi' : h.nnodes < Config.barph.hufMaxNodes := show h.nnodes < 511 by omega
    have hp : (h.joined lo hi).Sized := hs.putNode hi' (by simp [Node.inArena, hlo, hhi])
    have hwl := merged_wl_perm lo hi h
    refine .ok ⟨{ hp with nnodes := hi', merges := hlt, wlLen := ?_, wl := ?_ }, ?_⟩
    · rw [Huffman.wlLen, hwl.length_eq]; exact hw
    · intro i hi
      rcases List.mem_cons.mp (hwl.mem_iff.mp hi) with rfl | hi
      · exact hi'
      · exact hs.wl i hi
    · show h.nnodes + 1 ≤ 256 + (h.merges + 1)
      omega

/-- The worklist of a turn of the merge loop: its end popped twice (R201 (b)). -/
theorem popTwo_eq {wl rest : List Nat} {lo hi : Nat} (h : wl.reverse = lo :: hi :: rest) :
    wl = rest.reverse ++ [hi, lo] := by
  rw [← List.reverse_reverse wl, h]; simp

theorem mergeLoop_ends : ∀ (fuel : Nat) (h : Huffman), h.Merging →
    (mergeLoop fuel h).Keeps Huffman.Sized
  | 0, _, hm => .ok hm.sized
  | fuel + 1, h, hm => by
    rw [mergeLoop]
    split
    · next lo hi rest hrev =>
      obtain ⟨hs, hn⟩ := hm
      have hwl := popTwo_eq hrev
      have hlen : h.wl.length = rest.length + 2 := by rw [hwl]; simp
      have hmem : ∀ i, i ∈ rest.reverse ∨ i = hi ∨ i = lo → i < Config.barph.hufMaxNodes := fun i hi =>
        hs.wl i (by rw [hwl]; simpa using hi)
      have h256 : h.wl.length ≤ 256 := hs.wlLen
      have hpop : ({ h with wl := rest.reverse } : Huffman).Merging :=
        ⟨{ hs with
            wlLen := by simp only [Huffman.wlLen, List.length_reverse]; omega
            wl := fun i hi => hmem i (.inl hi) }, hn⟩
      exact (mergeTwo_ends hpop (hmem lo (by simp)) (hmem hi (by simp))
        (by simp only [List.length_reverse]; omega)).andThen fun _ h' h'm => mergeLoop_ends fuel h' h'm
    · exact .ok hm.sized

theorem setRoot_sized {h : Huffman} (hs : h.Sized) : (setRoot h).Sized := by
  unfold setRoot
  split
  · next r hr => exact { hs with root := hs.wl r (by simp [hr]) }
  · exact hs

/-- The leaves of `HUF.BUILD` for byte values below `n` (R201), one for each that occurs, in the order they are made. -/
def Huffman.leaves (n : Nat) (h : Huffman) : Huffman :=
  (List.range n).foldl addLeaf { h with nnodes := 0, wl := [], merges := 0 }

/-- What the merge loop of `HUF.BUILD` starts from (R201 (a)). -/
def Huffman.sortedLeaves (n : Nat) (h : Huffman) : Huffman :=
  { h.leaves n with wl := sortByFreq (fun i => ((h.leaves n).nodeAt i).freq) (h.leaves n).wl }

theorem hufBuild_eq (h : Huffman) :
    hufBuild h =
      (mergeLoop (h.sortedLeaves 256).wl.length (h.sortedLeaves 256)).andThen fun _ h' => .ok () (setRoot h') := by
  simp only [hufBuild, Huffman.sortedLeaves, Huffman.leaves]

theorem sortedLeaves_wl_perm (n : Nat) (h : Huffman) : (h.sortedLeaves n).wl.Perm (h.leaves n).wl := sortByFreq_perm ..

theorem leaves_leavesBelow {h : Huffman} (hs : h.Sized) (n : Nat) (hn : n ≤ 256) : (h.leaves n).LeavesBelow n :=
  addLeaves_leavesBelow (h := { h with nnodes := 0, wl := [], merges := 0 })
    ⟨{ hs with nnodes := Nat.zero_le _, wl := by simp, merges := Nat.zero_le _, wlLen := Nat.zero_le _ },
      Nat.le_refl _, Nat.le_refl _⟩ n hn

theorem sortedLeaves_merging {h : Huffman} (hs : h.Sized) (n : Nat) (hn : n ≤ 256) : (h.sortedLeaves n).Merging := by
  obtain ⟨hls, hln, hlw⟩ := leaves_leavesBelow hs n hn
  have hp := sortedLeaves_wl_perm n h
  refine ⟨{ hls with wlLen := ?_, wl := fun i hi => hls.wl i (hp.mem_iff.mp hi) },
    Nat.le_trans hln (Nat.le_trans hn (Nat.le_add_right ..))⟩
  rw [Huffman.wlLen, hp.length_eq]
  omega

theorem hufBuild_sized {h : Huffman} (hs : h.Sized) : (hufBuild h).Keeps Huffman.Sized := by
  have hm := sortedLeaves_merging hs 256 (Nat.le_refl _)
  rw [hufBuild_eq]
  generalize h.sortedLeaves 256 = h1 at hm ⊢
  exact Res.Ends.andThen (mergeLoop_ends _ _ hm) fun _ h' hs' => .ok (setRoot_sized hs')

theorem assignVisit_keeps (h : Huffman) :
    ∀ (fuel i : Nat) (pre : List Bool) (code : List (Nat × List Bool)), TableOf [] (fun e => e.1 < 256) code →
      (assignVisit h fuel i pre code).Keeps (TableOf [] fun e => e.1 < 256) := by
  intro fuel
  induction fuel with
  | zero => exact fun _ _ _ hc => .stop hc
  | succ fuel ih =>
    intro i pre code hc
    rw [assignVisit]
    split
    · exact .stop hc
    · split
      · next v _ => exact .ok (hc.put v.isLt)
      · exact Res.Ends.andThen (ih _ _ _ hc) fun _ code' hc' => ih _ _ _ hc'

theorem hufAssign_sized {h : Huffman} (hs : h.Sized) : (hufAssign h).Keeps Huffman.Sized := by
  rw [hufAssign]
  split
  · exact .ok { hs with code := tableOf_nil }
  · split
    · exact .stop hs
    · split
      · next v _ =>
        exact .ok { hs with code := TableOf.put (P := fun e => e.1 < 256) (v := [false]) tableOf_nil v.isLt }
      · exact Res.Keeps.inside (assignVisit_keeps h _ _ _ _ tableOf_nil) fun code hc => { hs with code := hc }

end Sys2Proof.Machine
end

section
/-! SUPPORT. What the codecs leave of the tables' sizes and of their buffers' bounds, however they end. The two are kept
independently of each other: `T` stands for what gives the tables' sizes, `B` for what gives the buffers' bounds. -/

namespace Sys2Proof.Machine

section
variable {T B : Prop} {bound : Nat}

/-- An operation on a buffer, for a buffer that is within the bound when `B` holds. -/
theorem KeepsBounded.under {α : Type} {op : Nat → Buffer → Res Buffer α} (h : KeepsBounded op) (hb : bound < 2 ^ 64)
    {b : Buffer} (hbd : B → b.Bounded bound) : (op bound b).Keeps fun v => B → v.Bounded bound :=
  Res.Keeps.under fun hB => h bound b hb (hbd hB)

/-! ### The lookback encoder -/

/-- The encoder's table and output. -/
def LbEnc.Good (T B : Prop) (bound : Nat) (c : LbEnc) : Prop := (T → c.mf.Sized) ∧ (B → c.out.Bounded bound)

theorem LbEnc.emit_good {op : Nat → Buffer → Res Buffer Unit} (hop : KeepsBounded op) (hb : bound < 2 ^ 64) {c : LbEnc}
    (hc : c.Good T B bound) : (c.emit (op bound)).Keeps (LbEnc.Good T B bound) :=
  Res.Keeps.inside (hop.under hb hc.2) fun _ ho => ⟨hc.1, ho⟩

theorem literalScan_good (I : List Byte) : ∀ (fuel : Nat) (c : LbEnc), c.Good T B bound →
    (literalScan Config.barph I fuel c).Good T B bound
  | 0, _, hc => hc
  | fuel + 1, c, hc => by
    have hi : T → (mfInsert Config.barph I c.pos c.mf).Sized := fun hT => mfInsert_sized (hc.1 hT) I c.pos
    have hm : T → (mfMatchAt Config.barph I (c.pos + 1) (mfInsert Config.barph I c.pos c.mf)).2.Sized := fun hT =>
      mfMatchAt_sized (hi hT) I _
    rw [literalScan]
    dsimp only
    split
    · exact ⟨hi, hc.2⟩
    · split
      · exact ⟨hm, hc.2⟩
      · exact literalScan_good I fuel _ ⟨hm, hc.2⟩

theorem encodeMatch_good (hb : bound < 2 ^ 64) (I : List Byte) (d len : Nat) {c : LbEnc} (hc : c.Good T B bound) :
    (encodeMatch Config.barph I bound d len c).Keeps (LbEnc.Good T B bound) :=
  Res.Ends.andThen (LbEnc.emit_good (emitMatch_keepsBounded _ d len) hb hc) fun _ c' hc' =>
    .ok ⟨fun hT => insertRun_sized I len c'.pos _ (hc'.1 hT), hc'.2⟩

theorem emitLit_keepsBounded (bs : List Byte) : KeepsBounded fun bound => emitLit bound bs :=
  emitLitWith_keepsBounded _ bs

theorem encodeLiteral_good (hb : bound < 2 ^ 64) (I : List Byte) {c : LbEnc} (hc : c.Good T B bound) :
    (encodeLiteral Config.barph I bound c).Keeps (LbEnc.Good T B bound) :=
  LbEnc.emit_good (emitLit_keepsBounded _) hb (literalScan_good I _ _ hc)

theorem encodeLoop_good (hb : bound < 2 ^ 64) (I : List Byte) : ∀ (fuel : Nat) (c : LbEnc), c.Good T B bound →
    (encodeLoop Config.barph I bound fuel c).Keeps (LbEnc.Good T B bound)
  | 0, _, hc => .ok hc
  | fuel + 1, c, hc => by
    have hm : ({ c with mf := (mfMatchAt Config.barph I c.pos c.mf).2 } : LbEnc).Good T B bound :=
      ⟨fun hT => mfMatchAt_sized (hc.1 hT) I _, hc.2⟩
    rw [encodeLoop]
    split
    · refine Res.Ends.andThen (Q := fun _ => LbEnc.Good T B bound) ?_ fun _ c' hc' => encodeLoop_good hb I fuel c' hc'
      split
      · exact encodeMatch_good hb I _ _ hm
      · exact encodeLiteral_good hb I hm
    · exact .ok hc

theorem lbEncode_good (hb : bound < 2 ^ 64) (I : List Byte) {c : LbEnc} (hc : c.Good T B bound) :
    (lbEncode Config.barph I bound c).Keeps (LbEnc.Good T B bound) :=
  Res.Ends.andThen
    (LbEnc.emit_good (appendBytes_keepsBounded _) hb
      ⟨fun hT => mfClear_sized (hc.1 hT), fun hB => release_bounded (hc.2 hB)⟩)
    fun _ _ hc' => encodeLoop_good hb I _ _ hc'

/-! ### The lookback decoder -/

/-- The decoder's output. -/
def LbDec.Good (B : Prop) (bound : Nat) (c : LbDec) : Prop := B → c.out.Bounded bound

/-- An operation of the lookback decoder leaves its output within the bound, however it ends. -/
def LbDec.KeepsGood (op : List Byte → Nat → LbDec → Res LbDec Unit) : Prop :=
  ∀ (B : Prop) (S : List Byte) (bound : Nat) (c : LbDec), bound < 2 ^ 64 → c.Good B bound →
    (op S bound c).Keeps (LbDec.Good B bound)

theorem lbHeader_good (n : Nat) : LbDec.KeepsGood fun S bound => lbHeader S bound n := by
  intro B S bound c hb hc
  beta_reduce
  rw [lbHeader]
  split
  · exact .stop hc
  · dsimp only
    split
    · exact .stop hc
    · exact .ok fun hB => release_bounded (hc hB)

theorem lbLiteral_good (h r : Nat) : LbDec.KeepsGood fun S bound => lbLiteral S bound h r := by
  intro B S bound c hb hc
  beta_reduce
  rw [lbLiteral]
  split
  · exact .stop hc
  · dsimp only
    split
    · exact .stop hc
    · split
      · exact .stop hc
      · exact Res.Ends.andThen
          (Res.Keeps.inside (P' := LbDec.Good B bound) ((appendBytes_keepsBounded _).under hb hc) fun _ ho => ho)
          fun _ _ hc' => .ok hc'

theorem lbDistance_good (t d : Nat) : LbDec.KeepsGood fun S _ => lbDistance S t d := by
  intro B S bound c hb hc
  rcases lbDistance_cases S t d c with ⟨-, e⟩ | ⟨-, e⟩
  · beta_reduce; rw [e]; exact .ok hc
  · beta_reduce; rw [e]; exact .stop hc

theorem lbLengthCut_good : LbDec.KeepsGood fun S _ => lbLengthCut S := fun _ _ _ _ _ hc => .stop hc

theorem lbLength_good (h len : Nat) : LbDec.KeepsGood fun S bound => lbLength S bound h len := by
  intro B S bound c hb hc
  beta_reduce
  rcases lbLength_cases S bound h len c with ⟨-, e⟩ | ⟨-, -, e⟩ | ⟨-, -, -, -, e⟩
  · rw [e]; exact .stop hc
  · rw [e]; exact .stop hc
  · rw [e]
    exact Res.Keeps.inside ((matchCopy_keepsBounded _ _).under hb hc) fun _ ho => ho

theorem lbLengthField_good : LbDec.KeepsGood lbLengthField := by
  intro B S bound c hb hc
  rw [lbLengthField]
  split
  · exact lbLength_good 1 _ B S bound c hb hc
  · exact lbLength_good 2 _ B S bound c hb hc
  · exact .stop hc

theorem lbToken_good : LbDec.KeepsGood lbToken := by
  intro B S bound c hb hc
  have hmatch : ∀ t d, ((lbDistance S t d c).andThen fun _ c => lbLengthField S bound c).Keeps (LbDec.Good B bound) :=
    fun t d => Res.Ends.andThen (lbDistance_good t d B S bound c hb hc) fun _ c' hc' =>
      lbLengthField_good B S bound c' hb hc'
  rw [lbToken]
  split
  · exact lbLiteral_good 1 _ B S bound c hb hc
  · exact lbLiteral_good 2 _ B S bound c hb hc
  · exact hmatch 1 _
  · exact hmatch 2 _
  · exact hmatch 3 _
  · exact hmatch 4 _
  · exact hmatch 5 _
  · exact .stop hc

theorem decodeLoop_good (S : List Byte) (hb : bound < 2 ^ 64) : ∀ (fuel : Nat) (c : LbDec), c.Good B bound →
    (decodeLoop S bound fuel c).Keeps (LbDec.Good B bound)
  | 0, _, hc => .stop hc
  | fuel + 1, c, hc => by
    rw [decodeLoop]
    split
    · exact Res.Ends.andThen (lbToken_good B S bound c hb hc) fun _ c' hc' => decodeLoop_good S hb fuel c' hc'
    · exact .ok hc

theorem lbDecode_good : LbDec.KeepsGood lbDecode := fun B S bound c hb hc =>
  Res.Ends.andThen (lbHeader_good _ B S bound c hb hc) fun _ c' hc' => decodeLoop_good S hb _ c' hc'

/-! ### The Huffman encoder -/

/-- The packer's tables and output. -/
def HufEnc.Good (T B : Prop) (bound : Nat) (c : HufEnc) : Prop := (T → c.huf.Sized) ∧ (B → c.out.Bounded bound)

theorem HufEnc.emit_good {op : Nat → Buffer → Res Buffer Unit} (hop : KeepsBounded op) (hb : bound < 2 ^ 64)
    {c : HufEnc} (hc : c.Good T B bound) : (c.emit (op bound)).Keeps (HufEnc.Good T B bound) :=
  Res.Keeps.inside (hop.under hb hc.2) fun _ ho => ⟨hc.1, ho⟩

theorem HufEnc.tables_good {op : Huffman → Res Huffman Unit} (hop : ∀ h : Huffman, h.Sized → (op h).Keeps Huffman.Sized)
    {c : HufEnc} (hc : c.Good T B bound) : (c.tables op).Keeps (HufEnc.Good T B bound) :=
  Res.Keeps.inside (Res.Keeps.under fun hT => hop _ (hc.1 hT)) fun _ hh => ⟨hh, hc.2⟩

theorem packBytes_good (hb : bound < 2 ^ 64) : ∀ (I : List Byte) (p : Nat) (c : HufEnc), c.Good T B bound →
    (packBytes bound I p c).Keeps (HufEnc.Good T B bound)
  | [], _, _, hc => .ok hc
  | _ :: vs, p, c, hc =>
    Res.Ends.andThen (HufEnc.emit_good (c := { c with pos := p }) (appendBitList_keepsBounded _) hb hc) fun _ c' hc' =>
      packBytes_good hb vs (p + 1) c' hc'

theorem hufEncode_good (hb : bound < 2 ^ 64) (I : List Byte) {c : HufEnc} (hc : c.Good T B bound) :
    (hufEncode I bound c).Keeps (HufEnc.Good T B bound) := by
  rw [hufEncode]
  refine Res.Ends.andThen (HufEnc.emit_good (appendBits_keepsBounded I.length 64) hb
    ⟨fun hT => { hc.1 hT with }, fun hB => release_bounded (hc.2 hB)⟩) fun _ c1 h1 => ?_
  split
  · exact .ok h1
  · have hcount : ({ c1 with huf := hufCount I c1.huf, pos := I.length - 1 } : HufEnc).Good T B bound :=
      ⟨fun hT => hufCount_sized (h1.1 hT) I, h1.2⟩
    exact Res.Ends.andThen (HufEnc.tables_good (fun _ => hufBuild_sized) hcount) fun _ c2 h2 =>
      Res.Ends.andThen (HufEnc.tables_good (fun _ => hufAssign_sized) h2) fun _ c3 h3 =>
        Res.Ends.andThen (HufEnc.emit_good (writeTree_keepsBounded _ _ _) hb h3) fun _ c4 h4 =>
          packBytes_good hb I 0 c4 h4

/-! ### The Huffman decoder -/

/-- The Huffman decoder's tables, its stream and its output. -/
def HufDec.Good (T B : Prop) (bound : Nat) (c : HufDec) : Prop :=
  (T → c.huf.Sized) ∧ (B → c.inp.Bounded bound) ∧ (B → c.out.Bounded bound)

theorem HufDec.bits_good (hb : bound < 2 ^ 64) (width : Nat) {c : HufDec} (hc : c.Good T B bound) :
    (c.bits width).Keeps (HufDec.Good T B bound) :=
  Res.Keeps.inside ((readBits_keepsBounded width).under hb hc.2.1) fun _ hi => ⟨hc.1, hi, hc.2.2⟩

/-- What is known when an operation that reads nodes returns an index: it lies in the arena. -/
abbrev HufDec.GoodIndex (T B : Prop) (bound : Nat) (i : Nat) (c : HufDec) : Prop :=
  i < Config.barph.hufMaxNodes ∧ c.Good T B bound

theorem allocNode_good {c : HufDec} (hc : c.Good T B bound) :
    (allocNode Config.barph c).Ends (HufDec.GoodIndex T B bound) (HufDec.Good T B bound) := by
  rcases allocNode_cases Config.barph c with ⟨hn, e⟩ | ⟨-, e⟩
  · rw [e]; exact .ok ⟨hn, fun hT => { hc.1 hT with nnodes := hn }, hc.2⟩
  · rw [e]; exact .stop hc

theorem storeNode_good {i : Nat} {kind : NodeKind} {c : HufDec} (hi : i < Config.barph.hufMaxNodes)
    (hk : Node.inArena { kind := kind } = true) (hc : c.Good T B bound) : (storeNode i kind c).Good T B bound :=
  ⟨fun hT => (hc.1 hT).putNode hi hk, hc.2⟩

theorem readTree_good (hb : bound < 2 ^ 64) : ∀ (fuel : Nat) (c : HufDec), c.Good T B bound →
    (readTree Config.barph fuel c).Ends (HufDec.GoodIndex T B bound) (HufDec.Good T B bound)
  | 0, _, hc => .stop hc
  | fuel + 1, c, hc => by
    rw [readTree]
    refine (allocNode_good hc).andThen fun i c1 ⟨hi, h1⟩ => (HufDec.bits_good hb 1 h1).andThen fun tag c2 h2 => ?_
    split
    · exact (readTree_good hb fuel c2 h2).andThen fun l c3 ⟨hl, h3⟩ =>
        (readTree_good hb fuel c3 h3).andThen fun r c4 ⟨hr, h4⟩ =>
          .ok ⟨hi, storeNode_good hi (by simp [Node.inArena, hl, hr]) h4⟩
    · exact (HufDec.bits_good hb 8 h2).andThen fun v c3 h3 => .ok ⟨hi, storeNode_good hi rfl h3⟩

/-- An operation of the Huffman decoder that returns a node's index keeps the tables' sizes and the buffers' bounds. -/
def HufDec.KeepsGoodIndex (op : HufDec → Res HufDec Nat) : Prop :=
  ∀ (T B : Prop) (bound : Nat) (c : HufDec), bound < 2 ^ 64 → c.Good T B bound →
    (op c).Ends (HufDec.GoodIndex T B bound) (HufDec.Good T B bound)

theorem readNoNode_good : HufDec.KeepsGoodIndex (readNoNode Config.barph) := fun _ _ _ _ _ hc =>
  (allocNode_good hc).andThen fun _ _ h1 => .stop h1.2

theorem readInternal_good : HufDec.KeepsGoodIndex (readInternal Config.barph) := fun _ _ _ _ hb hc =>
  (allocNode_good hc).andThen fun _ _ ⟨hi, h1⟩ =>
    (HufDec.bits_good hb 1 h1).andThen fun _ c2 h2 =>
      (readTree_good hb _ c2 h2).andThen fun _ c3 ⟨hl, h3⟩ =>
        (readTree_good hb _ c3 h3).andThen fun _ _ ⟨hr, h4⟩ =>
          .ok ⟨hi, storeNode_good hi (by simp [Node.inArena, hl, hr]) h4⟩

theorem readLeaf_good (v : Byte) : HufDec.KeepsGoodIndex (readLeaf Config.barph v) := fun _ _ _ _ hb hc =>
  (allocNode_good hc).andThen fun _ _ ⟨hi, h1⟩ =>
    (HufDec.bits_good hb 9 h1).andThen fun _ _ h2 => .ok ⟨hi, storeNode_good hi rfl h2⟩

/-- A node read at top level becomes the root (R209). -/
theorem asRoot_good {r : Res HufDec Nat} (h : r.Ends (HufDec.GoodIndex T B bound) (HufDec.Good T B bound)) :
    (asRoot r).Keeps (HufDec.Good T B bound) :=
  h.andThen fun _ _ ⟨hi, hc⟩ => .ok ⟨fun hT => { hc.1 hT with root := hi }, hc.2⟩

/-- An operation of the Huffman decoder keeps the tables' sizes and the buffers' bounds. -/
def HufDec.KeepsGood {α : Type} (op : Nat → HufDec → Res HufDec α) : Prop :=
  ∀ (T B : Prop) (bound : Nat) (c : HufDec), bound < 2 ^ 64 → c.Good T B bound →
    (op bound c).Keeps (HufDec.Good T B bound)

theorem hufHeader_good (n : Nat) : HufDec.KeepsGood fun bound => hufHeader bound n := by
  intro T B bound c hb hc
  have h0 : ({ c with inp := { c.inp with rcur := {} } } : HufDec).Good T B bound :=
    ⟨hc.1, fun hB => (hc.2.1 hB).withRcur (by simp) (by simp), hc.2.2⟩
  refine Res.Ends.andThen (HufDec.bits_good hb 64 h0) fun _ c1 ⟨hh, hi, ho⟩ => ?_
  have hrel : B → c1.out.release.Bounded bound := fun hB => release_bounded (ho hB)
  dsimp only
  split
  · exact .stop ⟨fun hT => { hh hT with }, hi, ho⟩
  · split
    · exact .ok ⟨fun hT => { hh hT with }, hi, hrel⟩
    · exact .ok ⟨fun hT => { hh hT with nnodes := Nat.zero_le _ }, hi, hrel⟩

theorem walkTree_good (hb : bound < 2 ^ 64) : ∀ (fuel : Nat) (c : HufDec), c.Good T B bound →
    (walkTree fuel c).Keeps (HufDec.Good T B bound)
  | 0, _, hc => .stop hc
  | fuel + 1, c, hc => by
    rw [walkTree]
    split
    · exact .stop hc
    · split
      · exact .ok hc
      · next l r hk =>
        refine Res.Ends.andThen (Q := fun _ c' => c'.Good T B bound ∧ c'.huf = c.huf) (E := HufDec.Good T B bound) ?_
          fun bit c' ⟨hc', he⟩ => walkTree_good hb fuel _ ⟨fun hT => { hc'.1 hT with walk := ?_ }, hc'.2⟩
        · rcases HufDec.bits_cases c 1 with ⟨-, e⟩ | ⟨-, e⟩
          · exact e ▸ .ok ⟨(HufDec.bits_good hb 1 hc).of_ok e, rfl⟩
          · exact e ▸ .stop hc
        · obtain ⟨hl, hr⟩ := (he ▸ hc'.1 hT).children_lt hk
          dsimp only
          split
          · exact hl
          · exact hr

theorem symbolByte_good (hb : bound < 2 ^ 64) {c : HufDec} (hc : c.Good T B bound) :
    (symbolByte c).Keeps (HufDec.Good T B bound) := by
  rw [symbolByte]
  split
  · exact .stop hc
  · split
    · exact Res.Ends.andThen (HufDec.bits_good hb 1 hc) fun _ _ h1 => .ok h1
    · exact walkTree_good hb _ _ ⟨fun hT => { hc.1 hT with walk := (hc.1 hT).root }, hc.2⟩

theorem readSymbol_good : HufDec.KeepsGood readSymbol := fun _ _ _ _ hb hc =>
  Res.Ends.andThen (symbolByte_good hb hc) fun v _ h1 =>
    Res.Keeps.inside ((appendByte_keepsBounded v).under hb h1.2.2) fun _ ho => ⟨h1.1, h1.2.1, ho⟩

theorem symbolLoop_good (hb : bound < 2 ^ 64) : ∀ (fuel : Nat) (c : HufDec), c.Good T B bound →
    (symbolLoop bound fuel c).Keeps (HufDec.Good T B bound)
  | 0, _, hc => .stop hc
  | fuel + 1, c, hc => by
    rw [symbolLoop]
    split
    · exact Res.Ends.andThen (readSymbol_good T B bound c hb hc) fun _ c' hc' => symbolLoop_good hb fuel c' hc'
    · exact .ok hc

theorem hufDecode_good : HufDec.KeepsGood (hufDecode Config.barph) := by
  intro T B bound c hb hc
  refine Res.Ends.andThen (hufHeader_good _ T B bound c hb hc) fun _ c1 h1 => ?_
  split
  · exact .ok h1
  · exact Res.Ends.andThen (asRoot_good (readTree_good hb _ c1 h1)) fun _ c2 h2 => symbolLoop_good hb _ c2 h2

end

end Sys2Proof.Machine
end

section
/-! SUPPORT. What an operation can do to the state, said once: the effect of every unit operation and of every step, from
which the invariants and the frame follow. -/

namespace Sys2Proof.Machine

/-! ### The effect of a unit operation -/

/-- The memory `IN`, `IN_LEN`, the parameter and what belongs to the host are the same. -/
abbrev State.SameHost (s t : State) : Prop :=
  t.inMem = s.inMem ∧ t.inLen = s.inLen ∧ t.maxBuf = s.maxBuf ∧ t.queue = s.queue ∧ t.hostData = s.hostData ∧
  t.freeReads = s.freeReads

/-- What the body of any operation does: it leaves the host's part alone and keeps the buffers' bounds and the tables'
sizes. -/
def State.Effect (s t : State) : Prop :=
  s.SameHost t ∧ (s.BufferInv → t.BufferInv) ∧ (s.TableInv → t.TableInv)

/-- What the body of a unit operation does: it writes neither `STATE` nor `STATUS` nor `OUT_LEN` either. -/
def State.UnitEffect (s t : State) : Prop :=
  s.Effect t ∧ t.seq = s.seq ∧ t.err = s.err ∧ t.done = s.done ∧ t.outLen = s.outLen

theorem State.UnitEffect.refl (s : State) : s.UnitEffect s :=
  ⟨⟨⟨rfl, rfl, rfl, rfl, rfl, rfl⟩, id, id⟩, rfl, rfl, rfl, rfl⟩

section
variable {s₀ s : State}

theorem State.UnitEffect.effect (h : s₀.UnitEffect s) : s₀.Effect s := h.1

theorem State.UnitEffect.bufferInv (h : s₀.UnitEffect s) (hB : s₀.BufferInv) : s.BufferInv := h.1.2.1 hB

theorem State.UnitEffect.tableInv (h : s₀.UnitEffect s) (hT : s₀.TableInv) : s.TableInv := h.1.2.2 hT

theorem State.BufferInv.buf (h : s.BufferInv) (b : StageBuf) : (s.buf b).Bounded s.max := by
  obtain ⟨-, h0, h1, -⟩ := h
  cases b
  · exact h0
  · exact h1

theorem State.BufferInv.out (h : s.BufferInv) : s.out.Bounded s.max := h.2.2.2

theorem State.TableInv.mf (h : s.TableInv) : s.mf.Sized := ((tableInv_iff s).mp h).2.1

theorem State.TableInv.huf (h : s.TableInv) : s.huf.Sized := ((tableInv_iff s).mp h).2.2

/-- A stage buffer replaced by one within the bound. -/
theorem State.UnitEffect.putBuf (h : s₀.UnitEffect s) (b : StageBuf) {v : Buffer}
    (hv : s₀.BufferInv → v.Bounded s.max) : s₀.UnitEffect (s.putBuf b v) := by
  obtain ⟨⟨hh, hb, ht⟩, hc⟩ := h
  cases b with
  | sb0 => exact ⟨⟨hh, fun hB => ⟨(hb hB).1, hv hB, (hb hB).2.2⟩, ht⟩, hc⟩
  | sb1 => exact ⟨⟨hh, fun hB => ⟨(hb hB).1, (hb hB).2.1, hv hB, (hb hB).2.2.2⟩, ht⟩, hc⟩

/-- `OUT` replaced by a buffer within the bound. -/
theorem State.UnitEffect.setOut (h : s₀.UnitEffect s) {v : Buffer} (hv : s₀.BufferInv → v.Bounded s.max) :
    s₀.UnitEffect { s with out := v } := by
  obtain ⟨⟨hh, hb, ht⟩, hc⟩ := h
  exact ⟨⟨hh, fun hB => ⟨(hb hB).1, (hb hB).2.1, (hb hB).2.2.1, hv hB⟩, ht⟩, hc⟩

/-- The match finder replaced by one within its sizes. -/
theorem State.UnitEffect.setMf (h : s₀.UnitEffect s) {mf : MatchFinder} (hm : s₀.TableInv → mf.Sized) :
    s₀.UnitEffect { s with mf := mf } := by
  obtain ⟨⟨hh, hb, ht⟩, hc⟩ := h
  refine ⟨⟨hh, hb, fun hT => ?_⟩, hc⟩
  obtain ⟨hmem, -, hhuf⟩ := (tableInv_iff s).mp (ht hT)
  exact (tableInv_iff _).mpr ⟨hmem, hm hT, hhuf⟩

/-- The Huffman tables replaced by ones within their sizes. -/
theorem State.UnitEffect.setHuf (h : s₀.UnitEffect s) {huf : Huffman} (hm : s₀.TableInv → huf.Sized) :
    s₀.UnitEffect { s with huf := huf } := by
  obtain ⟨⟨hh, hb, ht⟩, hc⟩ := h
  refine ⟨⟨hh, hb, fun hT => ?_⟩, hc⟩
  obtain ⟨hmem, hmf, -⟩ := (tableInv_iff s).mp (ht hT)
  exact (tableInv_iff _).mpr ⟨hmem, hmf, hm hT⟩

theorem State.UnitEffect.releaseBuf (h : s₀.UnitEffect s) (b : StageBuf) : s₀.UnitEffect (s.releaseBuf b) :=
  h.putBuf b fun hB => release_bounded ((h.bufferInv hB).buf b)

/-- An operation on the state has no other effect than a unit operation may have, however it ends. -/
def HasUnitEffect {α : Type} (op : State → Res State α) : Prop :=
  ∀ s₀ s : State, s₀.UnitEffect s → (op s).Keeps s₀.UnitEffect

theorem HasUnitEffect.andThen {α β : Type} {op : State → Res State α} {f : α → State → Res State β}
    (h : HasUnitEffect op) (hf : ∀ a, HasUnitEffect (f a)) : HasUnitEffect fun s => (op s).andThen f :=
  fun s₀ s hs => Res.Ends.andThen (h s₀ s hs) fun a u hu => hf a s₀ u hu

theorem onBuf_effect {α : Type} {op : Nat → Buffer → Res Buffer α} (hop : KeepsBounded op) (b : StageBuf) :
    HasUnitEffect (onBuf b op) := fun _ s h =>
  Res.Keeps.inside (hop.under s.max_lt fun hB => (h.bufferInv hB).buf b) fun _ hv => h.putBuf b hv

theorem onOut_effect {α : Type} {op : Nat → Buffer → Res Buffer α} (hop : KeepsBounded op) :
    HasUnitEffect (onOut op) := fun _ s h =>
  Res.Keeps.inside (hop.under s.max_lt fun hB => (h.bufferInv hB).out) fun _ hv => h.setOut hv

theorem onLbDec_effect {op : List Byte → Nat → LbDec → Res LbDec Unit} (hop : LbDec.KeepsGood op) :
    HasUnitEffect (onLbDec op) := fun s₀ s h =>
  Res.Keeps.inside (hop s₀.BufferInv _ _ _ s.max_lt fun hB => (h.bufferInv hB).buf _) fun _ hc => h.putBuf _ hc

theorem onHufDec_effect {α : Type} {op : Nat → HufDec → Res HufDec α} (hop : HufDec.KeepsGood op) :
    HasUnitEffect (onHufDec op) := fun s₀ s h =>
  Res.Keeps.inside
    (hop s₀.TableInv s₀.BufferInv _ _ s.max_lt
      ⟨fun hT => (h.tableInv hT).huf, fun hB => (h.bufferInv hB).buf _, fun hB => (h.bufferInv hB).buf _⟩)
    fun _ ⟨hh, hi, ho⟩ => ((h.putBuf _ hi).putBuf _ (by rw [putBuf_max]; exact ho)).setHuf hh

theorem onHufNode_effect {op : HufDec → Res HufDec Nat} (hop : HufDec.KeepsGoodIndex op) :
    HasUnitEffect (onHufNode op) :=
  (onHufDec_effect fun T B bound c hb hc => asRoot_good (hop T B bound c hb hc)).andThen fun _ _ _ h => .ok h

theorem opEmitLit_effect (cfg : Config) (o : StageBuf) (bytes : List Byte) : HasUnitEffect (opEmitLit cfg o bytes) := by
  intro s₀ s h
  rw [opEmitLit]
  split
  · exact onBuf_effect (emitLit_keepsBounded bytes) o s₀ s h
  · exact onBuf_effect (emitLitWith_keepsBounded _ bytes) o s₀ { s with freeLits := s.freeLits + 1 } h

theorem opLbEncode_effect (i : StageBuf) : HasUnitEffect (opLbEncode Config.barph i) := fun s₀ s h =>
  Res.Keeps.inside
    (lbEncode_good (T := s₀.TableInv) (B := s₀.BufferInv) s.max_lt _
      ⟨fun hT => (h.tableInv hT).mf, fun hB => (h.bufferInv hB).buf _⟩)
    fun _ ⟨hm, ho⟩ => (h.putBuf _ ho).setMf hm

theorem opLbDecode_effect (i : StageBuf) : HasUnitEffect (opLbDecode i) := fun s₀ s h =>
  onLbDec_effect lbDecode_good s₀ { s with src := i } h

theorem opHufEncode_effect (i : StageBuf) : HasUnitEffect (opHufEncode i) := fun s₀ s h =>
  Res.Keeps.inside
    (hufEncode_good (T := s₀.TableInv) (B := s₀.BufferInv) s.max_lt _
      ⟨fun hT => (h.tableInv hT).huf, fun hB => (h.bufferInv hB).buf _⟩)
    fun _ ⟨hm, ho⟩ => (h.putBuf _ ho).setHuf hm

theorem opHufDecode_effect (i : StageBuf) : HasUnitEffect (opHufDecode Config.barph i) := fun s₀ s h =>
  onHufDec_effect hufDecode_good s₀ { s with src := i } h

theorem opDeltaForward_effect (b : StageBuf) (d : Byte) (h : s₀.UnitEffect s) :
    s₀.UnitEffect (opDeltaForward b d s) :=
  h.putBuf b fun hB => ((h.bufferInv hB).buf b).withData (by simp)

theorem opDeltaInverse_effect (b : StageBuf) (d : Byte) (h : s₀.UnitEffect s) :
    s₀.UnitEffect (opDeltaInverse b d s) :=
  h.putBuf b fun hB => ((h.bufferInv hB).buf b).withData (by simp)

theorem opCopy_effect (b : StageBuf) (bs : List Byte) : HasUnitEffect (opCopy b bs) := fun s₀ _ h =>
  onBuf_effect (appendBytes_keepsBounded bs) b s₀ _ (h.releaseBuf b)

theorem opStage_effect (on : Bool) {op : StageBuf → State → Res State Unit} (hop : ∀ b, HasUnitEffect (op b))
    (b : StageBuf) : HasUnitEffect (opStage on op b) := by
  intro s₀ s h
  cases on with
  | false => exact .ok h
  | true => exact Res.Ends.andThen (hop b s₀ s h) fun _ _ hu => .ok (hu.releaseBuf b)

theorem opEmit_effect (cfg : Config) (lb huf : Bool) (delta : Byte) (payload : List Byte) :
    HasUnitEffect (opEmit cfg lb huf delta payload) := by
  intro s₀ s h
  refine onOut_effect (fun bound o hb ho => ?_) s₀ s h
  exact ((appendBytes_keepsBounded cfg.magic).andThen fun _ => (appendByte_keepsBounded delta).andThen fun _ =>
    (appendByte_keepsBounded (flagByte lb)).andThen fun _ => (appendByte_keepsBounded (flagByte huf)).andThen fun _ =>
      (appendBytes_keepsBounded (leBytes s.acc.toNat 4)).andThen fun _ => appendBytes_keepsBounded payload)
    bound o.release hb (release_bounded ho)

theorem opConCompress_effect (lb huf : Bool) (delta : Byte) : HasUnitEffect (opConCompress Config.barph lb huf delta) := by
  intro s₀ s h
  refine Res.Ends.andThen (opCopy_effect .sb0 _ s₀ _ h) fun _ s1 h1 => ?_
  refine Res.Ends.andThen (opStage_effect lb opLbEncode_effect _ s₀ _ (opDeltaForward_effect .sb0 delta h1))
    fun b s2 h2 => ?_
  refine Res.Ends.andThen (opStage_effect huf opHufEncode_effect _ s₀ { s2 with phase := .cHuf } h2) fun b s3 h3 => ?_
  exact Res.Ends.andThen (opEmit_effect _ _ _ _ _ s₀ { s3 with phase := .cEmit } h3) fun _ _ h4 => .ok (h4.releaseBuf b)

theorem opHeader_effect (cfg : Config) (delta lb huf : Byte) (ck : U32) :
    HasUnitEffect (opHeader cfg delta lb huf ck) := by
  intro s₀ s h
  rw [opHeader]
  split
  · exact .stop h
  · exact opCopy_effect .sb0 _ s₀ _ h

theorem opParse_effect (cfg : Config) : HasUnitEffect (opParse cfg) := by
  intro s₀ s h
  rw [opParse]
  split
  · exact opHeader_effect cfg _ _ _ _ s₀ _ h
  · exact .stop h
  · exact .stop h

theorem opDeliver_effect (b : StageBuf) (h : s₀.UnitEffect s) : s₀.UnitEffect (opDeliver b s) :=
  (h.putBuf b fun hB => release_bounded (h.bufferInv hB).out).setOut fun hB => by
    rw [putBuf_max]; exact (h.bufferInv hB).buf b

theorem opConDecompress_effect : HasUnitEffect (opConDecompress Config.barph) := by
  intro s₀ s h
  refine Res.Ends.andThen (opParse_effect _ s₀ s h) fun _ s1 h1 => ?_
  refine Res.Ends.andThen (opStage_effect _ opHufDecode_effect _ s₀ { s1 with phase := .dHuf } h1) fun b s2 h2 => ?_
  refine Res.Ends.andThen (opStage_effect _ opLbDecode_effect _ s₀ { s2 with phase := .dLb } h2) fun b s3 h3 => ?_
  have h4 := opDeltaInverse_effect b s3.flDelta (s := { s3 with phase := .dDelta }) h3
  dsimp only
  split
  · exact .ok (opDeliver_effect b h4)
  · exact .stop h4

theorem unreadable_effect (p : Place) (e : DecodeErr) : HasUnitEffect (unreadable p e) := by
  intro s₀ s h
  cases p with
  | lbLen => exact onLbDec_effect lbLengthCut_good s₀ s h
  | hufNode => exact onHufNode_effect readNoNode_good s₀ s h
  | lbHdr | lbToken | hufHdr | hufSym | con => exact .stop h

end

/-! ### What an operation answers -/

/-- Everything an operation but `RESET` can do. -/
inductive State.Moves (s : State) : State → Prop
  /-- A unit operation, or an operation that does not act. -/
  | unit {t : State} : s.UnitEffect t → s.Moves t
  /-- An error taken, by a unit operation or a command (R276, R277). -/
  | error (e : Err) {t : State} : s.Effect t → s.Moves (takeError e t)
  /-- A command run to its end (R241, R242). -/
  | completed {t : State} : s.Effect t → t.err = .none → s.Moves (endCommand t)
  /-- A command refused in `IDLE` (R245). -/
  | refused : s.seq = .idle → s.Moves (illegalCommand s)

section
variable {s t : State}

theorem State.Moves.refl (s : State) : s.Moves s := .unit (.refl s)

theorem runUnit_moves {op : State → Res State Unit} (h : runUnit op s = .next t) (hop : HasUnitEffect op) :
    s.Moves t := by
  have heff := hop s s (.refl s)
  rcases runUnit_cases op s with ⟨-, e⟩ | ⟨-, a, u, hr, e⟩ | ⟨-, er, u, hr, e⟩ | ⟨-, f, u, hr, e⟩
  · cases e.symm.trans h; exact .refl s
  · cases e.symm.trans h; exact .unit (heff.of_ok hr)
  · cases e.symm.trans h; exact .error er (heff.of_stop hr).effect
  · cases e.symm.trans h

/-- A command acts in `IDLE` alone (R240). -/
theorem whenIdle_moves {r : Host.Outcome State Fault Refusal} (hr : s.seq = .idle → r = .next t → s.Moves t)
    (h : whenIdle s r = .next t) : s.Moves t := by
  cases hs : s.seq with
  | idle => rw [whenIdle_idle hs] at h; exact hr hs h
  | busy | fatal => simp only [whenIdle, hs] at h; cases h; exact .refl s

theorem runReserved_moves (h : runReserved s = .next t) : s.Moves t :=
  whenIdle_moves (fun hs hr => by cases hr; exact .refused hs) h

theorem runCommand_moves {start : State → State} {op : State → Res State Unit} (h : runCommand start op s = .next t)
    (hstart : s.Effect (start s)) (herr : (start s).err = .none) (hop : HasUnitEffect op) : s.Moves t := by
  refine whenIdle_moves (fun hs hr => ?_) h
  split at hr
  · cases hr; exact .refused hs
  · have htrans : ∀ u, (start s).UnitEffect u → s.Effect u := by
      rintro u ⟨⟨⟨h1, h2, h3, h4, h5, h6⟩, hb, ht⟩, -⟩
      obtain ⟨⟨g1, g2, g3, g4, g5, g6⟩, gb, gt⟩ := hstart
      exact ⟨⟨h1.trans g1, h2.trans g2, h3.trans g3, h4.trans g4, h5.trans g5, h6.trans g6⟩, hb ∘ gb, ht ∘ gt⟩
    have heff := hop (start s) (start s) (.refl _)
    cases hu : op (start s) with
    | ok a u =>
      rw [hu] at hr
      cases hr
      have hun := heff.of_ok hu
      exact .completed (htrans u hun) (hun.2.2.1.trans herr)
    | stop e u =>
      rw [hu] at hr
      cases e with
      | raise e => cases hr; exact .error e (htrans u (heff.of_stop hu))
      | fault f => cases hr

/-- Everything that `exec` can answer with a next state. -/
theorem exec_moves (i : Instr) (h : exec i s = .next t) : s.Moves t ∨ (i = .reset ∧ (t = s ∨ t = resetBlock s)) := by
  cases i with
  | reset =>
    refine .inr ⟨rfl, ?_⟩
    change execReset s = .next t at h
    unfold execReset at h
    split at h <;> cases h
    · exact .inr rfl
    · exact .inr rfl
    · exact .inl rfl
  | nop => cases h; exact .inl (.refl s)
  | compress lb huf delta =>
    exact .inl (runCommand_moves h (State.UnitEffect.refl s).effect rfl (opConCompress_effect lb huf delta))
  | decompress => exact .inl (runCommand_moves h (State.UnitEffect.refl s).effect rfl opConDecompress_effect)
  | reservedOp3 | reservedOp4 | reservedOp5 | reservedOp6 | reservedOp7 | reservedOp8 | reservedOp9 | reservedOp10
  | reservedOp11 | reservedOp12 | reservedOp13 | reservedOp14 => exact .inl (runReserved_moves h)
  | gbReserve b extra => exact .inl (runUnit_moves h (onBuf_effect (reserve_keepsBounded _) b))
  | gbAppendByte b v => exact .inl (runUnit_moves h (onBuf_effect (appendByte_keepsBounded v) b))
  | gbAppendBytes b bs => exact .inl (runUnit_moves h (onBuf_effect (appendBytes_keepsBounded bs) b))
  | gbAppendBit b bit => exact .inl (runUnit_moves h (onBuf_effect (appendBit_keepsBounded bit) b))
  | gbAppendBits b value width =>
    change execGbAppendBits b value width s = .next t at h
    unfold execGbAppendBits at h
    split at h
    · exact .inl (runUnit_moves h (onBuf_effect (appendBits_keepsBounded _ _) b))
    · cases h
  | gbReadBits b width =>
    change execGbReadBits b width s = .next t at h
    unfold execGbReadBits at h
    split at h
    · exact .inl (runUnit_moves h ((onBuf_effect (readBits_keepsBounded _) b).andThen fun _ _ _ hs => .ok hs))
    · cases h
  | gbReadBytes b a n =>
    simp only [exec, execGbReadBytes] at h
    refine .inl (runUnit_moves h fun s₀ u hu => ?_)
    split
    · exact .stop hu
    · exact .ok hu
  | mfReset =>
    simp only [exec, execMfReset] at h
    exact .inl (runUnit_moves h fun _ _ hu => .ok (hu.setMf fun hT => mfClear_sized (hu.tableInv hT).mf))
  | mfInsert j p =>
    simp only [exec, execMfInsert] at h
    exact .inl (runUnit_moves h fun _ _ hu => .ok (hu.setMf fun hT => mfInsert_sized (hu.tableInv hT).mf _ _))
  | mfFindBest j p =>
    simp only [exec, execMfFindBest] at h
    exact .inl (runUnit_moves h fun _ _ hu => .ok (hu.setMf fun hT => mfFindBest_sized (hu.tableInv hT).mf _ _))
  | mfMatchAt j p =>
    simp only [exec, execMfMatchAt] at h
    exact .inl (runUnit_moves h fun _ _ hu => .ok (hu.setMf fun hT => mfMatchAt_sized (hu.tableInv hT).mf _ _))
  | lbEmitLit o bs => exact .inl (runUnit_moves h (opEmitLit_effect _ o bs))
  | lbEmitMatch o d len => exact .inl (runUnit_moves h (onBuf_effect (emitMatch_keepsBounded _ _ _) o))
  | lbEncode j => exact .inl (runUnit_moves h (opLbEncode_effect j))
  | lbDecode j => exact .inl (runUnit_moves h (opLbDecode_effect j))
  | hufCount j =>
    simp only [exec, execHufCount] at h
    exact .inl (runUnit_moves h fun _ _ hu => .ok (hu.setHuf fun hT => hufCount_sized (hu.tableInv hT).huf _))
  | hufBuild =>
    simp only [exec, execHufBuild] at h
    exact .inl (runUnit_moves h fun _ _ hu =>
      Res.Keeps.inside (Res.Keeps.under fun hT => hufBuild_sized (hu.tableInv hT).huf) fun _ hh => hu.setHuf hh)
  | hufAssign =>
    simp only [exec, execHufAssign] at h
    exact .inl (runUnit_moves h fun _ _ hu =>
      Res.Keeps.inside (Res.Keeps.under fun hT => hufAssign_sized (hu.tableInv hT).huf) fun _ hh => hu.setHuf hh)
  | hufWriteTree o j =>
    simp only [exec, execHufWriteTree] at h
    exact .inl (runUnit_moves h fun s₀ u hu => onBuf_effect (writeTree_keepsBounded _ _ _) o s₀ u hu)
  | hufEncode j => exact .inl (runUnit_moves h (opHufEncode_effect j))
  | hufReadTree j =>
    simp only [exec, execHufReadTree] at h
    exact .inl (runUnit_moves h fun s₀ u hu =>
      onHufNode_effect (fun _ _ _ c hb hc => readTree_good hb _ c hc) s₀ { u with src := j } hu)
  | hufDecode j => exact .inl (runUnit_moves h (opHufDecode_effect j))
  | dfForward b d =>
    simp only [exec, execDfForward] at h
    exact .inl (runUnit_moves h fun _ _ hu => .ok (opDeltaForward_effect b d hu))
  | dfInverse b d =>
    simp only [exec, execDfInverse] at h
    exact .inl (runUnit_moves h fun _ _ hu => .ok (opDeltaInverse_effect b d hu))
  | ckSum src =>
    simp only [exec, execCkSum] at h
    exact .inl (runUnit_moves h fun _ _ hu => .ok hu)
  | conCompress lb huf delta => exact .inl (runUnit_moves h (opConCompress_effect lb huf delta))
  | conDecompress => exact .inl (runUnit_moves h opConDecompress_effect)
  | lbHdr n => exact .inl (runUnit_moves h (onLbDec_effect (lbHeader_good _)))
  | litS len => exact .inl (runUnit_moves h (onLbDec_effect (lbLiteral_good 1 _)))
  | litL len => exact .inl (runUnit_moves h (onLbDec_effect (lbLiteral_good 2 _)))
  | dist1 d => exact .inl (runUnit_moves h (onLbDec_effect (lbDistance_good 1 _)))
  | dist2 d => exact .inl (runUnit_moves h (onLbDec_effect (lbDistance_good 2 _)))
  | dist3 d => exact .inl (runUnit_moves h (onLbDec_effect (lbDistance_good 3 _)))
  | dist4 d => exact .inl (runUnit_moves h (onLbDec_effect (lbDistance_good 4 _)))
  | dist5 d => exact .inl (runUnit_moves h (onLbDec_effect (lbDistance_good 5 _)))
  | distReserved =>
    simp only [exec, execDistReserved] at h
    exact .inl (runUnit_moves h fun _ _ hu => .stop hu)
  | lenS len => exact .inl (runUnit_moves h (onLbDec_effect (lbLength_good 1 _)))
  | lenL len => exact .inl (runUnit_moves h (onLbDec_effect (lbLength_good 2 _)))
  | hufHdr n => exact .inl (runUnit_moves h (onHufDec_effect (hufHeader_good _)))
  | nodeI => exact .inl (runUnit_moves h (onHufNode_effect readInternal_good))
  | nodeL v => exact .inl (runUnit_moves h (onHufNode_effect (readLeaf_good v)))
  | sym => exact .inl (runUnit_moves h (onHufDec_effect readSymbol_good))
  | con delta lb huf ck => exact .inl (runUnit_moves h (opHeader_effect _ _ _ _ _))

end

end Sys2Proof.Machine
end

section
/-! SUPPORT. What a step can do, said once, and the three invariants of the whole machine (spec 10_state.md), the frame of the
operations, the host's registers, `STATUS` and the reset. -/

namespace Sys2Proof.Machine

/-! ### Steps -/

/-- Everything a step can do once its input is taken from the queue. -/
inductive State.Steps (s : State) : State → Prop
  /-- An operation but `RESET`, or an input that does nothing. -/
  | moves {t : State} : s.Moves t → s.Steps t
  /-- `RESET` or the hardware reset (R244, R300). -/
  | reset : s.Steps (resetBlock s)
  /-- The host writes a byte of `IN` (R282). -/
  | wroteIn (i : Nat) (v : Byte) : s.Steps { s with inMem := Memory.write s.inMem i v }
  /-- The host writes `IN_LEN` (R24). -/
  | wroteInLen (v : U64) : s.Steps { s with inLen := v }
  /-- The host reads a register or a byte (R282). -/
  | read (v : U64) (reads : Nat) : s.Steps { s with hostData := v, freeReads := reads }

section
variable {s t : State}

theorem State.Steps.refl (s : State) : s.Steps s := .moves (.refl s)

theorem exec_steps (i : Instr) (h : exec i s = .next t) : s.Steps t := by
  rcases exec_moves i h with hm | ⟨-, rfl | rfl⟩
  · exact .moves hm
  · exact .refl _
  · exact .reset

theorem writeReg_steps (idx : Nat) (v : U64) : s.Steps (writeReg idx v s) := by
  unfold writeReg
  split
  · exact .wroteInLen v
  · exact .refl s

theorem hostMove_steps (m : HostMove) (h : hostMove m s = .next t) : s.Steps t := by
  cases m with
  | writeIn i v =>
    simp only [hostMove] at h
    split at h <;> cases h
    exact .wroteIn _ v
  | writeReg idx v =>
    simp only [hostMove] at h
    split at h <;> cases h
    exact writeReg_steps idx v
  | readReg idx => cases h; exact .read _ s.freeReads
  | readOut i =>
    simp only [hostMove] at h
    split at h
    · cases h
    · split at h <;> cases h
      · exact .read _ s.freeReads
      · exact .read _ _
  | readIn i =>
    simp only [hostMove] at h
    split at h <;> cases h
    exact .read _ _
  | hardwareReset => cases h; exact .reset

theorem stepHost_steps (m : HostMove) (h : stepHost m s = .next t) : s.Steps t := by
  unfold stepHost at h
  split at h
  · exact exec_steps _ h
  · exact hostMove_steps _ h

theorem stepOp_steps (bytes : List Byte) (h : stepOp bytes s = .next t) : s.Steps t := by
  unfold stepOp at h
  split at h
  · exact exec_steps _ h
  · cases h

theorem stepWire_steps (p : Place) (h : stepWire p s = .next t) : s.Steps t := by
  unfold stepWire at h
  split at h
  · exact exec_steps _ h
  · exact .moves (runUnit_moves h (unreadable_effect p _))

/-- A step is one of the moves from the state without the input it takes. -/
theorem step_steps (h : step s = .next t) : ∃ rest, State.Steps { s with queue := rest } t := by
  cases hq : s.queue with
  | nil =>
    simp only [step, hq] at h
    cases h
    exact ⟨s.queue, .refl s⟩
  | cons m rest =>
    simp only [step, hq] at h
    refine ⟨rest, ?_⟩
    cases m with
    | host m => exact stepHost_steps m h
    | op bytes => exact stepOp_steps bytes h
    | wire p => exact stepWire_steps p h

/-! ### The sequencer -/

theorem takeError_controlInv (e : Err) (s : State) : (takeError e s).ControlInv := by
  by_cases he : e = .internal
  · subst he; simp [State.ControlInv]
  · simp [State.ControlInv, he]

theorem endCommand_controlInv (h : s.err = .none) : (endCommand s).ControlInv := by
  simp [State.ControlInv, endCommand, h]

theorem resetWith_controlInv (m : U64) : (State.resetWith m).ControlInv := by
  simp [State.ControlInv]

theorem State.Moves.controlInv (h : s.Moves t) (hs : s.ControlInv) : t.ControlInv := by
  cases h with
  | unit h =>
    obtain ⟨-, hseq, herr, hdone, hout⟩ := h
    rwa [State.ControlInv, hseq, herr, hdone, hout]
  | error e _ => exact takeError_controlInv e _
  | completed _ herr => exact endCommand_controlInv herr
  | refused hidle => simp [State.ControlInv, hidle]

theorem State.Steps.controlInv (h : s.Steps t) (hs : s.ControlInv) : t.ControlInv := by
  cases h with
  | moves h => exact h.controlInv hs
  | reset => exact resetWith_controlInv s.maxBuf
  | wroteIn | wroteInLen | read => exact hs

/-! ### The buffers -/

theorem State.Effect.bufferInv (h : s.Effect t) (hs : s.BufferInv) : t.BufferInv := h.2.1 hs

theorem takeError_bufferInv (e : Err) (h : s.BufferInv) : (takeError e s).BufferInv := by
  obtain ⟨hm, h0, h1, ho⟩ := h
  exact ⟨hm, release_bounded h0, release_bounded h1, release_bounded ho⟩

theorem resetWith_bufferInv {m : U64} (h : 8 ≤ m.toNat) : (State.resetWith m).BufferInv :=
  ⟨h, emptyBuffer_bounded _, emptyBuffer_bounded _, emptyBuffer_bounded _⟩

theorem State.Moves.bufferInv (h : s.Moves t) (hs : s.BufferInv) : t.BufferInv := by
  cases h with
  | unit h => exact h.bufferInv hs
  | error e h => exact takeError_bufferInv e (h.bufferInv hs)
  | completed h _ => exact h.bufferInv hs
  | refused _ => exact hs

theorem State.Steps.bufferInv (h : s.Steps t) (hs : s.BufferInv) : t.BufferInv := by
  cases h with
  | moves h => exact h.bufferInv hs
  | reset => exact resetWith_bufferInv hs.1
  | wroteIn | wroteInLen | read => exact hs

/-! ### The tables -/

theorem State.Effect.tableInv (h : s.Effect t) (hs : s.TableInv) : t.TableInv := h.2.2 hs

theorem emptyMatchFinder_sized : ({} : MatchFinder).Sized := ⟨tableOf_nil, Nat.zero_le _⟩

theorem emptyHuffman_sized : ({} : Huffman).Sized where
  freq := tableOf_nil
  node := tableOf_nil
  code := tableOf_nil
  nnodes := Nat.zero_le _
  merges := Nat.zero_le _
  wlLen := Nat.zero_le _
  wl := by simp
  root := by decide
  walk := by decide

theorem resetWith_tableInv (m : U64) : (State.resetWith m).TableInv :=
  (tableInv_iff _).mpr ⟨rfl, emptyMatchFinder_sized, emptyHuffman_sized⟩

theorem State.Moves.tableInv (h : s.Moves t) (hs : s.TableInv) : t.TableInv := by
  cases h with
  | unit h => exact h.tableInv hs
  | error e h => exact h.tableInv hs
  | completed h _ => exact h.tableInv hs
  | refused _ => exact hs

theorem State.Steps.tableInv (h : s.Steps t) (hs : s.TableInv) : t.TableInv := by
  cases h with
  | moves h => exact h.tableInv hs
  | reset => exact resetWith_tableInv s.maxBuf
  | wroteIn i v =>
    obtain ⟨hmem, hrest⟩ := hs
    exact ⟨Memory.write_wf _ i v hmem, hrest⟩
  | wroteInLen | read => exact hs

/-! ### The frame -/

theorem State.Moves.sameHost (h : s.Moves t) : s.SameHost t := by
  cases h with
  | unit h => exact h.effect.1
  | error e h => exact h.1
  | completed h _ => exact h.1
  | refused _ => exact ⟨rfl, rfl, rfl, rfl, rfl, rfl⟩

end

/-! ### The host's registers -/

theorem writeReg_eq (idx : Nat) (v : U64) (s : State) :
    writeReg idx v s = if idx = 2 then { s with inLen := v } else s := by
  unfold writeReg
  split
  · rfl
  · next h => rw [if_neg h]

theorem readReg_eq (s : State) (idx : Nat) :
    s.readReg idx =
      if idx = 1 then s.status.zeroExtend 64
      else if idx = 2 then s.inLen
      else if idx = 3 then s.outLen
      else if idx = 4 then s.cksum.zeroExtend 64
      else if idx = 5 then s.cksumStored.zeroExtend 64
      else 0#64 := by
  unfold State.readReg
  split
  · rfl
  · rfl
  · rfl
  · rfl
  · rfl
  · next h1 h2 h3 h4 h5 => rw [if_neg h1, if_neg h2, if_neg h3, if_neg h4, if_neg h5]

theorem step_host {s : State} {m : HostMove} {rest : List Input} (hq : s.queue = .host m :: rest) :
    step s = stepHost m { s with queue := rest } := by
  simp [step, hq]

/-- A write of a register but `CMD` is no command (R240). -/
theorem stepHost_writeReg {idx : Nat} (hidx : idx ≠ 0) (v : U64) (s : State) :
    stepHost (.writeReg idx v) s = hostMove (.writeReg idx v) s := by
  unfold stepHost
  split
  · next h => cases h; exact absurd rfl hidx
  · rfl

/-! ### `STATUS` -/

theorem seqCode_le (q : SeqState) : seqCode q ≤ 2 := by cases q <;> decide

theorem errCode_le (e : ErrCode) : errCode e ≤ 5 := by
  cases e with
  | none | illegalCommand => decide
  | raised e => cases e <;> decide

/-- The register's three fields are a sum that no carry crosses (R23). -/
theorem status_toNat (s : State) : s.status.toNat = seqCode s.seq + 16 * s.done.toNat + 256 * errCode s.err := by
  have h1 := seqCode_le s.seq
  have h2 := Bool.toNat_le s.done
  have h3 := errCode_le s.err
  rw [State.status, BitVec.toNat_ofNat, Nat.mod_eq_of_lt (by omega)]

/-- Bits of a word, as a quotient and a remainder. -/
theorem extractLsb'_toNat_eq (w : U32) (lo n : Nat) : (w.extractLsb' lo n).toNat = w.toNat / 2 ^ lo % 2 ^ n := by
  rw [BitVec.extractLsb'_toNat, Nat.shiftRight_eq_div_pow]

theorem status_extract (s : State) (lo n : Nat) :
    (s.status.extractLsb' lo n).toNat =
      (seqCode s.seq + 16 * s.done.toNat + 256 * errCode s.err) / 2 ^ lo % 2 ^ n := by
  rw [extractLsb'_toNat_eq, status_toNat]

theorem status_state_field (s : State) : (s.status.extractLsb' 0 2).toNat = seqCode s.seq := by
  have h1 := seqCode_le s.seq
  rw [status_extract]
  omega

theorem status_err_field (s : State) : (s.status.extractLsb' 8 3).toNat = errCode s.err := by
  have h1 := seqCode_le s.seq
  have h2 := Bool.toNat_le s.done
  have h3 := errCode_le s.err
  rw [status_extract]
  omega

theorem status_done_field (s : State) : s.status.getLsbD 4 = s.done := by
  have h1 := seqCode_le s.seq
  rw [BitVec.getLsbD, Nat.testBit_eq_decide_div_mod_eq, status_toNat]
  cases s.done
  · rw [decide_eq_false]; simp only [Bool.toNat_false]; omega
  · rw [decide_eq_true]; simp only [Bool.toNat_true]; omega

/-- Bits between and above the fields are 0 (R23). -/
theorem status_reserved (s : State) :
    s.status.extractLsb' 2 2 = 0#2 ∧ s.status.extractLsb' 5 3 = 0#3 ∧ s.status.extractLsb' 11 21 = 0#21 := by
  have h1 := seqCode_le s.seq
  have h2 := Bool.toNat_le s.done
  have h3 := errCode_le s.err
  refine ⟨BitVec.eq_of_toNat_eq ?_, BitVec.eq_of_toNat_eq ?_, BitVec.eq_of_toNat_eq ?_⟩
  all_goals
    rw [status_extract, BitVec.toNat_ofNat]
    omega

end Sys2Proof.Machine

open Sys2Proof Sys2Proof.Machine

namespace Sys2Proof.Proofs

/-- Settles O55: every move of a step keeps the sequencer's invariant. -/
theorem stepKeepsControlInv : Obligations.StepKeepsControlInv := by
  intro s t hs h
  obtain ⟨rest, hsteps⟩ := step_steps h
  exact hsteps.controlInv hs

/-- Settles O56: every move of a step keeps the buffers within the bound. -/
theorem stepKeepsBufferInv : Obligations.StepKeepsBufferInv := by
  intro s t hs h
  obtain ⟨rest, hsteps⟩ := step_steps h
  exact hsteps.bufferInv hs

/-- Settles O57: every move of a step keeps the tables canonical and within their sizes. -/
theorem stepKeepsTableInv : Obligations.StepKeepsTableInv := by
  intro s t hs h
  obtain ⟨rest, hsteps⟩ := step_steps h
  exact hsteps.tableInv hs

/-- Settles O59: `RESET` apart, an operation leaves the host's part alone; `RESET` keeps all of it but the input. -/
theorem operationsOnlyReadTheInput : Obligations.OperationsOnlyReadTheInput := by
  intro s t i h
  rcases exec_moves i h with hm | ⟨rfl, rfl | rfl⟩
  · obtain ⟨hmem, hlen, hhost⟩ := hm.sameHost
    exact ⟨fun _ => ⟨hmem, hlen⟩, hhost⟩
  · exact ⟨fun hne => absurd rfl hne, rfl, rfl, rfl, rfl⟩
  · exact ⟨fun hne => absurd rfl hne, rfl, rfl, rfl, rfl⟩

/-- Settles O6: a write is `writeReg`, a read is `State.readReg`, and neither is a command. -/
theorem hostAccessesRegisters : Obligations.HostAccessesRegisters := by
  intro s rest idx v
  constructor
  · intro hq hseq hidx
    rw [step_host hq, stepHost_writeReg hidx, hostMove, if_neg fun h => hseq h.1, writeReg_eq]
  · intro hq
    rw [step_host hq]
    exact congrArg (fun w => Host.Outcome.next { s with queue := rest, hostData := w }) (readReg_eq _ idx)

/-- Settles O8: the word is the sum of its fields, each at its own place. -/
theorem statusWordFields : Obligations.StatusWordFields := by
  intro s
  refine ⟨(status_state_field s).trans ?_, status_done_field s, (status_err_field s).trans ?_, status_reserved s⟩
  · cases s.seq <;> rfl
  · cases s.err with
    | none | illegalCommand => rfl
    | raised e => cases e <;> rfl

/-- Settles O12: `resetBlock` is the state after reset with what belongs to the host put back. -/
theorem resetRestoresResetValues : Obligations.ResetRestoresResetValues := by
  have hwith : ∀ m : U64, (State.resetWith m).ResetValues := fun m => by
    refine ⟨rfl, rfl, rfl, rfl, rfl, rfl, rfl, rfl, rfl, rfl, rfl, rfl, ?_, ?_, ?_⟩ <;> exact ⟨rfl, rfl, rfl⟩
  refine ⟨fun m => ⟨hwith m, rfl⟩, hwith _, fun s =>
    ⟨resetBlock s, fun hb => ?_, ?_, hwith s.maxBuf, rfl, rfl, rfl, rfl, rfl⟩⟩
  · cases hs : s.seq with
    | busy => exact absurd hs hb
    | idle | fatal => simp only [exec, execReset, hs]
  · rintro u rest rfl
    rfl

/-- Settles O58: empty buffers and tables meet every bound. -/
theorem resetMeetsInvariants : Obligations.ResetMeetsInvariants := by
  exact ⟨fun m hm => ⟨resetWith_controlInv m, resetWith_bufferInv hm, resetWith_tableInv m⟩, resetWith_controlInv _,
    resetWith_bufferInv (by decide), resetWith_tableInv _⟩

end Sys2Proof.Proofs
end

section
/-! SUPPORT. Two runs of an operation side by side: from states that agree on what the operation reads, they end in the same
way. First the buffers, whose capacity nothing reads (spec 40_buffer_bitstream.md R141), and the lookback codec. -/

namespace Sys2Proof.Machine

/-! ### Two runs that end in the same way -/

/-- Two operations both return, the same value and states related by `Q`, or both stop, for the same reason and in states
related by `E`. -/
inductive Res.Agree {σ α : Type} (Q : α → σ → σ → Prop) (E : σ → σ → Prop) : Res σ α → Res σ α → Prop
  | ok {a : α} {s t : σ} : Q a s t → Res.Agree Q E (.ok a s) (.ok a t)
  | stop {e : Stop} {s t : σ} : E s t → Res.Agree Q E (.stop e s) (.stop e t)

section
variable {σ τ α β : Type} {Q : α → σ → σ → Prop} {E : σ → σ → Prop} {r r' : Res σ α}

theorem Res.Agree.andThen {f f' : α → σ → Res σ β} {Q' : β → σ → σ → Prop} (h : Res.Agree Q E r r')
    (hf : ∀ a s t, Q a s t → Res.Agree Q' E (f a s) (f' a t)) : Res.Agree Q' E (r.andThen f) (r'.andThen f') := by
  cases h with
  | ok h => exact hf _ _ _ h
  | stop h => exact .stop h

theorem Res.Agree.inside {put put' : σ → τ} {Q' : α → τ → τ → Prop} {E' : τ → τ → Prop} (h : Res.Agree Q E r r')
    (hq : ∀ a s t, Q a s t → Q' a (put s) (put' t)) (he : ∀ s t, E s t → E' (put s) (put' t)) :
    Res.Agree Q' E' (r.inside put) (r'.inside put') := by
  cases h with
  | ok h => exact .ok (hq _ _ _ h)
  | stop h => exact .stop (he _ _ h)

theorem Res.Agree.imp {Q' : α → σ → σ → Prop} {E' : σ → σ → Prop} (h : Res.Agree Q E r r')
    (hq : ∀ a s t, Q a s t → Q' a s t) (he : ∀ s t, E s t → E' s t) : Res.Agree Q' E' r r' := by
  cases h with
  | ok h => exact .ok (hq _ _ _ h)
  | stop h => exact .stop (he _ _ h)

/-- What the first of the two runs returns on its own, beside what they agree on. -/
theorem Res.Agree.and_left {P : α → σ → Prop} {F : σ → Prop} (h : Res.Agree Q E r r') (hP : r.Ends P F) :
    Res.Agree (fun a s t => Q a s t ∧ P a s) E r r' := by
  cases h with
  | ok h => exact .ok ⟨h, hP.of_ok rfl⟩
  | stop h => exact .stop h

end

/-- The relation of the states of two runs that have stopped, where nothing reads them again. -/
abbrev anyStates {σ : Type} (_ _ : σ) : Prop := True

/-! ### Buffers -/

/-- The two buffers differ in their capacity alone. -/
structure Buffer.Alike (b b' : Buffer) : Prop where
  data : b'.data = b.data
  wcur : b'.wcur = b.wcur
  rcur : b'.rcur = b.rcur

theorem Buffer.Alike.len {b b' : Buffer} (h : b.Alike b') : b'.len = b.len := congrArg List.length h.data

theorem Buffer.Alike.rbits {b b' : Buffer} (h : b.Alike b') : b'.rbits = b.rbits := by rw [Buffer.rbits, h.rcur]; rfl

theorem release_alike (b b' : Buffer) : b.release.Alike b'.release := ⟨rfl, rfl, rfl⟩

/-- An operation on a buffer that does not read its capacity. -/
def CapFree {α : Type} (op : Nat → Buffer → Res Buffer α) : Prop :=
  ∀ (bound : Nat) (b b' : Buffer), b.Alike b' → Res.Agree (fun _ => Buffer.Alike) anyStates (op bound b) (op bound b')

theorem CapFree.andThen {α β : Type} {op : Nat → Buffer → Res Buffer α} {f : Nat → α → Buffer → Res Buffer β}
    (h : CapFree op) (hf : ∀ a, CapFree fun bound => f bound a) :
    CapFree fun bound b => (op bound b).andThen (f bound) :=
  fun bound b b' hb => (h bound b b' hb).andThen fun a v v' hv => hf a bound v v' hv

theorem capFree_ok {α : Type} (a : α) : CapFree fun _ b => .ok a b := fun _ _ _ h => .ok h

theorem capFree_stop {α : Type} (e : Stop) : CapFree (α := α) fun _ b => .stop e b := fun _ _ _ _ => .stop trivial

theorem appendByte_capFree (v : Byte) : CapFree fun bound => appendByte bound v := by
  intro bound b b' h
  beta_reduce
  by_cases hr : b.len + 1 ≤ bound
  · rw [appendByte_room v hr, appendByte_room v (h.len.symm ▸ hr)]
    exact .ok ⟨by rw [h.data], by rw [h.len], h.rcur⟩
  · rw [appendByte_full v (by omega), appendByte_full v (by rw [h.len]; omega)]
    exact .stop trivial

theorem appendEach_capFree : ∀ bs : List Byte, CapFree fun bound => appendEach bound bs
  | [] => capFree_ok ()
  | v :: vs => (appendByte_capFree v).andThen fun _ => appendEach_capFree vs

theorem appendBytes_capFree (bs : List Byte) : CapFree fun bound => appendBytes bound bs := by
  intro bound b b' h
  beta_reduce
  rw [appendBytes, appendBytes, h.len]
  split
  · exact .stop trivial
  · exact appendEach_capFree bs bound b b' h

theorem appendBit_capFree (x : Bool) : CapFree fun bound => appendBit bound x := by
  intro bound b b' h
  beta_reduce
  by_cases hw : b.wcur.bit = 0
  · have hw' : b'.wcur.bit = 0 := by rw [h.wcur]; exact hw
    by_cases hr : b.len + 1 ≤ bound
    · rw [appendBit_boundary x hw hr, appendBit_boundary x hw' (h.len.symm ▸ hr)]
      exact .ok ⟨by rw [h.data, h.wcur], by rw [h.wcur], h.rcur⟩
    · rw [appendBit_full x hw (by omega), appendBit_full x hw' (by rw [h.len]; omega)]
      exact .stop trivial
  · have hw' : b'.wcur.bit ≠ 0 := by rw [h.wcur]; exact hw
    rw [appendBit_inside x hw, appendBit_inside x hw']
    exact .ok ⟨by rw [h.data, h.wcur], by rw [h.wcur], h.rcur⟩

theorem appendBitList_capFree : ∀ bits : List Bool, CapFree fun bound => appendBitList bound bits
  | [] => capFree_ok ()
  | x :: xs => (appendBit_capFree x).andThen fun _ => appendBitList_capFree xs

theorem appendBits_capFree (value width : Nat) : CapFree fun bound => appendBits bound value width :=
  appendBitList_capFree _

theorem readBits_capFree (width : Nat) : CapFree fun _ => readBits width := by
  intro bound b b' h
  beta_reduce
  rw [readBits, readBits, h.len, h.rbits, h.data]
  split
  · exact .stop trivial
  · exact .ok ⟨rfl, h.wcur, rfl⟩

theorem emitLit_capFree (bs : List Byte) : CapFree fun bound => emitLit bound bs := by
  refine CapFree.andThen ?_ fun _ => appendBytes_capFree bs
  intro bound b b' h
  split
  · exact appendByte_capFree _ bound b b' h
  · exact ((appendByte_capFree _).andThen fun _ => appendByte_capFree _) bound b b' h

theorem emitLen_capFree (len : Nat) : CapFree fun bound => emitLen bound len := by
  intro bound b b' h
  beta_reduce
  rw [emitLen, emitLen]
  split
  · exact appendByte_capFree _ bound b b' h
  · exact ((appendByte_capFree _).andThen fun _ => appendByte_capFree _) bound b b' h

theorem emitMatch_capFree (cfg : Config) (d len : Nat) : CapFree fun bound => emitMatch cfg bound d len := by
  intro bound b b' h
  beta_reduce
  rw [emitMatch, emitMatch]
  split
  · exact .stop trivial
  · exact ((appendBytes_capFree _).andThen fun _ => emitLen_capFree len) bound b b' h

theorem matchCopy_capFree (d : Nat) : ∀ n : Nat, CapFree fun bound => matchCopy bound d n
  | 0 => capFree_ok ()
  | n + 1 => fun bound b b' h => by
    beta_reduce
    rw [matchCopy, matchCopy, h.len, h.data]
    exact (appendByte_capFree _ bound b b' h).andThen fun _ v v' hv => matchCopy_capFree d n bound v v' hv

theorem writeTree_capFree (h : Huffman) : ∀ fuel i : Nat, CapFree fun bound => writeTree h bound fuel i := by
  intro fuel
  induction fuel with
  | zero => intro i; exact capFree_stop _
  | succ fuel ih =>
    intro i bound b b' hb
    beta_reduce
    rw [writeTree, writeTree]
    split
    · exact .stop trivial
    · split
      · exact ((appendBit_capFree _).andThen fun _ => appendBits_capFree _ _) bound b b' hb
      · next l r _ =>
        exact ((appendBit_capFree _).andThen fun _ => (ih l).andThen fun _ => ih r) bound b b' hb

/-! ### The match finder -/

/-- Two searches so far: the same best, or no length found by either, when the position does not count. -/
def SearchAlike (x y : Nat × Nat) : Prop := x = y ∨ (x.1 = 0 ∧ y.1 = 0)

/-- A candidate is judged alike, as one that matches nothing beats no best (R164). -/
theorem consider_alike (cfg : Config) (I : List Byte) (p c : Nat) {x y : Nat × Nat} (h : SearchAlike x y) :
    SearchAlike (consider cfg I p x c) (consider cfg I p y c) := by
  rcases h with rfl | ⟨hx, hy⟩
  · exact .inl rfl
  · have hcond : ∀ z : Nat × Nat, z.1 = 0 →
        ((z.1 < matchLen cfg I c p ∨ (matchLen cfg I c p = z.1 ∧ 0 < matchLen cfg I c p ∧ z.2 < c)) ↔
          0 < matchLen cfg I c p) := by
      intro z hz
      omega
    simp only [consider, hcond x hx, hcond y hy]
    split_ifs
    · exact .inr ⟨hx, hy⟩
    · exact .inr ⟨hx, hy⟩
    · exact .inl rfl
    · exact .inr ⟨hx, hy⟩

theorem search_alike (cfg : Config) (I : List Byte) (p : Nat) : ∀ (cs : List Nat) (x y : Nat × Nat), SearchAlike x y →
    SearchAlike (cs.foldl (consider cfg I p) x) (cs.foldl (consider cfg I p) y)
  | [], _, _, h => h
  | c :: cs, _, _, h => search_alike cfg I p cs _ _ (consider_alike cfg I p c h)

theorem mfInsert_mt (cfg : Config) (I : List Byte) (p : Nat) {mf mf' : MatchFinder} (h : mf'.mt = mf.mt) :
    (mfInsert cfg I p mf').mt = (mfInsert cfg I p mf).mt := by
  simp only [mfInsert, MatchFinder.bucket, h]
  split
  · rfl
  · exact h

theorem insertRun_mt (cfg : Config) (I : List Byte) : ∀ (n p : Nat) (mf mf' : MatchFinder), mf'.mt = mf.mt →
    (insertRun cfg I n p mf').mt = (insertRun cfg I n p mf).mt
  | 0, _, _, _, h => h
  | n + 1, p, _, _, h => insertRun_mt cfg I n (p + 1) _ _ (mfInsert_mt cfg I p h)

@[simp] theorem mfFindBest_mt (cfg : Config) (I : List Byte) (p : Nat) (mf : MatchFinder) :
    (mfFindBest cfg I p mf).2.mt = mf.mt := by
  unfold mfFindBest
  split <;> rfl

/-- Two searches alike give the same result, none if they found no length (R164). -/
theorem searchResult_alike (cfg : Config) {x y : Nat × Nat} (h : SearchAlike x y) :
    (if x.1 ≤ cfg.minMatchThreshold then none else some (x.2, x.1)) =
      if y.1 ≤ cfg.minMatchThreshold then none else some (y.2, y.1) := by
  rcases h with rfl | ⟨hx, hy⟩
  · rfl
  · rw [if_pos (by omega), if_pos (by omega)]

/-- A search's result depends on the table alone: what earlier searches found is not read (R164, R302). -/
theorem mfFindBest_fst (cfg : Config) (I : List Byte) (p : Nat) {mf mf' : MatchFinder} (h : mf'.mt = mf.mt) :
    (mfFindBest cfg I p mf').1 = (mfFindBest cfg I p mf).1 := by
  rw [mfFindBest, mfFindBest, MatchFinder.bucket, h, ← MatchFinder.bucket]
  split
  · exact searchResult_alike cfg (search_alike cfg I p _ _ _ (.inr ⟨rfl, rfl⟩))
  · rfl

theorem mfMatchAt_mt (cfg : Config) (I : List Byte) (p : Nat) (mf : MatchFinder) :
    (mfMatchAt cfg I p mf).2.mt = mf.mt := by
  rw [mfMatchAt_snd, mfFindBest_mt]

theorem mfMatchAt_fst_eq (cfg : Config) (I : List Byte) (p : Nat) (mf : MatchFinder) :
    (mfMatchAt cfg I p mf).1 =
      (mfFindBest cfg I p mf).1.bind fun x => if tokenCost cfg (p - x.1) x.2 < x.2 then some (p - x.1, x.2) else none := by
  unfold mfMatchAt
  split <;> simp [*]

theorem mfMatchAt_fst (cfg : Config) (I : List Byte) (p : Nat) {mf mf' : MatchFinder} (h : mf'.mt = mf.mt) :
    (mfMatchAt cfg I p mf').1 = (mfMatchAt cfg I p mf).1 := by
  rw [mfMatchAt_fst_eq, mfMatchAt_fst_eq, mfFindBest_fst cfg I p h]

/-! ### The lookback encoder -/

/-- Two encoders at the same point: the same table and position, outputs that differ in capacity alone. -/
structure LbEnc.Alike (c c' : LbEnc) : Prop where
  mt : c'.mf.mt = c.mf.mt
  pos : c'.pos = c.pos
  out : c.out.Alike c'.out

theorem LbEnc.emit_agree {bound : Nat} {op : Nat → Buffer → Res Buffer Unit} (hop : CapFree op) {c c' : LbEnc}
    (h : c.Alike c') : Res.Agree (fun _ => LbEnc.Alike) anyStates (c.emit (op bound)) (c'.emit (op bound)) :=
  (hop bound _ _ h.out).inside (fun _ _ _ ho => ⟨h.mt, h.pos, ho⟩) fun _ _ _ => trivial

theorem literalScan_alike (cfg : Config) (I : List Byte) : ∀ (fuel : Nat) (c c' : LbEnc),
    c.Alike c' ∧ c'.runStart = c.runStart →
    (literalScan cfg I fuel c).Alike (literalScan cfg I fuel c') ∧
      (literalScan cfg I fuel c').runStart = (literalScan cfg I fuel c).runStart
  | 0, _, _, h => h
  | fuel + 1, c, c', ⟨⟨hmt, hpos, hout⟩, hrun⟩ => by
    have hins : (mfInsert cfg I c'.pos c'.mf).mt = (mfInsert cfg I c.pos c.mf).mt := by
      rw [hpos]; exact mfInsert_mt cfg I _ hmt
    have hfst := mfMatchAt_fst cfg I (c.pos + 1) hins
    have hmt2 : (mfMatchAt cfg I (c'.pos + 1) (mfInsert cfg I c'.pos c'.mf)).2.mt =
        (mfMatchAt cfg I (c.pos + 1) (mfInsert cfg I c.pos c.mf)).2.mt := by
      rw [mfMatchAt_mt, mfMatchAt_mt, hins]
    have hpos1 : c'.pos + 1 = c.pos + 1 := congrArg (· + 1) hpos
    rw [literalScan, literalScan]
    simp only [hpos1, hrun, hfst]
    rw [hpos1] at hmt2
    split
    · exact ⟨⟨hins, rfl, hout⟩, rfl⟩
    · split
      · exact ⟨⟨hmt2, rfl, hout⟩, rfl⟩
      · exact literalScan_alike cfg I fuel _ _ ⟨⟨hmt2, rfl, hout⟩, rfl⟩

theorem encodeMatch_agree (cfg : Config) (I : List Byte) (bound d len : Nat) {c c' : LbEnc} (h : c.Alike c') :
    Res.Agree (fun _ => LbEnc.Alike) anyStates (encodeMatch cfg I bound d len c) (encodeMatch cfg I bound d len c') :=
  (LbEnc.emit_agree (emitMatch_capFree cfg d len) h).andThen fun _ v v' hv =>
    .ok ⟨by simpa only [hv.pos] using insertRun_mt cfg I len v.pos _ _ hv.mt, congrArg (· + len) hv.pos, hv.out⟩

theorem encodeLiteral_agree (cfg : Config) (I : List Byte) (bound : Nat) {c c' : LbEnc} (h : c.Alike c') :
    Res.Agree (fun _ => LbEnc.Alike) anyStates (encodeLiteral cfg I bound c) (encodeLiteral cfg I bound c') := by
  obtain ⟨hs, hrun⟩ := literalScan_alike cfg I cfg.litMax { c with runStart := c.pos } { c' with runStart := c'.pos }
    ⟨⟨h.mt, h.pos, h.out⟩, h.pos⟩
  simp only [encodeLiteral, hrun, hs.pos]
  exact LbEnc.emit_agree (emitLit_capFree _) hs

theorem encodeLoop_agree (cfg : Config) (I : List Byte) (bound : Nat) : ∀ (fuel : Nat) (c c' : LbEnc), c.Alike c' →
    Res.Agree (fun _ => LbEnc.Alike) anyStates (encodeLoop cfg I bound fuel c) (encodeLoop cfg I bound fuel c')
  | 0, _, _, h => .ok h
  | fuel + 1, c, c', h => by
    have hfst := mfMatchAt_fst cfg I c.pos h.mt
    have halike : LbEnc.Alike { c with mf := (mfMatchAt cfg I c.pos c.mf).2 }
        { c' with mf := (mfMatchAt cfg I c.pos c'.mf).2 } :=
      ⟨by simp only [mfMatchAt_mt, h.mt], h.pos, h.out⟩
    rw [encodeLoop, encodeLoop]
    simp only [h.pos, hfst]
    rw [h.pos] at halike
    split
    · refine Res.Agree.andThen (Q := fun _ => LbEnc.Alike) ?_ fun _ v v' hv => encodeLoop_agree cfg I bound fuel v v' hv
      cases (mfMatchAt cfg I c.pos c.mf).1 with
      | none => exact encodeLiteral_agree cfg I bound halike
      | some x => exact encodeMatch_agree cfg I bound x.1 x.2 halike
    · exact .ok h

/-- What `LB.ENCODE` writes does not depend on what its registers, its table and its output held (R183, R302). -/
theorem lbEncode_agree (cfg : Config) (I : List Byte) (bound : Nat) (c c' : LbEnc) :
    Res.Agree (fun _ => LbEnc.Alike) anyStates (lbEncode cfg I bound c) (lbEncode cfg I bound c') := by
  refine Res.Agree.andThen (Q := fun _ v v' => v'.mf.mt = v.mf.mt ∧ v.out.Alike v'.out)
    ((appendBytes_capFree (leBytes I.length 8) bound _ _ (release_alike c.out c'.out)).inside
      (fun _ _ _ ho => ⟨rfl, ho⟩) fun _ _ _ => trivial) fun _ v v' ⟨hmt, ho⟩ => ?_
  exact encodeLoop_agree cfg I bound I.length _ _ ⟨hmt, rfl, ho⟩

/-! ### The lookback decoder -/

/-- Two decoders at the same point between two tokens. -/
structure LbDec.Alike (c c' : LbDec) : Prop where
  olen : c'.lb.olen = c.lb.olen
  ip : c'.lb.ip = c.lb.ip
  out : c.out.Alike c'.out

theorem lbLiteral_agree (S : List Byte) (bound h r : Nat) {c c' : LbDec} (hc : c.Alike c') :
    Res.Agree (fun _ => LbDec.Alike) anyStates (lbLiteral S bound h r c) (lbLiteral S bound h r c') := by
  simp only [lbLiteral, hc.ip, hc.olen, hc.out.len]
  split
  · exact .stop trivial
  · split
    · exact .stop trivial
    · split
      · exact .stop trivial
      · refine Res.Agree.andThen (Q := fun _ => LbDec.Alike)
          ((appendBytes_capFree _ bound _ _ hc.out).inside (fun _ _ _ ho => ⟨rfl, rfl, ho⟩) fun _ _ _ => trivial)
          fun _ v v' hv => .ok ⟨hv.olen, congrArg (· + r) hv.ip, hv.out⟩

theorem lbDistance_agree (S : List Byte) (t d : Nat) {c c' : LbDec} (hc : c.Alike c') :
    Res.Agree (fun _ v v' => v.Alike v' ∧ v'.lb.dist = v.lb.dist) anyStates (lbDistance S t d c) (lbDistance S t d c') := by
  simp only [lbDistance, hc.ip]
  split
  · exact .stop trivial
  · exact .ok ⟨⟨hc.olen, rfl, hc.out⟩, rfl⟩

theorem lbLength_agree (S : List Byte) (bound h len : Nat) {c c' : LbDec} (hc : c.Alike c')
    (hd : c'.lb.dist = c.lb.dist) :
    Res.Agree (fun _ => LbDec.Alike) anyStates (lbLength S bound h len c) (lbLength S bound h len c') := by
  simp only [lbLength, hc.ip, hc.olen, hc.out.len, hd]
  split
  · exact .stop trivial
  · split
    · exact .stop trivial
    · split
      · exact .stop trivial
      · exact (matchCopy_capFree _ _ bound _ _ hc.out).inside (fun _ _ _ ho => ⟨rfl, rfl, ho⟩) fun _ _ _ => trivial

theorem lbLengthField_agree (S : List Byte) (bound : Nat) {c c' : LbDec} (hc : c.Alike c')
    (hd : c'.lb.dist = c.lb.dist) :
    Res.Agree (fun _ => LbDec.Alike) anyStates (lbLengthField S bound c) (lbLengthField S bound c') := by
  rw [lbLengthField, lbLengthField, hc.ip]
  rcases decode .lbLen (S.drop c.lb.ip) with e | ⟨i, n⟩
  · exact .stop trivial
  · cases i with
    | lenS len => exact lbLength_agree S bound 1 len.toNat hc hd
    | lenL len => exact lbLength_agree S bound 2 len.toNat hc hd
    | _ => exact .stop trivial

theorem lbToken_agree (S : List Byte) (bound : Nat) {c c' : LbDec} (hc : c.Alike c') :
    Res.Agree (fun _ => LbDec.Alike) anyStates (lbToken S bound c) (lbToken S bound c') := by
  have hmatch : ∀ t d, Res.Agree (fun _ => LbDec.Alike) anyStates
      ((lbDistance S t d c).andThen fun _ c => lbLengthField S bound c)
      ((lbDistance S t d c').andThen fun _ c => lbLengthField S bound c) := fun t d =>
    (lbDistance_agree S t d hc).andThen fun _ _ _ ⟨hv, hd⟩ => lbLengthField_agree S bound hv hd
  rw [lbToken, lbToken, hc.ip]
  rcases decode .lbToken (S.drop c.lb.ip) with e | ⟨i, n⟩
  · exact .stop trivial
  · cases i with
    | litS len => exact lbLiteral_agree S bound 1 len.toNat hc
    | litL len => exact lbLiteral_agree S bound 2 len.toNat hc
    | dist1 d => exact hmatch 1 d.toNat
    | dist2 d => exact hmatch 2 d.toNat
    | dist3 d => exact hmatch 3 d.toNat
    | dist4 d => exact hmatch 4 d.toNat
    | dist5 d => exact hmatch 5 d.toNat
    | _ => exact .stop trivial

theorem decodeLoop_agree (S : List Byte) (bound : Nat) : ∀ (fuel : Nat) (c c' : LbDec), c.Alike c' →
    Res.Agree (fun _ => LbDec.Alike) anyStates (decodeLoop S bound fuel c) (decodeLoop S bound fuel c')
  | 0, _, _, _ => .stop trivial
  | fuel + 1, c, c', hc => by
    rw [decodeLoop, decodeLoop, hc.out.len, hc.olen]
    split
    · exact (lbToken_agree S bound hc).andThen fun _ v v' hv => decodeLoop_agree S bound fuel v v' hv
    · exact .ok hc

/-- What `LB.DECODE` writes does not depend on what its registers and its output held (R185, R302). -/
theorem lbDecode_agree (S : List Byte) (bound : Nat) (c c' : LbDec) :
    Res.Agree (fun _ => LbDec.Alike) anyStates (lbDecode S bound c) (lbDecode S bound c') := by
  refine Res.Agree.andThen (Q := fun _ => LbDec.Alike) ?_ fun _ v v' hv => decodeLoop_agree S bound _ v v' hv
  rw [lbHeader, lbHeader]
  split
  · exact .stop trivial
  · dsimp only
    split
    · exact .stop trivial
    · exact .ok ⟨rfl, rfl, release_alike _ _⟩

end Sys2Proof.Machine
end

section
/-! SUPPORT. Two runs of the Huffman codec side by side: what is left in the arena, the tables and the registers from before is
never read (spec 43_huffman.md; 70_reset_and_hazards.md R302). -/

namespace Sys2Proof.Machine

/-! ### The builder -/

theorem nodeAt_putNode {h : Huffman} (hw : tableWf {} h.node = true) (i j : Nat) (n : Node) :
    (h.putNode i n).nodeAt j = if j = i then n else h.nodeAt j := tableGet_tablePut _ _ _ _ _ hw

theorem putNode_wf {h : Huffman} (hw : tableWf {} h.node = true) (i : Nat) (n : Node) :
    tableWf {} (h.putNode i n).node = true := tablePut_wf _ _ _ _ hw

/-- Two builders at the same point: the same counts, worklist and number of nodes, and the same nodes so far. -/
structure Huffman.Alike (h h' : Huffman) : Prop where
  freq : h'.freq = h.freq
  nnodes : h'.nnodes = h.nnodes
  merges : h'.merges = h.merges
  wl : h'.wl = h.wl
  wf : tableWf {} h.node = true
  wf' : tableWf {} h'.node = true
  node : ∀ i, i < h.nnodes → h'.nodeAt i = h.nodeAt i
  mem : ∀ i ∈ h.wl, i < h.nnodes

/-- The same node put at the end of two arenas that agree so far. -/
theorem Huffman.Alike.putNode_agree {h h' : Huffman} (ha : h.Alike h') (n : Node) (i : Nat) (hi : i < h.nnodes + 1) :
    (h'.putNode h'.nnodes n).nodeAt i = (h.putNode h.nnodes n).nodeAt i := by
  rw [nodeAt_putNode ha.wf, nodeAt_putNode ha.wf', ha.nnodes]
  split
  · rfl
  · exact ha.node i (by omega)

theorem addLeaf_alike {h h' : Huffman} (ha : h.Alike h') (v : Nat) : (addLeaf h v).Alike (addLeaf h' v) := by
  have hfreq : h'.freqAt v = h.freqAt v := by rw [Huffman.freqAt, ha.freq]; rfl
  rw [addLeaf, addLeaf, hfreq]
  split
  · refine ⟨ha.freq, congrArg (· + 1) ha.nnodes, ha.merges, ?_, putNode_wf ha.wf _ _, putNode_wf ha.wf' _ _,
      fun i hi => ha.putNode_agree _ i hi, ?_⟩
    · simp only [ha.wl, ha.nnodes]
    · intro i hi
      rcases List.mem_append.mp hi with hi | hi
      · exact Nat.lt_succ_of_lt (ha.mem i hi)
      · rw [List.mem_singleton.mp hi]; exact Nat.lt_succ_self _
  · exact ha

theorem leaves_alike {h h' : Huffman} (hf : h'.freq = h.freq) (hw : tableWf {} h.node = true)
    (hw' : tableWf {} h'.node = true) : ∀ n, (h.leaves n).Alike (h'.leaves n)
  | 0 => ⟨hf, rfl, rfl, rfl, hw, hw', fun _ hi => absurd hi (Nat.not_lt_zero _), by simp [Huffman.leaves]⟩
  | n + 1 => by
    rw [Huffman.leaves, Huffman.leaves, List.range_succ, List.foldl_append, List.foldl_append]
    exact addLeaf_alike (leaves_alike hf hw hw' n) n

/-- The place of a node in a worklist depends on the frequencies of the nodes concerned alone (R201 (c)). -/
theorem insertByFreq_congr {f g : Nat → Nat} {wl : List Nat} {x : Nat} (hx : f x = g x) (hwl : ∀ i ∈ wl, f i = g i) :
    insertByFreq f wl x = insertByFreq g wl x := by
  have hcount : (wl.countP fun i => decide (f x ≤ f i)) = wl.countP fun i => decide (g x ≤ g i) :=
    List.countP_congr fun i hi => by rw [hx, hwl i hi]
  rw [insertByFreq, insertByFreq, hcount]

theorem sortByFreq_congr {f g : Nat → Nat} {wl : List Nat} (hwl : ∀ i ∈ wl, f i = g i) :
    sortByFreq f wl = sortByFreq g wl := by
  have hfold : ∀ xs acc : List Nat, (∀ i ∈ xs, f i = g i) → (∀ i ∈ acc, f i = g i) →
      xs.foldl (insertByFreq f) acc = xs.foldl (insertByFreq g) acc := by
    intro xs
    induction xs with
    | nil => exact fun _ _ _ => rfl
    | cons x xs ih =>
      intro acc hxs hacc
      have hx := hxs x List.mem_cons_self
      rw [List.foldl_cons, List.foldl_cons, ← insertByFreq_congr hx hacc]
      refine ih _ (fun i hi => hxs i (List.mem_cons_of_mem _ hi)) fun i hi => ?_
      rcases List.mem_cons.mp ((insertByFreq_perm f acc x).mem_iff.mp hi) with rfl | hi
      · exact hx
      · exact hacc i hi
  exact hfold wl [] hwl (by simp)

theorem sortedLeaves_alike {h h' : Huffman} (hf : h'.freq = h.freq) (hw : tableWf {} h.node = true)
    (hw' : tableWf {} h'.node = true) (n : Nat) : (h.sortedLeaves n).Alike (h'.sortedLeaves n) := by
  have ha := leaves_alike hf hw hw' n
  refine ⟨ha.freq, ha.nnodes, ha.merges, ?_, ha.wf, ha.wf', ha.node, fun i hi =>
    ha.mem i ((sortedLeaves_wl_perm n h).mem_iff.mp hi)⟩
  simp only [Huffman.sortedLeaves]
  rw [ha.wl]
  exact sortByFreq_congr fun i hi => by rw [ha.node i (ha.mem i hi)]

theorem joined_agree {h h' : Huffman} (ha : h.Alike h') {lo hi : Nat} (hlo : lo < h.nnodes) (hhi : hi < h.nnodes)
    (i : Nat) (hi' : i < h.nnodes + 1) : (h'.joined lo hi).nodeAt i = (h.joined lo hi).nodeAt i := by
  rw [Huffman.joined, Huffman.joined, ha.node lo hlo, ha.node hi hhi]
  exact ha.putNode_agree _ i hi'

theorem merged_alike {h h' : Huffman} (ha : h.Alike h') {lo hi : Nat} (hlo : lo < h.nnodes) (hhi : hi < h.nnodes) :
    (h.merged lo hi).Alike (h'.merged lo hi) := by
  have hnode := joined_agree ha hlo hhi
  refine ⟨ha.freq, congrArg (· + 1) ha.nnodes, congrArg (· + 1) ha.merges, ?_, putNode_wf ha.wf _ _,
    putNode_wf ha.wf' _ _, hnode, fun i hi => ?_⟩
  · simp only [Huffman.merged]
    rw [ha.wl, ha.nnodes]
    refine insertByFreq_congr ?_ fun i hi => ?_
    · rw [hnode _ (Nat.lt_succ_self _)]
    · rw [hnode _ (Nat.lt_succ_of_lt (ha.mem i hi))]
  · rcases List.mem_cons.mp ((merged_wl_perm _ _ h).mem_iff.mp hi) with rfl | hi
    · exact Nat.lt_succ_self _
    · exact Nat.lt_succ_of_lt (ha.mem i hi)

theorem mergeTwo_agree {h h' : Huffman} (ha : h.Alike h') {lo hi : Nat} (hlo : lo < h.nnodes) (hhi : hi < h.nnodes) :
    Res.Agree (fun _ => Huffman.Alike) anyStates (mergeTwo lo hi h) (mergeTwo lo hi h') := by
  rw [mergeTwo_eq, mergeTwo_eq, ha.merges]
  split
  · exact .stop trivial
  · exact .ok (merged_alike ha hlo hhi)

theorem mergeLoop_agree : ∀ (fuel : Nat) (h h' : Huffman), h.Alike h' →
    Res.Agree (fun _ => Huffman.Alike) anyStates (mergeLoop fuel h) (mergeLoop fuel h')
  | 0, _, _, ha => .ok ha
  | fuel + 1, h, h', ha => by
    rw [mergeLoop, mergeLoop, ha.wl]
    match hrev : h.wl.reverse with
    | [] => exact .ok ha
    | [_] => exact .ok ha
    | lo :: hi :: rest =>
      have hmem : ∀ i, i ∈ rest.reverse ∨ i = hi ∨ i = lo → i < h.nnodes := fun i hi =>
        ha.mem i (by rw [popTwo_eq hrev]; simpa using hi)
      have hpop : Huffman.Alike { h with wl := rest.reverse } { h' with wl := rest.reverse } :=
        ⟨ha.freq, ha.nnodes, ha.merges, rfl, ha.wf, ha.wf', ha.node, fun i hi => hmem i (.inl hi)⟩
      exact (mergeTwo_agree hpop (hmem lo (by simp)) (hmem hi (by simp))).andThen fun _ v v' hv =>
        mergeLoop_agree fuel v v' hv

/-- A worklist that is not empty is merged down to one entry (R201). -/
theorem mergeLoop_single : ∀ (fuel : Nat) (h : Huffman), 1 ≤ h.wl.length → h.wl.length ≤ fuel + 1 →
    (mergeLoop fuel h).Ends (fun _ h' => h'.wl.length = 1) fun _ => True
  | 0, h, h1, hf => .ok (by omega)
  | fuel + 1, h, h1, hf => by
    rw [mergeLoop]
    split
    · next lo hi rest hrev =>
      have hlen : h.wl.length = rest.length + 2 := by rw [popTwo_eq hrev]; simp
      refine Res.Ends.andThen (Q := fun _ h' => h'.wl.length = rest.length + 1) ?_ fun _ v hv =>
        mergeLoop_single fuel v (by omega) (by omega)
      rw [mergeTwo_eq]
      split
      · exact .stop trivial
      · exact .ok (by simpa using (merged_wl_perm lo hi { h with wl := rest.reverse }).length_eq)
    · next hne =>
      refine .ok ?_
      match hrev : h.wl.reverse with
      | [] => simp at hrev; simp [hrev] at h1
      | [_] => rw [← List.length_reverse, hrev]; rfl
      | lo :: hi :: rest => exact absurd hrev (hne lo hi rest)

/-- The root set from a worklist of one entry (R201). -/
theorem setRoot_alike {h h' : Huffman} (ha : h.Alike h') (hl : h.wl.length = 1) :
    (setRoot h).Alike (setRoot h') ∧ (setRoot h').root = (setRoot h).root := by
  obtain ⟨r, hr⟩ := List.length_eq_one_iff.mp hl
  have hs : ∀ g : Huffman, g.wl = [r] → setRoot g = { g with root := r } := fun g hg => by
    unfold setRoot; rw [hg]
  rw [hs h hr, hs h' (ha.wl.trans hr)]
  exact ⟨⟨ha.freq, ha.nnodes, ha.merges, ha.wl, ha.wf, ha.wf', ha.node, ha.mem⟩, rfl⟩

/-- A value that occurs gives a leaf (R201). -/
theorem leaves_wl_ne_nil {h : Huffman} {v : Nat} (hv : 0 < h.freqAt v) :
    ∀ n, (h.leaves n).freq = h.freq ∧ (v < n → (h.leaves n).wl ≠ [])
  | 0 => ⟨rfl, fun hn => absurd hn (Nat.not_lt_zero _)⟩
  | n + 1 => by
    obtain ⟨hfreq, hwl⟩ := leaves_wl_ne_nil hv n
    have hstep : h.leaves (n + 1) = addLeaf (h.leaves n) n := by
      rw [Huffman.leaves, List.range_succ, List.foldl_append]; rfl
    rw [hstep, addLeaf]
    split
    · exact ⟨hfreq, fun _ => by simp⟩
    · next hz =>
      refine ⟨hfreq, fun hn => hwl ?_⟩
      have hne : v ≠ n := by
        rintro rfl
        exact hz (by rw [Huffman.freqAt, hfreq]; exact hv)
      omega

/-- `HUF.BUILD` from counts of which one is not 0: the tree it makes depends on the counts alone (R201). -/
theorem hufBuild_agree {h h' : Huffman} (hf : h'.freq = h.freq) (hw : tableWf {} h.node = true)
    (hw' : tableWf {} h'.node = true) {v : Nat} (hv : v < 256) (hpos : 0 < h.freqAt v) :
    Res.Agree (fun _ g g' => g.Alike g' ∧ g'.root = g.root) anyStates (hufBuild h) (hufBuild h') := by
  have ha := sortedLeaves_alike hf hw hw' 256
  have hne : 1 ≤ (h.sortedLeaves 256).wl.length := by
    rw [(sortedLeaves_wl_perm 256 h).length_eq]
    exact List.length_pos_iff.mpr ((leaves_wl_ne_nil hpos 256).2 hv)
  rw [hufBuild_eq, hufBuild_eq]
  generalize h.sortedLeaves 256 = g at ha hne ⊢
  generalize h'.sortedLeaves 256 = g' at ha ⊢
  rw [ha.wl]
  exact ((mergeLoop_agree g.wl.length g g' ha).and_left (mergeLoop_single g.wl.length g hne (Nat.le_succ _))).andThen
    fun _ _ _ ⟨hv, hone⟩ => .ok (setRoot_alike hv hone)

/-! ### The count -/

/-- Every byte of the input is counted (R200). -/
theorem count_pos (v : Byte) : ∀ (I : List Byte) (t : List (Nat × Nat)), tableWf 0 t = true →
    v ∈ I ∨ 0 < tableGet 0 t v.toNat → 0 < tableGet 0 (I.foldl countByte t) v.toNat
  | [], _, _, h => h.resolve_left (by simp)
  | x :: xs, t, hw, h => by
    refine count_pos v xs _ (tablePut_wf _ _ _ _ hw) ?_
    rw [countByte, tableGet_tablePut _ _ _ _ _ hw]
    rcases h with h | h
    · rcases List.mem_cons.mp h with rfl | h
      · exact .inr (by simp)
      · exact .inl h
    · refine .inr ?_
      split <;> omega

theorem hufCount_freqAt_pos {v : Byte} {I : List Byte} (h : Huffman) (hv : v ∈ I) :
    0 < (hufCount I h).freqAt v.toNat := count_pos v I [] rfl (.inl hv)

/-! ### Codes and the tree writer -/

/-- Two arenas with the same nodes at the indices that are valid (R60). -/
structure Huffman.SameTree (h h' : Huffman) : Prop where
  nnodes : h'.nnodes = h.nnodes
  kind : ∀ i, i < h.nnodes → (h'.nodeAt i).kind = (h.nodeAt i).kind

theorem Huffman.Alike.sameTree {h h' : Huffman} (ha : h.Alike h') : h.SameTree h' :=
  ⟨ha.nnodes, fun i hi => congrArg Node.kind (ha.node i hi)⟩

theorem assignVisit_congr {h h' : Huffman} (ht : h.SameTree h') : ∀ (fuel i : Nat) (pre : List Bool)
    (code : List (Nat × List Bool)), assignVisit h' fuel i pre code = assignVisit h fuel i pre code
  | 0, _, _, _ => rfl
  | fuel + 1, i, pre, code => by
    rw [assignVisit, assignVisit, ht.nnodes]
    split
    · rfl
    · next hi =>
      rw [ht.kind i (by omega)]
      cases (h.nodeAt i).kind with
      | leaf v => rfl
      | internal l r => simp only [assignVisit_congr ht fuel]

theorem writeTree_congr {h h' : Huffman} (ht : h.SameTree h') (bound : Nat) : ∀ (fuel i : Nat) (o : Buffer),
    writeTree h' bound fuel i o = writeTree h bound fuel i o
  | 0, _, _ => rfl
  | fuel + 1, i, o => by
    rw [writeTree, writeTree, ht.nnodes]
    split
    · rfl
    · next hi =>
      rw [ht.kind i (by omega)]
      cases (h.nodeAt i).kind with
      | leaf v => rfl
      | internal l r => simp only [writeTree_congr ht bound fuel]

theorem hufAssign_agree {h h' : Huffman} (ht : h.SameTree h') (hr : h'.root = h.root) :
    Res.Agree (fun _ g g' => g.SameTree g' ∧ g'.root = g.root ∧ g'.code = g.code) anyStates
      (hufAssign h) (hufAssign h') := by
  rw [hufAssign, hufAssign, ht.nnodes, hr]
  split
  · exact .ok ⟨⟨rfl, ht.kind⟩, rfl, rfl⟩
  · split
    · exact .stop trivial
    · next hi =>
      rw [ht.kind h.root (by omega)]
      cases (h.nodeAt h.root).kind with
      | leaf v => exact .ok ⟨⟨rfl, ht.kind⟩, rfl, rfl⟩
      | internal l r =>
        dsimp only
        rw [assignVisit_congr ht]
        cases assignVisit h (h.nnodes + 1) h.root [] [] with
        | ok a code => exact .ok ⟨⟨rfl, ht.kind⟩, rfl, rfl⟩
        | stop e code => exact .stop trivial

/-! ### The packer -/

theorem HufEnc.emit_agree {bound : Nat} {op : Nat → Buffer → Res Buffer Unit} (hop : CapFree op) {c c' : HufEnc}
    (ho : c.out.Alike c'.out) {K : HufEnc → HufEnc → Prop}
    (hK : ∀ o o', K { c with out := o } { c' with out := o' }) :
    Res.Agree (fun _ v v' => v.out.Alike v'.out ∧ K v v') anyStates (c.emit (op bound)) (c'.emit (op bound)) :=
  (hop bound _ _ ho).inside (fun _ _ _ ho => ⟨ho, hK _ _⟩) fun _ _ _ => trivial

theorem packBytes_agree (bound : Nat) : ∀ (I : List Byte) (p : Nat) (c c' : HufEnc), c.out.Alike c'.out →
    c'.huf.code = c.huf.code →
    Res.Agree (fun _ v v' => v.out.Alike v'.out) anyStates (packBytes bound I p c) (packBytes bound I p c')
  | [], _, _, _, ho, _ => .ok ho
  | v :: vs, p, c, c', ho, hcode => by
    have hat : c'.huf.codeAt v.toNat = c.huf.codeAt v.toNat := by rw [Huffman.codeAt, hcode]; rfl
    rw [packBytes, packBytes, hat]
    exact Res.Agree.andThen
      (HufEnc.emit_agree (c := { c with pos := p }) (c' := { c' with pos := p }) (K := fun w w' => w'.huf.code = w.huf.code)
        (appendBitList_capFree _) ho fun _ _ => hcode)
      fun _ w w' ⟨hw, hk⟩ => packBytes_agree bound vs (p + 1) w w' hw hk

/-- What `HUF.ENCODE` writes does not depend on what its registers, its tables and its output held (R208, R302). -/
theorem hufEncode_agree (I : List Byte) (bound : Nat) (c c' : HufEnc) (hw : tableWf {} c.huf.node = true)
    (hw' : tableWf {} c'.huf.node = true) :
    Res.Agree (fun _ v v' => v.out.Alike v'.out) anyStates (hufEncode I bound c) (hufEncode I bound c') := by
  rw [hufEncode, hufEncode]
  refine Res.Agree.andThen
    (HufEnc.emit_agree (K := fun w w' => tableWf {} w.huf.node = true ∧ tableWf {} w'.huf.node = true)
      (appendBits_capFree I.length 64) (release_alike c.out c'.out) fun _ _ => ⟨hw, hw'⟩)
    fun _ c1 c1' ⟨ho1, hw1, hw1'⟩ => ?_
  split
  · exact .ok ho1
  · next hne =>
    obtain ⟨v, hv⟩ := List.exists_mem_of_length_pos (Nat.pos_of_ne_zero hne)
    have hbuild := hufBuild_agree (h := hufCount I c1.huf) (h' := hufCount I c1'.huf) rfl hw1 hw1' v.isLt
      (hufCount_freqAt_pos c1.huf hv)
    refine Res.Agree.andThen (Q := fun _ w w' => w.out.Alike w'.out ∧ w.huf.SameTree w'.huf ∧ w'.huf.root = w.huf.root)
      (hbuild.inside (fun _ _ _ ⟨ha, hr⟩ => ⟨ho1, ha.sameTree, hr⟩) fun _ _ _ => trivial) fun _ c2 c2' ⟨ho2, ht2, hr2⟩ => ?_
    refine Res.Agree.andThen (Q := fun _ w w' => w.out.Alike w'.out ∧ w.huf.SameTree w'.huf ∧ w'.huf.root = w.huf.root ∧
        w'.huf.code = w.huf.code)
      ((hufAssign_agree ht2 hr2).inside (fun _ _ _ hq => ⟨ho2, hq⟩) fun _ _ _ => trivial)
      fun _ c3 c3' ⟨ho3, ht3, hr3, hcode3⟩ => ?_
    rw [ht3.nnodes, hr3]
    have htree : writeTree c3'.huf bound (c3.huf.nnodes + 1) c3.huf.root =
        writeTree c3.huf bound (c3.huf.nnodes + 1) c3.huf.root := funext fun o => writeTree_congr ht3 bound _ _ o
    rw [htree]
    exact Res.Agree.andThen
      (HufEnc.emit_agree (K := fun w w' => w'.huf.code = w.huf.code) (writeTree_capFree c3.huf _ _) ho3 fun _ _ => hcode3)
      fun _ c4 c4' ⟨ho4, hcode4⟩ => packBytes_agree bound I 0 c4 c4' ho4 hcode4

/-! ### The decoder -/

/-- Two Huffman decoders at the same point, whose arenas have the same nodes at the indices in `A`. -/
structure HufDec.Alike (A : Nat → Prop) (c c' : HufDec) : Prop where
  nnodes : c'.huf.nnodes = c.huf.nnodes
  hlen : c'.huf.hlen = c.huf.hlen
  inp : c.inp.Alike c'.inp
  out : c.out.Alike c'.out
  wf : tableWf {} c.huf.node = true
  wf' : tableWf {} c'.huf.node = true
  kind : ∀ i, A i → (c'.huf.nodeAt i).kind = (c.huf.nodeAt i).kind

/-- Bits read leave the tables alone. -/
theorem HufDec.bits_agree (width : Nat) {c c' : HufDec} (hi : c.inp.Alike c'.inp) :
    Res.Agree (fun _ v v' => v.inp.Alike v'.inp ∧ v.huf = c.huf ∧ v'.huf = c'.huf ∧ v.out = c.out ∧ v'.out = c'.out)
      anyStates (c.bits width) (c'.bits width) :=
  (readBits_capFree width 0 _ _ hi).inside (fun _ _ _ hv => ⟨hv, rfl, rfl, rfl, rfl⟩) fun _ _ _ => trivial

theorem HufDec.Alike.bits {A : Nat → Prop} {c c' : HufDec} (hc : HufDec.Alike A c c') (width : Nat) :
    Res.Agree (fun _ v v' => HufDec.Alike A v v' ∧ v.huf = c.huf ∧ v'.huf = c'.huf) anyStates
      (c.bits width) (c'.bits width) :=
  (HufDec.bits_agree width hc.inp).imp
    (fun _ v v' ⟨hi, hh, hh', ho, ho'⟩ =>
      ⟨⟨by rw [hh, hh', hc.nnodes], by rw [hh, hh', hc.hlen], hi, by rw [ho, ho']; exact hc.out, by rw [hh]; exact hc.wf,
        by rw [hh']; exact hc.wf', fun i hA => by rw [hh, hh']; exact hc.kind i hA⟩, hh, hh'⟩)
    fun _ _ _ => trivial

theorem allocNode_agree (cfg : Config) {A : Nat → Prop} {c c' : HufDec} (hc : HufDec.Alike A c c') :
    Res.Agree (fun i v v' => HufDec.Alike A v v' ∧ i = c.huf.nnodes ∧ v.huf.nnodes = c.huf.nnodes + 1) anyStates
      (allocNode cfg c) (allocNode cfg c') := by
  rw [allocNode, allocNode, hc.nnodes]
  split
  · exact .stop trivial
  · exact .ok ⟨⟨rfl, hc.hlen, hc.inp, hc.out, hc.wf, hc.wf', hc.kind⟩, rfl, rfl⟩

theorem storeNode_alike {A : Nat → Prop} {c c' : HufDec} (hc : HufDec.Alike A c c') (i : Nat) (kind : NodeKind) :
    HufDec.Alike (fun j => A j ∨ j = i) (storeNode i kind c) (storeNode i kind c') := by
  refine ⟨hc.nnodes, hc.hlen, hc.inp, hc.out, putNode_wf hc.wf _ _, putNode_wf hc.wf' _ _, fun j hj => ?_⟩
  simp only [storeNode, nodeAt_putNode hc.wf, nodeAt_putNode hc.wf']
  split
  · rfl
  · next hne => exact hc.kind j (hj.resolve_right hne)

theorem HufDec.Alike.mono {A A' : Nat → Prop} {c c' : HufDec} (hc : HufDec.Alike A c c') (h : ∀ i, A' i → A i) :
    HufDec.Alike A' c c' := { hc with kind := fun i hi => hc.kind i (h i hi) }

/-- The indices the arena had before, and those taken since. -/
def upTo (A : Nat → Prop) (n m : Nat) (i : Nat) : Prop := A i ∨ (n ≤ i ∧ i < m)

/-- A tree read writes every node it takes (R209). -/
theorem readTree_agree (cfg : Config) : ∀ (fuel : Nat) (A : Nat → Prop) (c c' : HufDec), HufDec.Alike A c c' →
    Res.Agree (fun _ v v' => HufDec.Alike (upTo A c.huf.nnodes v.huf.nnodes) v v' ∧ c.huf.nnodes < v.huf.nnodes) anyStates
      (readTree cfg fuel c) (readTree cfg fuel c')
  | 0, _, _, _, _ => .stop trivial
  | fuel + 1, A, c, c', hc => by
    rw [readTree, readTree]
    refine (allocNode_agree cfg hc).andThen fun i c1 c1' ⟨h1, hi, hn1⟩ => ?_
    refine (h1.bits 1).andThen fun tag c2 c2' ⟨h2, hh2, _⟩ => ?_
    have hn2 : c2.huf.nnodes = c.huf.nnodes + 1 := by rw [hh2, hn1]
    split
    · refine (readTree_agree cfg fuel A c2 c2' h2).andThen fun l c3 c3' ⟨h3, hn3⟩ => ?_
      refine (readTree_agree cfg fuel _ c3 c3' h3).andThen fun r c4 c4' ⟨h4, hn4⟩ => ?_
      refine .ok ⟨(storeNode_alike h4 i (.internal l r)).mono fun j hj => ?_, ?_⟩
      · change A j ∨ (c.huf.nnodes ≤ j ∧ j < c4.huf.nnodes) at hj
        unfold upTo
        rcases hj with hA | hj
        · exact .inl (.inl (.inl hA))
        · by_cases hji : j = i
          · exact .inr hji
          · by_cases hj3 : j < c3.huf.nnodes
            · exact .inl (.inl (.inr ⟨by omega, hj3⟩))
            · exact .inl (.inr ⟨by omega, hj.2⟩)
      · show c.huf.nnodes < c4.huf.nnodes
        omega
    · refine (h2.bits 8).andThen fun v c3 c3' ⟨h3, hh3, _⟩ => ?_
      have hn3 : c3.huf.nnodes = c.huf.nnodes + 1 := by rw [hh3, hn2]
      refine .ok ⟨(storeNode_alike h3 i (.leaf (BitVec.ofNat 8 v))).mono fun j hj => ?_, ?_⟩
      · change A j ∨ (c.huf.nnodes ≤ j ∧ j < c3.huf.nnodes) at hj
        rcases hj with hA | hj
        · exact .inl hA
        · exact .inr (by omega)
      · show c.huf.nnodes < c3.huf.nnodes
        omega

/-- Two decoders between two symbols: the same tree and the same root. -/
structure HufDec.Decoding (c c' : HufDec) : Prop where
  alike : HufDec.Alike (· < c.huf.nnodes) c c'
  root : c'.huf.root = c.huf.root

theorem HufDec.Decoding.bits {c c' : HufDec} (hc : c.Decoding c') (width : Nat) :
    Res.Agree (fun _ v v' => v.Decoding v' ∧ v.huf = c.huf ∧ v'.huf = c'.huf) anyStates (c.bits width) (c'.bits width) :=
  (hc.alike.bits width).imp
    (fun _ _ _ ⟨hv, hh, hh'⟩ => ⟨⟨by rw [hh]; exact hv, by rw [hh, hh']; exact hc.root⟩, hh, hh'⟩) fun _ _ _ => trivial

theorem walkTree_agree : ∀ (fuel : Nat) (c c' : HufDec), c.Decoding c' → c'.huf.walk = c.huf.walk →
    Res.Agree (fun _ => HufDec.Decoding) anyStates (walkTree fuel c) (walkTree fuel c')
  | 0, _, _, _, _ => .stop trivial
  | fuel + 1, c, c', hc, hwalk => by
    rw [walkTree, walkTree, hc.alike.nnodes, hwalk]
    split
    · exact .stop trivial
    · next hi =>
      rw [hc.alike.kind c.huf.walk (by omega)]
      cases (c.huf.nodeAt c.huf.walk).kind with
      | leaf v => exact .ok hc
      | internal l r =>
        refine (hc.bits 1).andThen fun bit v v' ⟨hv, _, _⟩ => walkTree_agree fuel _ _ ?_ rfl
        obtain ⟨⟨hn, hl, hinp, hout, hwf, hwf', hk⟩, hroot⟩ := hv
        exact ⟨⟨hn, hl, hinp, hout, hwf, hwf', hk⟩, hroot⟩

theorem symbolByte_agree {c c' : HufDec} (hc : c.Decoding c') :
    Res.Agree (fun _ => HufDec.Decoding) anyStates (symbolByte c) (symbolByte c') := by
  rw [symbolByte, symbolByte, hc.alike.nnodes, hc.root]
  split
  · exact .stop trivial
  · next hi =>
    rw [hc.alike.kind c.huf.root (by omega)]
    cases (c.huf.nodeAt c.huf.root).kind with
    | leaf v => exact (hc.bits 1).andThen fun _ _ _ ⟨hv, _⟩ => .ok hv
    | internal l r =>
      dsimp only
      rw [hc.alike.inp.len]
      refine walkTree_agree _ _ _ ?_ rfl
      obtain ⟨⟨hn, hl, hinp, hout, hwf, hwf', hk⟩, hroot⟩ := hc
      exact ⟨⟨hn, hl, hinp, hout, hwf, hwf', hk⟩, hroot⟩

theorem readSymbol_agree (bound : Nat) {c c' : HufDec} (hc : c.Decoding c') :
    Res.Agree (fun _ => HufDec.Decoding) anyStates (readSymbol bound c) (readSymbol bound c') :=
  (symbolByte_agree hc).andThen fun v _ _ hw =>
    (appendByte_capFree v bound _ _ hw.alike.out).inside (fun _ _ _ ho => ⟨{ hw.alike with out := ho }, hw.root⟩)
      fun _ _ _ => trivial

theorem symbolLoop_agree (bound : Nat) : ∀ (fuel : Nat) (c c' : HufDec), c.Decoding c' →
    Res.Agree (fun _ => HufDec.Decoding) anyStates (symbolLoop bound fuel c) (symbolLoop bound fuel c')
  | 0, _, _, _ => .stop trivial
  | fuel + 1, c, c', hc => by
    rw [symbolLoop, symbolLoop, hc.alike.out.len, hc.alike.hlen]
    split
    · exact (readSymbol_agree bound hc).andThen fun _ v v' hv => symbolLoop_agree bound fuel v v' hv
    · exact .ok hc

/-- The header leaves nothing of before but, with a declared length of 0, the arena that is not read then (R210). -/
theorem hufHeader_agree (bound n : Nat) {c c' : HufDec} (hdata : c'.inp.data = c.inp.data)
    (hwcur : c'.inp.wcur = c.inp.wcur) (hw : tableWf {} c.huf.node = true) (hw' : tableWf {} c'.huf.node = true) :
    Res.Agree
      (fun _ v v' => v'.huf.hlen = v.huf.hlen ∧ v.out.Alike v'.out ∧
        (v.huf.hlen ≠ 0 → HufDec.Alike (fun _ => False) v v' ∧ v.huf.nnodes = 0))
      anyStates (hufHeader bound n c) (hufHeader bound n c') := by
  have hinp : Buffer.Alike { c.inp with rcur := {} } { c'.inp with rcur := {} } := ⟨hdata, hwcur, rfl⟩
  refine (HufDec.bits_agree 64 (c := { c with inp := { c.inp with rcur := {} } })
    (c' := { c' with inp := { c'.inp with rcur := {} } }) hinp).andThen fun _ v v' ⟨hv, hh, hh', _, _⟩ => ?_
  dsimp only at hh hh' ⊢
  rw [hh, hh']
  split
  · exact .stop trivial
  · split
    · next hn => exact .ok ⟨rfl, release_alike _ _, fun hne => absurd hn hne⟩
    · exact .ok ⟨rfl, release_alike _ _, fun _ =>
        ⟨⟨rfl, rfl, hv, release_alike _ _, hw, hw', fun _ hf => hf.elim⟩, rfl⟩⟩

/-- The tree read from a fresh arena, and its root (R209). -/
theorem readRoot_agree (cfg : Config) (fuel : Nat) {c c' : HufDec} (hc : HufDec.Alike (fun _ => False) c c')
    (hn : c.huf.nnodes = 0) :
    Res.Agree (fun _ => HufDec.Decoding) anyStates (asRoot (readTree cfg fuel c)) (asRoot (readTree cfg fuel c')) :=
  (readTree_agree cfg fuel _ c c' hc).andThen fun i v v' ⟨hv, _⟩ => by
    have hall := hv.mono (A' := (· < v.huf.nnodes)) fun j hj => .inr ⟨by omega, hj⟩
    obtain ⟨h1, h2, h3, h4, h5, h6, h7⟩ := hall
    exact .ok ⟨⟨h1, h2, h3, h4, h5, h6, h7⟩, rfl⟩

/-- What `HUF.DECODE` writes does not depend on what its registers, its tables and its output held (R210, R302). -/
theorem hufDecode_agree (cfg : Config) (bound : Nat) {c c' : HufDec} (hdata : c'.inp.data = c.inp.data)
    (hwcur : c'.inp.wcur = c.inp.wcur) (hw : tableWf {} c.huf.node = true) (hw' : tableWf {} c'.huf.node = true) :
    Res.Agree (fun _ v v' => v.out.Alike v'.out) anyStates (hufDecode cfg bound c) (hufDecode cfg bound c') := by
  rw [hufDecode, hufDecode, hdata]
  refine (hufHeader_agree bound _ hdata hwcur hw hw').andThen fun _ c1 c1' ⟨hlen, hout, h1⟩ => ?_
  rw [hlen]
  split
  · exact .ok hout
  · next hne =>
    obtain ⟨hc, hn⟩ := h1 hne
    refine (readRoot_agree cfg _ hc hn).andThen fun _ c2 c2' h2 => ?_
    rw [h2.alike.inp.len]
    exact (symbolLoop_agree bound _ c2 c2' h2).imp (fun _ _ _ hv => hv.alike.out) fun _ _ _ => trivial

end Sys2Proof.Machine
end

section
/-! SUPPORT. Two runs of the container pipeline and of a command side by side, and the statement that a command's result is a
function of its input (spec 10_state.md R43; 45_container.md R247 to R252). -/

namespace Sys2Proof.Machine

/-! ### What the stages leave alone -/

/-- What no stage of the pipeline writes: the input, the parameter, the flags, the checksums and `ERR`. -/
def State.SameCore (s t : State) : Prop :=
  t.maxBuf = s.maxBuf ∧ t.err = s.err ∧ t.cksum = s.cksum ∧ t.cksumStored = s.cksumStored ∧
  t.flDelta = s.flDelta ∧ t.flLb = s.flLb ∧ t.flHuf = s.flHuf ∧ t.acc = s.acc

/-- Two runs that came from `s₀` and `t₀` through stages. -/
def CorePair (s₀ t₀ s t : State) : Prop := s₀.SameCore s ∧ t₀.SameCore t

theorem corePair_refl (s t : State) : CorePair s t s t :=
  ⟨⟨rfl, rfl, rfl, rfl, rfl, rfl, rfl, rfl⟩, rfl, rfl, rfl, rfl, rfl, rfl, rfl, rfl⟩

section
variable {s₀ t₀ s t : State}

theorem CorePair.max (h : CorePair s₀ t₀ s t) (hm : t₀.maxBuf = s₀.maxBuf) : t.max = s.max := by
  obtain ⟨⟨hs, -⟩, ht, -⟩ := h
  rw [State.max, State.max, hs, ht, hm]

theorem CorePair.putBuf (h : CorePair s₀ t₀ s t) (b : StageBuf) (v w : Buffer) :
    CorePair s₀ t₀ (s.putBuf b v) (t.putBuf b w) := by
  cases b <;> exact h

/-- A stage entered: nothing but `PHASE` changes (R28). -/
def State.inPhase (s : State) (p : Phase) : State := { s with phase := p }

@[simp] theorem inPhase_buf (s : State) (p : Phase) (b : StageBuf) : (s.inPhase p).buf b = s.buf b := by cases b <;> rfl

theorem buf_alike_inPhase {b : StageBuf} (h : (s.buf b).Alike (t.buf b)) (p : Phase) :
    ((s.inPhase p).buf b).Alike ((t.inPhase p).buf b) := by
  rwa [inPhase_buf, inPhase_buf]

theorem CorePair.inPhase (h : CorePair s₀ t₀ s t) (p : Phase) : CorePair s₀ t₀ (s.inPhase p) (t.inPhase p) := h

theorem CorePair.releaseBuf (h : CorePair s₀ t₀ s t) (b : StageBuf) :
    CorePair s₀ t₀ (s.releaseBuf b) (t.releaseBuf b) := h.putBuf b _ _

/-- Two runs whose arenas are still those they came with. -/
def CorePair.Fresh (s₀ t₀ s t : State) : Prop := CorePair s₀ t₀ s t ∧ s.huf = s₀.huf ∧ t.huf = t₀.huf

theorem CorePair.Fresh.inPhase (h : CorePair.Fresh s₀ t₀ s t) (p : Phase) :
    CorePair.Fresh s₀ t₀ (s.inPhase p) (t.inPhase p) := h

theorem CorePair.Fresh.putBuf (h : CorePair.Fresh s₀ t₀ s t) (b : StageBuf) (v w : Buffer) :
    CorePair.Fresh s₀ t₀ (s.putBuf b v) (t.putBuf b w) := by
  cases b <;> exact h

/-! ### The stages -/

@[simp] theorem releaseBuf_buf_other (s : State) (b : StageBuf) : (s.releaseBuf b).buf b.other = s.buf b.other := by
  simp [State.releaseBuf]

/-- A stage that runs alike, or that is off, hands on buffers that differ in capacity alone (R28). -/
theorem opStage_agree {R E : State → State → Prop} (on : Bool) {op : StageBuf → State → Res State Unit} (b : StageBuf)
    (hb : (s.buf b).Alike (t.buf b)) (hR : R s t) (hrel : ∀ u v, R u v → R (u.releaseBuf b) (v.releaseBuf b))
    (hop : Res.Agree (fun _ u v => (u.buf b.other).Alike (v.buf b.other) ∧ R u v) E (op b s) (op b t)) :
    Res.Agree (fun b' u v => (u.buf b').Alike (v.buf b') ∧ R u v) E (opStage on op b s) (opStage on op b t) := by
  cases on with
  | false => exact .ok ⟨hb, hR⟩
  | true =>
    refine hop.andThen fun _ u v ⟨ho, hR'⟩ => .ok ⟨?_, hrel u v hR'⟩
    rwa [releaseBuf_buf_other, releaseBuf_buf_other]

theorem opCopy_agree (b : StageBuf) (bs : List Byte) (h : CorePair.Fresh s₀ t₀ s t) (hm : t₀.maxBuf = s₀.maxBuf) :
    Res.Agree (fun _ u v => (u.buf b).Alike (v.buf b) ∧ CorePair.Fresh s₀ t₀ u v) (CorePair s₀ t₀)
      (opCopy b bs s) (opCopy b bs t) := by
  have hs : CorePair.Fresh s₀ t₀ (s.releaseBuf b) (t.releaseBuf b) := h.putBuf b _ _
  have ho : ((s.releaseBuf b).buf b).Alike ((t.releaseBuf b).buf b) := by
    simpa [State.releaseBuf] using release_alike (s.buf b) (t.buf b)
  rw [opCopy, opCopy, onBuf, onBuf, hs.1.max hm]
  refine (appendBytes_capFree bs _ _ _ ho).inside (fun _ v w hv => ⟨?_, hs.putBuf b v w⟩)
    fun v w _ => (hs.putBuf b v w).1
  rwa [buf_putBuf, buf_putBuf]

theorem opDeltaForward_agree (b : StageBuf) (d : Byte) (hb : (s.buf b).Alike (t.buf b))
    (h : CorePair.Fresh s₀ t₀ s t) :
    ((opDeltaForward b d s).buf b).Alike ((opDeltaForward b d t).buf b) ∧
      CorePair.Fresh s₀ t₀ (opDeltaForward b d s) (opDeltaForward b d t) := by
  obtain ⟨hd, hw, hr⟩ := hb
  refine ⟨?_, h.putBuf b _ _⟩
  cases b <;> exact ⟨congrArg (deltaForward d.toNat) hd, hw, hr⟩

theorem opDeltaInverse_agree (b : StageBuf) (d : Byte) (hb : (s.buf b).Alike (t.buf b)) (h : CorePair s₀ t₀ s t) :
    ((opDeltaInverse b d s).buf b).Alike ((opDeltaInverse b d t).buf b) ∧
      CorePair s₀ t₀ (opDeltaInverse b d s) (opDeltaInverse b d t) := by
  obtain ⟨hd, hw, hr⟩ := hb
  refine ⟨?_, h.putBuf b _ _⟩
  cases b <;> exact ⟨congrArg (deltaInverse d.toNat) hd, hw, hr⟩

theorem opLbEncode_agree (cfg : Config) (i : StageBuf) (hb : (s.buf i).Alike (t.buf i))
    (h : CorePair.Fresh s₀ t₀ s t) (hm : t₀.maxBuf = s₀.maxBuf) :
    Res.Agree (fun _ u v => (u.buf i.other).Alike (v.buf i.other) ∧ CorePair.Fresh s₀ t₀ u v) (CorePair s₀ t₀)
      (opLbEncode cfg i s) (opLbEncode cfg i t) := by
  rw [opLbEncode, opLbEncode, hb.data, h.1.max hm]
  refine (lbEncode_agree cfg _ _ _ _).inside (fun _ c c' hc => ⟨?_, h.putBuf i.other c.out c'.out⟩)
    fun c c' _ => (h.putBuf i.other c.out c'.out).1
  cases i <;> exact hc.out

theorem opHufEncode_agree (i : StageBuf) (hb : (s.buf i).Alike (t.buf i)) (h : CorePair s₀ t₀ s t)
    (hm : t₀.maxBuf = s₀.maxBuf) (hw : s.ArenaWf) (hw' : t.ArenaWf) :
    Res.Agree (fun _ u v => (u.buf i.other).Alike (v.buf i.other) ∧ CorePair s₀ t₀ u v) (CorePair s₀ t₀)
      (opHufEncode i s) (opHufEncode i t) := by
  rw [opHufEncode, opHufEncode, hb.data, h.max hm]
  refine (hufEncode_agree _ _ { huf := s.huf, pos := s.pos, out := s.buf i.other }
    { huf := t.huf, pos := t.pos, out := t.buf i.other } hw hw').inside
    (fun _ c c' ho => ⟨?_, h.putBuf i.other c.out c'.out⟩) fun c c' _ => h.putBuf i.other c.out c'.out
  cases i <;> exact ho

theorem opLbDecode_agree (i : StageBuf) (hb : (s.buf i).Alike (t.buf i)) (h : CorePair s₀ t₀ s t)
    (hm : t₀.maxBuf = s₀.maxBuf) :
    Res.Agree (fun _ u v => (u.buf i.other).Alike (v.buf i.other) ∧ CorePair s₀ t₀ u v) (CorePair s₀ t₀)
      (opLbDecode i s) (opLbDecode i t) := by
  have h' : CorePair s₀ t₀ { s with src := i } { t with src := i } := h
  have hd : (State.buf { t with src := i } i).data = (State.buf { s with src := i } i).data := hb.data
  rw [opLbDecode, opLbDecode, onLbDec, onLbDec, hd, h'.max hm]
  refine (lbDecode_agree _ _ _ _).inside (fun _ c c' hc => ⟨?_, h'.putBuf i.other c.out c'.out⟩)
    fun c c' _ => h'.putBuf i.other c.out c'.out
  cases i <;> exact hc.out

theorem opHufDecode_agree (cfg : Config) (i : StageBuf) (hb : (s.buf i).Alike (t.buf i)) (h : CorePair s₀ t₀ s t)
    (hm : t₀.maxBuf = s₀.maxBuf) (hw : s.ArenaWf) (hw' : t.ArenaWf) :
    Res.Agree (fun _ u v => (u.buf i.other).Alike (v.buf i.other) ∧ CorePair s₀ t₀ u v) (CorePair s₀ t₀)
      (opHufDecode cfg i s) (opHufDecode cfg i t) := by
  have h' : CorePair s₀ t₀ { s with src := i } { t with src := i } := h
  have hput : ∀ c c' : HufDec, CorePair s₀ t₀
      { (State.putBuf { s with src := i } i c.inp).putBuf i.other c.out with huf := c.huf }
      { (State.putBuf { t with src := i } i c'.inp).putBuf i.other c'.out with huf := c'.huf } := fun c c' =>
    (h'.putBuf i c.inp c'.inp).putBuf i.other c.out c'.out
  rw [opHufDecode, opHufDecode, onHufDec, onHufDec, h'.max hm]
  refine (hufDecode_agree cfg _
      (c := { huf := s.huf, inp := State.buf { s with src := i } i, out := State.buf { s with src := i } i.other })
      (c' := { huf := t.huf, inp := State.buf { t with src := i } i, out := State.buf { t with src := i } i.other })
      hb.data hb.wcur hw hw').inside
    (fun _ c c' ho => ⟨?_, hput c c'⟩) fun c c' _ => hput c c'
  cases i <;> exact ho

/-! ### The pipelines -/

theorem opEmit_agree (cfg : Config) (lb huf : Bool) (delta : Byte) (payload : List Byte) (h : CorePair s₀ t₀ s t)
    (hm : t₀.maxBuf = s₀.maxBuf) (hacc : t₀.acc = s₀.acc) :
    Res.Agree (fun _ u v => u.out.Alike v.out ∧ CorePair s₀ t₀ u v) (CorePair s₀ t₀)
      (opEmit cfg lb huf delta payload s) (opEmit cfg lb huf delta payload t) := by
  have hsum : t.acc = s.acc := by
    obtain ⟨⟨-, -, -, -, -, -, -, hs⟩, -, -, -, -, -, -, -, ht⟩ := h
    rw [hs, ht, hacc]
  rw [opEmit, opEmit, onOut, onOut, h.max hm]
  refine Res.Agree.inside (Q := fun _ => Buffer.Alike) (E := anyStates) ?_ (fun _ _ _ ho => ⟨ho, h⟩) fun _ _ _ => h
  rw [hsum]
  exact ((appendBytes_capFree cfg.magic).andThen fun _ => (appendByte_capFree delta).andThen fun _ =>
    (appendByte_capFree (flagByte lb)).andThen fun _ => (appendByte_capFree (flagByte huf)).andThen fun _ =>
      (appendBytes_capFree (leBytes s.acc.toNat 4)).andThen fun _ => appendBytes_capFree payload)
    s.max _ _ (release_alike s.out t.out)

/-- What two runs of a command have in common when they end: what was written and both checksums, the second one where it is
among what the command determines (`D`). -/
def SameSums (D : Prop) (s t : State) : Prop := t.cksum = s.cksum ∧ (D → t.cksumStored = s.cksumStored)

theorem CorePair.sameSums {D : Prop} (h : CorePair s₀ t₀ s t) (hs : SameSums D s₀ t₀) : SameSums D s t := by
  obtain ⟨⟨-, -, hc, hk, -⟩, -, -, hc', hk', -⟩ := h
  exact ⟨by rw [hc, hc', hs.1], fun hD => by rw [hk, hk', hs.2 hD]⟩

theorem CorePair.err (h : CorePair s₀ t₀ s t) (he : t₀.err = s₀.err) : t.err = s.err := by
  obtain ⟨⟨-, hs, -⟩, -, ht, -⟩ := h
  rw [hs, ht, he]

/-- What two runs of a command that raise nothing have in common when they end. -/
def SameOutput (D : Prop) (s t : State) : Prop := t.out.data = s.out.data ∧ t.err = s.err ∧ SameSums D s t

/-- The state in which `CON.COMPRESS` copies its input: the checksum is computed (R248). -/
def State.summed (cfg : Config) (s : State) : State :=
  { opCkSum cfg s.input { s with phase := .cCksum } with cksum := ckSum cfg s.input, phase := .cDelta }

theorem opConCompress_eq (cfg : Config) (lb huf : Bool) (delta : Byte) (s : State) :
    opConCompress cfg lb huf delta s =
      (opCopy .sb0 s.input (s.summed cfg)).andThen fun _ u =>
        (opStage lb (opLbEncode cfg) .sb0 ((opDeltaForward .sb0 delta u).inPhase .cLb)).andThen fun b u =>
          (opStage huf opHufEncode b (u.inPhase .cHuf)).andThen fun b u =>
            (opEmit cfg lb huf delta (u.buf b).data (u.inPhase .cEmit)).andThen fun _ u =>
              .ok () (u.releaseBuf b) := rfl

/-- `CON.COMPRESS` of the same input, whatever else the two states hold (R248). -/
theorem opConCompress_agree (cfg : Config) (lb huf : Bool) (delta : Byte) (hm : t.maxBuf = s.maxBuf)
    (hin : t.input = s.input) (he : t.err = s.err) (hw : s.ArenaWf) (hw' : t.ArenaWf) :
    Res.Agree (fun _ => SameOutput False) (SameSums False) (opConCompress cfg lb huf delta s)
      (opConCompress cfg lb huf delta t) := by
  have hck : ckSum cfg t.input = ckSum cfg s.input := congrArg (ckSum cfg) hin
  have hsums : SameSums False (s.summed cfg) (t.summed cfg) := ⟨hck, False.elim⟩
  have hcore : CorePair.Fresh (s.summed cfg) (t.summed cfg) (s.summed cfg) (t.summed cfg) := ⟨corePair_refl _ _, rfl, rfl⟩
  suffices h : Res.Agree (fun _ u v => u.out.Alike v.out ∧ CorePair (s.summed cfg) (t.summed cfg) u v)
      (CorePair (s.summed cfg) (t.summed cfg)) (opConCompress cfg lb huf delta s) (opConCompress cfg lb huf delta t) from
    h.imp (fun _ _ _ ⟨ho, hp⟩ => ⟨ho.data, hp.err he, hp.sameSums hsums⟩) fun _ _ hp => hp.sameSums hsums
  rw [opConCompress_eq, opConCompress_eq, hin]
  refine (opCopy_agree .sb0 s.input hcore hm).andThen fun _ s1 t1 ⟨hb1, h1⟩ => ?_
  obtain ⟨hb2, h2⟩ := opDeltaForward_agree .sb0 delta hb1 h1
  replace hb2 := buf_alike_inPhase hb2 .cLb
  refine (opStage_agree lb .sb0 hb2 (h2.inPhase .cLb) (fun u v hr => hr.putBuf .sb0 _ _)
    (opLbEncode_agree cfg .sb0 hb2 (h2.inPhase .cLb) hm)).andThen fun b s3 t3 ⟨hb3, h3, hh, hh'⟩ => ?_
  have hw3 : (s3.inPhase .cHuf).ArenaWf := by rw [State.ArenaWf, State.inPhase, hh]; exact hw
  have hw3' : (t3.inPhase .cHuf).ArenaWf := by rw [State.ArenaWf, State.inPhase, hh']; exact hw'
  replace hb3 := buf_alike_inPhase hb3 .cHuf
  refine (opStage_agree huf b hb3 (h3.inPhase .cHuf) (fun u v hr => hr.releaseBuf b)
    (opHufEncode_agree b hb3 (h3.inPhase .cHuf) hm hw3 hw3')).andThen fun b s4 t4 ⟨hb4, h4⟩ => ?_
  rw [hb4.data]
  refine (opEmit_agree cfg lb huf delta _ (h4.inPhase .cEmit) hm hck).andThen fun _ s5 t5 ⟨ho, h5⟩ => ?_
  exact .ok ⟨by cases b <;> exact ho, h5.releaseBuf b⟩

/-- What two runs of `CON.DECOMPRESS` have in common once the header is parsed (R250, R251). -/
structure SameHeader (s t : State) : Prop where
  maxBuf : t.maxBuf = s.maxBuf
  err : t.err = s.err
  sums : SameSums True s t
  flDelta : t.flDelta = s.flDelta
  flLb : t.flLb = s.flLb
  flHuf : t.flHuf = s.flHuf

theorem CorePair.sameHeader (h : CorePair s₀ t₀ s t) (hh : SameHeader s₀ t₀) : SameHeader s t := by
  have hsums := h.sameSums hh.sums
  have herr := h.err hh.err
  obtain ⟨⟨hm, -, -, -, hd, hl, hu, -⟩, hm', -, -, -, hd', hl', hu', -⟩ := h
  exact ⟨by rw [hm, hm', hh.maxBuf], herr, hsums, by rw [hd, hd', hh.flDelta], by rw [hl, hl', hh.flLb],
    by rw [hu, hu', hh.flHuf]⟩

/-- The header parse looks at the first bytes of the input. -/
theorem headerBytes_eq (cfg : Config) (s : State) : headerBytes cfg s = s.input.take (cfg.magic.length + 7) := by
  rw [headerBytes, State.input, Memory.range, Memory.range, ← List.map_take, List.take_range, Nat.min_comm]

theorem inLen_eq_of_input (hin : t.input = s.input) : t.inLen = s.inLen := by
  have h := congrArg List.length hin
  rw [input_length, input_length] at h
  exact BitVec.eq_of_toNat_eq h

/-- The state in which the header parse copies the payload (R250, R251). -/
def State.withHeader (s : State) (delta lb huf : Byte) (ck : U32) : State :=
  { s with
    phase := .dHeader
    src := .sb0
    flDelta := delta
    flLb := flagOn lb
    flHuf := flagOn huf
    cksumStored := ck }

theorem opHeader_agree (cfg : Config) (delta lb huf : Byte) (ck : U32) (hm : t.maxBuf = s.maxBuf)
    (hin : t.input = s.input) (he : t.err = s.err) (hsums : SameSums True s t) :
    Res.Agree (fun _ u v => u.sb0.Alike v.sb0 ∧ SameHeader u v ∧ u.huf = s.huf ∧ v.huf = t.huf) (SameSums True)
      (opHeader cfg delta lb huf ck s) (opHeader cfg delta lb huf ck t) := by
  have hlen := inLen_eq_of_input hin
  have hheader : ∀ r : State, opHeader cfg delta lb huf ck r =
      if r.inLen.toNat < cfg.magic.length + 7 then .stop (.raise .malformed) { r with phase := .dHeader, src := .sb0 }
      else opCopy .sb0 (r.input.drop (cfg.magic.length + 7)) (r.withHeader delta lb huf ck) := fun _ => rfl
  have hbase : SameHeader (s.withHeader delta lb huf ck) (t.withHeader delta lb huf ck) :=
    ⟨hm, he, ⟨hsums.1, fun _ => rfl⟩, rfl, rfl, rfl⟩
  rw [hheader, hheader, hlen, hin]
  split
  · exact .stop hsums
  · exact (opCopy_agree (s₀ := s.withHeader delta lb huf ck) (t₀ := t.withHeader delta lb huf ck) .sb0 _
      ⟨corePair_refl _ _, rfl, rfl⟩ hm).imp
      (fun _ _ _ ⟨hb, hp, hh, hh'⟩ => ⟨hb, hp.sameHeader hbase, hh, hh'⟩) fun _ _ hp => (hp.sameHeader hbase).sums

/-- Phase `D_HEADER` on the same input (R249). -/
theorem opParse_agree (cfg : Config) (hm : t.maxBuf = s.maxBuf) (hin : t.input = s.input) (he : t.err = s.err)
    (hsums : SameSums True s t) :
    Res.Agree (fun _ u v => u.sb0.Alike v.sb0 ∧ SameHeader u v ∧ u.huf = s.huf ∧ v.huf = t.huf) (SameSums True)
      (opParse cfg s) (opParse cfg t) := by
  have hbytes : headerBytes cfg { t with phase := .dHeader } = headerBytes cfg { s with phase := .dHeader } := by
    rw [headerBytes_eq, headerBytes_eq]
    exact congrArg _ hin
  rw [opParse, opParse, hbytes]
  rcases decodeCon cfg (headerBytes cfg { s with phase := .dHeader }) with e | ⟨i, n⟩
  · exact .stop hsums
  · cases i with
    | con delta lb huf ck =>
      exact opHeader_agree cfg delta lb huf ck (s := { s with phase := .dHeader }) (t := { t with phase := .dHeader }) hm hin
        he hsums
    | _ => exact .stop hsums

/-- The state in which `CON.DECOMPRESS` compares the checksums, for the result in the stage buffer `b` (R249, R252). -/
def State.checked (cfg : Config) (b : StageBuf) (s : State) : State :=
  { opCkSum cfg (s.buf b).data (s.inPhase .dCksum) with cksum := ckSum cfg (s.buf b).data }

theorem opConDecompress_eq (cfg : Config) (s : State) :
    opConDecompress cfg s =
      (opParse cfg s).andThen fun _ u =>
        (opStage u.flHuf (opHufDecode cfg) .sb0 (u.inPhase .dHuf)).andThen fun b u =>
          (opStage u.flLb opLbDecode b (u.inPhase .dLb)).andThen fun b u =>
            let v := opDeltaInverse b u.flDelta (u.inPhase .dDelta)
            if checksumPasses cfg (ckSum cfg (v.buf b).data) v.cksumStored then .ok () (opDeliver b (v.checked cfg b))
            else .stop (.raise .checksum) (v.checked cfg b) := rfl

/-- `CON.DECOMPRESS` of the same input, whatever else the two states hold (R249). -/
theorem opConDecompress_agree (cfg : Config) (hm : t.maxBuf = s.maxBuf) (hin : t.input = s.input) (he : t.err = s.err)
    (hsums : SameSums True s t) (hw : s.ArenaWf) (hw' : t.ArenaWf) :
    Res.Agree (fun _ => SameOutput True) (SameSums True) (opConDecompress cfg s) (opConDecompress cfg t) := by
  rw [opConDecompress_eq, opConDecompress_eq]
  refine (opParse_agree cfg hm hin he hsums).andThen fun _ s₁ t₁ ⟨hb1, hh, hhuf, hhuf'⟩ => ?_
  have hw1 : (s₁.inPhase .dHuf).ArenaWf := by rw [State.ArenaWf, State.inPhase, hhuf]; exact hw
  have hw1' : (t₁.inPhase .dHuf).ArenaWf := by rw [State.ArenaWf, State.inPhase, hhuf']; exact hw'
  have hb1' : ((s₁.inPhase .dHuf).buf .sb0).Alike ((t₁.inPhase .dHuf).buf .sb0) := hb1
  have h1 := (corePair_refl s₁ t₁).inPhase .dHuf
  have weaken : ∀ u v, CorePair s₁ t₁ u v → SameSums True u v := fun _ _ hp => hp.sameSums hh.sums
  rw [hh.flHuf]
  refine ((opStage_agree s₁.flHuf .sb0 hb1' h1 (fun u v hr => hr.releaseBuf .sb0)
    (opHufDecode_agree cfg .sb0 hb1' h1 hh.maxBuf hw1 hw1')).imp (fun _ _ _ hq => hq) weaken).andThen
    fun b s₂ t₂ ⟨hb2, h2⟩ => ?_
  rw [(h2.sameHeader hh).flLb]
  replace hb2 := buf_alike_inPhase hb2 .dLb
  refine ((opStage_agree s₂.flLb b hb2 (h2.inPhase .dLb) (fun u v hr => hr.releaseBuf b)
    (opLbDecode_agree b hb2 (h2.inPhase .dLb) hh.maxBuf)).imp (fun _ _ _ hq => hq) weaken).andThen
    fun b s₃ t₃ ⟨hb3, h3⟩ => ?_
  rw [(h3.sameHeader hh).flDelta]
  replace hb3 := buf_alike_inPhase hb3 .dDelta
  obtain ⟨hb4, h4⟩ := opDeltaInverse_agree b s₃.flDelta hb3 (h3.inPhase .dDelta)
  dsimp only
  generalize opDeltaInverse b s₃.flDelta (s₃.inPhase .dDelta) = s₄ at hb4 h4 ⊢
  generalize opDeltaInverse b s₃.flDelta (t₃.inPhase .dDelta) = t₄ at hb4 h4 ⊢
  have hsum4 : SameSums True (s₄.checked cfg b) (t₄.checked cfg b) :=
    ⟨congrArg (ckSum cfg) hb4.data, fun _ => (weaken _ _ h4).2 trivial⟩
  rw [hb4.data, (weaken _ _ h4).2 trivial]
  split
  · exact .ok (by cases b <;> exact ⟨hb4.data, h4.err hh.err, hsum4⟩)
  · exact .stop hsum4

/-! ### Commands -/

/-- Two runs of a command that end alike: the result registers and `OUT` agree (R43). -/
theorem finish_agree {D : Prop} {r r' : Res State Unit} {u v : State}
    (h : Res.Agree (fun _ => SameOutput D) (SameSums D) r r')
    (hu : finish (r.andThen fun _ w => .ok () (endCommand w)) = .next u)
    (hv : finish (r'.andThen fun _ w => .ok () (endCommand w)) = .next v) :
    u.out.data = v.out.data ∧ u.outLen = v.outLen ∧ u.err = v.err ∧ u.done = v.done ∧ u.seq = v.seq ∧
      u.cksum = v.cksum ∧ (D → u.cksumStored = v.cksumStored) := by
  cases h with
  | ok h =>
    obtain ⟨hout, herr, hck, hst⟩ := h
    cases hu
    cases hv
    exact ⟨hout.symm, congrArg (fun d : List Byte => BitVec.ofNat 64 d.length) hout.symm, herr.symm, rfl, rfl, hck.symm,
      fun hD => (hst hD).symm⟩
  | @stop e _ _ h =>
    obtain ⟨hck, hst⟩ := h
    cases e with
    | raise e =>
      cases hu
      cases hv
      exact ⟨rfl, rfl, rfl, rfl, rfl, hck.symm, fun hD => (hst hD).symm⟩
    | fault f => cases hu

/-- Two runs of a legal command whose bodies end alike. -/
theorem runCommand_agree {D : Prop} {start : State → State} {op : State → Res State Unit} {u v : State}
    (h : Res.Agree (fun _ => SameOutput D) (SameSums D) (op (start s)) (op (start t))) (hs : s.seq = .idle)
    (ht : t.seq = .idle) (hms : s.inLen.toNat ≤ s.max) (hmt : t.inLen.toNat ≤ t.max)
    (hu : runCommand start op s = .next u) (hv : runCommand start op t = .next v) :
    u.out.data = v.out.data ∧ u.outLen = v.outLen ∧ u.err = v.err ∧ u.done = v.done ∧ u.seq = v.seq ∧
      u.cksum = v.cksum ∧ (D → u.cksumStored = v.cksumStored) := by
  rw [runCommand_legal start op hs hms] at hu
  rw [runCommand_legal start op ht hmt] at hv
  exact finish_agree h hu hv

end

end Sys2Proof.Machine

open Sys2Proof Sys2Proof.Machine

namespace Sys2Proof.Proofs

/-- Settles O22: the two runs go through the pipeline side by side and end alike. -/
theorem resultIsFunctionOfInput : Obligations.ResultIsFunctionOfInput := by
  intro s s' t t' i hi hs hs' hw hw' hmax hlen hin ht ht'
  have hin' : s'.inLen = s.inLen := inLen_eq_of_input hin.symm
  have hlen' : s'.inLen.toNat ≤ s'.max := by rw [hin', State.max, ← hmax]; exact hlen
  rcases hi with ⟨lb, huf, delta, rfl⟩ | rfl
  · have hagree := opConCompress_agree Config.barph lb huf delta (s := startCompress lb huf delta s)
      (t := startCompress lb huf delta s') hmax.symm hin.symm rfl hw hw'
    obtain ⟨hout, hol, herr, hdone, hseq, hck, -⟩ := runCommand_agree hagree hs hs' hlen hlen' ht ht'
    exact ⟨hout, hol, herr, hdone, hseq, hck, fun h => by cases h⟩
  · have hagree := opConDecompress_agree Config.barph (s := startDecompress s) (t := startDecompress s') hmax.symm hin.symm
      rfl ⟨rfl, fun _ => rfl⟩ hw hw'
    obtain ⟨hout, hol, herr, hdone, hseq, hck, hst⟩ := runCommand_agree hagree hs hs' hlen hlen' ht ht'
    exact ⟨hout, hol, herr, hdone, hseq, hck, fun _ => hst trivial⟩

end Sys2Proof.Proofs
end

section
/-! SUPPORT. Little-endian fields, the operand readers, command words and select codes: what the decoder answers on a field that
stands whole at the head of its bytes, and which bytes it answered on (spec 30_encoding.md R91 to R93; 00_scope.md R11). -/

namespace Sys2Proof

/-! ### Little-endian values -/

/-- `LE` undoes `FromLE` (R11). -/
theorem leBytes_fromLE : ∀ bs : List Byte, leBytes (fromLE bs) bs.length = bs
  | [] => rfl
  | b :: bs => by
    have hb := b.isLt
    have hhead : BitVec.ofNat 8 (b.toNat + 256 * fromLE bs) = b := BitVec.eq_of_toNat_eq (by rw [BitVec.toNat_ofNat]; omega)
    have htail : (b.toNat + 256 * fromLE bs) / 256 = fromLE bs := by omega
    rw [List.length_cons, fromLE, leBytes, hhead, htail, leBytes_fromLE bs]

theorem fromLE_lt : ∀ bs : List Byte, fromLE bs < 2 ^ (8 * bs.length)
  | [] => by decide
  | b :: bs => by
    have hb := b.isLt
    have ih := fromLE_lt bs
    rw [List.length_cons, fromLE, Nat.mul_succ, Nat.pow_add]
    omega

/-- The bytes of a field that stands whole at the head of a sequence are those of its value. -/
theorem leBytes_fromLE_take {n : Nat} {bs : List Byte} (h : n ≤ bs.length) : leBytes (fromLE (bs.take n)) n = bs.take n := by
  have hlen : (bs.take n).length = n := List.length_take_of_le h
  simpa only [hlen] using leBytes_fromLE (bs.take n)

theorem fromLE_take_lt {n : Nat} {bs : List Byte} (h : n ≤ bs.length) : fromLE (bs.take n) < 2 ^ (8 * n) := by
  have hlen : (bs.take n).length = n := List.length_take_of_le h
  simpa only [hlen] using fromLE_lt (bs.take n)

@[simp] theorem fromLE_singleton (b : Byte) : fromLE [b] = b.toNat := by simp [fromLE]

/-- The bytes of a value that fits them give it back (R11). -/
theorem fromLE_leBytes_of_lt {v n : Nat} (h : v < 2 ^ (8 * n)) : fromLE (leBytes v n) = v := by
  rw [fromLE_leBytes, show 256 = 2 ^ 8 from rfl, ← Nat.pow_mul, Nat.mod_eq_of_lt h]

/-- The bytes of a word with no more bits than they have give it back. -/
theorem ofNat_fromLE_leBytes {w n : Nat} (v : BitVec w) (h : w ≤ 8 * n) :
    BitVec.ofNat w (fromLE (leBytes v.toNat n)) = v := by
  have hv : v.toNat < 2 ^ (8 * n) := Nat.lt_of_lt_of_le v.isLt (Nat.pow_le_pow_right (by decide) h)
  rw [fromLE_leBytes_of_lt hv, BitVec.ofNat_toNat, BitVec.setWidth_eq]

/-! ### Reading a field -/

section
variable {α : Type} {n : Nat} {bs : List Byte}

/-- A field that stands whole at the head of the bytes is read, and what follows it is left. -/
theorem withLE_append {a : List Byte} (h : a.length = n) (rest : List Byte) (k : Nat → List Byte → Except DecodeErr α) :
    withLE n (a ++ rest) k = k (fromLE a) rest := by
  subst h
  simp [withLE]

/-- A field that is read stands whole at the head of the bytes. -/
theorem withLE_eq_ok {k : Nat → List Byte → Except DecodeErr α} {r : α} (h : withLE n bs k = .ok r) :
    n ≤ bs.length ∧ k (fromLE (bs.take n)) (bs.drop n) = .ok r := by
  unfold withLE at h
  split at h
  · cases h
  · exact ⟨by omega, h⟩

@[simp] theorem withU64_append (v : U64) (rest : List Byte) (k : U64 → List Byte → Except DecodeErr α) :
    withU64 (leBytes v.toNat 8 ++ rest) k = k v rest := by
  rw [withU64, withLE_append (leBytes_length ..), ofNat_fromLE_leBytes v (by decide)]

@[simp] theorem withByte_cons (v : Byte) (rest : List Byte) (k : Byte → List Byte → Except DecodeErr α) :
    withByte (v :: rest) k = k v rest := by
  simp [withByte, withLE]

theorem withByte_eq_ok {k : Byte → List Byte → Except DecodeErr α} {r : α} (h : withByte bs k = .ok r) :
    ∃ v rest, bs = v :: rest ∧ k v rest = .ok r := by
  cases bs with
  | nil => simp [withByte, withLE] at h
  | cons v rest => exact ⟨v, rest, rfl, by rwa [withByte_cons] at h⟩

end

/-! ### Reading an operand of a unit operation (log entry 3) -/

section
variable {α : Type} (rest : List Byte)

theorem argLE_one (v : Byte) (k : Nat → List Byte → α) : argLE 1 (v :: rest) k = k v.toNat rest := by
  simp [argLE]

@[simp] theorem argByte_cons (v : Byte) (k : Byte → List Byte → α) : argByte (v :: rest) k = k v rest := by
  simp [argByte, argLE_one]

@[simp] theorem argBuf_encBuf (b : StageBuf) (k : StageBuf → List Byte → α) : argBuf (encBuf b :: rest) k = k b rest := by
  cases b <;> simp [argBuf, argLE_one, encBuf]

@[simp] theorem argBool_encBool (b : Bool) (k : Bool → List Byte → α) : argBool (encBool b :: rest) k = k b rest := by
  cases b <;> simp [argBool, argLE_one, encBool]

@[simp] theorem argSum_encSum (src : SumSrc) (k : SumSrc → List Byte → α) : argSum (encSum src :: rest) k = k src rest := by
  match src with
  | .input | .stage .sb0 | .stage .sb1 => simp [argSum, argLE_one, encSum]

@[simp] theorem argU64_append (v : U64) (k : U64 → List Byte → α) : argU64 (leBytes v.toNat 8 ++ rest) k = k v rest := by
  rw [argU64, argLE_append (leBytes_length ..), ofNat_fromLE_leBytes v (by decide)]

@[simp] theorem argNode_append (v : BitVec 9) (k : BitVec 9 → List Byte → α) :
    argNode (leBytes v.toNat 2 ++ rest) k = k v rest := by
  rw [argNode, argLE_append (leBytes_length ..), ofNat_fromLE_leBytes v (by decide)]

/-- A byte sequence is read whole when its length is a `u64` (R10). -/
theorem argSeq_encSeq {s : List Byte} (hs : s.length < 2 ^ 64) (k : List Byte → List Byte → α) :
    argSeq (encSeq s ++ rest) k = k s rest := by
  rw [encSeq, List.append_assoc, argSeq, argLE_append (leBytes_length ..), fromLE_leBytes_of_lt hs, List.take_left,
    List.drop_left]

end

/-! ### Command words (R91, R93) -/

/-- The word's bits beyond the four bytes are not written. -/
theorem decode_cmd_leBytes (v : Nat) (rest : List Byte) :
    decode .cmd (leBytes v 4 ++ rest) = .ok (decodeCmd (BitVec.ofNat 32 v), 32) := by
  have hv : BitVec.ofNat 32 (v % 256 ^ 4) = BitVec.ofNat 32 v := BitVec.eq_of_toNat_eq (by simp)
  rw [decode, withLE_append (leBytes_length ..), fromLE_leBytes, hv]

/-- The fields of a `COMPRESS` word, each at its own place (R130). -/
theorem decodeCmd_compressWord (lb huf : Bool) (delta : Byte) :
    decodeCmd (BitVec.ofNat 32 (compressWord lb huf delta)) = .compress lb huf delta := by
  have hd := delta.isLt
  have hl := lb.toNat_le
  have hh := huf.toNat_le
  have hop : ((BitVec.ofNat 32 (compressWord lb huf delta)).extractLsb' 0 4).toNat = 1 := by
    rw [Machine.extractLsb'_toNat_eq, BitVec.toNat_ofNat, compressWord]
    omega
  have hdelta : (BitVec.ofNat 32 (compressWord lb huf delta)).extractLsb' 16 8 = delta := by
    refine BitVec.eq_of_toNat_eq ?_
    rw [Machine.extractLsb'_toNat_eq, BitVec.toNat_ofNat, compressWord]
    omega
  have hlb : (BitVec.ofNat 32 (compressWord lb huf delta)).getLsbD 8 = lb := by
    rw [BitVec.getLsbD, BitVec.toNat_ofNat, Nat.testBit_eq_decide_div_mod_eq, compressWord]
    cases lb <;> simp <;> omega
  have hhuf : (BitVec.ofNat 32 (compressWord lb huf delta)).getLsbD 9 = huf := by
    rw [BitVec.getLsbD, BitVec.toNat_ofNat, Nat.testBit_eq_decide_div_mod_eq, compressWord]
    cases huf <;> simp <;> omega
  simp only [decodeCmd, hop, hdelta, hlb, hhuf]

/-- A command is read from its word (R91). -/
theorem decode_encode_cmd {i : Instr} (hi : i.space = .cmd) (rest : List Byte) :
    decode .cmd (encode i ++ rest) = .ok (i, i.sizeBits) := by
  cases i with
  | compress lb huf delta =>
    exact (decode_cmd_leBytes _ rest).trans (congrArg (fun j => Except.ok (j, 32)) (decodeCmd_compressWord lb huf delta))
  | nop | decompress | reservedOp3 | reservedOp4 | reservedOp5 | reservedOp6 | reservedOp7 | reservedOp8 | reservedOp9
  | reservedOp10 | reservedOp11 | reservedOp12 | reservedOp13 | reservedOp14 | reset => exact decode_cmd_leBytes _ rest
  | _ => cases hi

/-- The word's `OP` alone decides the operation, and only a `COMPRESS` has more fields (R91, R93). -/
theorem decodeCmd_congr {w w' : U32} (hop : w.extractLsb' 0 4 = w'.extractLsb' 0 4)
    (hfields : w.extractLsb' 0 4 = 1#4 →
      w.getLsbD 8 = w'.getLsbD 8 ∧ w.getLsbD 9 = w'.getLsbD 9 ∧ w.extractLsb' 16 8 = w'.extractLsb' 16 8) :
    decodeCmd w = decodeCmd w' := by
  by_cases hc : w.extractLsb' 0 4 = 1#4
  · obtain ⟨hlb, hhuf, hdelta⟩ := hfields hc
    rw [decodeCmd, decodeCmd, ← hop, hlb, hhuf, hdelta]
  · have hne : (w.extractLsb' 0 4).toNat ≠ 1 := fun h => hc (BitVec.eq_of_toNat_eq h)
    rw [decodeCmd, decodeCmd, ← hop]
    split
    case h_2 h => exact absurd h hne
    all_goals rfl

/-! ### Select codes (R92) -/

/-- The select code stands in the first byte, and the operation's size is what was read. -/
theorem decode_uop_of_body {code : Byte} {bs rest : List Byte} {i : Instr}
    (h : decodeUopBody (code.toNat % 64) bs = some (i, rest)) :
    decode .uop (code :: bs) = .ok (i, 8 * ((code :: bs).length - rest.length)) := by
  simp only [decode, decodeUop, argLE_one, h]

theorem decode_uop_of_unused {code : Byte} {bs : List Byte} (h : decodeUopBody (code.toNat % 64) bs = none) :
    decode .uop (code :: bs) = .error .unusedSelect := by
  simp only [decode, decodeUop, argLE_one, h]

/-- The code and the operands of a unit operation are read as they were written, and nothing that follows them. -/
theorem decodeUopBody_encode {i : Instr} (hi : i.space = .uop) (hwf : i.wf = true) (rest : List Byte) :
    ∃ (code : Byte) (operands : List Byte), encode i = code :: operands ∧
      decodeUopBody (code.toNat % 64) (operands ++ rest) = some (i, rest) := by
  cases i with
  | mfReset | hufBuild | hufAssign | conDecompress => exact ⟨_, _, rfl, rfl⟩
  | gbAppendBytes b s | lbEmitLit b s =>
    have hs : s.length < 2 ^ 64 := of_decide_eq_true hwf
    exact ⟨_, _, rfl, by simp [decodeUopBody, argSeq_encSeq rest hs]⟩
  | gbReserve | gbAppendByte | gbAppendBit | gbAppendBits | gbReadBits | gbReadBytes | mfInsert | mfFindBest | mfMatchAt
  | lbEmitMatch | lbEncode | lbDecode | hufCount | hufWriteTree | hufEncode | hufReadTree | hufDecode | dfForward
  | dfInverse | ckSum | conCompress => exact ⟨_, _, rfl, by simp [decodeUopBody]⟩
  | _ => cases hi

/-- A unit operation's size is that of its code and operands in whole bytes. -/
theorem sizeBits_of_uop {i : Instr} (hi : i.space = .uop) : i.sizeBits = 8 * (encode i).length := by
  cases i with
  | nodeI | nodeL => cases hi
  | _ => rfl

theorem decode_encode_uop {i : Instr} (hi : i.space = .uop) (hwf : i.wf = true) (rest : List Byte) :
    decode .uop (encode i ++ rest) = .ok (i, i.sizeBits) := by
  obtain ⟨code, operands, henc, hbody⟩ := decodeUopBody_encode hi hwf rest
  have hlen : (code :: (operands ++ rest)).length - rest.length = (encode i).length := by
    simp only [henc, List.length_cons, List.length_append]
    omega
  rw [sizeBits_of_uop hi, ← hlen, henc, List.cons_append, decode_uop_of_body hbody]

/-- A code that R92 does not list names no operation. -/
theorem decodeUopBody_unused {code : Nat}
    (h : code ∉ [0x01, 0x02, 0x03, 0x04, 0x05, 0x06, 0x07, 0x08, 0x09, 0x0A, 0x0B, 0x10, 0x11, 0x12, 0x13,
      0x18, 0x19, 0x1A, 0x1B, 0x1C, 0x1D, 0x1E, 0x20, 0x21, 0x28, 0x29, 0x2A]) (bs : List Byte) :
    decodeUopBody code bs = none := by
  unfold decodeUopBody
  split
  case h_28 => rfl
  all_goals exact absurd (by decide) h

end Sys2Proof
end

section
/-! SUPPORT. The step on each kind of input (spec 30_encoding.md R92; log entries 10 and 16), and the refused widths. -/

namespace Sys2Proof.Machine

theorem step_op {s : State} {bytes : List Byte} {rest : List Input} (hq : s.queue = .op bytes :: rest) :
    step s = stepOp bytes { s with queue := rest } := by
  simp [step, hq]

theorem step_wire {s : State} {p : Place} {rest : List Input} (hq : s.queue = .wire p :: rest) :
    step s = stepWire p { s with queue := rest } := by
  simp [step, hq]

/-- Where an element is met does not depend on the inputs that wait. -/
theorem wireBytes_withQueue (p : Place) (s : State) (q : List Input) : wireBytes p { s with queue := q } = wireBytes p s := by
  have hbuf : ∀ b, State.buf { s with queue := q } b = s.buf b := fun b => by cases b <;> rfl
  unfold wireBytes
  rw [hbuf]
  rfl

theorem widthOk_eq_false {width : Byte} (h : 64 < width.toNat) : widthOk width = false :=
  decide_eq_false (Nat.not_le_of_gt h)

/-- A width above 64 is no append (R147, U21). -/
theorem execGbAppendBits_above64 (b : StageBuf) (v : U64) {width : Byte} (h : 64 < width.toNat) (s : State) :
    exec (.gbAppendBits b v width) s = .refused .widthAbove64 := by
  rw [exec, execGbAppendBits, widthOk_eq_false h, if_neg Bool.false_ne_true]

/-- A width above 64 is no read (R148, U21). -/
theorem execGbReadBits_above64 (b : StageBuf) {width : Byte} (h : 64 < width.toNat) (s : State) :
    exec (.gbReadBits b width) s = .refused .widthAbove64 := by
  rw [exec, execGbReadBits, widthOk_eq_false h, if_neg Bool.false_ne_true]

end Sys2Proof.Machine
end

section
/-! SUPPORT. The byte-aligned wire formats as one family: a tag in the low bits, an operand above it (spec 30_encoding.md R95
to R111), and the container header (R120). -/

namespace Sys2Proof

/-! ### A tag and what stands above it -/

theorem tagged_eq {tag k : Nat} (h : tag < 2 ^ k) (p : Nat) : p <<< k ||| tag = 2 ^ k * p + tag := by
  rw [← Nat.shiftLeft_add_eq_or_of_lt h, Nat.shiftLeft_eq, Nat.mul_comm]

theorem tagged_shiftRight {tag k : Nat} (h : tag < 2 ^ k) (p : Nat) : (p <<< k ||| tag) >>> k = p := by
  rw [tagged_eq h, Nat.shiftRight_eq_div_pow, Nat.mul_add_div (Nat.two_pow_pos k), Nat.div_eq_of_lt h, Nat.add_zero]

theorem tagged_mod {tag k : Nat} (h : tag < 2 ^ k) (p : Nat) : (p <<< k ||| tag) % 2 ^ k = tag := by
  rw [tagged_eq h, Nat.mul_add_mod, Nat.mod_eq_of_lt h]

/-- The low bits of a value and the rest of it, put together again. -/
theorem tagged_of_mod (v k : Nat) : (v >>> k) <<< k ||| v % 2 ^ k = v := by
  rw [tagged_eq (Nat.mod_lt _ (Nat.two_pow_pos k)), Nat.shiftRight_eq_div_pow, Nat.div_add_mod]

theorem tagged_lt {tag k w p : Nat} (h : tag < 2 ^ k) (hp : p < 2 ^ w) : p <<< k ||| tag < 2 ^ (k + w) := by
  rw [tagged_eq h, Nat.pow_add]
  calc 2 ^ k * p + tag < 2 ^ k * p + 2 ^ k := Nat.add_lt_add_left h _
    _ = 2 ^ k * (p + 1) := by rw [Nat.mul_add, Nat.mul_one]
    _ ≤ 2 ^ k * 2 ^ w := Nat.mul_le_mul_left _ hp

/-- The low bits of a value are those of its first byte. -/
theorem byte_mod_two_pow {k : Nat} (hk : k ≤ 8) (v : Nat) : v % 256 % 2 ^ k = v % 2 ^ k :=
  Nat.mod_mod_of_dvd v (Nat.pow_dvd_pow 2 hk)

theorem fromLE_cons_mod {k : Nat} (hk : k ≤ 8) (b : Byte) (bs : List Byte) : fromLE (b :: bs) % 2 ^ k = b.toNat % 2 ^ k := by
  rw [← byte_mod_two_pow hk, ← byte_mod_two_pow hk b.toNat, fromLE, Nat.add_mul_mod_self_left]

/-! ### The bits that tell the formats apart -/

theorem getLsbD_eq_true {b : Byte} {k : Nat} (h : b.toNat / 2 ^ k % 2 = 1) : b.getLsbD k = true :=
  Nat.testBit_eq_decide_div_mod_eq.trans (decide_eq_true h)

theorem getLsbD_eq_false {b : Byte} {k : Nat} (h : b.toNat / 2 ^ k % 2 = 0) : b.getLsbD k = false :=
  Nat.testBit_eq_decide_div_mod_eq.trans (decide_eq_false (by omega))

theorem onesRun_eq_findIdx (b : Byte) : onesRun b = (List.range 8).findIdx fun k => !b.getLsbD k := by
  have hle : (List.range 8).findIdx (fun k => !b.getLsbD k) ≤ 8 := List.findIdx_le_length
  rw [onesRun, List.takeWhile_eq_take_findIdx_not, List.length_take, List.length_range, Nat.min_eq_left hle]

/-- A run of `n` ones ends in a zero (R101). -/
theorem onesRun_eq_iff (b : Byte) {n : Nat} (hn : n < 8) : onesRun b = n ↔ b.toNat % 2 ^ (n + 1) = 2 ^ n - 1 := by
  rw [onesRun_eq_findIdx, List.findIdx_eq (by simpa using hn)]
  simp only [List.getElem_range, Bool.not_eq_true', Bool.not_eq_false']
  constructor
  · rintro ⟨hzero, hones⟩
    refine Nat.eq_of_testBit_eq fun k => ?_
    rw [Nat.testBit_mod_two_pow, Nat.testBit_two_pow_sub_one]
    rcases Nat.lt_trichotomy k n with hk | rfl | hk
    · rw [show b.toNat.testBit k = true from hones k hk]
      simp only [Bool.and_true, decide_eq_decide]; omega
    · rw [show b.toNat.testBit k = false from hzero]; simp
    · simp only [show ¬ k < n + 1 by omega, show ¬ k < n by omega, decide_false, Bool.false_and]
  · intro h
    have hbit : ∀ k, k < n + 1 → b.getLsbD k = decide (k < n) := fun k hk => by
      have := congrArg (fun v => v.testBit k) h
      simpa only [Nat.testBit_mod_two_pow, Nat.testBit_two_pow_sub_one, hk, decide_true, Bool.true_and,
        BitVec.testBit_toNat] using this
    exact ⟨by simp [hbit n (by omega)], fun j hj => by simp [hbit j (by omega), hj]⟩

/-! ### The formats -/

/-- In the place `sp`, the operation `mk p` is `n` bytes: the tag in their low `k` bits, the `w` bits of `p` above it. -/
inductive WireFormat : (sp : Space) → (tag k n w : Nat) → (mk : BitVec w → Instr) → Prop
  | lbHdr : WireFormat .lbHdr 0 0 8 64 .lbHdr
  | litS : WireFormat .lbToken 0 2 1 6 .litS
  | litL : WireFormat .lbToken 2 2 2 14 .litL
  | dist1 : WireFormat .lbToken 1 2 1 6 .dist1
  | dist2 : WireFormat .lbToken 3 3 2 13 .dist2
  | dist3 : WireFormat .lbToken 7 4 3 20 .dist3
  | dist4 : WireFormat .lbToken 15 5 4 27 .dist4
  | dist5 : WireFormat .lbToken 31 6 5 34 .dist5
  | lenS : WireFormat .lbLen 0 1 1 7 .lenS
  | lenL : WireFormat .lbLen 1 1 2 15 .lenL
  | hufHdr : WireFormat .hufHdr 0 0 8 64 .hufHdr

namespace WireFormat
variable {sp : Space} {tag k n w : Nat} {mk : BitVec w → Instr}

/-- Tag and operand fill the bytes, and the tag is read from the first of them. -/
theorem shape (h : WireFormat sp tag k n w mk) : k + w = 8 * n ∧ tag < 2 ^ k ∧ k ≤ 8 ∧ 0 < n := by
  cases h <;> decide

theorem space_eq (h : WireFormat sp tag k n w mk) (p : BitVec w) : (mk p).space = sp := by
  cases h <;> rfl

theorem encode_eq (h : WireFormat sp tag k n w mk) (p : BitVec w) : encode (mk p) = leBytes (p.toNat <<< k ||| tag) n := by
  cases h with
  | dist1 | dist2 | dist3 | dist4 | dist5 => rw [Nat.lor_comm]; rfl
  | lbHdr | litS | lenS | hufHdr => rw [Nat.or_zero]; rfl
  | litL | lenL => rfl

theorem sizeBits_eq (h : WireFormat sp tag k n w mk) (p : BitVec w) : (mk p).sizeBits = 8 * (encode (mk p)).length := by
  cases h <;> rfl

theorem encode_length (h : WireFormat sp tag k n w mk) (p : BitVec w) : (encode (mk p)).length = n := by
  rw [h.encode_eq, leBytes_length]

/-- Bytes that begin with the format's tag are read by it. -/
theorem decode_eq (h : WireFormat sp tag k n w mk) {b : Byte} (hb : b.toNat % 2 ^ k = tag) (bs : List Byte) :
    decode sp (b :: bs) = withLE n (b :: bs) fun v _ => .ok (mk (BitVec.ofNat w (v >>> k)), 8 * n) := by
  cases h with
  | lbHdr | hufHdr => rfl
  | litS =>
    have h0 : b.getLsbD 0 = false := getLsbD_eq_false (by omega)
    have h1 : b.getLsbD 1 = false := getLsbD_eq_false (by omega)
    simp only [decode, decodeLbToken, h0, h1, Bool.false_eq_true, if_false]
  | litL =>
    have h0 : b.getLsbD 0 = false := getLsbD_eq_false (by omega)
    have h1 : b.getLsbD 1 = true := getLsbD_eq_true (by omega)
    simp only [decode, decodeLbToken, h0, h1, Bool.false_eq_true, if_false, if_true]
  | dist1 | dist2 | dist3 | dist4 | dist5 =>
    have h0 : b.getLsbD 0 = true := getLsbD_eq_true (by omega)
    have hrun := (onesRun_eq_iff b (by decide)).2 hb
    simp only [decode, decodeLbToken, h0, hrun, if_true]
  | lenS =>
    have h0 : b.getLsbD 0 = false := getLsbD_eq_false (by omega)
    simp only [decode, decodeLbLen, h0, Bool.false_eq_true, if_false]
  | lenL =>
    have h0 : b.getLsbD 0 = true := getLsbD_eq_true (by omega)
    simp only [decode, decodeLbLen, h0, if_true]

/-- What a format writes, its decoder reads. -/
theorem decode_encode (h : WireFormat sp tag k n w mk) (p : BitVec w) (rest : List Byte) :
    decode sp (encode (mk p) ++ rest) = .ok (mk p, 8 * n) := by
  obtain ⟨hfill, htag, hk, hn⟩ := h.shape
  obtain ⟨m, rfl⟩ : ∃ m, n = m + 1 := ⟨n - 1, by omega⟩
  have hlt : p.toNat <<< k ||| tag < 2 ^ (8 * (m + 1)) := hfill ▸ tagged_lt htag p.isLt
  have hhead : (BitVec.ofNat 8 (p.toNat <<< k ||| tag)).toNat % 2 ^ k = tag := by
    rw [BitVec.toNat_ofNat, byte_mod_two_pow hk, tagged_mod htag]
  calc decode sp (encode (mk p) ++ rest)
      = withLE (m + 1) (leBytes (p.toNat <<< k ||| tag) (m + 1) ++ rest) fun v _ =>
          .ok (mk (BitVec.ofNat w (v >>> k)), 8 * (m + 1)) := by
        rw [h.encode_eq]
        exact h.decode_eq hhead _
    _ = .ok (mk p, 8 * (m + 1)) := by
        rw [withLE_append (leBytes_length ..), fromLE_leBytes_of_lt hlt, tagged_shiftRight htag,
          BitVec.ofNat_toNat, BitVec.setWidth_eq]

/-- What a format's decoder read, its encoding writes. -/
theorem eq_encode_append (h : WireFormat sp tag k n w mk) {b : Byte} {bs : List Byte} {i : Instr} {size : Nat}
    (hb : b.toNat % 2 ^ k = tag) (hdec : decode sp (b :: bs) = .ok (i, size)) :
    i.space = sp ∧ size = 8 * (encode i).length ∧ ∃ rest, b :: bs = encode i ++ rest := by
  obtain ⟨hfill, -, hk, hn⟩ := h.shape
  rw [h.decode_eq hb] at hdec
  obtain ⟨hlen, hread⟩ := withLE_eq_ok hdec
  obtain ⟨rfl, rfl⟩ : mk (BitVec.ofNat w (fromLE ((b :: bs).take n) >>> k)) = i ∧ 8 * n = size := by simpa using hread
  have hpayload : fromLE ((b :: bs).take n) >>> k < 2 ^ w := by
    have hlt := fromLE_take_lt hlen
    rw [← hfill, Nat.pow_add] at hlt
    rw [Nat.shiftRight_eq_div_pow]
    exact Nat.div_lt_of_lt_mul hlt
  have hmod : fromLE ((b :: bs).take n) % 2 ^ k = tag := by
    obtain ⟨m, rfl⟩ : ∃ m, n = m + 1 := ⟨n - 1, by omega⟩
    rw [List.take_succ_cons, fromLE_cons_mod hk, hb]
  have henc : encode (mk (BitVec.ofNat w (fromLE ((b :: bs).take n) >>> k))) = (b :: bs).take n := by
    rw [h.encode_eq, BitVec.toNat_ofNat, Nat.mod_eq_of_lt hpayload, ← hmod, tagged_of_mod,
      leBytes_fromLE_take hlen]
  exact ⟨h.space_eq _, by rw [h.encode_length], (b :: bs).drop n, by rw [henc, List.take_append_drop]⟩

end WireFormat

/-- The byte begins with the tag of a format of the place. -/
def HasFormat (sp : Space) (b : Byte) : Prop := ∃ tag k n w mk, WireFormat sp tag k n w mk ∧ b.toNat % 2 ^ k = tag

/-- A token's first byte has the tag of one of its seven formats, or it is the reserved tag (R104, R106). -/
theorem hasFormat_lbToken (b : Byte) :
    HasFormat .lbToken b ∨ ∀ bs, decode .lbToken (b :: bs) = .ok (.distReserved, 8) := by
  rcases Nat.mod_two_eq_zero_or_one b.toNat with heven | hodd
  · left
    by_cases h1 : b.toNat % 2 ^ 2 = 2
    · exact ⟨_, _, _, _, _, .litL, h1⟩
    · exact ⟨_, _, _, _, _, .litS, by omega⟩
  · have h0 : b.getLsbD 0 = true := getLsbD_eq_true (by omega)
    match hrun : onesRun b with
    | 1 => exact .inl ⟨_, _, _, _, _, .dist1, (onesRun_eq_iff b (by decide)).1 hrun⟩
    | 2 => exact .inl ⟨_, _, _, _, _, .dist2, (onesRun_eq_iff b (by decide)).1 hrun⟩
    | 3 => exact .inl ⟨_, _, _, _, _, .dist3, (onesRun_eq_iff b (by decide)).1 hrun⟩
    | 4 => exact .inl ⟨_, _, _, _, _, .dist4, (onesRun_eq_iff b (by decide)).1 hrun⟩
    | 5 => exact .inl ⟨_, _, _, _, _, .dist5, (onesRun_eq_iff b (by decide)).1 hrun⟩
    | 0 | _ + 6 => exact .inr fun bs => by simp only [decode, decodeLbToken, h0, hrun, if_true]

/-- Every byte begins a length field (R102, R106). -/
theorem hasFormat_lbLen (b : Byte) : HasFormat .lbLen b := by
  rcases Nat.mod_two_eq_zero_or_one b.toNat with heven | hodd
  · exact ⟨_, _, _, _, _, .lenS, heven⟩
  · exact ⟨_, _, _, _, _, .lenL, hodd⟩

/-- An element read in a place of tagged formats was read by one of them, or it is the reserved tag. -/
theorem decode_eq_ok_format {sp : Space} {bs : List Byte} {i : Instr} {size : Nat}
    (hsp : sp = .lbHdr ∨ sp = .lbToken ∨ sp = .lbLen ∨ sp = .hufHdr) (hdec : decode sp bs = .ok (i, size))
    (hi : i ≠ .distReserved) : ∃ b bs', bs = b :: bs' ∧ HasFormat sp b := by
  cases bs with
  | nil => rcases hsp with rfl | rfl | rfl | rfl <;> cases hdec
  | cons b bs =>
    refine ⟨b, bs, rfl, ?_⟩
    rcases hsp with rfl | rfl | rfl | rfl
    · exact ⟨_, _, _, _, _, .lbHdr, Nat.mod_one _⟩
    · rcases hasFormat_lbToken b with h | h
      · exact h
      · rw [h] at hdec
        cases hdec
        exact absurd rfl hi
    · exact hasFormat_lbLen b
    · exact ⟨_, _, _, _, _, .hufHdr, Nat.mod_one _⟩

/-! ### Tree nodes and the container header -/

/-- A leaf of the serialized tree: a zero bit, then its byte (R111). -/
theorem decode_encode_nodeL (v : Byte) (rest : List Byte) : decode .hufNode (encode (.nodeL v) ++ rest) = .ok (.nodeL v, 9) := by
  have hv := v.isLt
  have hword : v.toNat <<< 1 = 2 * v.toNat := by rw [Nat.shiftLeft_eq, Nat.mul_comm]
  have hbit : (BitVec.ofNat 8 (2 * v.toNat)).getLsbD 0 = false :=
    getLsbD_eq_false (by rw [BitVec.toNat_ofNat]; omega)
  have hfits : 2 * v.toNat < 2 ^ (8 * 2) := by omega
  have hread : (2 * v.toNat) >>> 1 = v.toNat := by rw [Nat.shiftRight_eq_div_pow]; omega
  calc decode .hufNode (encode (.nodeL v) ++ rest)
      = withLE 2 (leBytes (2 * v.toNat) 2 ++ rest) fun w _ => .ok (.nodeL (BitVec.ofNat 8 (w >>> 1)), 9) := by
        simp only [encode, hword, leBytes, List.cons_append, decode, decodeHufNode, hbit, Bool.false_eq_true, if_false]
    _ = .ok (.nodeL v, 9) := by
        rw [withLE_append (leBytes_length ..), fromLE_leBytes_of_lt hfits, hread, BitVec.ofNat_toNat, BitVec.setWidth_eq]

/-- The header's fields follow the magic (R120). -/
theorem decode_con_magic_append (bs : List Byte) :
    decode .con (Config.barph.magic ++ bs) =
      withByte bs fun delta rest => withByte rest fun lb rest => withByte rest fun huf rest =>
        withLE 4 rest fun ck _ => .ok (.con delta lb huf (BitVec.ofNat 32 ck), 104) := by
  rw [decode, decodeCon, if_pos (List.take_left' rfl), List.drop_left' rfl]
  rfl

theorem decode_encode_con (delta lb huf : Byte) (ck : U32) (rest : List Byte) :
    decode .con (encode (.con delta lb huf ck) ++ rest) = .ok (.con delta lb huf ck, 104) := by
  simp only [encode, List.append_assoc, List.cons_append, List.nil_append, decode_con_magic_append, withByte_cons]
  rw [withLE_append (leBytes_length ..), ofNat_fromLE_leBytes ck (by decide)]

/-- What is read as a container header is the header's encoding. -/
theorem con_eq_encode_append {bs : List Byte} {i : Instr} {size : Nat} (hdec : decode .con bs = .ok (i, size)) :
    i.space = .con ∧ size = 8 * (encode i).length ∧ ∃ rest, bs = encode i ++ rest := by
  have hmagic : bs.take Config.barph.magic.length = Config.barph.magic := by
    by_contra hne
    rw [decode, decodeCon, if_neg hne] at hdec
    cases hdec
  obtain ⟨fields, rfl⟩ : ∃ fields, bs = Config.barph.magic ++ fields :=
    ⟨_, (List.take_append_drop _ bs).symm.trans (congrArg (· ++ bs.drop _) hmagic)⟩
  rw [decode_con_magic_append] at hdec
  obtain ⟨delta, afterDelta, rfl, hlb⟩ := withByte_eq_ok hdec
  obtain ⟨lb, afterLb, rfl, hhuf⟩ := withByte_eq_ok hlb
  obtain ⟨huf, stored, rfl, hsum⟩ := withByte_eq_ok hhuf
  obtain ⟨hlen, hread⟩ := withLE_eq_ok hsum
  cases hread
  have hck : leBytes (BitVec.ofNat 32 (fromLE (stored.take 4))).toNat 4 = stored.take 4 := by
    rw [BitVec.toNat_ofNat, Nat.mod_eq_of_lt (fromLE_take_lt hlen), leBytes_fromLE_take hlen]
  refine ⟨rfl, rfl, stored.drop 4, ?_⟩
  rw [encode, hck]
  simp

/-! ### Every place -/

/-- The operations of the wire formats. -/
theorem decode_encode_wire {i : Instr} (hc : i.space ≠ .cmd) (hu : i.space ≠ .uop) (rest : List Byte) :
    decode i.space (encode i ++ rest) = .ok (i, i.sizeBits) := by
  have htagged : ∀ {sp tag k n w} {mk : BitVec w → Instr} (_ : WireFormat sp tag k n w mk) (p : BitVec w),
      decode sp (encode (mk p) ++ rest) = .ok (mk p, 8 * (encode (mk p)).length) := fun h p => by
    rw [h.decode_encode, h.encode_length]
  cases i with
  | lbHdr p => exact htagged .lbHdr p
  | litS p => exact htagged .litS p
  | litL p => exact htagged .litL p
  | dist1 p => exact htagged .dist1 p
  | dist2 p => exact htagged .dist2 p
  | dist3 p => exact htagged .dist3 p
  | dist4 p => exact htagged .dist4 p
  | dist5 p => exact htagged .dist5 p
  | lenS p => exact htagged .lenS p
  | lenL p => exact htagged .lenL p
  | hufHdr p => exact htagged .hufHdr p
  | distReserved | nodeI | sym => rfl
  | nodeL v => exact decode_encode_nodeL v rest
  | con delta lb huf ck => exact decode_encode_con delta lb huf ck rest
  | nop | compress | decompress | reservedOp3 | reservedOp4 | reservedOp5 | reservedOp6 | reservedOp7 | reservedOp8
  | reservedOp9 | reservedOp10 | reservedOp11 | reservedOp12 | reservedOp13 | reservedOp14 | reset => exact absurd rfl hc
  | _ => exact absurd rfl hu

end Sys2Proof

open Sys2Proof Sys2Proof.Machine

namespace Sys2Proof.Proofs

/-- Settles O1: a command word, a unit operation and an element of a wire format are each read back by their own lemma. -/
theorem decodeEncodeAgree : Obligations.DecodeEncodeAgree := by
  intro i rest hwf
  by_cases hc : i.space = .cmd
  · rw [hc]; exact decode_encode_cmd hc rest
  by_cases hu : i.space = .uop
  · rw [hu]; exact decode_encode_uop hu hwf rest
  · exact decode_encode_wire hc hu rest

/-- Settles O2: what was read was read by a tagged format or is the container header, and each writes what it read. -/
theorem wireDecodeKeepsEveryBit : Obligations.WireDecodeKeepsEveryBit := by
  intro sp bs i n hsp hdec hi
  by_cases hcon : sp = .con
  · subst hcon
    exact con_eq_encode_append hdec
  · obtain ⟨b, bs, rfl, tag, k, m, w, mk, hformat, htag⟩ := decode_eq_ok_format (by tauto) hdec hi
    exact hformat.eq_encode_append htag hdec

/-- Settles O3: a command's fields decide it; a code that is not listed has no arm; a width above 64 fails its check. -/
theorem unusedEncodings : Obligations.UnusedEncodings := by
  refine ⟨fun w w' => decodeCmd_congr, fun code rest s later hcode => ?_, fun s b v width hwidth => ?_⟩
  · have hdec := decode_uop_of_unused (decodeUopBody_unused hcode rest)
    exact ⟨hdec, fun hq => by rw [step_op hq, stepOp, hdec]⟩
  · exact ⟨execGbAppendBits_above64 b v hwidth s, execGbReadBits_above64 b hwidth s⟩

/-- Settles O4: each word is evaluated. -/
theorem sampleWordsDecode : Obligations.SampleWordsDecode :=
  ⟨rfl, rfl, rfl, rfl, rfl, rfl, rfl, rfl, rfl, rfl, rfl⟩

/-- Settles O5: each of the three kinds of input hands what it decoded to `exec`. -/
theorem stepRunsTheDecodedInstruction : Obligations.StepRunsTheDecodedInstruction := by
  intro s rest i n
  refine ⟨fun bytes hq hdec => ?_, fun p hq hdec => ?_, fun v hq hdec => ?_⟩
  · rw [step_op hq, stepOp, hdec]
  · rw [step_wire hq, stepWire, wireBytes_withQueue, hdec]
  · rw [step_host hq, stepHost, hdec]

end Sys2Proof.Proofs
end

section
/-! SUPPORT. What the buffer and bit-stream operations do to the bits of a buffer (spec 40_buffer_bitstream.md R140 to R150):
bytes and bits appended, bits read, and fields written and read back. -/

namespace Sys2Proof.Machine

/-! ### An operation on a stage buffer as a unit operation -/

section
variable {s : State} {b : StageBuf} {v : Buffer}

theorem runUnit_onBuf_ok (hs : s.seq ≠ .fatal) {op : Nat → Buffer → Res Buffer Unit}
    (h : op s.max (s.buf b) = .ok () v) : runUnit (onBuf b op) s = .next (s.putBuf b v) := by
  rw [runUnit_running hs, onBuf, h]
  rfl

theorem runUnit_onBuf_raise (hs : s.seq ≠ .fatal) {op : Nat → Buffer → Res Buffer Unit} {e : Err}
    (h : op s.max (s.buf b) = .stop (.raise e) v) : runUnit (onBuf b op) s = .next (takeError e (s.putBuf b v)) := by
  rw [runUnit_running hs, onBuf, h]
  rfl

/-- An operation that raises before it has touched its buffer. -/
theorem runUnit_onBuf_raise_unchanged (hs : s.seq ≠ .fatal) {op : Nat → Buffer → Res Buffer Unit} {e : Err}
    (h : op s.max (s.buf b) = .stop (.raise e) (s.buf b)) : runUnit (onBuf b op) s = .next (takeError e s) := by
  rw [runUnit_onBuf_raise hs h, putBuf_buf]

/-- An error releases the stage buffers, so that of what an operation did to one only the capacity is left (R276). -/
theorem takeError_putBuf (e : Err) (s : State) (b : StageBuf) (v : Buffer) :
    takeError e (s.putBuf b v) = takeError e (s.putBuf b { s.buf b with cap := v.cap }) := by
  cases b <;> rfl

end

/-! ### The operations by their instructions -/

theorem exec_gbReserve (b : StageBuf) (extra : U64) (s : State) :
    exec (.gbReserve b extra) s = runUnit (onBuf b fun max => reserve max extra.toNat) s := rfl

theorem exec_gbAppendByte (b : StageBuf) (v : Byte) (s : State) :
    exec (.gbAppendByte b v) s = runUnit (onBuf b fun max => appendByte max v) s := rfl

theorem exec_gbAppendBytes (b : StageBuf) (bs : List Byte) (s : State) :
    exec (.gbAppendBytes b bs) s = runUnit (onBuf b fun max => appendBytes max bs) s := rfl

/-- A bit is appended as a sequence of one. -/
theorem exec_gbAppendBit (b : StageBuf) (x : Bool) (s : State) :
    exec (.gbAppendBit b x) s = runUnit (onBuf b fun max => appendBitList max [x]) s := by
  have hsingle : (fun max => appendBitList max [x]) = fun max => appendBit max x := by
    funext max v
    rw [appendBitList]
    cases appendBit max x v <;> rfl
  rw [hsingle]
  rfl

theorem exec_gbAppendBits (b : StageBuf) (value : U64) {width : Byte} (h : width.toNat ≤ 64) (s : State) :
    exec (.gbAppendBits b value width) s =
      runUnit (onBuf b fun max => appendBitList max (lowBits value.toNat width.toNat)) s := by
  rw [exec, execGbAppendBits, widthOk, if_pos (decide_eq_true h)]
  rfl

/-- Both bit appends, as the append of a list of bits (R146, R147). -/
theorem exec_bitAppend {i : Instr} {b : StageBuf} {bits : List Bool} (s : State)
    (hi : (∃ x, i = .gbAppendBit b x ∧ bits = [x]) ∨
      ∃ (value : U64) (width : Byte), width.toNat ≤ 64 ∧ i = .gbAppendBits b value width ∧
        bits = (List.range width.toNat).map fun k => value.getLsbD k) :
    exec i s = runUnit (onBuf b fun max => appendBitList max bits) s := by
  rcases hi with ⟨x, rfl, rfl⟩ | ⟨value, width, hwidth, rfl, rfl⟩
  · exact exec_gbAppendBit b x s
  · exact exec_gbAppendBits b value hwidth s

theorem exec_gbReadBits {s : State} (hs : s.seq ≠ .fatal) (b : StageBuf) {width : Byte} (h : width.toNat ≤ 64) :
    exec (.gbReadBits b width) s =
      finish (((readBits width.toNat (s.buf b)).inside (s.putBuf b)).andThen fun v t => .ok () (t.answer (.value v))) := by
  rw [exec, execGbReadBits, widthOk, if_pos (decide_eq_true h), runUnit_running hs]
  rfl

theorem exec_gbReadBytes_some {s : State} (hs : s.seq ≠ .fatal) (b : StageBuf) {a n : U64} {bs : List Byte}
    (h : readBytes (s.buf b).data a.toNat n.toNat = some bs) :
    exec (.gbReadBytes b a n) s = .next (s.answer (.bytes bs)) := by
  rw [exec, execGbReadBytes, runUnit_running hs, h]
  rfl

theorem exec_gbReadBytes_none {s : State} (hs : s.seq ≠ .fatal) (b : StageBuf) {a n : U64}
    (h : readBytes (s.buf b).data a.toNat n.toNat = none) :
    exec (.gbReadBytes b a n) s = .next (takeError .malformed s) := by
  rw [exec, execGbReadBytes, runUnit_running hs, h]
  rfl

/-! ### Bytes -/

/-- A capacity that is enough does not grow (R141). -/
theorem growCap_of_le (fuel : Nat) {need cap : Nat} (h : need ≤ cap) : growCap fuel need cap = cap := by
  cases fuel with
  | zero => rfl
  | succ fuel => rw [growCap, if_neg (by omega)]

/-- The write cursor after the appends of a byte sequence: at the new end, or where it was when there are none (R145). -/
theorem appendBytes_eq {max : Nat} {b : Buffer} (bs : List Byte) (h : b.len + bs.length ≤ max) :
    ∃ cap, appendBytes max bs b = .ok ()
      { data := b.data ++ bs
        cap := cap
        wcur := if bs = [] then b.wcur else { byte := b.len + bs.length, bit := 0 }
        rcur := b.rcur } := by
  obtain ⟨cap, w, hrun, hw, hnil⟩ := appendBytes_room bs h
  refine ⟨cap, ?_⟩
  split
  case isTrue hbs => rw [hrun, (hnil hbs).1]
  case isFalse hbs => rw [hrun, hw hbs]

/-- `GB.APPEND_BYTE` appends as `GB.APPEND_BYTES` of one byte does (R145). -/
theorem appendBytes_singleton (max : Nat) (v : Byte) (b : Buffer) : appendBytes max [v] b = appendByte max v b := by
  by_cases h : b.len + 1 ≤ max
  · rw [appendBytes, if_neg (by simpa using h), appendEach, appendByte_room v h]
    rfl
  · rw [appendBytes_full [v] (by simpa using h), appendByte_full v (by omega)]

/-- Both byte appends, as the append of a sequence (R144, R145). -/
theorem exec_byteAppend {i : Instr} {b : StageBuf} {bs : List Byte} (s : State)
    (hi : (∃ v, i = .gbAppendByte b v ∧ bs = [v]) ∨ i = .gbAppendBytes b bs) :
    exec i s = runUnit (onBuf b fun max => appendBytes max bs) s := by
  rcases hi with ⟨v, rfl, rfl⟩ | rfl
  · have hone : (fun max => appendBytes max [v]) = fun max => appendByte max v := by
      funext max buf
      exact appendBytes_singleton max v buf
    rw [exec_gbAppendByte, hone]
  · exact exec_gbAppendBytes b bs s

/-! ### The bits of a byte sequence -/

/-- There is no bit beyond the end. -/
theorem bitAt_of_length_le {data : List Byte} {k : Nat} (h : 8 * data.length ≤ k) : bitAt data k = false := by
  rw [bitAt, List.getD_eq_default _ _ (by omega)]
  exact BitVec.getLsbD_zero

/-- A zero byte at the end adds no bit that is set. -/
theorem bitAt_append_zero (data : List Byte) (k : Nat) : bitAt (data ++ [0#8]) k = bitAt data k := by
  by_cases h : k / 8 < data.length
  · rw [bitAt, bitAt, List.getD_append _ _ _ _ h]
  · rw [bitAt_of_length_le (data := data) (by omega), bitAt, List.getD_append_right _ _ _ _ (by omega)]
    cases k / 8 - data.length <;> simp

/-- A bit shifted to its place in a byte. -/
theorem ofBool_shiftLeft_getLsbD (x : Bool) (k j : Nat) (hj : j < 8) :
    ((BitVec.ofBool x).zeroExtend 8 <<< k : Byte).getLsbD j = (decide (j = k) && x) := by
  rw [BitVec.getLsbD_shiftLeft, BitVec.getLsbD_setWidth, BitVec.getLsbD_ofBool]
  rcases Nat.lt_trichotomy j k with h | h | h
  · simp [h, h.ne]
  · subst h
    simp [hj]
  · simp [h.ne', Nat.sub_ne_zero_of_lt h]

/-- `orBit` sets one bit and leaves every other (R146). -/
theorem bitAt_orBit {data : List Byte} {i : Nat} (hi : i < data.length) {k : Nat} (hk : k < 8) (x : Bool) (j : Nat) :
    bitAt (orBit data i k x) j = (bitAt data j || (decide (j = 8 * i + k) && x)) := by
  rw [bitAt, orBit, List.getD_eq_getElem?_getD]
  by_cases hbyte : i = j / 8
  · subst hbyte
    have hplace : j % 8 = k ↔ j = 8 * (j / 8) + k := by omega
    rw [List.getElem?_set_self hi, Option.getD_some, BitVec.getLsbD_or,
      ofBool_shiftLeft_getLsbD x k _ (Nat.mod_lt _ (by omega)), bitAt, decide_eq_decide.2 hplace]
  · have hplace : j ≠ 8 * i + k := by omega
    rw [List.getElem?_set_ne hbyte, ← List.getD_eq_getElem?_getD, bitAt, decide_eq_false hplace,
      Bool.false_and, Bool.or_false]

/-- The number read has as many bits as were read (R148). -/
theorem bitsValue_lt (data : List Byte) : ∀ n r : Nat, bitsValue data r n < 2 ^ n
  | 0, _ => Nat.one_pos
  | n + 1, r => by
    have hrest := bitsValue_lt data n (r + 1)
    have hbit := (bitAt data r).toNat_lt
    rw [bitsValue, Nat.pow_succ']
    omega

/-- The bits of the number read are those of the stream, the first the least significant (R148). -/
theorem bitsValue_testBit (data : List Byte) : ∀ n r k : Nat, k < n →
    (bitsValue data r n).testBit k = bitAt data (r + k)
  | n + 1, r, 0, _ => by
    rw [bitsValue, Nat.testBit_zero]
    cases bitAt data r <;> simp [Nat.add_mod]
  | n + 1, r, k + 1, hk => by
    have hhalf : ((bitAt data r).toNat + 2 * bitsValue data (r + 1) n) / 2 = bitsValue data (r + 1) n := by
      have := (bitAt data r).toNat_lt
      omega
    rw [bitsValue, Nat.testBit_succ, hhalf, bitsValue_testBit data n (r + 1) k (by omega), Nat.add_right_comm, Nat.add_assoc]

/-! ### Bit appends -/

/-- The cursor invariant in terms of bit numbers: the data is as long as the bits written need, and holds no other bit
(R140). -/
theorem cursorOk_iff (b : Buffer) :
    b.CursorOk ↔ b.wcur.bit < 8 ∧ b.len = (b.wbits + 7) / 8 ∧ ∀ k, b.wbits ≤ k → bitAt b.data k = false := by
  simp only [Buffer.wbits, len_eq]
  constructor
  · rintro ⟨hbit, hboundary, hinside⟩
    by_cases h0 : b.wcur.bit = 0
    · have hend : b.wcur.byte = b.data.length := hboundary h0
      exact ⟨hbit, by omega, fun k hk => bitAt_of_length_le (by omega)⟩
    · obtain ⟨hend, hzero⟩ := hinside h0
      rw [len_eq] at hend
      refine ⟨hbit, by omega, fun k hk => ?_⟩
      by_cases hlast : k / 8 = b.wcur.byte
      · rw [bitAt, hlast]
        exact hzero _ (by omega) (by omega)
      · exact bitAt_of_length_le (by omega)
  · rintro ⟨hbit, hlen, hzero⟩
    refine ⟨hbit, fun h0 => by rw [len_eq]; omega, fun h0 => ⟨by rw [len_eq]; omega, fun k hk hle => ?_⟩⟩
    have hbitAt := hzero (8 * b.wcur.byte + k) (by omega)
    rwa [bitAt, Nat.mul_add_div (by omega), Nat.div_eq_of_lt hk, Nat.mul_add_mod, Nat.mod_eq_of_lt hk] at hbitAt

/-- `GB.APPEND_BIT` with room sets the bit at the write cursor, which it moves by one (R146). -/
theorem appendBit_room {max : Nat} {b : Buffer} (x : Bool) (hb : b.CursorOk) (hr : b.wbits + 1 ≤ 8 * max) :
    ∃ v, appendBit max x b = .ok () v ∧ v.wcur = Cursor.atBit (b.wbits + 1) ∧ v.rcur = b.rcur ∧
      v.len = (b.wbits + 8) / 8 ∧ ∀ k, bitAt v.data k = (bitAt b.data k || (decide (k = b.wbits) && x)) := by
  obtain ⟨hbit, hlen, -⟩ := (cursorOk_iff b).1 hb
  have hwbits : b.wbits = 8 * b.wcur.byte + b.wcur.bit := rfl
  rw [len_eq] at hlen
  by_cases h0 : b.wcur.bit = 0
  · have hend : b.wcur.byte < (b.data ++ [0#8]).length := by simp; omega
    refine ⟨_, appendBit_boundary x h0 (by rw [len_eq]; omega), ?_, rfl, by simp; omega, fun k => ?_⟩
    · simp only [Cursor.atBit, Cursor.mk.injEq]
      omega
    · have hplace : b.wbits = 8 * b.wcur.byte + 0 := by omega
      rw [bitAt_orBit hend (by omega), bitAt_append_zero, hplace]
  · refine ⟨_, appendBit_inside x h0, ?_, rfl, by simp; omega, bitAt_orBit (by omega) hbit x⟩
    dsimp only
    split <;> simp only [Cursor.atBit, Cursor.mk.injEq] <;> omega

theorem Buffer.BitsAppended.nil {b : Buffer} (hb : b.CursorOk) : b.BitsAppended b [] := by
  refine ⟨rfl, hb, rfl, fun k => ?_⟩
  split
  case isTrue => rfl
  case isFalse h => exact ((cursorOk_iff b).1 hb).2.2 k (by omega)

theorem Buffer.BitsAppended.append {b v w : Buffer} {xs ys : List Bool} (h1 : b.BitsAppended v xs)
    (h2 : v.BitsAppended w ys) : b.BitsAppended w (xs ++ ys) := by
  obtain ⟨hv, -, hvr, hvbits⟩ := h1
  obtain ⟨hw, hok, hwr, hwbits⟩ := h2
  refine ⟨by rw [hw, hv, List.length_append, Nat.add_assoc], hok, hwr.trans hvr, fun k => ?_⟩
  rw [hwbits, hvbits, hv]
  by_cases hold : k < b.wbits
  · rw [if_pos (by omega), if_pos hold, if_pos hold]
  · rw [if_neg hold, if_neg hold]
    split
    case isTrue hx => rw [List.getD_append _ _ _ _ (by omega)]
    case isFalse hx => rw [List.getD_append_right _ _ _ _ (by omega), Nat.sub_add_eq]

theorem appendBit_bitsAppended {max : Nat} {b : Buffer} (x : Bool) (hb : b.CursorOk) (hr : b.wbits + 1 ≤ 8 * max) :
    ∃ v, appendBit max x b = .ok () v ∧ b.BitsAppended v [x] := by
  obtain ⟨-, -, hzero⟩ := (cursorOk_iff b).1 hb
  obtain ⟨v, hrun, hwcur, hrcur, hlen, hbits⟩ := appendBit_room x hb hr
  have hwbits : v.wbits = b.wbits + 1 := by rw [Buffer.wbits, hwcur, atBit_bits]
  have hbit : v.wcur.bit < 8 := by rw [hwcur]; exact Nat.mod_lt _ (by omega)
  refine ⟨v, hrun, hwbits, (cursorOk_iff v).2 ⟨hbit, by rw [hlen, hwbits], fun k hk => ?_⟩, hrcur, fun k => ?_⟩
  · have hne : k ≠ b.wbits := by omega
    rw [hbits, hzero k (by omega)]
    simp [hne]
  · rw [hbits]
    rcases Nat.lt_trichotomy k b.wbits with h | h | h
    · simp [h, h.ne]
    · subst h
      simp [hzero]
    · rw [hzero k h.le, if_neg h.not_gt, List.getD_eq_default _ _ (by rw [List.length_singleton]; omega)]
      simp [h.ne']

/-- Bits with room are all appended (R146, R147). -/
theorem appendBitList_room {max : Nat} : ∀ (bits : List Bool) {b : Buffer}, b.CursorOk →
    b.wbits + bits.length ≤ 8 * max → ∃ v, appendBitList max bits b = .ok () v ∧ b.BitsAppended v bits
  | [], b, hb, _ => ⟨b, rfl, .nil hb⟩
  | x :: xs, b, hb, hr => by
    rw [List.length_cons] at hr
    obtain ⟨v, hrun, hv⟩ := appendBit_bitsAppended x hb (max := max) (by omega)
    have hwbits : v.wbits = b.wbits + 1 := hv.1
    obtain ⟨w, hrun', hw⟩ := appendBitList_room xs hv.2.1 (max := max) (by omega)
    exact ⟨w, by rw [appendBitList, hrun, Res.andThen_ok, hrun'], hv.append hw⟩

/-- Bits that pass the bound end in the fatal error (R142, R146). -/
theorem appendBitList_full {max : Nat} : ∀ (bits : List Bool) {b : Buffer}, b.CursorOk → b.len ≤ max →
    8 * max < b.wbits + bits.length → ∃ v, appendBitList max bits b = .stop (.raise .internal) v
  | [], b, hb, hl, hr => by
    obtain ⟨-, hlen, -⟩ := (cursorOk_iff b).1 hb
    rw [List.length_nil] at hr
    omega
  | x :: xs, b, hb, hl, hr => by
    obtain ⟨hbit, hlen, -⟩ := (cursorOk_iff b).1 hb
    rw [List.length_cons] at hr
    by_cases hroom : b.wbits + 1 ≤ 8 * max
    · obtain ⟨v, hrun, hv⟩ := appendBit_bitsAppended x hb hroom
      have hwbits : v.wbits = b.wbits + 1 := hv.1
      obtain ⟨-, hvlen, -⟩ := (cursorOk_iff v).1 hv.2.1
      obtain ⟨w, hw⟩ := appendBitList_full xs hv.2.1 (max := max) (by omega) (by omega)
      exact ⟨w, by rw [appendBitList, hrun, Res.andThen_ok, hw]⟩
    · have hboundary : b.wcur.bit = 0 := by rw [Buffer.wbits] at *; omega
      have hend : max < b.len + 1 := by omega
      exact ⟨b, by rw [appendBitList, appendBit_full x hboundary hend, Res.andThen_stop]⟩

/-! ### Fields -/

/-- The bits of a list of fields, one after another (R150). -/
def fieldBits (fs : List (U64 × Nat)) : List Bool := fs.flatMap fun f => lowBits f.1.toNat f.2

theorem fieldBits_cons (v : U64) (w : Nat) (fs : List (U64 × Nat)) :
    fieldBits ((v, w) :: fs) = lowBits v.toNat w ++ fieldBits fs := rfl

@[simp] theorem lowBits_length (value width : Nat) : (lowBits value width).length = width := by simp [lowBits]

theorem fieldBits_length (fs : List (U64 × Nat)) : (fieldBits fs).length = (fs.map Prod.snd).sum := by
  simp [fieldBits, List.length_flatMap]

theorem appendBitList_append (max : Nat) (ys : List Bool) : ∀ (xs : List Bool) (b : Buffer),
    appendBitList max (xs ++ ys) b = (appendBitList max xs b).andThen fun _ v => appendBitList max ys v
  | [], _ => rfl
  | x :: xs, b => by
    rw [List.cons_append, appendBitList, appendBitList]
    cases appendBit max x b with
    | ok _ v => exact appendBitList_append max ys xs v
    | stop e v => rfl

/-- Appending fields is appending their bits (R147, R150). -/
theorem appendFields_eq (max : Nat) : ∀ (fs : List (U64 × Nat)) (b : Buffer),
    appendFields max fs b = appendBitList max (fieldBits fs) b
  | [], _ => rfl
  | (v, w) :: fs, b => by
    rw [fieldBits_cons, appendBitList_append, appendFields, appendBits]
    congr 1
    funext _ t
    exact appendFields_eq max fs t

/-- Bits read where the low bits of a number stand give that number, modulo two to the width (R148, R150). -/
theorem bitsValue_of_bitsAt {data : List Byte} {r value width : Nat} (h : BitsAt data r (lowBits value width)) :
    bitsValue data r width = value % 2 ^ width := by
  refine Nat.eq_of_testBit_eq fun k => ?_
  by_cases hk : k < width
  · have hbit := h.2 k (by simpa using hk)
    rw [bitsValue_testBit data width r k hk, hbit, Nat.testBit_mod_two_pow]
    simp [lowBits, hk]
  · rw [Nat.testBit_mod_two_pow, Nat.testBit_lt_two_pow (Nat.lt_of_lt_of_le (bitsValue_lt data width r)
      (Nat.pow_le_pow_right Nat.two_pos (Nat.le_of_not_lt hk)))]
    simp [hk]

theorem bitsAt_append {data : List Byte} {r : Nat} {xs ys : List Bool} (h : BitsAt data r (xs ++ ys)) :
    BitsAt data r xs ∧ BitsAt data (r + xs.length) ys := by
  obtain ⟨hlen, hbits⟩ := h
  rw [List.length_append] at hlen hbits
  refine ⟨⟨by omega, fun k hk => ?_⟩, by omega, fun k hk => ?_⟩
  · rw [hbits k (by omega), List.getD_append _ _ _ _ hk]
  · rw [Nat.add_assoc, hbits _ (by omega), List.getD_append_right _ _ _ _ (by omega), Nat.add_sub_cancel_left]

/-- Fields whose bits stand at the read cursor are read back, each modulo two to its width (R150). -/
theorem readFields_of_bitsAt : ∀ (fs : List (U64 × Nat)) (b : Buffer), BitsAt b.data b.rbits (fieldBits fs) →
    ∃ r, readFields (fs.map Prod.snd) b = .ok (fs.map fun f => f.1.toNat % 2 ^ f.2) r
  | [], b, _ => ⟨b, rfl⟩
  | (v, w) :: fs, b, h => by
    rw [fieldBits_cons] at h
    obtain ⟨hfield, hrest⟩ := bitsAt_append h
    rw [lowBits_length] at hrest
    rcases readBits_cases w b with ⟨-, hread⟩ | ⟨hcut, -⟩
    · obtain ⟨r, hr⟩ := readFields_of_bitsAt fs { b with rcur := Cursor.atBit (b.rbits + w) }
        (by simpa [Buffer.rbits] using hrest)
      refine ⟨r, ?_⟩
      simp only [List.map_cons, readFields, hread, Res.andThen_ok, hr, bitsValue_of_bitsAt hfield]
    · have hroom := hfield.1
      rw [lowBits_length] at hroom
      exact absurd hcut (Nat.not_lt_of_ge hroom)

theorem Buffer.Fresh.wbits {b : Buffer} (h : b.Fresh) : b.wbits = 0 := by
  obtain ⟨-, hw, -⟩ := h
  simp [Buffer.wbits, hw]

theorem Buffer.Fresh.rbits {b : Buffer} (h : b.Fresh) : b.rbits = 0 := by
  obtain ⟨-, -, hr⟩ := h
  simp [Buffer.rbits, hr]

/-- A fresh buffer's write cursor stands at the end of no data (R140). -/
theorem Buffer.Fresh.cursorOk {b : Buffer} (h : b.Fresh) : b.CursorOk := by
  obtain ⟨hd, hw, -⟩ := h
  simp [Buffer.CursorOk, hd, hw]

/-- What was appended to a fresh buffer stands in its data from the first bit on (R140, R147). -/
theorem Buffer.BitsAppended.bitsAt {b v : Buffer} {bits : List Bool} (hb : b.Fresh) (h : b.BitsAppended v bits) :
    v.rbits = 0 ∧ BitsAt v.data 0 bits := by
  obtain ⟨hwbits, hok, hrcur, hbits⟩ := h
  have hstart := hb.wbits
  obtain ⟨-, hlen, -⟩ := (cursorOk_iff v).1 hok
  rw [len_eq] at hlen
  refine ⟨by rw [Buffer.rbits, hrcur]; exact hb.rbits, by omega, fun k _ => ?_⟩
  rw [Nat.zero_add, hbits, hstart, if_neg (Nat.not_lt_zero k), Nat.sub_zero]

end Sys2Proof.Machine
end

namespace Sys2Proof.Proofs

open Sys2Proof Sys2Proof.Machine

/-- Settles O26: the fields' bits stand in the buffer from its first bit on, where the reads take them apart again. -/
theorem readFieldsInvertsAppendFields : Obligations.ReadFieldsInvertsAppendFields := by
  intro max fs b _ hfresh _ hroom
  obtain ⟨w, hrun, hw⟩ := appendBitList_room (fieldBits fs) hfresh.cursorOk (max := max)
    (by rwa [hfresh.wbits, fieldBits_length, Nat.zero_add])
  obtain ⟨hrbits, hbits⟩ := hw.bitsAt hfresh
  obtain ⟨r, hr⟩ := readFields_of_bitsAt fs w (by rwa [hrbits])
  exact ⟨w, r, by rw [appendFields_eq, hrun], hr⟩

/-- Settles O23: `ensure` grows the capacity or raises, and both byte appends are the append of a sequence. -/
theorem byteAppendsExtendBuffer : Obligations.ByteAppendsExtendBuffer := by
  intro s b extra i bs hs
  refine ⟨fun hroom => ?_, fun hfull => ?_, fun hi => ⟨fun hroom => ?_, fun hfull => ?_⟩⟩
  · refine ⟨growCap 64 ((s.buf b).len + extra.toNat) (s.buf b).cap, ?_, ?_, growCap_ge .., growCap_of_le 64⟩
    · rw [exec_gbReserve]
      exact runUnit_onBuf_ok hs (if_neg (Nat.not_lt_of_ge hroom))
    · exact le_growCap (Nat.lt_of_le_of_lt hroom s.max_lt) _
  · rw [exec_gbReserve]
    exact runUnit_onBuf_raise_unchanged hs (if_pos hfull)
  · obtain ⟨cap, hrun⟩ := appendBytes_eq bs hroom
    exact ⟨cap, by rw [exec_byteAppend s hi, runUnit_onBuf_ok hs hrun]⟩
  · rw [exec_byteAppend s hi, runUnit_onBuf_raise_unchanged hs (appendBytes_full bs hfull)]

/-- Settles O24: both operations append a list of bits, of which all have room or one finds the buffer full. -/
theorem appendBitsExtendsStream : Obligations.AppendBitsExtendsStream := by
  intro s b i bits hs hi hok
  rw [exec_bitAppend s hi]
  refine ⟨fun hroom => ?_, fun hlen hfull => ?_⟩
  · obtain ⟨v, hrun, hv⟩ := appendBitList_room bits hok hroom
    exact ⟨v, runUnit_onBuf_ok hs hrun, hv⟩
  · obtain ⟨v, hrun⟩ := appendBitList_full bits hok hlen hfull
    exact ⟨v.cap, by rw [runUnit_onBuf_raise hs hrun, takeError_putBuf]⟩

/-- Settles O25: each read tests for the end first, and the number read has the bits of the stream. -/
theorem readsReturnStream : Obligations.ReadsReturnStream := by
  intro s b width a n hs
  refine ⟨fun hwidth => ⟨fun hroom => ?_, fun hcut => ?_⟩, fun hroom => ?_, fun hcut => ?_⟩
  · refine ⟨bitsValue (s.buf b).data (s.buf b).rbits width.toNat, ?_, bitsValue_lt ..,
      bitsValue_testBit _ _ _⟩
    rw [exec_gbReadBits hs b hwidth, readBits, if_neg (Nat.not_lt_of_ge hroom)]
    rfl
  · rw [exec_gbReadBits hs b hwidth, readBits, if_pos hcut, Res.inside_stop, putBuf_buf]
    rfl
  · exact exec_gbReadBytes_some hs b (if_neg (Nat.not_lt_of_ge hroom))
  · exact exec_gbReadBytes_none hs b (if_pos hcut)

end Sys2Proof.Proofs

section
/-! SUPPORT. The match finder (spec 41_match_finder.md R160 to R169): the length of a match, what an insertion leaves in each
bucket, the search as a maximum in the lexicographic order of length and position, and the economical-match filter. -/

namespace Sys2Proof.Machine

/-! ### The operations by their instructions -/

section
variable {s : State}

theorem exec_mfReset (hs : s.seq ≠ .fatal) : exec .mfReset s = .next { s with mf := mfClear s.mf } := by
  rw [exec, execMfReset, runUnit_running hs]
  rfl

theorem exec_mfInsert (hs : s.seq ≠ .fatal) (i : StageBuf) (p : U64) :
    exec (.mfInsert i p) s = .next { s with mf := mfInsert Config.barph (s.buf i).data p.toNat s.mf } := by
  rw [exec, execMfInsert, runUnit_running hs]
  rfl

end

/-! ### The table -/

/-- A bucket of a cleared table is zeroed (R162). -/
@[simp] theorem bucket_mfClear (cfg : Config) (mf : MatchFinder) (h : Nat) :
    (mfClear mf).bucket cfg h = emptyBucket cfg := rfl

/-- A zeroed bucket has no valid slot (R37). -/
@[simp] theorem newestFirst_emptyBucket (cfg : Config) : (emptyBucket cfg).newestFirst cfg = [] := rfl

/-- A position with fewer than four bytes left is not inserted (R160, R163). -/
theorem mfInsert_short {cfg : Config} {I : List Byte} {p : Nat} (hp : I.length < p + 4) (mf : MatchFinder) :
    mfInsert cfg I p mf = mf := if_neg (Nat.not_le_of_lt hp)

@[simp] theorem mfInsert_bestLen (cfg : Config) (I : List Byte) (p : Nat) (mf : MatchFinder) :
    (mfInsert cfg I p mf).bestLen = mf.bestLen := by
  unfold mfInsert
  split <;> rfl

@[simp] theorem mfInsert_bestPos (cfg : Config) (I : List Byte) (p : Nat) (mf : MatchFinder) :
    (mfInsert cfg I p mf).bestPos = mf.bestPos := by
  unfold mfInsert
  split <;> rfl

/-- An insertion writes the bucket its four bytes hash to and no other (R163). -/
theorem bucket_mfInsert {cfg : Config} {I : List Byte} {p : Nat} {mf : MatchFinder} (hp : p + 4 ≤ I.length)
    (hwf : tableWf (emptyBucket cfg) mf.mt = true) (h : Nat) :
    (mfInsert cfg I p mf).bucket cfg h =
      if h = mfHash cfg I p then (mf.bucket cfg h).push cfg p else mf.bucket cfg h := by
  rw [mfInsert, if_pos hp, MatchFinder.bucket, tableGet_tablePut _ _ _ _ _ hwf]
  split
  · next heq => rw [heq]
  · rfl

/-! ### The length of a match -/

/-- The lengths up to `commonLen` are those of the common parts within the cap (R165). -/
theorem le_commonLen_iff : ∀ (n cap : Nat) (xs ys : List Byte), n ≤ commonLen cap xs ys ↔
    n ≤ cap ∧ n ≤ xs.length ∧ n ≤ ys.length ∧ ∀ k, k < n → xs.getD k 0#8 = ys.getD k 0#8
  | 0, _, _, _ => by simp
  | _ + 1, 0, _, _ => by simp [commonLen]
  | _ + 1, _ + 1, [], _ => by simp [commonLen]
  | _ + 1, _ + 1, _ :: _, [] => by simp [commonLen]
  | n + 1, cap + 1, x :: xs, y :: ys => by
    have hstep : (∀ k, k < n + 1 → (x :: xs).getD k 0#8 = (y :: ys).getD k 0#8) ↔
        x = y ∧ ∀ k, k < n → xs.getD k 0#8 = ys.getD k 0#8 := by
      simp only [Nat.forall_lt_succ_left, List.getD_cons_zero, List.getD_cons_succ]
    rw [commonLen, hstep]
    split
    · next heq => simp [heq, le_commonLen_iff n cap xs ys]
    · next hne => simp [hne]

/-- The lengths up to `mlen` are those of the common parts of the two positions (R165). -/
theorem le_matchLen_iff (cfg : Config) {I : List Byte} {c p : Nat} (hc : c ≤ p) (hp : p ≤ I.length) (len : Nat) :
    len ≤ matchLen cfg I c p ↔ Matches cfg I c p len := by
  have hdrop : ∀ a k, (I.drop a).getD k 0#8 = I.getD (a + k) 0#8 := fun a k => by
    simp only [List.getD_eq_getElem?_getD, List.getElem?_drop]
  simp only [matchLen, le_commonLen_iff, Matches, List.length_drop, hdrop]
  constructor
  · rintro ⟨hmax, -, hlen, heq⟩
    exact ⟨hmax, by omega, heq⟩
  · rintro ⟨hmax, hlen, heq⟩
    exact ⟨hmax, by omega, by omega, heq⟩

/-! ### The search -/

section
variable {cfg : Config} {I : List Byte} {p : Nat}

/-- One candidate leaves the best as it was, or is earlier, in reach, and becomes the best (R164). -/
theorem consider_cases (best : Nat × Nat) (c : Nat) :
    consider cfg I p best c = best ∨
      (c < p ∧ p - c ≤ cfg.distMax 5 ∧ consider cfg I p best c = (matchLen cfg I c p, c)) := by
  unfold consider
  split_ifs
  · exact .inl rfl
  · exact .inl rfl
  · exact .inr ⟨by omega, by omega, rfl⟩
  · exact .inl rfl

/-- The best only grows, in length first and in position next (R164). -/
theorem le_consider (best : Nat × Nat) (c : Nat) : toLex best ≤ toLex (consider cfg I p best c) := by
  unfold consider
  split_ifs
  · exact le_rfl
  · exact le_rfl
  · rw [Prod.Lex.toLex_le_toLex]
    dsimp only
    omega
  · exact le_rfl

/-- The best is no worse than an earlier candidate in reach that matches anything (R164). -/
theorem candidate_le_consider (best : Nat × Nat) {c : Nat} (hc : c < p) (hd : p - c ≤ cfg.distMax 5)
    (hm : 0 < matchLen cfg I c p) : toLex (matchLen cfg I c p, c) ≤ toLex (consider cfg I p best c) := by
  rw [consider, if_neg (by omega), if_neg (by omega)]
  split_ifs
  · exact le_rfl
  · rw [Prod.Lex.toLex_le_toLex]
    dsimp only
    omega

theorem le_search : ∀ (cs : List Nat) (best : Nat × Nat), toLex best ≤ toLex (cs.foldl (consider cfg I p) best)
  | [], _ => le_rfl
  | c :: cs, best => (le_consider best c).trans (le_search cs _)

/-- The search ends no worse than each of its candidates that matches anything (R164). -/
theorem candidate_le_search : ∀ (cs : List Nat) (best : Nat × Nat) {c : Nat}, c ∈ cs → c < p → p - c ≤ cfg.distMax 5 →
    0 < matchLen cfg I c p → toLex (matchLen cfg I c p, c) ≤ toLex (cs.foldl (consider cfg I p) best)
  | c' :: cs, best, c, hmem, hc, hd, hm => by
    rcases List.mem_cons.mp hmem with rfl | hmem
    · exact (candidate_le_consider best hc hd hm).trans (le_search cs _)
    · exact candidate_le_search cs _ hmem hc hd hm

/-- The search ends with what it began with, or with one of its candidates (R164). -/
theorem search_cases : ∀ (cs : List Nat) (best : Nat × Nat), cs.foldl (consider cfg I p) best = best ∨
    ∃ c, c ∈ cs ∧ c < p ∧ p - c ≤ cfg.distMax 5 ∧ cs.foldl (consider cfg I p) best = (matchLen cfg I c p, c)
  | [], _ => .inl rfl
  | c :: cs, best => by
    rw [List.foldl_cons]
    rcases search_cases cs (consider cfg I p best c) with hkeep | ⟨c', hmem, hfound⟩
    · rw [hkeep]
      exact (consider_cases best c).imp_right fun h => ⟨c, List.mem_cons_self, h⟩
    · exact .inr ⟨c', List.mem_cons_of_mem c hmem, hfound⟩

/-! ### The answer of the search -/

variable {mf : MatchFinder}

/-- A search writes its two registers only (R164). -/
theorem mfFindBest_registers (cfg : Config) (I : List Byte) (p : Nat) (mf : MatchFinder) :
    { mf with bestLen := (mfFindBest cfg I p mf).2.bestLen, bestPos := (mfFindBest cfg I p mf).2.bestPos } =
      (mfFindBest cfg I p mf).2 := by
  rw [← mfFindBest_mt cfg I p mf]

/-- A search at a position with fewer than four bytes left finds nothing and writes nothing (R160, R164). -/
theorem mfFindBest_short (hp : I.length < p + 4) : mfFindBest cfg I p mf = (none, mf) := if_neg (Nat.not_le_of_lt hp)

/-- The registers of the search after every candidate of a position: best length and its position (R164). -/
def MatchFinder.found (mf : MatchFinder) (cfg : Config) (I : List Byte) (p : Nat) : Nat × Nat :=
  ((mf.bucket cfg (mfHash cfg I p)).newestFirst cfg).foldl (consider cfg I p) (0, mf.bestPos)

theorem mfFindBest_full (hp : p + 4 ≤ I.length) : mfFindBest cfg I p mf =
    (if (mf.found cfg I p).1 ≤ cfg.minMatchThreshold then none else some ((mf.found cfg I p).2, (mf.found cfg I p).1),
      { mf with bestLen := (mf.found cfg I p).1, bestPos := (mf.found cfg I p).2 }) := if_pos hp

theorem candidate_le_found {c : Nat} (h : mf.Candidate cfg I p c) (hm : 0 < matchLen cfg I c p) :
    toLex (matchLen cfg I c p, c) ≤ toLex (mf.found cfg I p) := by
  obtain ⟨hmem, hlt, hd⟩ := h
  exact candidate_le_search _ _ hmem hlt hd hm

theorem matchLen_le_found {c : Nat} (h : mf.Candidate cfg I p c) : matchLen cfg I c p ≤ (mf.found cfg I p).1 := by
  rcases Nat.eq_zero_or_pos (matchLen cfg I c p) with hzero | hpos
  · exact hzero ▸ Nat.zero_le _
  · exact Prod.Lex.monotone_fst _ _ (candidate_le_found h hpos)

/-- A search that has found any length has found a candidate's, and no candidate is better (R164). -/
theorem found_spec (h : 0 < (mf.found cfg I p).1) : ∃ c, mf.Candidate cfg I p c ∧
    mf.found cfg I p = (matchLen cfg I c p, c) ∧
    ∀ c', mf.Candidate cfg I p c' → toLex (matchLen cfg I c' p, c') ≤ toLex (matchLen cfg I c p, c) := by
  rcases search_cases ((mf.bucket cfg (mfHash cfg I p)).newestFirst cfg) (0, mf.bestPos) with
    hkeep | ⟨c, hmem, hlt, hd, hfound⟩
  · rw [MatchFinder.found, hkeep] at h
    exact absurd h (Nat.lt_irrefl 0)
  · refine ⟨c, ⟨hmem, hlt, hd⟩, hfound, fun c' hc' => ?_⟩
    rw [← MatchFinder.found] at hfound
    rw [← hfound]
    rcases Nat.eq_zero_or_pos (matchLen cfg I c' p) with hzero | hpos
    · exact Prod.Lex.toLex_le_toLex.mpr (.inl (hzero ▸ h))
    · exact candidate_le_found hc' hpos

/-- A search in an empty bucket finds nothing (R162, R164). -/
theorem mfFindBest_emptyBucket (h : mf.bucket cfg (mfHash cfg I p) = emptyBucket cfg) :
    (mfFindBest cfg I p mf).1 = none := by
  rcases Nat.lt_or_ge I.length (p + 4) with hp | hp
  · rw [mfFindBest_short hp]
  · simp [mfFindBest_full hp, MatchFinder.found, h]

/-- A search at a position with four bytes left finds no candidate above the threshold, or the best of its candidates (R164). -/
theorem mfFindBest_cases (hp : p + 4 ≤ I.length) :
    ((mfFindBest cfg I p mf).1 = none ∧ ∀ c, mf.Candidate cfg I p c → matchLen cfg I c p ≤ cfg.minMatchThreshold) ∨
    ∃ c, mf.Candidate cfg I p c ∧ cfg.minMatchThreshold < matchLen cfg I c p ∧
      mfFindBest cfg I p mf =
        (some (c, matchLen cfg I c p), { mf with bestLen := matchLen cfg I c p, bestPos := c }) ∧
      ∀ c', mf.Candidate cfg I p c' → toLex (matchLen cfg I c' p, c') ≤ toLex (matchLen cfg I c p, c) := by
  rw [mfFindBest_full hp]
  rcases Nat.lt_or_ge cfg.minMatchThreshold (mf.found cfg I p).1 with hlong | hshort
  · obtain ⟨c, hcand, hfound, hbest⟩ := found_spec (Nat.zero_lt_of_lt hlong)
    rw [hfound] at hlong ⊢
    exact .inr ⟨c, hcand, hlong, by rw [if_neg (Nat.not_le_of_lt hlong)], hbest⟩
  · exact .inl ⟨if_pos hshort, fun c hc => (matchLen_le_found hc).trans hshort⟩

/-- Whatever the table holds, what a search finds is an earlier position in reach and a common part of it with the position
searched at, longer than the threshold (R164, R168). -/
theorem mfFindBest_some {c len : Nat} (h : (mfFindBest cfg I p mf).1 = some (c, len)) :
    c < p ∧ p - c ≤ cfg.distMax 5 ∧ cfg.minMatchThreshold < len ∧ Matches cfg I c p len := by
  rcases Nat.lt_or_ge I.length (p + 4) with hp | hp
  · rw [mfFindBest_short hp] at h
    exact nomatch h
  · rcases mfFindBest_cases (cfg := cfg) (mf := mf) hp with ⟨hnone, -⟩ | ⟨c', ⟨-, hlt, hd⟩, hlong, hfound, -⟩
    · rw [hnone] at h
      exact nomatch h
    · rw [hfound] at h
      cases h
      exact ⟨hlt, hd, hlong, (le_matchLen_iff cfg hlt.le (by omega) _).mp le_rfl⟩

end

/-! ### The searches as unit operations -/

section
variable {s : State}

theorem exec_mfFindBest (hs : s.seq ≠ .fatal) (i : StageBuf) (p : U64) :
    exec (.mfFindBest i p) s =
      .next { s with
        mf := (mfFindBest Config.barph (s.buf i).data p.toNat s.mf).2
        ret := searchRet (mfFindBest Config.barph (s.buf i).data p.toNat s.mf).1 } := by
  rw [exec, execMfFindBest, runUnit_running hs]
  rfl

/-- `MF.MATCH_AT` leaves the registers of the search as `MF.FIND_BEST` does (R166). -/
theorem exec_mfMatchAt (hs : s.seq ≠ .fatal) (i : StageBuf) (p : U64) :
    exec (.mfMatchAt i p) s =
      .next { s with
        mf := (mfFindBest Config.barph (s.buf i).data p.toNat s.mf).2
        ret := searchRet (mfMatchAt Config.barph (s.buf i).data p.toNat s.mf).1 } := by
  rw [exec, execMfMatchAt, runUnit_running hs, ← mfMatchAt_snd]
  rfl

end

/-- The token's cost on this hardware (R99, R107). -/
theorem tokenCost_barph (d len : Nat) : tokenCost Config.barph d len =
    (if d ≤ 0x3F then 1 else if d ≤ 0x1FFF then 2 else if d ≤ 0xFFFFF then 3 else if d ≤ 0x7FFFFFF then 4 else 5) +
      (if len ≤ 127 then 1 else 2) := rfl

/-- A match that is found and longer than its token's cost is answered as a distance, any other not at all (R166). -/
theorem mfMatchAt_of_found {cfg : Config} {I : List Byte} {p c len : Nat} {mf : MatchFinder}
    (h : (mfFindBest cfg I p mf).1 = some (c, len)) :
    (mfMatchAt cfg I p mf).1 = if tokenCost cfg (p - c) len < len then some (p - c, len) else none := by
  rw [mfMatchAt_fst_eq, h, Option.bind_some]

theorem mfMatchAt_of_none {cfg : Config} {I : List Byte} {p : Nat} {mf : MatchFinder}
    (h : (mfFindBest cfg I p mf).1 = none) : (mfMatchAt cfg I p mf).1 = none := by
  rw [mfMatchAt_fst_eq, h, Option.bind_none]

/-- The distance answered by `MF.MATCH_AT` is to an earlier position in reach, from which the match is a common part (R167,
R168). -/
theorem mfMatchAt_some {cfg : Config} {I : List Byte} {p d len : Nat} {mf : MatchFinder}
    (h : (mfMatchAt cfg I p mf).1 = some (d, len)) :
    1 ≤ d ∧ d ≤ p ∧ d ≤ cfg.distMax 5 ∧ cfg.minMatchThreshold < len ∧ Matches cfg I (p - d) p len := by
  rw [mfMatchAt_fst_eq, Option.bind_eq_some_iff] at h
  obtain ⟨⟨c, len'⟩, hfound, hcost⟩ := h
  obtain ⟨hlt, hd, hlong, hmatch⟩ := mfFindBest_some hfound
  obtain ⟨-, hres⟩ := Option.ite_none_right_eq_some.mp hcost
  cases hres
  exact ⟨by omega, by omega, hd, hlong, by rwa [show p - (p - c) = c by omega]⟩

end Sys2Proof.Machine
end

namespace Sys2Proof.Proofs

open Sys2Proof Sys2Proof.Machine

/-- Settles O27: a cleared table lists no bucket, and an insertion is one write of a canonical table. -/
theorem matchTableUpdates : Obligations.MatchTableUpdates := by
  intro s i p hs
  refine ⟨⟨mfClear s.mf, exec_mfReset hs, rfl, rfl, fun h => bucket_mfClear _ _ h, fun I q => ?_⟩,
    fun hp hwf => ⟨_, exec_mfInsert hs i p, mfInsert_bestLen .., mfInsert_bestPos .., fun h => ?_⟩, fun hp => ?_⟩
  · exact mfFindBest_emptyBucket (bucket_mfClear ..)
  · exact bucket_mfInsert hp hwf h
  · rw [exec_mfInsert hs, mfInsert_short hp]

/-- Settles O28: the common lengths are exactly those up to the match length. -/
theorem matchLengthIsLargest : Obligations.MatchLengthIsLargest := by
  intro cfg I c p hc hp
  have hiff := le_matchLen_iff cfg hc.le hp.le
  exact ⟨(hiff _).mp le_rfl, fun len => (hiff len).mpr⟩

/-- Settles O29: each candidate raises the best in the lexicographic order of length and position, or leaves it. -/
theorem findBestMaximises : Obligations.FindBestMaximises := by
  intro s i p hs
  refine ⟨_, _, _, by rw [exec_mfFindBest hs, mfFindBest_registers], fun hp => ?_, fun hp => ?_⟩
  · rw [mfFindBest_short hp]
    exact ⟨rfl, rfl, rfl⟩
  · rcases mfFindBest_cases (cfg := Config.barph) (mf := s.mf) hp with
      ⟨hnone, hall⟩ | ⟨c, hcand, hlong, hfound, hbest⟩
    · exact .inl ⟨by rw [hnone]; rfl, hall⟩
    · rw [hfound]
      exact .inr ⟨c, _, rfl, rfl, rfl, hcand, rfl, hlong, fun c' hc' => Prod.Lex.toLex_le_toLex.mp (hbest c' hc')⟩

/-- Settles O30: the filter compares the length found with the token's cost, and what a search finds is a true match of
earlier bytes. -/
theorem matchAtIsCausalAndEconomical : Obligations.MatchAtIsCausalAndEconomical := by
  intro s i p hs
  refine ⟨_, _, _, _, by rw [exec_mfFindBest hs, mfFindBest_registers], by rw [exec_mfMatchAt hs, mfFindBest_registers],
    ?_, ?_⟩
  · cases hq : (mfFindBest Config.barph (s.buf i).data p.toNat s.mf).1 with
    | none => exact .inl ⟨rfl, by rw [mfMatchAt_of_none hq]; rfl⟩
    | some found =>
      obtain ⟨c, len⟩ := found
      refine .inr ⟨c, _, len, rfl, rfl, ?_⟩
      rw [mfMatchAt_of_found hq, ← tokenCost_barph, apply_ite searchRet]
      rfl
  · cases hr : (mfMatchAt Config.barph (s.buf i).data p.toNat s.mf).1 with
    | none => exact .inl rfl
    | some found =>
      obtain ⟨d, len⟩ := found
      obtain ⟨hpos, hle, hd, hlong, hmatch⟩ := mfMatchAt_some hr
      exact .inr ⟨d, len, rfl, hpos, hle, hd, hlong, hmatch⟩

end Sys2Proof.Proofs

section
/-! SUPPORT. The fields of a lookback stream (spec 30_encoding.md R95 to R106): which operations are literal headers, distance
fields and length fields, what each does when it is met, and how a token is made of them. -/

namespace Sys2Proof

/-! ### Elements of tagged formats -/

/-- In the place `sp`, the operation is one of a tagged format, and `n` bytes long. -/
def Instr.Formatted (i : Instr) (sp : Space) (n : Nat) : Prop :=
  ∃ (tag k w : Nat) (mk : BitVec w → Instr) (p : BitVec w), WireFormat sp tag k n w mk ∧ i = mk p

namespace Instr.Formatted
variable {i : Instr} {sp : Space} {n : Nat}

theorem encode_length (h : i.Formatted sp n) : (encode i).length = n := by
  obtain ⟨_, _, _, _, p, hf, rfl⟩ := h
  exact hf.encode_length p

theorem pos (h : i.Formatted sp n) : 0 < n := by
  obtain ⟨_, _, _, _, _, hf, -⟩ := h
  exact hf.shape.2.2.2

theorem decode_encode (h : i.Formatted sp n) (rest : List Byte) : decode sp (encode i ++ rest) = .ok (i, 8 * n) := by
  obtain ⟨_, _, _, _, p, hf, rfl⟩ := h
  exact hf.decode_encode p rest

/-- A field that the bytes end inside is no element (R66). -/
theorem decode_take (h : i.Formatted sp n) {k : Nat} (hk : k < n) :
    decode sp ((encode i).take k) = .error .truncated := by
  obtain ⟨tag, j, w, mk, p, hf, rfl⟩ := h
  obtain ⟨hfill, htag, hj, hn⟩ := hf.shape
  cases k with
  | zero => cases hf <;> rfl
  | succ k =>
    obtain ⟨m, rfl⟩ : ∃ m, n = m + 1 := ⟨n - 1, by omega⟩
    have hhead : (BitVec.ofNat 8 (p.toNat <<< j ||| tag)).toNat % 2 ^ j = tag := by
      rw [BitVec.toNat_ofNat, byte_mod_two_pow hj, tagged_mod htag]
    rw [hf.encode_eq, leBytes, List.take_succ_cons, hf.decode_eq hhead, withLE, if_pos]
    rw [List.length_cons, List.length_take, leBytes_length]
    omega

end Instr.Formatted

/-! ### The three kinds of fields -/

/-- A literal header of `h` bytes for a run of `r` (R97, R98). -/
abbrev Instr.IsLiteralHeader (i : Instr) (h r : Nat) : Prop :=
  (∃ len, i = .litS len ∧ h = 1 ∧ r = len.toNat) ∨ ∃ len, i = .litL len ∧ h = 2 ∧ r = len.toNat

/-- A distance field of class `t` for the distance `d` (R99). -/
abbrev Instr.IsDistance (i : Instr) (t d : Nat) : Prop :=
  (∃ x, i = .dist1 x ∧ t = 1 ∧ d = x.toNat) ∨ (∃ x, i = .dist2 x ∧ t = 2 ∧ d = x.toNat) ∨
  (∃ x, i = .dist3 x ∧ t = 3 ∧ d = x.toNat) ∨ (∃ x, i = .dist4 x ∧ t = 4 ∧ d = x.toNat) ∨
  (∃ x, i = .dist5 x ∧ t = 5 ∧ d = x.toNat)

/-- A length field of `h` bytes for the length `len` (R102). -/
abbrev Instr.IsLength (i : Instr) (h len : Nat) : Prop :=
  (∃ x, i = .lenS x ∧ h = 1 ∧ len = x.toNat) ∨ ∃ x, i = .lenL x ∧ h = 2 ∧ len = x.toNat

section
variable {i : Instr} {h r t d len : Nat}

theorem Instr.IsLiteralHeader.formatted (hi : i.IsLiteralHeader h r) : i.Formatted .lbToken h := by
  rcases hi with ⟨p, rfl, rfl, -⟩ | ⟨p, rfl, rfl, -⟩
  · exact ⟨_, _, _, _, p, .litS, rfl⟩
  · exact ⟨_, _, _, _, p, .litL, rfl⟩

theorem Instr.IsDistance.formatted (hi : i.IsDistance t d) : i.Formatted .lbToken t := by
  rcases hi with ⟨p, rfl, rfl, -⟩ | ⟨p, rfl, rfl, -⟩ | ⟨p, rfl, rfl, -⟩ | ⟨p, rfl, rfl, -⟩ | ⟨p, rfl, rfl, -⟩
  · exact ⟨_, _, _, _, p, .dist1, rfl⟩
  · exact ⟨_, _, _, _, p, .dist2, rfl⟩
  · exact ⟨_, _, _, _, p, .dist3, rfl⟩
  · exact ⟨_, _, _, _, p, .dist4, rfl⟩
  · exact ⟨_, _, _, _, p, .dist5, rfl⟩

theorem Instr.IsDistance.encode_eq (hi : i.IsDistance t d) : encode i = encDist t d := by
  rcases hi with ⟨_, rfl, rfl, rfl⟩ | ⟨_, rfl, rfl, rfl⟩ | ⟨_, rfl, rfl, rfl⟩ | ⟨_, rfl, rfl, rfl⟩ |
    ⟨_, rfl, rfl, rfl⟩ <;> rfl

theorem Instr.IsLength.formatted (hi : i.IsLength h len) : i.Formatted .lbLen h := by
  rcases hi with ⟨p, rfl, rfl, -⟩ | ⟨p, rfl, rfl, -⟩
  · exact ⟨_, _, _, _, p, .lenS, rfl⟩
  · exact ⟨_, _, _, _, p, .lenL, rfl⟩

end

end Sys2Proof

namespace Sys2Proof.Machine

/-! ### The fields a token is made of -/

theorem toNat_ofNat_of_le {w v m : Nat} (hv : v ≤ m) (hm : m < 2 ^ w) : (BitVec.ofNat w v).toNat = v := by
  rw [BitVec.toNat_ofNat, Nat.mod_eq_of_lt (Nat.lt_of_le_of_lt hv hm)]

theorem isLiteralHeader_litS {r : Nat} (h : r ≤ 63) : (Instr.litS (BitVec.ofNat 6 r)).IsLiteralHeader 1 r :=
  .inl ⟨_, rfl, rfl, (toNat_ofNat_of_le h (by decide)).symm⟩

theorem isLiteralHeader_litL {r : Nat} (h : r ≤ 0x3FFF) : (Instr.litL (BitVec.ofNat 14 r)).IsLiteralHeader 2 r :=
  .inr ⟨_, rfl, rfl, (toNat_ofNat_of_le h (by decide)).symm⟩

theorem isLength_lenS {len : Nat} (h : len ≤ 127) : (Instr.lenS (BitVec.ofNat 7 len)).IsLength 1 len :=
  .inl ⟨_, rfl, rfl, (toNat_ofNat_of_le h (by decide)).symm⟩

theorem isLength_lenL {len : Nat} (h : len ≤ 0x7FFF) : (Instr.lenL (BitVec.ofNat 15 len)).IsLength 2 len :=
  .inr ⟨_, rfl, rfl, (toNat_ofNat_of_le h (by decide)).symm⟩

/-- The distance field of a class (R99). -/
def classField (cls d : Nat) : Instr :=
  match cls with
  | 1 => .dist1 (BitVec.ofNat 6 d)
  | 2 => .dist2 (BitVec.ofNat 13 d)
  | 3 => .dist3 (BitVec.ofNat 20 d)
  | 4 => .dist4 (BitVec.ofNat 27 d)
  | _ => .dist5 (BitVec.ofNat 34 d)

theorem distField_eq (d : Nat) : distField d = classField (distClass Config.barph d) d := rfl

/-- A distance within its class is the one its field of that class holds (R99, R101). -/
theorem isDistance_classField {cls d : Nat} (h1 : 1 ≤ cls) (h5 : cls ≤ 5) (hd : d ≤ Config.barph.distMax cls) :
    (classField cls d).IsDistance cls d := by
  have value : ∀ {w m : Nat}, d ≤ m → m < 2 ^ w → d = (BitVec.ofNat w d).toNat := fun hd hm =>
    (toNat_ofNat_of_le hd hm).symm
  match cls with
  | 1 => exact .inl ⟨_, rfl, rfl, value hd (by decide)⟩
  | 2 => exact .inr (.inl ⟨_, rfl, rfl, value hd (by decide)⟩)
  | 3 => exact .inr (.inr (.inl ⟨_, rfl, rfl, value hd (by decide)⟩))
  | 4 => exact .inr (.inr (.inr (.inl ⟨_, rfl, rfl, value hd (by decide)⟩)))
  | 5 => exact .inr (.inr (.inr (.inr ⟨_, rfl, rfl, value hd (by decide)⟩)))

/-- A well-formed literal token is a literal header and its run (R97, R98). -/
theorem Token.literal_bytes {long : Bool} {bs : List Byte} (hwf : (Token.literal long bs).wf = true) :
    ∃ (i : Instr) (h : Nat), i.IsLiteralHeader h bs.length ∧ (Token.literal long bs).bytes = encode i ++ bs := by
  have hlen := of_decide_eq_true hwf
  cases long with
  | false => exact ⟨_, _, isLiteralHeader_litS hlen, rfl⟩
  | true => exact ⟨_, _, isLiteralHeader_litL hlen, rfl⟩

/-- A well-formed match token is a distance field and a length field (R99, R102). -/
theorem Token.copy_bytes {cls d len : Nat} {long : Bool} (hwf : (Token.copy cls d long len).wf = true) :
    ∃ (i j : Instr) (h : Nat), i.IsDistance cls d ∧ j.IsLength h len ∧
      (Token.copy cls d long len).bytes = encode i ++ encode j := by
  obtain ⟨h1, h5, hd, hlen⟩ := of_decide_eq_true hwf
  have hi := isDistance_classField h1 h5 hd
  cases long with
  | false => exact ⟨_, _, _, hi, isLength_lenS hlen, by rw [hi.encode_eq]; rfl⟩
  | true => exact ⟨_, _, _, hi, isLength_lenL hlen, by rw [hi.encode_eq]; rfl⟩

theorem Token.bytes_length_pos {t : Token} (hwf : t.wf = true) : 0 < t.bytes.length := by
  cases t with
  | literal long bs =>
    obtain ⟨i, h, hi, hbytes⟩ := Token.literal_bytes hwf
    have := hi.formatted.pos
    rw [hbytes, List.length_append, hi.formatted.encode_length]
    omega
  | copy cls d long len =>
    obtain ⟨i, j, h, hi, -, hbytes⟩ := Token.copy_bytes hwf
    have := hi.formatted.pos
    rw [hbytes, List.length_append, hi.formatted.encode_length]
    omega

/-! ### What the decoder does with each -/

section
variable {i : Instr} {h r t d len : Nat} {S : List Byte} {max size : Nat} {c : LbDec}

theorem lbToken_of_literalHeader (hi : i.IsLiteralHeader h r) (hdec : decode .lbToken (S.drop c.lb.ip) = .ok (i, size)) :
    lbToken S max c = lbLiteral S max h r c := by
  rcases hi with ⟨_, rfl, rfl, rfl⟩ | ⟨_, rfl, rfl, rfl⟩ <;> rw [lbToken, hdec]

theorem lbToken_of_distance (hi : i.IsDistance t d) (hdec : decode .lbToken (S.drop c.lb.ip) = .ok (i, size)) :
    lbToken S max c = (lbDistance S t d c).andThen fun _ c => lbLengthField S max c := by
  rcases hi with ⟨_, rfl, rfl, rfl⟩ | ⟨_, rfl, rfl, rfl⟩ | ⟨_, rfl, rfl, rfl⟩ | ⟨_, rfl, rfl, rfl⟩ |
    ⟨_, rfl, rfl, rfl⟩ <;> rw [lbToken, hdec]

theorem lbToken_of_error {e : DecodeErr} (hdec : decode .lbToken (S.drop c.lb.ip) = .error e) :
    lbToken S max c = c.malformed := by
  rw [lbToken, hdec]

theorem lbToken_of_reserved (hdec : decode .lbToken (S.drop c.lb.ip) = .ok (.distReserved, size)) :
    lbToken S max c = c.malformed := by
  rw [lbToken, hdec]

theorem lbLengthField_of_length (hi : i.IsLength h len) (hdec : decode .lbLen (S.drop c.lb.ip) = .ok (i, size)) :
    lbLengthField S max c = lbLength S max h len c := by
  rcases hi with ⟨_, rfl, rfl, rfl⟩ | ⟨_, rfl, rfl, rfl⟩ <;> rw [lbLengthField, hdec]

theorem lbLengthField_of_error {e : DecodeErr} (hdec : decode .lbLen (S.drop c.lb.ip) = .error e) :
    lbLengthField S max c = lbLengthCut S c := by
  rw [lbLengthField, hdec]

/-- A literal run ends past the input or past the declared length and is malformed, or it is appended (R187). -/
theorem lbLiteral_cases (S : List Byte) (max h r : Nat) (c : LbDec) :
    ((S.length < c.lb.ip + h + r ∨ c.lb.olen < c.out.len + r) ∧
      ∃ ip, lbLiteral S max h r c = .stop (.raise .malformed) { c with lb := { c.lb with ip := ip } }) ∨
    (c.lb.ip + h + r ≤ S.length ∧ c.out.len + r ≤ c.lb.olen ∧
      ∀ o, appendBytes max (slice S (c.lb.ip + h) r) c.out = .ok () o →
        lbLiteral S max h r c = .ok () { lb := { c.lb with ip := c.lb.ip + h + r }, out := o }) := by
  unfold lbLiteral
  split
  · exact .inl ⟨.inl (by omega), c.lb.ip, rfl⟩
  · dsimp only
    split
    · exact .inl ⟨.inl (by assumption), c.lb.ip + h, rfl⟩
    · split
      · exact .inl ⟨.inr (by assumption), c.lb.ip + h, rfl⟩
      · exact .inr ⟨by omega, by omega, fun o ho => by rw [ho]; rfl⟩

end

end Sys2Proof.Machine
end

section
/-! SUPPORT. The elements of the lookback stream as steps of the block, and the two stream headers (spec 42_lookback_codec.md
R186 to R190; 43_huffman.md R210). -/

namespace Sys2Proof.Machine

/-! ### An operation of a decoder as a unit operation -/

/-- What the lookback decoder works on when its next element is met. -/
abbrev State.lbDec (s : State) : LbDec := { lb := s.lb, out := s.buf s.src.other }

/-- What the Huffman decoder works on when its next element is met. -/
abbrev State.hufDec (s : State) : HufDec := { huf := s.huf, inp := s.buf s.src, out := s.buf s.src.other }

section
variable {s : State}

theorem runUnit_onLbDec_ok (hs : s.seq ≠ .fatal) {op : List Byte → Nat → LbDec → Res LbDec Unit} {lb : Lookback}
    {o : Buffer} (h : op (s.buf s.src).data s.max s.lbDec = .ok () { lb := lb, out := o }) :
    runUnit (onLbDec op) s = .next { s.putBuf s.src.other o with lb := lb } := by
  rw [runUnit_running hs, onLbDec, h]
  rfl

theorem runUnit_onLbDec_raise (hs : s.seq ≠ .fatal) {op : List Byte → Nat → LbDec → Res LbDec Unit} {e : Err}
    {lb : Lookback} {o : Buffer} (h : op (s.buf s.src).data s.max s.lbDec = .stop (.raise e) { lb := lb, out := o }) :
    runUnit (onLbDec op) s = .next (takeError e { s.putBuf s.src.other o with lb := lb }) := by
  rw [runUnit_running hs, onLbDec, h]
  rfl

/-- An operation that raises before it has touched the output. -/
theorem runUnit_onLbDec_raise_unwritten (hs : s.seq ≠ .fatal) {op : List Byte → Nat → LbDec → Res LbDec Unit} {e : Err}
    {lb : Lookback} (h : op (s.buf s.src).data s.max s.lbDec =
      .stop (.raise e) { lb := lb, out := s.buf s.src.other }) :
    runUnit (onLbDec op) s = .next (takeError e { s with lb := lb }) := by
  rw [runUnit_onLbDec_raise hs h, putBuf_buf]

theorem runUnit_onHufDec_ok (hs : s.seq ≠ .fatal) {op : Nat → HufDec → Res HufDec Unit} {huf : Huffman}
    {inp o : Buffer} (h : op s.max s.hufDec = .ok () { huf := huf, inp := inp, out := o }) :
    runUnit (onHufDec op) s = .next { (s.putBuf s.src inp).putBuf s.src.other o with huf := huf } := by
  rw [runUnit_running hs, onHufDec, h]
  rfl

theorem runUnit_onHufDec_raise_unwritten (hs : s.seq ≠ .fatal) {op : Nat → HufDec → Res HufDec Unit} {e : Err}
    {huf : Huffman} {inp : Buffer} (h : op s.max s.hufDec =
      .stop (.raise e) { huf := huf, inp := inp, out := s.buf s.src.other }) :
    runUnit (onHufDec op) s = .next (takeError e { s.putBuf s.src inp with huf := huf }) := by
  rw [runUnit_running hs, onHufDec, h, Res.inside_stop, putBuf_putBuf_other_buf]
  rfl

end

/-! ### The operations by their instructions -/

section
variable {i : Instr} {h r t d len : Nat}

theorem exec_lbHdr (n : U64) (s : State) : exec (.lbHdr n) s = runUnit (onLbDec fun S max => lbHeader S max n.toNat) s := rfl

theorem exec_hufHdr (n : U64) (s : State) : exec (.hufHdr n) s = runUnit (onHufDec fun max => hufHeader max n.toNat) s := rfl

theorem exec_distReserved {s : State} (hs : s.seq ≠ .fatal) : exec .distReserved s = .next (takeError .malformed s) := by
  rw [exec, execDistReserved, runUnit_running hs]
  rfl

theorem exec_of_literalHeader (hi : i.IsLiteralHeader h r) (s : State) :
    exec i s = runUnit (onLbDec fun S max => lbLiteral S max h r) s := by
  rcases hi with ⟨_, rfl, rfl, rfl⟩ | ⟨_, rfl, rfl, rfl⟩ <;> rfl

theorem exec_of_distance (hi : i.IsDistance t d) (s : State) :
    exec i s = runUnit (onLbDec fun S _ => lbDistance S t d) s := by
  rcases hi with ⟨_, rfl, rfl, rfl⟩ | ⟨_, rfl, rfl, rfl⟩ | ⟨_, rfl, rfl, rfl⟩ | ⟨_, rfl, rfl, rfl⟩ |
    ⟨_, rfl, rfl, rfl⟩ <;> rfl

theorem exec_of_length (hi : i.IsLength h len) (s : State) :
    exec i s = runUnit (onLbDec fun S max => lbLength S max h len) s := by
  rcases hi with ⟨_, rfl, rfl, rfl⟩ | ⟨_, rfl, rfl, rfl⟩ <;> rfl

end

/-! ### The headers -/

/-- The lookback header is recorded and the output fresh, or there is no room for it or its length is beyond the bound (R186). -/
theorem lbHeader_cases (S : List Byte) (max n : Nat) (c : LbDec) :
    (8 ≤ S.length ∧ n ≤ max ∧
      lbHeader S max n c = .ok () { lb := { c.lb with olen := n, ip := 8 }, out := c.out.release }) ∨
    ((S.length < 8 ∨ max < n) ∧ ∃ olen ip,
      lbHeader S max n c = .stop (.raise .malformed) { c with lb := { c.lb with olen := olen, ip := ip } }) := by
  unfold lbHeader
  split
  · exact .inr ⟨.inl (by assumption), c.lb.olen, c.lb.ip, rfl⟩
  · dsimp only
    split
    · exact .inr ⟨.inr (by assumption), n, 8, rfl⟩
    · exact .inl ⟨by omega, by omega, rfl⟩

/-- The Huffman header's 64 bits are consumed, its length recorded and the output fresh, or the bits run out or the length is
beyond the bound (R210). -/
theorem hufHeader_cases (max n : Nat) (c : HufDec) :
    (8 ≤ c.inp.len ∧ n ≤ max ∧ hufHeader max n c = .ok ()
      { huf := { c.huf with hlen := n, nnodes := if n = 0 then c.huf.nnodes else 0 }
        inp := { c.inp with rcur := { byte := 8, bit := 0 } }
        out := c.out.release }) ∨
    ((c.inp.len < 8 ∨ max < n) ∧ ∃ hlen inp,
      hufHeader max n c = .stop (.raise .malformed) { huf := { c.huf with hlen := hlen }, inp := inp, out := c.out }) := by
  have hcur : Cursor.atBit (({ c.inp with rcur := {} } : Buffer).rbits + 64) = { byte := 8, bit := 0 } := by
    simp [Buffer.rbits, Cursor.atBit]
  unfold hufHeader
  rcases HufDec.bits_cases { c with inp := { c.inp with rcur := {} } } 64 with ⟨hlen, hbits⟩ | ⟨hlen, hbits⟩
  · have hroom : 8 ≤ c.inp.len := by simp only [Buffer.rbits, len_eq] at hlen ⊢; omega
    rw [hbits, Res.andThen_ok]
    dsimp only
    rw [hcur]
    split
    · exact .inr ⟨.inr (by assumption), n, _, rfl⟩
    · refine .inl ⟨hroom, by omega, ?_⟩
      split <;> rfl
  · have hcut : c.inp.len < 8 := by simp only [Buffer.rbits, len_eq] at hlen ⊢; omega
    rw [hbits]
    exact .inr ⟨.inl hcut, c.huf.hlen, _, rfl⟩

end Sys2Proof.Machine
end

namespace Sys2Proof.Proofs

open Sys2Proof Sys2Proof.Machine

/-- Settles O35: each header is read by one function that succeeds with room and a length within the bound, and only then. -/
theorem streamHeaderMet : Obligations.StreamHeaderMet := by
  intro s n hs
  rw [exec_lbHdr, exec_hufHdr]
  refine ⟨fun hroom hn => ⟨?_, ?_⟩, fun hbad => ⟨?_, ?_⟩⟩
  · rcases lbHeader_cases (s.buf s.src).data s.max n.toNat s.lbDec with
      ⟨-, -, hrun⟩ | ⟨hbad, -⟩
    · exact runUnit_onLbDec_ok hs hrun
    · exact absurd hbad (not_or.mpr ⟨Nat.not_lt.mpr hroom, Nat.not_lt.mpr hn⟩)
  · rcases hufHeader_cases s.max n.toNat s.hufDec with
      ⟨-, -, hrun⟩ | ⟨hbad, -⟩
    · simp only [BitVec.toNat_eq, BitVec.toNat_ofNat]
      exact runUnit_onHufDec_ok hs hrun
    · exact absurd hbad (not_or.mpr ⟨Nat.not_lt.mpr hroom, Nat.not_lt.mpr hn⟩)
  · rcases lbHeader_cases (s.buf s.src).data s.max n.toNat s.lbDec with
      ⟨hroom, hn, -⟩ | ⟨-, olen, ip, hrun⟩
    · exact absurd hbad (not_or.mpr ⟨Nat.not_lt.mpr hroom, Nat.not_lt.mpr hn⟩)
    · exact ⟨_, runUnit_onLbDec_raise_unwritten hs hrun⟩
  · rcases hufHeader_cases s.max n.toNat s.hufDec with
      ⟨hroom, hn, -⟩ | ⟨-, hlen, inp, hrun⟩
    · exact absurd hbad (not_or.mpr ⟨Nat.not_lt.mpr hroom, Nat.not_lt.mpr hn⟩)
    · exact ⟨inp, hlen, runUnit_onHufDec_raise_unwritten hs hrun⟩

/-- Settles O37: a distance field is consumed whole or not at all. -/
theorem distanceFieldMet : Obligations.DistanceFieldMet := by
  intro s i t d hs
  refine ⟨exec_distReserved hs, fun hi => ?_⟩
  rw [exec_of_distance hi]
  rcases lbDistance_cases (s.buf s.src).data t d s.lbDec with ⟨hroom, hrun⟩ | ⟨hcut, hrun⟩
  · exact ⟨fun _ => by rw [runUnit_onLbDec_ok hs hrun, putBuf_buf], fun hcut => absurd hroom (Nat.not_le.mpr hcut)⟩
  · exact ⟨fun hroom => absurd hroom (Nat.not_le.mpr hcut), fun _ => runUnit_onLbDec_raise_unwritten hs hrun⟩

/-- Settles O36: a literal run that stays within the input, the declared length and the bound is one append. -/
theorem literalTokenMet : Obligations.LiteralTokenMet := by
  intro s i h r hs hi
  rw [exec_of_literalHeader hi]
  rcases lbLiteral_cases (s.buf s.src).data s.max h r s.lbDec with
    ⟨hbad, ip, hrun⟩ | ⟨hinput, hdeclared, hrun⟩
  · refine ⟨fun hinput hdeclared _ => ?_, fun _ => ⟨ip, runUnit_onLbDec_raise_unwritten hs hrun⟩⟩
    exact absurd hbad (not_or.mpr ⟨Nat.not_lt.mpr hinput, Nat.not_lt.mpr hdeclared⟩)
  · refine ⟨fun _ _ hbound => ?_, fun hbad => absurd hbad (not_or.mpr ⟨Nat.not_lt.mpr hinput, Nat.not_lt.mpr hdeclared⟩)⟩
    have hfits : (s.buf s.src.other).len + (slice (s.buf s.src).data (s.lb.ip + h) r).length ≤ s.max :=
      (Nat.add_le_add_left (List.length_take_le _ _) _).trans hbound
    obtain ⟨cap, w, happend, -⟩ := appendBytes_room _ hfits
    refine ⟨_, runUnit_onLbDec_ok hs (hrun _ happend), ?_⟩
    exact ⟨rfl, rfl⟩

/-- Settles O38: a length field is malformed before the copy begins, or the copy has room and takes each byte from the waiting
distance. -/
theorem lengthFieldMet : Obligations.LengthFieldMet := by
  intro s i h len hs hi
  rw [exec_of_length hi]
  rcases lbLength_cases (s.buf s.src).data s.max h len s.lbDec with
    ⟨hcut, hrun⟩ | ⟨-, hbad, hrun⟩ | ⟨hfield, hpos, hreach, hdeclared, hrun⟩
  · exact ⟨fun hfield => absurd hfield (Nat.not_le.mpr hcut), fun _ => ⟨_, runUnit_onLbDec_raise_unwritten hs hrun⟩⟩
  · refine ⟨fun _ hpos hreach hdeclared _ => ?_, fun _ => ⟨_, runUnit_onLbDec_raise_unwritten hs hrun⟩⟩
    dsimp only at hbad
    omega
  · refine ⟨fun _ _ _ _ hbound => ?_, fun hbad => ?_⟩
    · obtain ⟨v, hcopy, hrcur, bs, hlen, hdata, hback⟩ :=
        matchCopy_room s.max s.lb.dist len (s.buf s.src.other) hbound hpos hreach
      refine ⟨v, runUnit_onLbDec_ok hs (hrun.trans (by rw [hcopy, Res.inside_ok])), ?_, hrcur, fun k hk => ?_, hback⟩
      · rw [len_eq, hdata, List.length_append, hlen, len_eq]
      · rw [hdata]
        exact List.getD_append _ _ _ _ hk
    · dsimp only [len_eq] at *
      omega

end Sys2Proof.Proofs

section
/-! SUPPORT. The lookback decoder computes the meaning of a token stream (spec 42_lookback_codec.md R180, R185 to R191): the
meaning as an extension of the output, one token as one step of the decoder, and the tokens of a stream by induction. -/

namespace Sys2Proof.Machine

/-! ### The meaning of tokens -/

theorem repeatBack_eq_append (d : Nat) : ∀ (n : Nat) (out : List Byte),
    ∃ bs, bs.length = n ∧ repeatBack d n out = out ++ bs
  | 0, out => ⟨[], rfl, (List.append_nil out).symm⟩
  | n + 1, out => by
    obtain ⟨bs, hlen, hbs⟩ := repeatBack_eq_append d n (out ++ [out.getD (out.length - d) 0#8])
    refine ⟨out.getD (out.length - d) 0#8 :: bs, by rw [List.length_cons, hlen], ?_⟩
    rw [repeatBack, hbs, List.append_assoc]
    rfl

theorem repeatBack_length (d n : Nat) (out : List Byte) : (repeatBack d n out).length = out.length + n := by
  obtain ⟨bs, hlen, hbs⟩ := repeatBack_eq_append d n out
  rw [hbs, List.length_append, hlen]

theorem Token.apply_copy {cls d len : Nat} {long : Bool} {out : List Byte} (h1 : 1 ≤ d) (hd : d ≤ out.length) :
    (Token.copy cls d long len).apply out = some (repeatBack d len out) := if_pos ⟨h1, hd⟩

/-- A distance of 0 or beyond the output means nothing (R189). -/
theorem Token.apply_copy_none {cls d len : Nat} {long : Bool} {out : List Byte} (h : d = 0 ∨ out.length < d) :
    (Token.copy cls d long len).apply out = none := if_neg (by omega)

/-- A token only extends the output (R180). -/
theorem Token.apply_prefix {t : Token} {out o : List Byte} (h : t.apply out = some o) : out <+: o := by
  cases t with
  | literal long bs =>
    cases h
    exact List.prefix_append out bs
  | copy cls d long len =>
    obtain ⟨-, hres⟩ := Option.ite_none_right_eq_some.mp h
    obtain ⟨bs, -, hbs⟩ := repeatBack_eq_append d len out
    cases hres
    exact hbs ▸ List.prefix_append out bs

theorem tokensMeaning_cons (t : Token) (ts : List Token) (out : List Byte) :
    tokensMeaning (t :: ts) out = (t.apply out).bind (tokensMeaning ts) := rfl

theorem tokensMeaning_prefix : ∀ (ts : List Token) {out o : List Byte}, tokensMeaning ts out = some o → out <+: o
  | [], _, _, h => by
    cases h
    exact List.prefix_rfl
  | t :: ts, out, o, h => by
    rw [tokensMeaning_cons, Option.bind_eq_some_iff] at h
    obtain ⟨mid, hmid, hrest⟩ := h
    exact (Token.apply_prefix hmid).trans (tokensMeaning_prefix ts hrest)

/-! ### Places in the stream -/

/-- What stands after the bytes at a place. -/
theorem drop_add_length {S a rest : List Byte} {p : Nat} (h : S.drop p = a ++ rest) : S.drop (p + a.length) = rest := by
  rw [← List.drop_drop, h, List.drop_left]

theorem length_sub_of_drop {S a rest : List Byte} {p : Nat} (h : S.drop p = a ++ rest) :
    S.length - p = a.length + rest.length := by
  rw [← List.length_drop, h, List.length_append]

/-- The header of a stream that has one (R186). -/
theorem leBytes_append_header {n : Nat} (h : n < 2 ^ 64) (rest : List Byte) :
    fromLE ((leBytes n 8 ++ rest).take 8) = n ∧ 8 ≤ (leBytes n 8 ++ rest).length := by
  rw [List.take_left' (leBytes_length n 8), List.length_append, leBytes_length]
  exact ⟨fromLE_leBytes_of_lt h, Nat.le_add_right ..⟩

/-! ### One token -/

/-- The decoder's registers that no token writes (R29). -/
structure LbDec.SameStream (c c' : LbDec) : Prop where
  olen : c'.lb.olen = c.lb.olen
  runStart : c'.lb.runStart = c.lb.runStart

theorem LbDec.SameStream.refl (c : LbDec) : c.SameStream c := ⟨rfl, rfl⟩

theorem LbDec.SameStream.trans {c c' c'' : LbDec} (h : c.SameStream c') (h' : c'.SameStream c'') : c.SameStream c'' :=
  ⟨h'.olen.trans h.olen, h'.runStart.trans h.runStart⟩

theorem LbDec.SameStream.lb_eq {c c' : LbDec} (h : c.SameStream c') :
    c'.lb = { c.lb with ip := c'.lb.ip, dist := c'.lb.dist } := by
  calc c'.lb = { c'.lb with olen := c'.lb.olen, runStart := c'.lb.runStart } := rfl
    _ = { c.lb with ip := c'.lb.ip, dist := c'.lb.dist } := by rw [h.olen, h.runStart]

/-- The match copy with room writes what the token means (R180, R190). -/
theorem matchCopy_repeatBack (max d : Nat) : ∀ (n : Nat) (o : Buffer), o.len + n ≤ max →
    ∃ v, matchCopy max d n o = .ok () v ∧ v.data = repeatBack d n o.data
  | 0, o, _ => ⟨o, rfl, rfl⟩
  | n + 1, o, h => by
    rw [matchCopy, appendByte_room _ (by omega), Res.andThen_ok]
    refine matchCopy_repeatBack max d n _ ?_
    rw [len_eq] at h ⊢
    rw [List.length_append, List.length_singleton]
    omega

/-- The decoder after a token: the output and the place it has come to. -/
def LbDec.After (S : List Byte) (c : LbDec) (out rest : List Byte) (c' : LbDec) : Prop :=
  c.SameStream c' ∧ c'.out.data = out ∧ S.drop c'.lb.ip = rest

/-- The operation ends in `MalformedStreamError`, the stream's registers as they were. -/
def LbDec.Breaks (c : LbDec) (r : Res LbDec Unit) : Prop :=
  ∃ c', r = .stop (.raise .malformed) c' ∧ c.SameStream c'

theorem LbDec.malformed_breaks (c : LbDec) : c.Breaks c.malformed := ⟨c, rfl, .refl c⟩

section
variable {S : List Byte} {max : Nat} {c : LbDec}

/-- A literal token is malformed when it would pass the declared length, and is otherwise appended (R187). -/
theorem lbToken_literal {i : Instr} {h : Nat} {bs rest : List Byte} (hi : i.IsLiteralHeader h bs.length)
    (hmax : c.lb.olen ≤ max) (hS : S.drop c.lb.ip = encode i ++ (bs ++ rest)) :
    (c.out.len + bs.length ≤ c.lb.olen ∧
      ∃ c', lbToken S max c = .ok () c' ∧ c.After S (c.out.data ++ bs) rest c') ∨
    (c.lb.olen < c.out.len + bs.length ∧ c.Breaks (lbToken S max c)) := by
  have hlen := hi.formatted.encode_length
  have hpos := hi.formatted.pos
  have hend : S.drop (c.lb.ip + h) = bs ++ rest := hlen ▸ drop_add_length hS
  have hroom := length_sub_of_drop hS
  rw [hlen, List.length_append] at hroom
  rw [lbToken_of_literalHeader hi (hS ▸ hi.formatted.decode_encode _)]
  rcases lbLiteral_cases S max h bs.length c with ⟨hbad, ip, hrun⟩ | ⟨-, hdeclared, hrun⟩
  · exact .inr ⟨by omega, _, hrun, rfl, rfl⟩
  · obtain ⟨cap, w, happend, -⟩ := appendBytes_room (max := max) bs (hdeclared.trans hmax)
    have hslice : slice S (c.lb.ip + h) bs.length = bs := by rw [slice, hend, List.take_left]
    rw [hslice] at hrun
    exact .inl ⟨hdeclared, _, hrun _ happend, ⟨rfl, rfl⟩, rfl, drop_add_length hend⟩

/-- A match token is malformed when its distance reaches outside the output or it would pass the declared length, and is
otherwise copied (R188 to R190). -/
theorem lbToken_copy {i j : Instr} {t h d len : Nat} {rest : List Byte} (hi : i.IsDistance t d) (hj : j.IsLength h len)
    (hmax : c.lb.olen ≤ max) (hS : S.drop c.lb.ip = encode i ++ (encode j ++ rest)) :
    (1 ≤ d ∧ d ≤ c.out.len ∧ c.out.len + len ≤ c.lb.olen ∧
      ∃ c', lbToken S max c = .ok () c' ∧ c.After S (repeatBack d len c.out.data) rest c') ∨
    ((d = 0 ∨ c.out.len < d ∨ c.lb.olen < c.out.len + len) ∧ c.Breaks (lbToken S max c)) := by
  have hend : S.drop (c.lb.ip + t) = encode j ++ rest := hi.formatted.encode_length ▸ drop_add_length hS
  have hend' : S.drop (c.lb.ip + t + h) = rest := hj.formatted.encode_length ▸ drop_add_length hend
  have hpos := hi.formatted.pos
  have hroom := length_sub_of_drop hS
  rw [List.length_append, hi.formatted.encode_length, hj.formatted.encode_length] at hroom
  rw [lbToken_of_distance hi (hS ▸ hi.formatted.decode_encode _)]
  rcases lbDistance_cases S t d c with ⟨-, hdist⟩ | ⟨hcut, -⟩
  · rw [hdist, Res.andThen_ok, lbLengthField_of_length hj (by rw [hend]; exact hj.formatted.decode_encode _)]
    rcases lbLength_cases S max h len { c with lb := { c.lb with ip := c.lb.ip + t, dist := d } } with
      ⟨hcut, -⟩ | ⟨-, hbad, hrun⟩ | ⟨-, h1, hreach, hdeclared, hrun⟩
    · dsimp only at hcut
      omega
    · exact .inr ⟨hbad, _, hrun, rfl, rfl⟩
    · obtain ⟨v, hcopy, hdata⟩ := matchCopy_repeatBack max d len c.out (hdeclared.trans hmax)
      have hres := hrun.trans (by rw [hcopy, Res.inside_ok])
      exact .inl ⟨h1, hreach, hdeclared, _, hres, ⟨rfl, rfl⟩, hdata, hend'⟩
  · omega

/-- A whole token: the decoder does to the output what the token means, or, where it means nothing or its meaning passes the
declared length, the stream is malformed (R187 to R190). -/
theorem lbToken_whole {t : Token} {rest : List Byte} (hwf : t.wf = true) (hmax : c.lb.olen ≤ max)
    (hS : S.drop c.lb.ip = t.bytes ++ rest) :
    (∃ o c', t.apply c.out.data = some o ∧ o.length ≤ c.lb.olen ∧ lbToken S max c = .ok () c' ∧ c.After S o rest c') ∨
    ((∀ o, t.apply c.out.data = some o → c.lb.olen < o.length) ∧ c.Breaks (lbToken S max c)) := by
  cases t with
  | literal long bs =>
    obtain ⟨i, h, hi, hbytes⟩ := Token.literal_bytes hwf
    rw [hbytes, List.append_assoc] at hS
    rcases lbToken_literal hi hmax hS with ⟨hfits, c', hrun, hafter⟩ | ⟨hpast, hbreak⟩
    · exact .inl ⟨_, c', rfl, by rwa [List.length_append], hrun, hafter⟩
    · refine .inr ⟨fun o ho => ?_, hbreak⟩
      cases ho
      rwa [List.length_append]
  | copy cls d long len =>
    obtain ⟨i, j, h, hi, hj, hbytes⟩ := Token.copy_bytes hwf
    rw [hbytes, List.append_assoc] at hS
    rcases lbToken_copy hi hj hmax hS with ⟨h1, hreach, hfits, c', hrun, hafter⟩ | ⟨hbad, hbreak⟩
    · exact .inl ⟨_, c', Token.apply_copy h1 hreach, by rwa [repeatBack_length], hrun, hafter⟩
    · refine .inr ⟨fun o ho => ?_, hbreak⟩
      by_cases hout : d = 0 ∨ c.out.data.length < d
      · rw [Token.apply_copy_none hout] at ho
        exact nomatch ho
      · rw [Token.apply_copy (by omega) (by omega)] at ho
        cases ho
        rw [repeatBack_length]
        rw [len_eq] at hbad
        omega

/-- A token that the stream ends inside is malformed (R187, R188, R191 (b)). -/
theorem lbToken_cut {t : Token} {k : Nat} (hwf : t.wf = true) (hk : k < t.bytes.length)
    (hS : S.drop c.lb.ip = t.bytes.take k) : c.Breaks (lbToken S max c) := by
  cases t with
  | literal long bs =>
    obtain ⟨i, h, hi, hbytes⟩ := Token.literal_bytes hwf
    rw [hbytes, List.length_append, hi.formatted.encode_length] at hk
    rw [hbytes] at hS
    rcases Nat.lt_or_ge k h with hhead | hhead
    · rw [List.take_append_of_le_length (by rw [hi.formatted.encode_length]; omega)] at hS
      rw [lbToken_of_error (hS ▸ hi.formatted.decode_take hhead)]
      exact c.malformed_breaks
    · rw [List.take_append, List.take_of_length_le (by rw [hi.formatted.encode_length]; exact hhead)] at hS
      have hpos := hi.formatted.pos
      have hroom := length_sub_of_drop hS
      rw [hi.formatted.encode_length, List.length_take] at hroom
      rw [lbToken_of_literalHeader hi (hS ▸ hi.formatted.decode_encode _)]
      rcases lbLiteral_cases S max h bs.length c with ⟨-, ip, hrun⟩ | ⟨hinput, -, -⟩
      · exact ⟨_, hrun, rfl, rfl⟩
      · omega
  | copy cls d long len =>
    obtain ⟨i, j, h, hi, hj, hbytes⟩ := Token.copy_bytes hwf
    rw [hbytes, List.length_append, hi.formatted.encode_length, hj.formatted.encode_length] at hk
    rw [hbytes] at hS
    rcases Nat.lt_or_ge k cls with hhead | hhead
    · rw [List.take_append_of_le_length (by rw [hi.formatted.encode_length]; omega)] at hS
      rw [lbToken_of_error (hS ▸ hi.formatted.decode_take hhead)]
      exact c.malformed_breaks
    · rw [List.take_append, List.take_of_length_le (by rw [hi.formatted.encode_length]; exact hhead)] at hS
      have hend := drop_add_length hS
      rw [hi.formatted.encode_length] at hend
      rw [lbToken_of_distance hi (hS ▸ hi.formatted.decode_encode _)]
      rcases lbDistance_cases S cls d c with ⟨-, hdist⟩ | ⟨-, hcut⟩
      · rw [hdist, Res.andThen_ok, lbLengthField_of_error (by rw [hend]; exact hj.formatted.decode_take (by omega)),
          lbLengthCut_eq]
        exact ⟨_, rfl, rfl, rfl⟩
      · rw [hcut]
        exact c.malformed_breaks

/-- The reserved tag is malformed (R104, R188). -/
theorem lbToken_reserved {b : Byte} {trailing : List Byte} (hb : b.extractLsb' 0 6 = 0x3F#6)
    (hS : S.drop c.lb.ip = b :: trailing) : c.Breaks (lbToken S max c) := by
  have hbits : b.toNat % 64 = 63 := by
    have := congrArg BitVec.toNat hb
    rwa [BitVec.extractLsb'_toNat, Nat.shiftRight_zero] at this
  rcases hasFormat_lbToken b with ⟨tag, k, n, w, mk, hf, htag⟩ | hres
  · cases hf <;> omega
  · rw [lbToken_of_reserved (hS ▸ hres trailing)]
    exact c.malformed_breaks

theorem lbToken_broken {rest : List Byte} (hmax : c.lb.olen ≤ max) (hS : S.drop c.lb.ip = rest)
    (h : BrokenToken c.lb.olen c.out.data rest) : c.Breaks (lbToken S max c) := by
  rcases h with ⟨t, k, hwf, hk, rfl⟩ | ⟨t, trailing, hwf, rfl, hbad⟩ | ⟨b, trailing, rfl, hb⟩
  · exact lbToken_cut hwf hk hS
  · rcases lbToken_whole hwf hmax hS with ⟨o, c', ho, hfits, -⟩ | ⟨-, hbreak⟩
    · exact absurd (hbad o ho) (Nat.not_lt.mpr hfits)
    · exact hbreak
  · exact lbToken_reserved hb hS

end

/-! ### The loop -/

/-- Through the tokens of a stream the decoder comes to their meaning: it ends there if that is the declared length, and
otherwise goes on with what follows them (R185). -/
theorem decodeLoop_tokens {S : List Byte} {max : Nat} {out rest : List Byte} : ∀ (ts : List Token) (fuel : Nat) (c : LbDec),
    (∀ t ∈ ts, t.wf = true) → tokensMeaning ts c.out.data = some out → out.length ≤ c.lb.olen → c.lb.olen ≤ max →
    S.drop c.lb.ip = (ts.map Token.bytes).flatten ++ rest → (S.drop c.lb.ip).length < fuel →
    (out.length = c.lb.olen ∧ ∃ c', decodeLoop S max fuel c = .ok () c' ∧ c.SameStream c' ∧ c'.out.data = out) ∨
    (out.length < c.lb.olen ∧ ∃ fuel' c', decodeLoop S max fuel c = decodeLoop S max (fuel' + 1) c' ∧ c.After S out rest c')
  | _, 0, _, _, _, _, _, _, hfuel => absurd hfuel (Nat.not_lt_zero _)
  | [], fuel + 1, c, _, hmean, hout, _, hS, _ => by
    obtain rfl : c.out.data = out := Option.some.inj hmean
    rcases Nat.lt_or_eq_of_le hout with hlt | heq
    · exact .inr ⟨hlt, fuel, c, rfl, .refl c, rfl, hS⟩
    · exact .inl ⟨heq, c, by rw [decodeLoop, if_neg (by rw [len_eq]; omega)], .refl c, rfl⟩
  | t :: ts, fuel + 1, c, hwf, hmean, hout, hmax, hS, hfuel => by
    have hpre := tokensMeaning_prefix _ hmean
    rcases Nat.lt_or_ge c.out.len c.lb.olen with hlt | hge
    · rw [tokensMeaning_cons, Option.bind_eq_some_iff] at hmean
      obtain ⟨mid, hmid, hrest⟩ := hmean
      have hfits : mid.length ≤ c.lb.olen := (tokensMeaning_prefix ts hrest).length_le.trans hout
      have hpos := Token.bytes_length_pos (hwf t List.mem_cons_self)
      rw [List.map_cons, List.flatten_cons, List.append_assoc] at hS
      rcases lbToken_whole (hwf t List.mem_cons_self) hmax hS with ⟨o, c', ho, -, hrun, hafter⟩ | ⟨hbad, -⟩
      · obtain rfl : o = mid := Option.some.inj (ho.symm.trans hmid)
        obtain ⟨hsame, hdata, hplace⟩ := hafter
        rw [decodeLoop, if_pos hlt, hrun, Res.andThen_ok]
        have hfuel' : (S.drop c'.lb.ip).length < fuel := by
          rw [hS, List.length_append] at hfuel
          rw [hplace]
          omega
        rcases decodeLoop_tokens ts fuel c' (fun t ht => hwf t (List.mem_cons_of_mem _ ht)) (hdata ▸ hrest)
          (hsame.olen ▸ hout) (hsame.olen ▸ hmax) hplace hfuel' with
          ⟨hend, c'', hloop, hs, hd⟩ | ⟨hgo, fuel', c'', hloop, hs, hd⟩
        · exact .inl ⟨hend.trans hsame.olen, c'', hloop, hsame.trans hs, hd⟩
        · exact .inr ⟨hsame.olen ▸ hgo, fuel', c'', hloop, hsame.trans hs, hd⟩
      · exact absurd (hbad mid hmid) (Nat.not_lt.mpr hfits)
    · have heq : c.out.data = out := hpre.eq_of_length_le (hout.trans hge)
      have hlen : out.length = c.lb.olen := Nat.le_antisymm hout (heq ▸ hge)
      exact .inl ⟨hlen, c, by rw [decodeLoop, if_neg (Nat.not_lt.mpr hge)], .refl c, heq⟩

/-! ### The operation -/

/-- The decoder's start on a stream whose header is within the bound (R186). -/
theorem lbDecode_header {max n : Nat} (hn : n ≤ max) (hw : n < 2 ^ 64) (rest : List Byte) (c : LbDec) :
    lbDecode (leBytes n 8 ++ rest) max c =
      decodeLoop (leBytes n 8 ++ rest) max ((leBytes n 8 ++ rest).length + 1)
        { lb := { c.lb with olen := n, ip := 8 }, out := c.out.release } := by
  obtain ⟨hread, hlen⟩ := leBytes_append_header hw rest
  rw [lbDecode, hread]
  rcases lbHeader_cases (leBytes n 8 ++ rest) max n c with ⟨-, -, hrun⟩ | ⟨hbad, -⟩
  · rw [hrun, Res.andThen_ok]
  · omega

/-- The decoder on a stream that begins with well-formed tokens: it comes to their meaning, and ends there if that is the declared
length (R180, R185). -/
theorem lbDecode_tokens {max n : Nat} (hn : n ≤ max) (hw : n < 2 ^ 64) {ts : List Token} {out : List Byte}
    (hwf : ∀ t ∈ ts, t.wf = true) (hmean : tokensMeaning ts [] = some out) (hout : out.length ≤ n) (rest : List Byte)
    (c : LbDec) :
    (out.length = n ∧ ∃ ip dist o, lbDecode (lbStream n ts ++ rest) max c =
      .ok () { lb := { c.lb with olen := n, ip := ip, dist := dist }, out := o } ∧ o.data = out) ∨
    (out.length < n ∧ ∃ fuel c',
      lbDecode (lbStream n ts ++ rest) max c = decodeLoop (lbStream n ts ++ rest) max (fuel + 1) c' ∧
      LbDec.After (lbStream n ts ++ rest) { lb := { c.lb with olen := n, ip := 8 }, out := c.out.release } out rest c') := by
  have hstream : lbStream n ts ++ rest = leBytes n 8 ++ ((ts.map Token.bytes).flatten ++ rest) := List.append_assoc ..
  have hplace : (lbStream n ts ++ rest).drop 8 = (ts.map Token.bytes).flatten ++ rest := by
    rw [hstream, List.drop_left' (leBytes_length n 8)]
  have hfuel : ((lbStream n ts ++ rest).drop 8).length < (lbStream n ts ++ rest).length + 1 := by
    rw [List.length_drop]
    omega
  have hstart := lbDecode_header hn hw ((ts.map Token.bytes).flatten ++ rest) c
  rw [← hstream] at hstart
  rw [hstart]
  rcases decodeLoop_tokens ts _ { lb := { c.lb with olen := n, ip := 8 }, out := c.out.release } hwf hmean hout hn hplace
    hfuel with ⟨hend, c', hloop, hsame, hdata⟩ | hgo
  · refine .inl ⟨hend, c'.lb.ip, c'.lb.dist, c'.out, ?_, hdata⟩
    rw [hloop, ← hsame.lb_eq]
  · exact .inr hgo

/-- The stream of a meaning, whatever follows it, is decoded (R180, R185). -/
theorem lbDecode_stream {max : Nat} {ts : List Token} {out : List Byte} (hwf : ∀ t ∈ ts, t.wf = true)
    (hmean : tokensMeaning ts [] = some out) (hmax : out.length ≤ max) (hw : max < 2 ^ 64) (trailing : List Byte) (c : LbDec) :
    ∃ ip dist o, lbDecode (lbStream out.length ts ++ trailing) max c =
      .ok () { lb := { c.lb with olen := out.length, ip := ip, dist := dist }, out := o } ∧ o.data = out := by
  rcases lbDecode_tokens hmax (Nat.lt_of_le_of_lt hmax hw) hwf hmean le_rfl trailing c with ⟨-, hend⟩ | ⟨hlt, -⟩
  · exact hend
  · exact absurd hlt (Nat.lt_irrefl _)

/-- A broken stream is malformed, and what the decoder has written by then are its registers and its output (R186 to R191). -/
theorem lbDecode_broken {S : List Byte} {max : Nat} (h : BrokenStream max S) (hw : max < 2 ^ 64) (c : LbDec) :
    ∃ olen ip dist o, lbDecode S max c =
      .stop (.raise .malformed) { lb := { c.lb with olen := olen, ip := ip, dist := dist }, out := o } := by
  have badHeader : S.length < 8 ∨ max < fromLE (S.take 8) → ∃ olen ip dist o, lbDecode S max c =
      .stop (.raise .malformed) { lb := { c.lb with olen := olen, ip := ip, dist := dist }, out := o } := fun hbad => by
    rcases lbHeader_cases S max (fromLE (S.take 8)) c with ⟨_, _, -⟩ | ⟨-, olen, ip, hrun⟩
    · omega
    · exact ⟨olen, ip, c.lb.dist, c.out, by rw [lbDecode, hrun]; rfl⟩
  rcases h with hshort | ⟨n, rest, hn, hn64, rfl⟩ | ⟨n, ts, out, rest, hn, hwf, hmean, hout, rfl, hbroken⟩
  · exact badHeader (.inl hshort)
  · exact badHeader (.inr ((leBytes_append_header hn64 rest).1.symm ▸ hn))
  · rcases lbDecode_tokens hn (Nat.lt_of_le_of_lt hn hw) hwf hmean hout.le rest c with
      ⟨heq, -⟩ | ⟨-, fuel, c', hrun, hafter⟩
    · exact absurd heq hout.ne
    · obtain ⟨hsame, hdata, hplace⟩ := hafter
      have holen : c'.lb.olen = n := hsame.olen
      obtain ⟨c'', hbreak, hsame'⟩ := lbToken_broken (max := max) (holen ▸ hn) hplace (by rwa [holen, hdata])
      refine ⟨n, c''.lb.ip, c''.lb.dist, c''.out, ?_⟩
      rw [hrun, decodeLoop, if_pos (by rwa [len_eq, hdata, holen]), hbreak, Res.andThen_stop, ← (hsame.trans hsame').lb_eq]

theorem exec_lbDecode {s : State} (hs : s.seq ≠ .fatal) (b : StageBuf) :
    exec (.lbDecode b) s = runUnit (onLbDec lbDecode) { s with src := b } := by
  rw [exec, execLbDecode, runUnit_running hs, runUnit_running (s := { s with src := b }) hs]
  rfl

end Sys2Proof.Machine
end

namespace Sys2Proof.Proofs

open Sys2Proof Sys2Proof.Machine

/-- Settles O33: token by token the decoder's output is the meaning so far, until the declared length or the broken token. -/
theorem lookbackDecodeComputesMeaning : Obligations.LookbackDecodeComputesMeaning := by
  refine ⟨fun s b ts out trailing hs hwf hmean hmax hdata => ?_, fun s b hs hbroken => ?_⟩
  · obtain ⟨ip, dist, o, hrun, ho⟩ := lbDecode_stream hwf hmean hmax s.max_lt trailing (State.lbDec { s with src := b })
    rw [← hdata] at hrun
    exact ⟨o, ip, dist, by rw [exec_lbDecode hs]; exact runUnit_onLbDec_ok (s := { s with src := b }) hs hrun, ho⟩
  · obtain ⟨olen, ip, dist, o, hrun⟩ := lbDecode_broken hbroken s.max_lt (State.lbDec { s with src := b })
    refine ⟨o.cap, olen, ip, dist, ?_⟩
    rw [exec_lbDecode hs]
    refine (runUnit_onLbDec_raise (s := { s with src := b }) hs hrun).trans ?_
    cases b <;> rfl

end Sys2Proof.Proofs

section
/-! SUPPORT. Token emission (spec 42_lookback_codec.md R181, R182): an operation that appends certain bytes, or raises for want of
room, and the bytes each emission appends. -/

namespace Sys2Proof.Machine

/-! ### Operations that append -/

/-- The operation appends the bytes, and nothing else happens to the buffer but that its capacity may grow; without room for them
it raises `InternalInvariantViolation` (R142, R145). -/
def Appends (op : Nat → Buffer → Res Buffer Unit) (bs : List Byte) : Prop := ∀ (max : Nat) (b : Buffer),
  (b.len + bs.length ≤ max ∧ ∃ cap, op max b = .ok ()
    { data := b.data ++ bs
      cap := cap
      wcur := if bs = [] then b.wcur else { byte := b.len + bs.length, bit := 0 }
      rcur := b.rcur }) ∨
  (max < b.len + bs.length ∧ ∃ v, op max b = .stop (.raise .internal) v)

section
variable {op op' : Nat → Buffer → Res Buffer Unit} {xs ys bs : List Byte}

theorem appends_bytes (bs : List Byte) : Appends (fun max => appendBytes max bs) bs := fun max b => by
  rcases Nat.lt_or_ge max (b.len + bs.length) with hfull | hroom
  · exact .inr ⟨hfull, _, appendBytes_full bs hfull⟩
  · exact .inl ⟨hroom, appendBytes_eq bs hroom⟩

theorem appends_byte (v : Byte) : Appends (fun max => appendByte max v) [v] := fun max b => by
  simpa only [appendBytes_singleton] using appends_bytes [v] max b

theorem Appends.congr (h : Appends op bs) (heq : ∀ max b, op' max b = op max b) : Appends op' bs := fun max b => by
  rw [heq]
  exact h max b

/-- One append after another is the append of both. -/
theorem Appends.andThen (h : Appends op xs) (h' : Appends op' ys) :
    Appends (fun max b => (op max b).andThen fun _ b => op' max b) (xs ++ ys) := fun max b => by
  have hlen : (xs ++ ys).length = xs.length + ys.length := List.length_append
  rcases h max b with ⟨hroom, cap, hrun⟩ | ⟨hfull, v, hrun⟩
  · have hmid : (b.data ++ xs).length = b.len + xs.length := List.length_append
    rcases h' max ⟨b.data ++ xs, cap, if xs = [] then b.wcur else { byte := b.len + xs.length, bit := 0 }, b.rcur⟩ with
      ⟨hroom', cap', hrun'⟩ | ⟨hfull', v, hrun'⟩
    · rw [len_eq, hmid] at hroom'
      have hcur : (if ys = [] then (if xs = [] then b.wcur else { byte := b.len + xs.length, bit := 0 })
          else { byte := (b.data ++ xs).length + ys.length, bit := 0 }) =
          if xs ++ ys = [] then b.wcur else { byte := b.len + (xs ++ ys).length, bit := 0 } := by
        cases ys with
        | nil => rw [if_pos rfl, List.append_nil]
        | cons y ys => rw [if_neg (List.cons_ne_nil _ _), if_neg (by simp), hmid, hlen, Nat.add_assoc]
      refine .inl ⟨by omega, cap', ?_⟩
      dsimp only
      rw [hrun, Res.andThen_ok, hrun', ← hcur, ← List.append_assoc]
      rfl
    · rw [len_eq, hmid] at hfull'
      exact .inr ⟨by omega, v, by dsimp only; rw [hrun, Res.andThen_ok, hrun']⟩
  · exact .inr ⟨by omega, v, by dsimp only; rw [hrun, Res.andThen_stop]⟩

theorem Appends.runUnit_room (h : Appends op bs) {s : State} (hs : s.seq ≠ .fatal) {b : StageBuf} {data : List Byte} {n : Nat}
    (hpos : 0 < bs.length) (hdata : (s.buf b).data ++ bs = data) (hlen : (s.buf b).len + bs.length = n) (hroom : n ≤ s.max) :
    ∃ cap, runUnit (onBuf b op) s =
      .next (s.putBuf b { data := data, cap := cap, wcur := { byte := n, bit := 0 }, rcur := (s.buf b).rcur }) := by
  subst hdata hlen
  rcases h s.max (s.buf b) with ⟨-, cap, hrun⟩ | ⟨hfull, -⟩
  · rw [if_neg (List.ne_nil_of_length_pos hpos)] at hrun
    exact ⟨cap, runUnit_onBuf_ok hs hrun⟩
  · exact absurd hroom (Nat.not_le.mpr hfull)

theorem Appends.runUnit_full (h : Appends op bs) {s : State} (hs : s.seq ≠ .fatal) {b : StageBuf} {n : Nat}
    (hlen : (s.buf b).len + bs.length = n) (hfull : s.max < n) : ∃ cap, runUnit (onBuf b op) s =
      .next (takeError .internal (s.putBuf b { s.buf b with cap := cap })) := by
  subst hlen
  rcases h s.max (s.buf b) with ⟨hroom, -⟩ | ⟨-, v, hrun⟩
  · exact absurd hroom (Nat.not_le.mpr hfull)
  · exact ⟨v.cap, by rw [runUnit_onBuf_raise hs hrun, takeError_putBuf]⟩

end

/-! ### The bytes of the fields the encoder chooses -/

theorem litField_short {r : Nat} (h : r ≤ 63) : litField r = .litS (BitVec.ofNat 6 r) := if_pos h

theorem litField_long {r : Nat} (h : 63 < r) : litField r = .litL (BitVec.ofNat 14 r) := if_neg (Nat.not_le.mpr h)

theorem lenField_short {len : Nat} (h : len ≤ 127) : lenField len = .lenS (BitVec.ofNat 7 len) := if_pos h

theorem lenField_long {len : Nat} (h : 127 < len) : lenField len = .lenL (BitVec.ofNat 15 len) := if_neg (Nat.not_le.mpr h)

/-- A two-byte field whose value stands above `k` tag bits: the first byte holds the tag and the value's low bits, the second the
rest (R98, R102). -/
theorem leBytes_two_tagged {tag k p : Nat} (h : tag < 2 ^ k) (hk : k ≤ 8) : leBytes (p <<< k ||| tag) 2 =
    [BitVec.ofNat 8 (((p &&& (2 ^ (8 - k) - 1)) <<< k) ||| tag), BitVec.ofNat 8 (p >>> (8 - k))] := by
  have hsplit : (2 : Nat) ^ k * 2 ^ (8 - k) = 256 := by rw [← Nat.pow_add, Nat.add_sub_cancel' hk]
  have hlow : 2 ^ k * p + tag = 2 ^ k * (p % 2 ^ (8 - k)) + tag + 256 * (p / 2 ^ (8 - k)) := by
    have hp := Nat.mod_add_div p (2 ^ (8 - k))
    calc 2 ^ k * p + tag = 2 ^ k * (p % 2 ^ (8 - k) + 2 ^ (8 - k) * (p / 2 ^ (8 - k))) + tag := by rw [hp]
      _ = 2 ^ k * (p % 2 ^ (8 - k)) + tag + 2 ^ k * 2 ^ (8 - k) * (p / 2 ^ (8 - k)) := by ring
      _ = _ := by rw [hsplit]
  have hfit : 2 ^ k * (p % 2 ^ (8 - k)) + tag < 256 := by
    have hm : p % 2 ^ (8 - k) + 1 ≤ 2 ^ (8 - k) := Nat.mod_lt _ (Nat.two_pow_pos _)
    have := Nat.mul_le_mul_left (2 ^ k) hm
    rw [Nat.mul_add, hsplit] at this
    omega
  have hhigh : (2 ^ k * p + tag) / 256 = p >>> (8 - k) := by
    rw [hlow, Nat.add_mul_div_left _ _ (by decide), Nat.div_eq_of_lt hfit, Nat.zero_add, Nat.shiftRight_eq_div_pow]
  have hbyte : BitVec.ofNat 8 (2 ^ k * p + tag) = BitVec.ofNat 8 (2 ^ k * (p % 2 ^ (8 - k)) + tag) := by
    apply BitVec.eq_of_toNat_eq
    rw [BitVec.toNat_ofNat, BitVec.toNat_ofNat, hlow]
    exact Nat.add_mul_mod_self_left ..
  rw [Nat.and_two_pow_sub_one_eq_mod, tagged_eq h, tagged_eq h, leBytes, leBytes, leBytes, hhigh, hbyte]

/-- The header bytes `LB.EMIT_LIT` writes, with `high` for the second byte of a long header (R181). -/
def litHeader (high : Byte) (r : Nat) : List Byte :=
  if r ≤ 63 then [BitVec.ofNat 8 (r <<< 2)] else [BitVec.ofNat 8 (((r &&& 0x3F) <<< 2) ||| 2), high]

theorem litHeader_length (high : Byte) (r : Nat) : (litHeader high r).length = if r ≤ 63 then 1 else 2 := by
  rw [litHeader]
  split <;> rfl

theorem litHeader_long (high : Byte) {r : Nat} (h : 63 < r) :
    litHeader high r = [BitVec.ofNat 8 (4 * (r % 64) + 2), high] := by
  rw [litHeader, if_neg (Nat.not_le.mpr h), show (0x3F : Nat) = 2 ^ 6 - 1 from rfl, Nat.and_two_pow_sub_one_eq_mod,
    tagged_eq (by decide)]
  rfl

theorem litBytes_length (high : Byte) (bs : List Byte) (n : Nat) :
    n + (litHeader high bs.length ++ bs).length = n + (if bs.length ≤ 63 then 1 else 2) + bs.length := by
  rw [List.length_append, litHeader_length, Nat.add_assoc]

theorem litBytes_length_long (high : Byte) (n : Nat) {bs : List Byte} (h : 63 < bs.length) :
    n + (litHeader high bs.length ++ bs).length = n + 2 + bs.length := by
  rw [litBytes_length, if_neg (Nat.not_le.mpr h)]

theorem litBytes_length_pos (high : Byte) (bs : List Byte) : 0 < (litHeader high bs.length ++ bs).length := by
  rw [List.length_append, litHeader_length]
  split <;> omega

/-- The header of at most `LITMAX` bytes is the one of the form the encoder chooses (R103, R181). -/
theorem encode_litField {r : Nat} (h : r ≤ 0x3FFF) : encode (litField r) = litHeader (BitVec.ofNat 8 (r >>> 6)) r := by
  rw [litHeader]
  split
  case isTrue hshort =>
    rw [litField_short hshort, encode, toNat_ofNat_of_le hshort (by decide)]
    rfl
  case isFalse hlong =>
    rw [litField_long (Nat.not_le.mp hlong), encode, toNat_ofNat_of_le h (by decide)]
    exact leBytes_two_tagged (k := 2) (by decide) (by decide)

theorem encode_lenField {len : Nat} (h : len ≤ 0x7FFF) : encode (lenField len) =
    if len ≤ 127 then [BitVec.ofNat 8 (len <<< 1)]
    else [BitVec.ofNat 8 (((len &&& 0x7F) <<< 1) ||| 1), BitVec.ofNat 8 (len >>> 7)] := by
  split
  case isTrue hshort =>
    rw [lenField_short hshort, encode, toNat_ofNat_of_le hshort (by decide)]
    rfl
  case isFalse hlong =>
    rw [lenField_long (Nat.not_le.mp hlong), encode, toNat_ofNat_of_le h (by decide)]
    exact leBytes_two_tagged (k := 1) (by decide) (by decide)

theorem encDist_length (n d : Nat) : (encDist n d).length = n := leBytes_length ..

/-- Every distance in reach lies in the class chosen for it, the least that holds it (R101). -/
theorem distClass_barph {d : Nat} (h : d ≤ Config.barph.distMax 5) :
    1 ≤ distClass Config.barph d ∧ distClass Config.barph d ≤ 5 ∧
      d ≤ Config.barph.distMax (distClass Config.barph d) := by
  unfold distClass
  split_ifs <;> exact ⟨by decide, by decide, by assumption⟩

theorem encode_distField {d : Nat} (h : d ≤ Config.barph.distMax 5) :
    encode (distField d) = encDist (distClass Config.barph d) d := by
  obtain ⟨h1, h5, hd⟩ := distClass_barph h
  rw [distField_eq, (isDistance_classField h1 h5 hd).encode_eq]

theorem tokenCost_pos (cfg : Config) (d len : Nat) : 0 < tokenCost cfg d len := by
  unfold tokenCost
  split <;> omega

/-- The token's cost is the number of its bytes (R107). -/
theorem matchBytes_length (cfg : Config) {d len : Nat} (h : len ≤ 0x7FFF) :
    (encDist (distClass cfg d) d ++ encode (lenField len)).length = tokenCost cfg d len := by
  rw [List.length_append, encDist_length, encode_lenField h, tokenCost]
  split <;> rfl

/-! ### What is emitted -/

theorem emitLitWith_appends (high : Byte) (bs : List Byte) :
    Appends (fun max => emitLitWith high max bs) (litHeader high bs.length ++ bs) := by
  by_cases hshort : bs.length ≤ 63
  · rw [litHeader, if_pos hshort]
    exact ((appends_byte _).andThen (appends_bytes bs)).congr fun max b => by rw [emitLitWith, if_pos hshort]
  · rw [litHeader, if_neg hshort]
    exact (((appends_byte _).andThen (appends_byte high)).andThen (appends_bytes bs)).congr fun max b => by
      rw [emitLitWith, if_neg hshort]

theorem emitLit_appends {bs : List Byte} (h : bs.length ≤ 0x3FFF) :
    Appends (fun max => emitLit max bs) (encode (litField bs.length) ++ bs) := by
  rw [encode_litField h]
  exact emitLitWith_appends _ bs

theorem emitLen_appends {len : Nat} (h : len ≤ 0x7FFF) : Appends (fun max => emitLen max len) (encode (lenField len)) := by
  rw [encode_lenField h]
  by_cases hshort : len ≤ 127
  · rw [if_pos hshort]
    exact (appends_byte _).congr fun max b => by rw [emitLen, if_pos hshort]
  · rw [if_neg hshort]
    exact ((appends_byte _).andThen (appends_byte _)).congr fun max b => by rw [emitLen, if_neg hshort]

theorem emitMatch_appends {cfg : Config} {d len : Nat} (h1 : 1 ≤ d) (hd : d ≤ cfg.distMax 5) (hlen : len ≤ cfg.maxLen)
    (hfield : len ≤ 0x7FFF) :
    Appends (fun max => emitMatch cfg max d len) (encDist (distClass cfg d) d ++ encode (lenField len)) := by
  have hok : ¬ (d = 0 ∨ cfg.distMax 5 < d ∨ cfg.maxLen < len) := by omega
  exact ((appends_bytes _).andThen (emitLen_appends hfield)).congr fun max b => by rw [emitMatch, if_neg hok]

/-- A match that no token holds is the fatal error (R182). -/
theorem emitMatch_impossible {cfg : Config} {d len : Nat} (h : d = 0 ∨ cfg.distMax 5 < d ∨ cfg.maxLen < len) (max : Nat)
    (b : Buffer) : emitMatch cfg max d len b = .stop (.raise .internal) b := if_pos h

/-! ### The operations by their instructions -/

theorem buf_withFreeLits (s : State) (n : Nat) (b : StageBuf) : State.buf { s with freeLits := n } b = s.buf b := by
  cases b <;> rfl

theorem putBuf_withFreeLits (s : State) (n : Nat) (b : StageBuf) (v : Buffer) :
    State.putBuf { s with freeLits := n } b v = { s.putBuf b v with freeLits := n } := by
  cases b <;> rfl

theorem exec_lbEmitLit_short {bs : List Byte} (h : bs.length ≤ 0x3FFF) (o : StageBuf) (s : State) :
    exec (.lbEmitLit o bs) s = runUnit (onBuf o fun max => emitLit max bs) s := by
  rw [exec, execLbEmitLit, runUnit, opEmitLit_short h]
  rfl

theorem exec_lbEmitLit_long {bs : List Byte} (h : 0x3FFF < bs.length) (o : StageBuf) {s : State} (hs : s.seq ≠ .fatal) :
    exec (.lbEmitLit o bs) s =
      runUnit (onBuf o fun max => emitLitWith (Config.freeLitByte s.freeLits) max bs) { s with freeLits := s.freeLits + 1 } := by
  rw [exec, execLbEmitLit, runUnit_running hs, opEmitLit_long h,
    runUnit_running (s := { s with freeLits := s.freeLits + 1 }) hs]

theorem exec_lbEmitMatch (o : StageBuf) (d len : U64) (s : State) : exec (.lbEmitMatch o d len) s =
    runUnit (onBuf o fun max => emitMatch Config.barph max d.toNat len.toNat) s := rfl

end Sys2Proof.Machine
end

namespace Sys2Proof.Proofs

open Sys2Proof Sys2Proof.Machine

/-- Settles O31: every emission is a chain of appends, so that it appends its bytes or finds the buffer full. -/
theorem emittedTokens : Obligations.EmittedTokens := by
  intro s o bs d len hs
  have hpos := fun high => litBytes_length_pos high bs
  have hlit := fun high => litBytes_length high bs (s.buf o).len
  have hlong := fun high => litBytes_length_long (bs := bs) high (s.buf o).len
  refine ⟨fun hlen hroom => ?_, fun hlen hfull => ?_, fun hlen hroom => ?_, fun hlen hfull => ?_,
    fun h1 hd hlen hroom => ?_, fun h1 hd hlen hfull => ?_, fun hbad => ?_⟩
  · rw [exec_lbEmitLit_short hlen, encode_litField hlen, List.append_assoc]
    exact (emitLitWith_appends _ bs).runUnit_room hs (hpos _) rfl (hlit _) hroom
  · rw [exec_lbEmitLit_short hlen]
    exact (emitLitWith_appends _ bs).runUnit_full hs (hlit _) hfull
  · obtain ⟨cap, hrun⟩ := (emitLitWith_appends (Config.freeLitByte s.freeLits) bs).runUnit_room (b := o)
      (s := { s with freeLits := s.freeLits + 1 }) hs (hpos _) rfl ((buf_withFreeLits ..).symm ▸ hlong _ (by omega)) hroom
    rw [litHeader_long _ (by omega), ← List.append_assoc, buf_withFreeLits, putBuf_withFreeLits] at hrun
    exact ⟨cap, _, by rw [exec_lbEmitLit_long hlen o hs, hrun]⟩
  · obtain ⟨cap, hrun⟩ := (emitLitWith_appends (Config.freeLitByte s.freeLits) bs).runUnit_full (b := o)
      (s := { s with freeLits := s.freeLits + 1 }) hs ((buf_withFreeLits ..).symm ▸ hlong _ (by omega)) hfull
    rw [buf_withFreeLits, putBuf_withFreeLits] at hrun
    exact ⟨cap, by rw [exec_lbEmitLit_long hlen o hs, hrun]⟩
  · have hbytes := matchBytes_length Config.barph (d := d.toNat) hlen
    obtain ⟨cap, hrun⟩ := (emitMatch_appends (cfg := Config.barph) h1 hd hlen hlen).runUnit_room (b := o) hs
      (hbytes ▸ tokenCost_pos ..) rfl (congrArg _ hbytes) hroom
    rw [← encode_distField hd] at hrun hbytes
    rw [← List.append_assoc] at hrun
    rw [exec_lbEmitMatch]
    exact ⟨cap, hrun, hbytes⟩
  · rw [exec_lbEmitMatch]
    exact (emitMatch_appends (cfg := Config.barph) h1 hd hlen hlen).runUnit_full hs
      (congrArg _ (matchBytes_length _ hlen)) hfull
  · rw [exec_lbEmitMatch]
    exact runUnit_onBuf_raise_unchanged hs (emitMatch_impossible hbad ..)

end Sys2Proof.Proofs

section
/-! SUPPORT. The lookback encoder writes the greedy parse of its input, and the parse means the input (spec
42_lookback_codec.md R180, R183, R184, R192): the table at a position, one token of the parse, and the loop. -/

namespace Sys2Proof.Machine

/-! ### The table at a position -/

theorem insertRun_add (cfg : Config) (I : List Byte) (n : Nat) : ∀ (m p : Nat) (mf : MatchFinder),
    insertRun cfg I (m + n) p mf = insertRun cfg I n (p + m) (insertRun cfg I m p mf)
  | 0, p, mf => by rw [Nat.zero_add, insertRun, Nat.add_zero]
  | m + 1, p, mf => by
    rw [Nat.add_right_comm, insertRun, insertRun_add cfg I n m, insertRun, Nat.add_right_comm, Nat.add_assoc]

/-- The table is the one that `LB.ENCODE` has when it comes to position `p`: every earlier position, in order (R183, R313). -/
def TableAt (cfg : Config) (I : List Byte) (p : Nat) (mf : MatchFinder) : Prop := mf.mt = (insertRun cfg I p 0 {}).mt

section
variable {cfg : Config} {I : List Byte} {p : Nat} {mf : MatchFinder}

theorem tableAt_zero (h : mf.mt = []) : TableAt cfg I 0 mf := h

theorem TableAt.insertRun (h : TableAt cfg I p mf) (n : Nat) : TableAt cfg I (p + n) (insertRun cfg I n p mf) := by
  rw [TableAt, insertRun_add, Nat.zero_add]
  exact insertRun_mt cfg I n p _ _ h

theorem TableAt.insert (h : TableAt cfg I p mf) : TableAt cfg I (p + 1) (mfInsert cfg I p mf) := h.insertRun 1

/-- A search leaves the table as it was (R166). -/
theorem TableAt.search (h : TableAt cfg I p mf) (q : Nat) : TableAt cfg I p (mfMatchAt cfg I q mf).2 :=
  (mfMatchAt_mt cfg I q mf).trans h

theorem TableAt.mfMatchAt_eq (h : TableAt cfg I p mf) : (mfMatchAt cfg I p mf).1 = searchAt cfg I p := mfMatchAt_fst cfg I p h

end

/-! ### What the parse means -/

/-- What a search finds is answered only when it is longer than its token (R166). -/
theorem mfMatchAt_economical {cfg : Config} {I : List Byte} {p d len : Nat} {mf : MatchFinder}
    (h : (mfMatchAt cfg I p mf).1 = some (d, len)) : tokenCost cfg d len < len := by
  rw [mfMatchAt_fst_eq, Option.bind_eq_some_iff] at h
  obtain ⟨⟨c, len'⟩, -, hcost⟩ := h
  obtain ⟨hlt, hres⟩ := Option.ite_none_right_eq_some.mp hcost
  cases hres
  exact hlt

/-- Copying a common part from an earlier position continues the input (R168, R180). -/
theorem repeatBack_take {cfg : Config} {I : List Byte} {d : Nat} (hd : 1 ≤ d) : ∀ (len p : Nat), d ≤ p →
    Matches cfg I (p - d) p len → repeatBack d len (I.take p) = I.take (p + len)
  | 0, _, _, _ => rfl
  | len + 1, p, hp, hm => by
    obtain ⟨hcap, hend, hbytes⟩ := hm
    have hlt : p < I.length := by omega
    have hback : (I.take p).getD ((I.take p).length - d) 0#8 = I[p] := by
      rw [List.length_take, Nat.min_eq_left hlt.le, List.getD_eq_getElem?_getD, List.getElem?_take_of_lt (by omega),
        ← List.getD_eq_getElem?_getD]
      exact (hbytes 0 (Nat.succ_pos len)).trans (List.getD_eq_getElem I 0#8 hlt)
    have hnext : Matches cfg I (p + 1 - d) (p + 1) len := by
      refine ⟨by omega, by omega, fun k hk => ?_⟩
      rw [show p + 1 - d + k = p - d + (k + 1) by omega, show p + 1 + k = p + (k + 1) by omega]
      exact hbytes (k + 1) (by omega)
    rw [repeatBack, hback, List.take_append_getElem hlt, repeatBack_take hd len (p + 1) (by omega) hnext, Nat.add_right_comm,
      Nat.add_assoc]

/-- From any position on, the tokens of the greedy parse give what is left of the input (R180, R184). -/
theorem greedyFrom_meaning {cfg : Config} {I : List Byte} : ∀ (ts : List Token) (p : Nat), GreedyFrom cfg I p ts →
    tokensMeaning ts (I.take p) = some I
  | [], p, h => by
    obtain rfl : p = I.length := h
    rw [List.take_length]
    rfl
  | .copy cls d long len :: ts, p, ⟨hfound, hrest⟩ => by
    obtain ⟨h1, hd, -, -, hm⟩ := mfMatchAt_some hfound
    have hp : p ≤ I.length := by have := hm.2.1; omega
    rw [tokensMeaning_cons, Token.apply_copy h1 (by rw [List.length_take]; omega), Option.bind_some,
      repeatBack_take h1 len p hd hm]
    exact greedyFrom_meaning ts _ hrest
  | .literal long bs :: ts, p, ⟨hbs, _, _, _, _, _, hrest⟩ => by
    have happly : (Token.literal long bs).apply (I.take p) = some (I.take (p + bs.length)) := by
      rw [List.take_add, show (I.drop p).take bs.length = bs from hbs.symm]
      rfl
    rw [tokensMeaning_cons, happly, Option.bind_some]
    exact greedyFrom_meaning ts _ hrest

/-! ### One token of the parse -/

/-- The parameters the encoder may have: the format's distance classes, and lengths the fields hold (R192). -/
structure LookbackParams (cfg : Config) : Prop where
  distMax : cfg.distMax = Config.barph.distMax
  maxLen : cfg.maxLen ≤ 0x7FFF
  litMax_pos : 1 ≤ cfg.litMax
  litMax : cfg.litMax ≤ 0x3FFF

theorem barph_lookbackParams : LookbackParams Config.barph := ⟨rfl, by decide, by decide, by decide⟩

theorem LookbackParams.distClass_eq {cfg : Config} (h : LookbackParams cfg) (d : Nat) :
    distClass cfg d = distClass Config.barph d := by
  simp only [distClass, h.distMax]

/-- The greedy parse comes from `p` to `q` by the token, which is one the encoder may write (R183, R184). -/
structure GreedyStep (cfg : Config) (I : List Byte) (p : Nat) (t : Token) (q : Nat) : Prop where
  wf : t.wf = true
  canonical : t.canonical = true
  lt : p < q
  le : q ≤ I.length
  size : t.bytes.length ≤ 2 * (q - p)
  parse : ∀ ts, GreedyFrom cfg I q ts → GreedyFrom cfg I p (t :: ts)

/-- The match token the encoder writes (R103, R182). -/
def matchToken (d len : Nat) : Token := .copy (distClass Config.barph d) d (decide (127 < len)) len

/-- The literal token the encoder writes (R103, R181). -/
def literalToken (bs : List Byte) : Token := .literal (decide (63 < bs.length)) bs

theorem matchToken_bytes (d len : Nat) :
    (matchToken d len).bytes = encDist (distClass Config.barph d) d ++ encode (lenField len) := by
  by_cases h : 127 < len
  · rw [matchToken, decide_eq_true h, lenField_long h]
    rfl
  · rw [matchToken, decide_eq_false h, lenField_short (Nat.not_lt.mp h)]
    rfl

theorem literalToken_bytes (bs : List Byte) : (literalToken bs).bytes = encode (litField bs.length) ++ bs := by
  by_cases h : 63 < bs.length
  · rw [literalToken, decide_eq_true h, litField_long h]
    rfl
  · rw [literalToken, decide_eq_false h, litField_short (Nat.not_lt.mp h)]
    rfl

section
variable {cfg : Config} {I : List Byte} {p : Nat}

/-- Where the search finds a match, the parse goes on by its token (R183, R184 (c)). -/
theorem greedyStep_match (hcfg : LookbackParams cfg) {d len : Nat} (h : searchAt cfg I p = some (d, len)) :
    GreedyStep cfg I p (matchToken d len) (p + len) := by
  obtain ⟨h1, -, hreach, -, hcap, hend, -⟩ := mfMatchAt_some h
  have hcost : tokenCost Config.barph d len < len := by
    have := mfMatchAt_economical h
    rwa [tokenCost, hcfg.distClass_eq] at this
  have hlen : len ≤ 0x7FFF := hcap.trans hcfg.maxLen
  rw [hcfg.distMax] at hreach
  obtain ⟨hc1, hc5, hclass⟩ := distClass_barph hreach
  refine ⟨decide_eq_true ⟨hc1, hc5, hclass, ?_⟩, decide_eq_true ⟨rfl, decide_eq_true_iff, hcost⟩, by omega, hend, ?_,
    fun ts hts => ⟨h, hts⟩⟩
  · by_cases hlong : 127 < len
    · rw [if_pos (decide_eq_true hlong)]
      exact hlen
    · rw [if_neg (by simpa using hlong)]
      exact Nat.not_lt.mp hlong
  · rw [matchToken_bytes, matchBytes_length _ hlen]
    omega

/-- A literal run from `p` to `q`: it takes only positions at which the search finds nothing, and stops at the end, at `LITMAX`
bytes, or where the search finds a match (R183). -/
structure LiteralRun (cfg : Config) (I : List Byte) (p q : Nat) : Prop where
  lt : p < q
  le : q ≤ I.length
  litMax : q - p ≤ cfg.litMax
  none : ∀ k, p ≤ k → k < q → searchAt cfg I k = none
  stop : q = I.length ∨ q - p = cfg.litMax ∨ (searchAt cfg I q).isSome = true

theorem LiteralRun.slice_length {q : Nat} (h : LiteralRun cfg I p q) : (slice I p (q - p)).length = q - p := by
  have := h.le
  rw [slice, List.length_take, List.length_drop]
  omega

/-- Elsewhere the parse goes on by the token of a literal run (R183, R184 (b)). -/
theorem greedyStep_literal (hcfg : LookbackParams cfg) {q : Nat} (h : LiteralRun cfg I p q) :
    GreedyStep cfg I p (literalToken (slice I p (q - p))) q := by
  have hlen := h.slice_length
  have hpq := h.lt
  have hmax := h.litMax.trans hcfg.litMax
  have hq : p + (q - p) = q := by omega
  refine ⟨decide_eq_true ?_, decide_eq_true ⟨by omega, decide_eq_true_iff⟩, hpq, h.le, ?_, fun ts hts => ?_⟩
  · rw [hlen]
    by_cases hlong : 63 < q - p
    · rw [if_pos (decide_eq_true hlong)]
      exact hmax
    · rw [if_neg (by simpa using hlong)]
      exact Nat.not_lt.mp hlong
  · rw [literalToken_bytes, List.length_append, encode_litField (by omega), litHeader_length, hlen]
    split <;> omega
  · refine ⟨by rw [hlen], by omega, hlen.trans_le h.litMax, by rw [hlen, hq]; exact h.le, fun k hk => ?_, ?_, ?_⟩
    · exact h.none _ (Nat.le_add_right ..) (by omega)
    · rw [hlen, hq]
      exact h.stop
    · rw [hlen, hq]
      exact hts

end

/-! ### The scan of a literal run -/

/-- The scan that has come from `run_start` to a position where the search finds nothing ends the literal run that began there,
with the table of the position where it ends (R183). -/
theorem literalScan_run {cfg : Config} {I : List Byte} : ∀ (fuel : Nat) (c : LbEnc),
    c.runStart ≤ c.pos → c.pos < I.length →
    c.pos - c.runStart < cfg.litMax → cfg.litMax ≤ c.pos - c.runStart + fuel →
    (∀ k, c.runStart ≤ k → k ≤ c.pos → searchAt cfg I k = none) → TableAt cfg I c.pos c.mf →
    ∃ mf q, literalScan cfg I fuel c = { c with mf := mf, pos := q } ∧ LiteralRun cfg I c.runStart q ∧ TableAt cfg I q mf
  | 0, c, _, _, hlit, hfuel, _, _ => absurd hfuel (by omega)
  | fuel + 1, c, hstart, hpos, hlit, hfuel, hnone, htable => by
    have hins : TableAt cfg I (c.pos + 1) (mfInsert cfg I c.pos c.mf) := htable.insert
    have hsofar : ∀ k, c.runStart ≤ k → k < c.pos + 1 → searchAt cfg I k = none := fun k h1 h2 => hnone k h1 (by omega)
    rw [literalScan]
    dsimp only
    split
    case isTrue hend =>
      exact ⟨_, _, rfl, ⟨by omega, by omega, by omega, hsofar, hend.imp_right .inl⟩, hins⟩
    case isFalse hgo =>
      rw [hins.mfMatchAt_eq]
      split
      case isTrue hfound =>
        exact ⟨_, _, rfl, ⟨by omega, by omega, by omega, hsofar, .inr (.inr hfound)⟩, hins.search _⟩
      case isFalse hnothing =>
        have hnext : searchAt cfg I (c.pos + 1) = none := by simpa using hnothing
        refine literalScan_run fuel { c with mf := (mfMatchAt cfg I (c.pos + 1) (mfInsert cfg I c.pos c.mf)).2, pos := c.pos + 1 }
          (by dsimp only; omega) (by dsimp only; omega) (by dsimp only; omega) (by dsimp only; omega) (fun k h1 h2 => ?_)
          (hins.search _)
        rcases Nat.lt_or_eq_of_le h2 with hlt | rfl
        · exact hsofar k h1 hlt
        · exact hnext

/-! ### The loop -/

/-- An emission appends its bytes to the encoder's output, or raises for want of room. -/
theorem LbEnc.emit_cases {op : Nat → Buffer → Res Buffer Unit} {bs : List Byte} (h : Appends op bs) (max : Nat) (c : LbEnc) :
    (∃ o, c.emit (op max) = .ok () { c with out := o } ∧ o.data = c.out.data ++ bs) ∨
    (max < c.out.len + bs.length ∧ ∃ c', c.emit (op max) = .stop (.raise .internal) c') := by
  rcases h max c.out with ⟨-, cap, hrun⟩ | ⟨hfull, v, hrun⟩
  · exact .inl ⟨_, by rw [LbEnc.emit, hrun, Res.inside_ok], rfl⟩
  · exact .inr ⟨hfull, _, by rw [LbEnc.emit, hrun, Res.inside_stop]⟩

/-- One turn of the `while` of R183. -/
def encodeTurn (cfg : Config) (I : List Byte) (max : Nat) (c : LbEnc) : Res LbEnc Unit :=
  match (mfMatchAt cfg I c.pos c.mf).1 with
  | some (d, len) => encodeMatch cfg I max d len { c with mf := (mfMatchAt cfg I c.pos c.mf).2 }
  | none => encodeLiteral cfg I max { c with mf := (mfMatchAt cfg I c.pos c.mf).2 }

theorem encodeLoop_turn {cfg : Config} {I : List Byte} {max fuel : Nat} {c : LbEnc} (h : c.pos < I.length) :
    encodeLoop cfg I max (fuel + 1) c = (encodeTurn cfg I max c).andThen fun _ c => encodeLoop cfg I max fuel c := by
  rw [encodeLoop, if_pos h]
  rfl

theorem encodeLoop_end {cfg : Config} {I : List Byte} {max : Nat} {c : LbEnc} (h : I.length ≤ c.pos) :
    ∀ fuel, encodeLoop cfg I max fuel c = .ok () c
  | 0 => rfl
  | _ + 1 => by rw [encodeLoop, if_neg (Nat.not_lt.mpr h)]

/-- A turn writes the next token of the greedy parse and leaves the table of the position it comes to, or finds no room for the
token (R183, R142). -/
theorem encodeTurn_cases {cfg : Config} (hcfg : LookbackParams cfg) {I : List Byte} (max : Nat) {c : LbEnc}
    (hpos : c.pos < I.length) (htable : TableAt cfg I c.pos c.mf) : ∃ t q, GreedyStep cfg I c.pos t q ∧
      ((∃ c', encodeTurn cfg I max c = .ok () c' ∧ c'.pos = q ∧ TableAt cfg I q c'.mf ∧
          c'.out.data = c.out.data ++ t.bytes) ∨
        (max < c.out.len + t.bytes.length ∧ ∃ c', encodeTurn cfg I max c = .stop (.raise .internal) c')) := by
  have hsearch := htable.search c.pos
  rw [encodeTurn, htable.mfMatchAt_eq]
  cases hfound : searchAt cfg I c.pos with
  | some found =>
    obtain ⟨d, len⟩ := found
    obtain ⟨h1, -, hreach, -, hcap, -⟩ := mfMatchAt_some hfound
    have hemit := emitMatch_appends h1 hreach hcap (hcap.trans hcfg.maxLen)
    rw [hcfg.distClass_eq, ← matchToken_bytes] at hemit
    refine ⟨_, _, greedyStep_match hcfg hfound, ?_⟩
    rcases LbEnc.emit_cases hemit max { c with mf := (mfMatchAt cfg I c.pos c.mf).2 } with
      ⟨o, hrun, ho⟩ | ⟨hfull, c', hrun⟩
    · exact .inl ⟨_, by dsimp only; rw [encodeMatch, hrun, Res.andThen_ok], rfl, hsearch.insertRun len, ho⟩
    · exact .inr ⟨hfull, c', by dsimp only; rw [encodeMatch, hrun, Res.andThen_stop]⟩
  | none =>
    obtain ⟨mf, q, hscan, hlit, htable'⟩ := literalScan_run cfg.litMax
      { c with mf := (mfMatchAt cfg I c.pos c.mf).2, runStart := c.pos } le_rfl hpos
      (by rw [Nat.sub_self]; exact hcfg.litMax_pos) (Nat.le_add_left ..)
      (fun k h1 h2 => by rw [Nat.le_antisymm h2 h1]; exact hfound) hsearch
    have hemit := emitLit_appends (bs := slice I c.pos (q - c.pos)) (hlit.slice_length.trans_le (hlit.litMax.trans hcfg.litMax))
    rw [← literalToken_bytes] at hemit
    refine ⟨_, _, greedyStep_literal hcfg hlit, ?_⟩
    rcases LbEnc.emit_cases hemit max { c with mf := mf, runStart := c.pos, pos := q } with
      ⟨o, hrun, ho⟩ | ⟨hfull, c', hrun⟩
    · exact .inl ⟨_, by dsimp only; rw [encodeLiteral, hscan, hrun], rfl, htable', ho⟩
    · exact .inr ⟨hfull, c', by dsimp only; rw [encodeLiteral, hscan, hrun]⟩

/-- The encoder has written the tokens, which are the greedy parse from `p` on, in at most two bytes for each byte they take. -/
structure Parsed (cfg : Config) (I : List Byte) (p : Nat) (ts : List Token) : Prop where
  greedy : GreedyFrom cfg I p ts
  tokens : ∀ t ∈ ts, t.wf = true ∧ t.canonical = true
  size : (ts.map Token.bytes).flatten.length ≤ 2 * (I.length - p)

theorem parsed_nil (cfg : Config) (I : List Byte) : Parsed cfg I I.length [] := ⟨rfl, nofun, Nat.zero_le _⟩

theorem Parsed.cons {cfg : Config} {I : List Byte} {p q : Nat} {t : Token} {ts : List Token} (ht : GreedyStep cfg I p t q)
    (h : Parsed cfg I q ts) : Parsed cfg I p (t :: ts) where
  greedy := ht.parse ts h.greedy
  tokens := List.forall_mem_cons.mpr ⟨⟨ht.wf, ht.canonical⟩, h.tokens⟩
  size := by
    have := ht.size
    have := ht.lt
    have := ht.le
    have := h.size
    rw [List.map_cons, List.flatten_cons, List.length_append]
    omega

/-- The loop writes the greedy parse of what is left of the input, or there was less room than two bytes for each byte of it
(R183, R184). -/
theorem encodeLoop_cases {cfg : Config} (hcfg : LookbackParams cfg) {I : List Byte} (max : Nat) : ∀ (fuel : Nat) (c : LbEnc),
    c.pos ≤ I.length → I.length ≤ c.pos + fuel → TableAt cfg I c.pos c.mf →
    (∃ ts c', encodeLoop cfg I max fuel c = .ok () c' ∧ Parsed cfg I c.pos ts ∧
      c'.out.data = c.out.data ++ (ts.map Token.bytes).flatten) ∨
    (max < c.out.len + 2 * (I.length - c.pos) ∧ ∃ c', encodeLoop cfg I max fuel c = .stop (.raise .internal) c') := by
  intro fuel
  induction fuel with
  | zero =>
    intro c hle hfuel _
    have hend : c.pos = I.length := Nat.le_antisymm hle hfuel
    exact .inl ⟨[], c, rfl, hend ▸ parsed_nil cfg I, (List.append_nil _).symm⟩
  | succ fuel ih =>
    intro c hle hfuel htable
    rcases Nat.lt_or_eq_of_le hle with hlt | hend
    · rw [encodeLoop_turn hlt]
      obtain ⟨t, q, hstep, ⟨c', hrun, rfl, htable', hout⟩ | ⟨hfull, c', hrun⟩⟩ := encodeTurn_cases hcfg max hlt htable
      · have hp := hstep.lt
        have hq := hstep.le
        have hsize := hstep.size
        rw [hrun, Res.andThen_ok]
        rcases ih c' hq (by omega) htable' with ⟨ts, c'', hloop, hparsed, hout'⟩ | ⟨hfull, c'', hloop⟩
        · exact .inl ⟨t :: ts, c'', hloop, hparsed.cons hstep, by
            rw [hout', hout, List.append_assoc, List.map_cons, List.flatten_cons]⟩
        · rw [len_eq, hout, List.length_append] at hfull
          exact .inr ⟨by rw [len_eq]; omega, c'', hloop⟩
      · have hp := hstep.le
        have hsize := hstep.size
        exact .inr ⟨by omega, c', by rw [hrun, Res.andThen_stop]⟩
    · exact .inl ⟨[], c, encodeLoop_end hend.ge _, hend ▸ parsed_nil cfg I, (List.append_nil _).symm⟩

/-! ### The operation -/

/-- `LB.ENCODE` writes the stream of the greedy parse of its input, or there was less room than `8 + 2n` bytes (R183, R184). -/
theorem lbEncode_cases {cfg : Config} (hcfg : LookbackParams cfg) (I : List Byte) (max : Nat) (c : LbEnc) :
    (∃ ts c', lbEncode cfg I max c = .ok () c' ∧ Parsed cfg I 0 ts ∧ c'.out.data = lbStream I.length ts) ∨
    (max < 8 + 2 * I.length ∧ ∃ c', lbEncode cfg I max c = .stop (.raise .internal) c') := by
  have hheader := leBytes_length I.length 8
  rw [lbEncode]
  rcases LbEnc.emit_cases (appends_bytes (leBytes I.length 8)) max { c with mf := mfClear c.mf, out := c.out.release } with
    ⟨o, hrun, ho⟩ | ⟨hfull, c', hrun⟩
  · rw [hrun, Res.andThen_ok]
    rw [release_data, List.nil_append] at ho
    rcases encodeLoop_cases hcfg max I.length { c with mf := mfClear c.mf, out := o, pos := 0 } (Nat.zero_le _)
      (Nat.le_add_left ..) (tableAt_zero rfl) with ⟨ts, c', hloop, hparsed, hout⟩ | ⟨hfull, c', hloop⟩
    · exact .inl ⟨ts, c', hloop, hparsed, by rw [hout, ho, lbStream]⟩
    · rw [len_eq, ho, hheader, Nat.sub_zero] at hfull
      exact .inr ⟨hfull, c', hloop⟩
  · rw [release_len, hheader] at hfull
    exact .inr ⟨by omega, c', by rw [hrun, Res.andThen_stop]⟩

theorem Parsed.meaning {cfg : Config} {I : List Byte} {ts : List Token} (h : Parsed cfg I 0 ts) :
    tokensMeaning ts [] = some I := greedyFrom_meaning ts 0 h.greedy

theorem Parsed.stream_length {cfg : Config} {I : List Byte} {ts : List Token} (h : Parsed cfg I 0 ts) (n : Nat) :
    (lbStream n ts).length ≤ 8 + 2 * I.length := by
  rw [lbStream, List.length_append, leBytes_length]
  exact Nat.add_le_add_left h.size 8

/-- The round trip of the encoder and the decoder, for every parameter the encoder may have (R192). -/
theorem lbDecode_lbEncode {cfg : Config} (hcfg : LookbackParams cfg) {I : List Byte} {max : Nat} {c c' : LbEnc}
    (hI : I.length ≤ max) (hw : max < 2 ^ 64) (h : lbEncode cfg I max c = .ok () c') (d : LbDec) :
    ∃ d', lbDecode c'.out.data max d = .ok () d' ∧ d'.out.data = I := by
  rcases lbEncode_cases hcfg I max c with ⟨ts, c'', hrun, hparsed, hdata⟩ | ⟨-, c'', hrun⟩
  · obtain rfl : c'' = c' := by
      rw [hrun] at h
      cases h
      rfl
    obtain ⟨ip, dist, o, hdec, ho⟩ := lbDecode_stream (fun t ht => (hparsed.tokens t ht).1) hparsed.meaning hI hw [] d
    rw [List.append_nil, ← hdata] at hdec
    exact ⟨_, hdec, ho⟩
  · rw [hrun] at h
    cases h

theorem exec_lbEncode {s : State} (hs : s.seq ≠ .fatal) (i : StageBuf) :
    exec (.lbEncode i) s = finish (opLbEncode Config.barph i s) := runUnit_running hs _

/-- `LB.ENCODE` leaves the stream of the greedy parse of its input in the other stage buffer, or is the fatal error for want of
room (R183, R184, R142). -/
theorem exec_lbEncode_cases {s : State} (hs : s.seq ≠ .fatal) (i : StageBuf) :
    (∃ o mf pos runStart ts, exec (.lbEncode i) s =
        .next { s.putBuf i.other o with mf := mf, pos := pos, lb := { s.lb with runStart := runStart } } ∧
      Parsed Config.barph (s.buf i).data 0 ts ∧ o.data = lbStream (s.buf i).len ts) ∨
    (s.max < 8 + 2 * (s.buf i).len ∧ ∃ t, exec (.lbEncode i) s = .next (takeError .internal t)) := by
  rw [exec_lbEncode hs, opLbEncode]
  rcases lbEncode_cases barph_lookbackParams (s.buf i).data s.max
    { mf := s.mf, pos := s.pos, runStart := s.lb.runStart, out := s.buf i.other } with
    ⟨ts, c, hrun, hparsed, hdata⟩ | ⟨hfull, c, hrun⟩
  · exact .inl ⟨c.out, c.mf, c.pos, c.runStart, ts, by rw [hrun]; rfl, hparsed, hdata⟩
  · exact .inr ⟨hfull, _, by rw [hrun]; rfl⟩

end Sys2Proof.Machine
end

namespace Sys2Proof.Proofs

open Sys2Proof Sys2Proof.Machine

/-- Settles O32: each turn of the encoder writes the next token of the greedy parse, in at most two bytes for each byte it
takes. -/
theorem lookbackEncodeMeansItsInput : Obligations.LookbackEncodeMeansItsInput := by
  intro s i hs hroom
  rcases exec_lbEncode_cases hs i with ⟨o, mf, pos, runStart, ts, hrun, hparsed, hdata⟩ | ⟨hfull, -⟩
  · refine ⟨o, mf, pos, runStart, ts, hrun, hdata, hparsed.meaning, hparsed.tokens, hparsed.greedy, ?_⟩
    rw [len_eq, hdata]
    exact hparsed.stream_length _
  · exact absurd hroom (Nat.not_le.mpr hfull)

/-- Settles O34: what the encoder wrote is a stream that means its input, which is what the decoder computes. -/
theorem lookbackRoundTrip : Obligations.LookbackRoundTrip := by
  refine ⟨fun s t i hs hlen hrun ht => ?_, fun cfg I max c c' d hdist hmax hlit1 hlit hI hw h =>
    lbDecode_lbEncode ⟨hdist, hmax, hlit1, hlit⟩ hI hw h d⟩
  rcases exec_lbEncode_cases hs i with ⟨o, mf, pos, runStart, ts, henc, hparsed, hdata⟩ | ⟨-, u, henc⟩
  · obtain rfl := Host.Outcome.next.inj (hrun.symm.trans henc)
    have hbuf : ∀ (lb : Lookback), State.buf { s.putBuf i.other o with mf := mf, pos := pos, lb := lb } i.other = o :=
      fun _ => by cases i <;> rfl
    obtain ⟨v, ip, dist, hdec, hv⟩ := lookbackDecodeComputesMeaning.1 _ i.other ts (s.buf i).data [] ht
      (fun t ht => (hparsed.tokens t ht).1) hparsed.meaning (hlen.trans_eq (putBuf_max s i.other o).symm)
      (by rw [hbuf, hdata, List.append_nil, len_eq])
    refine ⟨_, hdec, ?_, ?_, ?_⟩
    · cases i <;> exact hv
    · cases i <;> rfl
    · cases i <;> rfl
  · obtain rfl := Host.Outcome.next.inj (hrun.symm.trans henc)
    exact absurd rfl ht

end Sys2Proof.Proofs


section
/-! SUPPORT. The Huffman codec's count, and trees in the arena (spec 43_huffman.md R200, R204 to R207): what it is for a tree
to be stored, the codes that `HUF.ASSIGN` reads off it and the bits that `HUF.WRITE_TREE` makes of it. -/

namespace Sys2Proof.Machine

/-! ### The operations on the tables by their instructions -/

section
variable {s : State}

theorem runUnit_onTables_ok (hs : s.seq ≠ .fatal) {op : Huffman → Res Huffman Unit} {h : Huffman}
    (hop : op s.huf = .ok () h) :
    runUnit (fun s => (op s.huf).inside fun h => { s with huf := h }) s = .next { s with huf := h } := by
  rw [runUnit_running hs, hop]
  rfl

theorem exec_hufCount (hs : s.seq ≠ .fatal) (i : StageBuf) :
    exec (.hufCount i) s = .next { s with
      huf := hufCount (s.buf i).data s.huf
      pos := afterLoop s.pos 0 (s.buf i).data.length ((s.buf i).data.length - 1) } := by
  rw [exec, execHufCount, runUnit_running hs]
  rfl

theorem exec_hufBuild_ok (hs : s.seq ≠ .fatal) {h : Huffman} (hop : hufBuild s.huf = .ok () h) :
    exec .hufBuild s = .next { s with huf := h } := runUnit_onTables_ok hs hop

theorem exec_hufAssign_ok (hs : s.seq ≠ .fatal) {h : Huffman} (hop : hufAssign s.huf = .ok () h) :
    exec .hufAssign s = .next { s with huf := h } := runUnit_onTables_ok hs hop

theorem exec_hufWriteTree (o : StageBuf) (i : BitVec 9) (s : State) :
    exec (.hufWriteTree o i) s =
      runUnit (onBuf o fun max => writeTree s.huf max (s.huf.nnodes + 1) i.toNat) s := rfl

end

/-! ### The count -/

/-- Counting adds the number of occurrences to what the table held (R200). -/
theorem tableGet_foldl_countByte (v : Byte) : ∀ (I : List Byte) (t : List (Nat × Nat)), tableWf 0 t = true →
    tableGet 0 (I.foldl countByte t) v.toNat = tableGet 0 t v.toNat + I.count v
  | [], _, _ => rfl
  | x :: xs, t, hw => by
    rw [List.foldl_cons, countByte, tableGet_foldl_countByte v xs _ (tablePut_wf _ _ _ _ hw),
      tableGet_tablePut _ _ _ _ _ hw]
    by_cases hx : v = x
    · subst hx
      rw [if_pos rfl, List.count_cons_self, Nat.add_right_comm, Nat.add_assoc]
    · rw [if_neg fun e => hx (BitVec.eq_of_toNat_eq e), List.count_cons_of_ne (Ne.symm hx)]

theorem hufCount_freqAt (I : List Byte) (h : Huffman) (v : Byte) : (hufCount I h).freqAt v.toNat = I.count v := by
  rw [Huffman.freqAt, hufCount, tableGet_foldl_countByte v I [] rfl]
  exact Nat.zero_add _

/-! ### Trees and their sizes -/

namespace CodeTree

/-- A full tree has two nodes for every level below the first. -/
theorem two_mul_height_lt_size : ∀ T : CodeTree, 2 * T.height < T.size
  | .leaf _ => Nat.one_pos
  | .node l r => by
    have hl := two_mul_height_lt_size l
    have hr := two_mul_height_lt_size r
    rw [height, size]
    omega

theorem height_lt_size (T : CodeTree) : T.height < T.size := by
  have h := T.two_mul_height_lt_size
  omega

/-- A leaf takes nine bits and an internal node one (R207). -/
theorem bits_length : ∀ T : CodeTree, T.bits.length = 5 * T.size + 4
  | .leaf v => by simp [bits, size]
  | .node l r => by
    rw [bits, List.length_cons, List.length_append, bits_length l, bits_length r, size]
    omega

theorem length_le_height_of_mem_paths {v : Byte} : ∀ {T : CodeTree} {bits : List Bool}, (v, bits) ∈ T.paths →
    bits.length ≤ T.height
  | .leaf w, bits, h => by
    obtain ⟨-, rfl⟩ : v = w ∧ bits = [] := by simpa [paths] using h
    exact Nat.zero_le _
  | .node l r, bits, h => by
    rw [paths, List.mem_append, List.mem_map, List.mem_map] at h
    rw [height]
    rcases h with ⟨⟨w, tail⟩, hmem, heq⟩ | ⟨⟨w, tail⟩, hmem, heq⟩ <;>
    · obtain ⟨rfl, rfl⟩ := Prod.mk.inj heq
      exact (Nat.succ_le_succ (length_le_height_of_mem_paths hmem)).trans (by omega)

/-! ### Trees stored in the arena -/

variable {h h' : Huffman} {l r T : CodeTree} {v : Byte} {i : Nat}

theorem storedAt_leaf_iff : (leaf v).storedAt h i = true ↔ i < h.nnodes ∧ (h.nodeAt i).kind = .leaf v := by
  simp [storedAt]

theorem storedAt_node_iff : (node l r).storedAt h i = true ↔
    i < h.nnodes ∧ ∃ a b, (h.nodeAt i).kind = .internal a b ∧ l.storedAt h a = true ∧ r.storedAt h b = true := by
  rw [storedAt]
  cases (h.nodeAt i).kind <;> simp

theorem lt_of_storedAt (hT : T.storedAt h i = true) : i < h.nnodes := by
  cases T with
  | leaf v => exact (storedAt_leaf_iff.mp hT).1
  | node l r => exact (storedAt_node_iff.mp hT).1

/-- A tree stays stored where the nodes it may use keep their variant parts. -/
theorem storedAt_mono (hn : h.nnodes ≤ h'.nnodes) (hk : ∀ j, j < h.nnodes → (h'.nodeAt j).kind = (h.nodeAt j).kind) :
    ∀ {T : CodeTree} {i : Nat}, T.storedAt h i = true → T.storedAt h' i = true
  | .leaf v, i, hT => by
    obtain ⟨hi, hkind⟩ := storedAt_leaf_iff.mp hT
    exact storedAt_leaf_iff.mpr ⟨hi.trans_le hn, (hk i hi).trans hkind⟩
  | .node l r, i, hT => by
    obtain ⟨hi, a, b, hkind, hl, hr⟩ := storedAt_node_iff.mp hT
    exact storedAt_node_iff.mpr
      ⟨hi.trans_le hn, a, b, (hk i hi).trans hkind, storedAt_mono hn hk hl, storedAt_mono hn hk hr⟩

/-- Whether a tree is stored depends on the arena and the number of nodes alone. -/
theorem storedAt_sameArena (hnode : h'.node = h.node) (hn : h'.nnodes = h.nnodes) (hT : T.storedAt h i = true) :
    T.storedAt h' i = true :=
  storedAt_mono hn.ge (fun j _ => by rw [Huffman.nodeAt, hnode, Huffman.nodeAt]) hT

end CodeTree

/-! ### The codes -/

/-- Codes written into the table one after another, a later one over an earlier one for the same value (R205). -/
def putCodes (code : List (Nat × List Bool)) (cs : List (Byte × List Bool)) : List (Nat × List Bool) :=
  cs.foldl (fun code c => tablePut [] code c.1.toNat c.2) code

theorem putCodes_append (code : List (Nat × List Bool)) (cs ds : List (Byte × List Bool)) :
    putCodes code (cs ++ ds) = putCodes (putCodes code cs) ds := List.foldl_append

/-- The code of a value is the last one written for it. -/
theorem tableGet_putCodes (v : Byte) : ∀ (cs : List (Byte × List Bool)) (code : List (Nat × List Bool)),
    tableWf [] code = true →
    tableGet [] (putCodes code cs) v.toNat = (cs.reverse.lookup v).getD (tableGet [] code v.toNat)
  | [], _, _ => rfl
  | (w, bits) :: cs, code, hw => by
    rw [putCodes, List.foldl_cons, ← putCodes, tableGet_putCodes v cs _ (tablePut_wf _ _ _ _ hw),
      tableGet_tablePut _ _ _ _ _ hw, List.reverse_cons, List.lookup_append]
    cases cs.reverse.lookup v with
    | some c => rfl
    | none =>
      by_cases hv : v = w
      · subst hv
        simp [List.lookup]
      · have hne : v.toNat ≠ w.toNat := fun e => hv (BitVec.eq_of_toNat_eq e)
        simp [List.lookup, beq_eq_false_iff_ne.mpr hv, hne]

/-- `visit` of R205 on a stored tree writes the paths of its leaves, from left to right. -/
theorem assignVisit_stored {h : Huffman} : ∀ {T : CodeTree} {fuel i : Nat} {pre : List Bool}
    {code : List (Nat × List Bool)}, T.storedAt h i = true → T.height < fuel →
    assignVisit h fuel i pre code = .ok () (putCodes code (T.paths.map fun p => (p.1, pre ++ p.2)))
  | .leaf v, fuel + 1, i, pre, code, hT, _ => by
    obtain ⟨hi, hkind⟩ := CodeTree.storedAt_leaf_iff.mp hT
    rw [assignVisit, if_neg (Nat.not_le_of_lt hi), hkind]
    simp [CodeTree.paths, putCodes]
  | .node l r, fuel + 1, i, pre, code, hT, hf => by
    obtain ⟨hi, a, b, hkind, hl, hr⟩ := CodeTree.storedAt_node_iff.mp hT
    rw [CodeTree.height] at hf
    rw [assignVisit, if_neg (Nat.not_le_of_lt hi), hkind]
    dsimp only
    rw [assignVisit_stored hl (by omega), Res.andThen_ok, assignVisit_stored hr (by omega), ← putCodes_append]
    simp [CodeTree.paths, Function.comp_def]

/-- `HUF.ASSIGN` with a tree stored at the root writes its codes (R205, R206). -/
theorem hufAssign_stored {h : Huffman} {T : CodeTree} (hT : T.storedAt h h.root = true) (hh : T.height ≤ h.nnodes) :
    hufAssign h = .ok () { h with code := putCodes [] T.codes } := by
  have hroot := CodeTree.lt_of_storedAt hT
  rw [hufAssign, if_neg (Nat.ne_zero_of_lt hroot), if_neg (Nat.not_le_of_lt hroot)]
  cases T with
  | leaf v =>
    rw [(CodeTree.storedAt_leaf_iff.mp hT).2]
    rfl
  | node l r =>
    obtain ⟨-, a, b, hkind, -, -⟩ := CodeTree.storedAt_node_iff.mp hT
    rw [hkind]
    dsimp only
    rw [assignVisit_stored hT (Nat.lt_succ_of_le hh)]
    simp [CodeTree.codes]

/-! ### Operations that append bits -/

/-- The operation appends the given bits when there is room for them, and ends in the fatal error when there is not (R142,
R146). -/
structure AppendsBits (op : Nat → Buffer → Res Buffer Unit) (bits : List Bool) : Prop where
  room {max : Nat} {b : Buffer} : b.CursorOk → b.wbits + bits.length ≤ 8 * max →
    ∃ v, op max b = .ok () v ∧ b.BitsAppended v bits
  full {max : Nat} {b : Buffer} : b.CursorOk → b.len ≤ max → 8 * max < b.wbits + bits.length →
    ∃ v, op max b = .stop (.raise .internal) v

theorem appendBitList_appends (bits : List Bool) : AppendsBits (fun max => appendBitList max bits) bits :=
  ⟨appendBitList_room bits, appendBitList_full bits⟩

/-- Bits appended within the bound leave the buffer within it. -/
theorem Buffer.BitsAppended.len_le {b v : Buffer} {bits : List Bool} {max : Nat} (h : b.BitsAppended v bits)
    (hr : b.wbits + bits.length ≤ 8 * max) : v.len ≤ max := by
  obtain ⟨hw, hok, -, -⟩ := h
  have hlen := ((cursorOk_iff v).mp hok).2.1
  omega

theorem AppendsBits.andThen {op op' : Nat → Buffer → Res Buffer Unit} {xs ys : List Bool} (h : AppendsBits op xs)
    (h' : AppendsBits op' ys) : AppendsBits (fun max b => (op max b).andThen fun _ v => op' max v) (xs ++ ys) where
  room {max b} hok hr := by
    rw [List.length_append] at hr
    obtain ⟨v, hrun, hv⟩ := h.room hok (max := max) (by omega)
    have hw : v.wbits = b.wbits + xs.length := hv.1
    obtain ⟨w, hrun', hv'⟩ := h'.room hv.2.1 (max := max) (by omega)
    exact ⟨w, by rw [hrun, Res.andThen_ok, hrun'], hv.append hv'⟩
  full {max b} hok hl hr := by
    rw [List.length_append] at hr
    by_cases hroom : b.wbits + xs.length ≤ 8 * max
    · obtain ⟨v, hrun, hv⟩ := h.room hok hroom
      have hw : v.wbits = b.wbits + xs.length := hv.1
      obtain ⟨w, hrun'⟩ := h'.full hv.2.1 (hv.len_le hroom) (by omega)
      exact ⟨w, by rw [hrun, Res.andThen_ok, hrun']⟩
    · obtain ⟨v, hrun⟩ := h.full hok hl (Nat.lt_of_not_le hroom)
      exact ⟨v, by rw [hrun, Res.andThen_stop]⟩

theorem AppendsBits.congr {op op' : Nat → Buffer → Res Buffer Unit} {bits : List Bool} (h : AppendsBits op bits)
    (heq : ∀ max b, op' max b = op max b) : AppendsBits op' bits := by
  have hop : op' = op := funext fun max => funext fun b => heq max b
  rwa [hop]

/-- `GB.APPEND_BIT`, as a list of one bit. -/
theorem appendBit_appends (x : Bool) : AppendsBits (fun max => appendBit max x) [x] :=
  (appendBitList_appends [x]).congr fun max b => by
    rw [appendBitList]
    cases appendBit max x b <;> rfl

/-! ### The tree writer -/

/-- `HUF.WRITE_TREE` appends the bits of the tree stored at its index (R207). -/
theorem writeTree_appends {h : Huffman} : ∀ {T : CodeTree} {fuel i : Nat}, T.storedAt h i = true → T.height < fuel →
    AppendsBits (fun max => writeTree h max fuel i) T.bits
  | .leaf v, fuel + 1, i, hT, _ => by
    obtain ⟨hi, hkind⟩ := CodeTree.storedAt_leaf_iff.mp hT
    refine ((appendBit_appends false).andThen (appendBitList_appends (lowBits v.toNat 8))).congr fun max b => ?_
    rw [writeTree, if_neg (Nat.not_le_of_lt hi), hkind]
    rfl
  | .node l r, fuel + 1, i, hT, hf => by
    obtain ⟨hi, a, b, hkind, hl, hr⟩ := CodeTree.storedAt_node_iff.mp hT
    rw [CodeTree.height] at hf
    refine ((appendBit_appends true).andThen
      ((writeTree_appends (fuel := fuel) hl (by omega)).andThen (writeTree_appends (fuel := fuel) hr (by omega)))).congr
      fun max o => ?_
    rw [writeTree, if_neg (Nat.not_le_of_lt hi), hkind]

end Sys2Proof.Machine
end

namespace Sys2Proof.Proofs

open Sys2Proof Sys2Proof.Machine

/-- Settles O39: the count of a byte value goes up by one at each of its occurrences. -/
theorem huffmanCountCounts : Obligations.HuffmanCountCounts := fun s i hs =>
  ⟨_, _, exec_hufCount hs i, hufCount_freqAt (s.buf i).data s.huf⟩

/-- Settles O41: the visit writes the paths of the leaves from left to right, so that the last one of a value stands. -/
theorem huffmanAssignReadsPaths : Obligations.HuffmanAssignReadsPaths := by
  intro s T hs
  refine ⟨fun hempty => exec_hufAssign_ok hs ?_, fun hT hh => ?_⟩
  · rw [hufAssign, if_pos hempty]
  · exact ⟨_, exec_hufAssign_ok hs (hufAssign_stored hT hh), fun v => tableGet_putCodes v T.codes [] rfl⟩

/-- Settles O42: writing a tree is appending its bits. -/
theorem huffmanWriteTreeWritesPreorder : Obligations.HuffmanWriteTreeWritesPreorder := by
  intro s o i T hs hT hh hok hroom
  obtain ⟨v, hrun, hv⟩ := (writeTree_appends hT (Nat.lt_succ_of_le hh)).room hok hroom
  refine ⟨v, ?_, hv⟩
  rw [exec_hufWriteTree]
  exact runUnit_onBuf_ok hs hrun

end Sys2Proof.Proofs

section
/-! SUPPORT. The tree reader (spec 43_huffman.md R209): a tree whose bits stand in the stream is laid out in the arena in
pre-order, or the reader is malformed where the bits or the arena end. -/

namespace Sys2Proof.Machine

/-! ### Bits of the stream as far as it goes -/

/-- The stream has the given bits from bit number `r` on, as far as it goes. -/
abbrev BitsMeet (data : List Byte) (r : Nat) (bits : List Bool) : Prop :=
  ∀ k, k < bits.length → r + k < 8 * data.length → bitAt data (r + k) = bits.getD k false

section
variable {data : List Byte} {r : Nat} {xs ys bits : List Bool}

theorem bitsMeet_of_bitsAt (h : BitsAt data r bits) : BitsMeet data r bits := fun k hk _ => h.2 k hk

theorem BitsMeet.bitsAt (h : BitsMeet data r bits) (hr : r + bits.length ≤ 8 * data.length) : BitsAt data r bits :=
  ⟨hr, fun k hk => h k hk (by omega)⟩

theorem BitsMeet.append (h : BitsMeet data r (xs ++ ys)) : BitsMeet data r xs ∧ BitsMeet data (r + xs.length) ys := by
  unfold BitsMeet at h ⊢
  rw [List.length_append] at h
  refine ⟨fun k hk hd => ?_, fun k hk hd => ?_⟩
  · rw [h k (by omega) hd, List.getD_append _ _ _ _ hk]
  · rw [Nat.add_assoc, h _ (by omega) (by omega), List.getD_append_right _ _ _ _ (by omega), Nat.add_sub_cancel_left]

theorem lowBits_toNat_one (x : Bool) : lowBits x.toNat 1 = [x] := by cases x <;> rfl

end

/-! ### Bits read by the decoder -/

/-- The decoder with `n` bits more consumed (R148). -/
def HufDec.read (c : HufDec) (n : Nat) : HufDec :=
  { c with inp := { c.inp with rcur := Cursor.atBit (c.inp.rbits + n) } }

section
variable (c : HufDec) (m n : Nat)

@[simp] theorem read_rbits : (c.read n).inp.rbits = c.inp.rbits + n := atBit_bits _

@[simp] theorem read_read : (c.read m).read n = c.read (m + n) := by
  simp only [HufDec.read, Buffer.rbits, atBit_bits, Nat.add_assoc]

end

/-- A number whose low bits stand in the stream is read, or the stream ends before (R148). -/
theorem HufDec.bits_meet {c : HufDec} {value width : Nat}
    (h : BitsMeet c.inp.data c.inp.rbits (lowBits value width)) :
    (c.inp.rbits + width ≤ 8 * c.inp.len ∧ c.bits width = .ok (value % 2 ^ width) (c.read width)) ∨
    (8 * c.inp.len < c.inp.rbits + width ∧ c.bits width = .stop (.raise .malformed) c) := by
  rcases c.bits_cases width with ⟨hroom, hrun⟩ | hcut
  · rw [bitsValue_of_bitsAt (h.bitsAt (by rwa [lowBits_length]))] at hrun
    exact .inl ⟨hroom, hrun⟩
  · exact .inr hcut

/-- One bit is read, or the stream has ended. -/
theorem HufDec.bit_meet {c : HufDec} {x : Bool} (h : BitsMeet c.inp.data c.inp.rbits [x]) :
    (c.inp.rbits + 1 ≤ 8 * c.inp.len ∧ c.bits 1 = .ok x.toNat (c.read 1)) ∨
    (8 * c.inp.len < c.inp.rbits + 1 ∧ c.bits 1 = .stop (.raise .malformed) c) := by
  rw [← lowBits_toNat_one] at h
  rcases HufDec.bits_meet h with ⟨hroom, hrun⟩ | hcut
  · rw [pow_one, Nat.mod_eq_of_lt (Bool.toNat_lt x)] at hrun
    exact .inl ⟨hroom, hrun⟩
  · exact .inr hcut

/-! ### Trees laid out in the arena -/

/-- The tree stands in pre-order from index `i` on, as `HUF.READ_TREE` takes the indices (R209). -/
def CodeTree.LaidOut (h : Huffman) : CodeTree → Nat → Prop
  | .leaf v, i => (h.nodeAt i).kind = .leaf v
  | .node l r, i =>
    (h.nodeAt i).kind = .internal (i + 1) (i + 1 + l.size) ∧ l.LaidOut h (i + 1) ∧ r.LaidOut h (i + 1 + l.size)

theorem CodeTree.LaidOut.congr {h h' : Huffman} : ∀ {T : CodeTree} {i : Nat}, T.LaidOut h i →
    (∀ j, i ≤ j → j < i + T.size → h'.nodeAt j = h.nodeAt j) → T.LaidOut h' i
  | .leaf v, i, hT, hk => by
    rw [CodeTree.LaidOut, hk i (Nat.le_refl _) (Nat.lt_succ_self _)]
    exact hT
  | .node l r, i, hT, hk => by
    obtain ⟨hkind, hl, hr⟩ := hT
    rw [CodeTree.size] at hk
    refine ⟨?_, hl.congr fun j h1 h2 => hk j (by omega) (by omega), hr.congr fun j h1 h2 => hk j (by omega) (by omega)⟩
    rw [hk i (Nat.le_refl _) (by omega)]
    exact hkind

theorem CodeTree.LaidOut.storedAt {h : Huffman} : ∀ {T : CodeTree} {i : Nat}, T.LaidOut h i → i + T.size ≤ h.nnodes →
    T.storedAt h i = true
  | .leaf v, i, hT, hn => CodeTree.storedAt_leaf_iff.mpr ⟨hn, hT⟩
  | .node l r, i, hT, hn => by
    obtain ⟨hkind, hl, hr⟩ := hT
    rw [CodeTree.size] at hn
    exact CodeTree.storedAt_node_iff.mpr ⟨by omega, _, _, hkind, hl.storedAt (by omega), hr.storedAt (by omega)⟩

/-! ### What the reader leaves -/

/-- A decoder later in the reading of a tree: the arena, the number of nodes and the read cursor have moved on. -/
def HufDec.Later (c c' : HufDec) : Prop := ∃ node nnodes rcur,
  c' = { c with huf := { c.huf with node := node, nnodes := nnodes }, inp := { c.inp with rcur := rcur } }

theorem HufDec.Later.refl (c : HufDec) : c.Later c := ⟨_, _, _, rfl⟩

theorem HufDec.Later.trans {c c' c'' : HufDec} (h : c.Later c') (h' : c'.Later c'') : c.Later c'' := by
  obtain ⟨_, _, _, rfl⟩ := h
  obtain ⟨node, nnodes, rcur, rfl⟩ := h'
  exact ⟨node, nnodes, rcur, rfl⟩

theorem later_read (c : HufDec) (n : Nat) : c.Later (c.read n) := ⟨_, _, _, rfl⟩

/-- The decoder with the next index taken (R209). -/
def HufDec.taken (c : HufDec) : HufDec := { c with huf := { c.huf with nnodes := c.huf.nnodes + 1 } }

theorem later_taken (c : HufDec) : c.Later c.taken := ⟨_, _, _, rfl⟩

/-- The decoder with the next index taken and `n` bits consumed. -/
theorem later_taken_read (c : HufDec) (n : Nat) : c.Later (c.taken.read n) := (later_taken c).trans (later_read _ _)

/-- The decoder `c'` is `c` with some nodes more read: `size` indices taken and `count` bits consumed, and the arena below
the index `low` as it was. -/
structure HufDec.Took (c : HufDec) (size count low : Nat) (c' : HufDec) : Prop where
  state : c' = { c.read count with huf := { c.huf with node := c'.huf.node, nnodes := c.huf.nnodes + size } }
  wf : tableWf {} c.huf.node = true → tableWf {} c'.huf.node = true
  below : tableWf {} c.huf.node = true → ∀ j, j < low → c'.huf.nodeAt j = c.huf.nodeAt j

section
variable {c c' c'' : HufDec} {size count low size' count' low' : Nat}

theorem HufDec.Took.later (h : c.Took size count low c') : c.Later c' := ⟨_, _, _, h.state⟩

theorem HufDec.Took.nnodes (h : c.Took size count low c') : c'.huf.nnodes = c.huf.nnodes + size := by rw [h.state]

theorem HufDec.Took.rbits (h : c.Took size count low c') : c'.inp.rbits = c.inp.rbits + count := by
  rw [h.state]
  exact read_rbits c count

theorem HufDec.Took.data (h : c.Took size count low c') : c'.inp.data = c.inp.data := by rw [h.state]; rfl

theorem HufDec.Took.trans (h : c.Took size count low c') (h' : c'.Took size' count' low' c'') (hlow : low ≤ low') :
    c.Took (size + size') (count + count') low c'' where
  state := by
    obtain ⟨hs, -, -⟩ := h
    obtain ⟨hs', -, -⟩ := h'
    rw [hs] at hs'
    rw [hs', ← read_read]
    simp only [HufDec.read, Nat.add_assoc]
  wf hw := h'.wf (h.wf hw)
  below hw j hj := (h'.below (h.wf hw) j (by omega)).trans (h.below hw j hj)

/-- The next index taken and bits consumed, with nothing stored yet. -/
theorem took_taken_read (c : HufDec) (n : Nat) : c.Took 1 n c.huf.nnodes (c.taken.read n) := ⟨rfl, id, fun _ _ _ => rfl⟩

/-- A node stored at an index not below `low`. -/
theorem HufDec.Took.store (h : c.Took size count low' c') {i : Nat} (kind : NodeKind) (hlow : low ≤ low') (hi : low ≤ i) :
    c.Took size count low (storeNode i kind c') where
  state := by
    have hs := h.state
    generalize hnode : (storeNode i kind c').huf.node = node
    rw [storeNode, Huffman.putNode]
    rw [storeNode, Huffman.putNode] at hnode
    dsimp only at hnode
    rw [hnode, hs]
  wf hw := putNode_wf (h.wf hw) _ _
  below hw j hj := by
    rw [storeNode, nodeAt_putNode (h.wf hw), if_neg (by omega), h.below hw j (by omega)]

end

theorem nodeAt_storeNode {c : HufDec} (hw : tableWf {} c.huf.node = true) (i j : Nat) (kind : NodeKind) :
    (storeNode i kind c).huf.nodeAt j = if j = i then { c.huf.nodeAt i with kind := kind } else c.huf.nodeAt j :=
  nodeAt_putNode hw _ _ _

/-- The decoder `c'` is `c` with the tree read: it is laid out from the next index on. -/
structure HufDec.TreeRead (c : HufDec) (T : CodeTree) (c' : HufDec) : Prop where
  took : c.Took T.size T.bits.length c.huf.nnodes c'
  laid : tableWf {} c.huf.node = true → T.LaidOut c'.huf c.huf.nnodes

/-- An operation that reads a tree node is malformed with nothing but what a reader moves changed. -/
def HufDec.TreeBreaks (c : HufDec) (r : Res HufDec Nat) : Prop := ∃ c', r = .stop (.raise .malformed) c' ∧ c.Later c'

theorem HufDec.Later.breaks {c c' : HufDec} {r : Res HufDec Nat} (h : c.Later c') (hr : c'.TreeBreaks r) :
    c.TreeBreaks r := by
  obtain ⟨c'', rfl, h'⟩ := hr
  exact ⟨c'', rfl, h.trans h'⟩

theorem HufDec.TreeBreaks.andThen {c : HufDec} {r : Res HufDec Nat} (h : c.TreeBreaks r)
    (f : Nat → HufDec → Res HufDec Nat) : c.TreeBreaks (r.andThen f) := by
  obtain ⟨c', rfl, h'⟩ := h
  exact ⟨c', rfl, h'⟩

/-- What `readTree` does on a stream that has the bits of the tree as far as it goes: it reads the tree, or the bits, the
arena or the bound on the recursion do not suffice and it is malformed. -/
def TreeMet (cfg : Config) (fuel : Nat) (T : CodeTree) : Prop := ∀ c : HufDec, BitsMeet c.inp.data c.inp.rbits T.bits →
  (c.inp.rbits + T.bits.length ≤ 8 * c.inp.len ∧ c.huf.nnodes + T.size ≤ cfg.hufMaxNodes ∧
    ∃ c', readTree cfg fuel c = .ok c.huf.nnodes c' ∧ c.TreeRead T c') ∨
  ((8 * c.inp.len < c.inp.rbits + T.bits.length ∨ cfg.hufMaxNodes < c.huf.nnodes + T.size ∨ fuel ≤ T.height) ∧
    c.TreeBreaks (readTree cfg fuel c))

/-! ### An internal node -/

/-- The two subtrees of an internal node at index `i`, and the node (R209). -/
def readChildren (cfg : Config) (fuel i : Nat) (c : HufDec) : Res HufDec Nat :=
  (readTree cfg fuel c).andThen fun l c =>
    (readTree cfg fuel c).andThen fun r c => .ok i (storeNode i (.internal l r) c)

/-- A tree node: the next index is taken and a bit consumed before what is particular to it (R209). -/
def readNode (cfg : Config) (body : Nat → Nat → HufDec → Res HufDec Nat) (c : HufDec) : Res HufDec Nat :=
  (allocNode cfg c).andThen fun i c => (c.bits 1).andThen fun tag c => body i tag c

theorem readTree_succ (cfg : Config) (fuel : Nat) (c : HufDec) : readTree cfg (fuel + 1) c =
    readNode cfg (fun i tag c => if tag = 1 then readChildren cfg fuel i c
      else (c.bits 8).andThen fun v c => .ok i (storeNode i (.leaf (BitVec.ofNat 8 v)) c)) c := rfl

theorem readInternal_eq (cfg : Config) (c : HufDec) :
    readInternal cfg c = readNode cfg (fun i _ c => readChildren cfg cfg.hufMaxNodes i c) c := rfl

/-- A tree node has an index and a bit, or is malformed. -/
theorem readNode_cases (cfg : Config) (body : Nat → Nat → HufDec → Res HufDec Nat) (c : HufDec) :
    (c.huf.nnodes < cfg.hufMaxNodes ∧ c.inp.rbits + 1 ≤ 8 * c.inp.len ∧
      readNode cfg body c = body c.huf.nnodes (bitsValue c.inp.data c.inp.rbits 1) (c.taken.read 1)) ∨
    ((cfg.hufMaxNodes ≤ c.huf.nnodes ∨ 8 * c.inp.len < c.inp.rbits + 1) ∧ c.TreeBreaks (readNode cfg body c)) := by
  rw [readNode]
  rcases allocNode_cases cfg c with ⟨hn, hrun⟩ | ⟨hn, hrun⟩
  · rw [hrun, Res.andThen_ok]
    rcases c.taken.bits_cases 1 with ⟨hb, hrun'⟩ | ⟨hb, hrun'⟩
    · exact .inl ⟨hn, hb, by rw [← HufDec.taken, hrun', Res.andThen_ok]; rfl⟩
    · exact .inr ⟨.inr hb, c.taken, by rw [← HufDec.taken, hrun', Res.andThen_stop], later_taken c⟩
  · exact .inr ⟨.inl hn, c, by rw [hrun, Res.andThen_stop], .refl c⟩

/-- Two subtrees read and their parent stored, at the index taken before theirs. -/
theorem readChildren_meet {cfg : Config} {fuel : Nat} {l r : CodeTree} (hl : TreeMet cfg fuel l) (hr : TreeMet cfg fuel r)
    {c : HufDec} {n : Nat} (hn : c.huf.nnodes = n + 1) (hbits : BitsMeet c.inp.data c.inp.rbits (l.bits ++ r.bits)) :
    (c.inp.rbits + (l.bits ++ r.bits).length ≤ 8 * c.inp.len ∧ n + (CodeTree.node l r).size ≤ cfg.hufMaxNodes ∧
      ∃ c', readChildren cfg fuel n c = .ok n c' ∧ c.Took (l.size + r.size) (l.bits ++ r.bits).length n c' ∧
        (tableWf {} c.huf.node = true → (CodeTree.node l r).LaidOut c'.huf n)) ∨
    ((8 * c.inp.len < c.inp.rbits + (l.bits ++ r.bits).length ∨ cfg.hufMaxNodes < n + (CodeTree.node l r).size ∨
        fuel ≤ max l.height r.height) ∧
      c.TreeBreaks (readChildren cfg fuel n c)) := by
  obtain ⟨hlbits, hrbits⟩ := hbits.append
  rw [List.length_append, readChildren, CodeTree.size]
  rcases hl c hlbits with ⟨-, -, c1, hrun1, htook1, hlaid1⟩ | ⟨hwhy, hbreak⟩
  · rw [hrun1, Res.andThen_ok]
    rcases hr c1 (by rwa [htook1.data, htook1.rbits]) with ⟨hroom, hsize, c2, hrun2, htook2, hlaid2⟩ | ⟨hwhy, hbreak⟩
    · rw [len_eq, htook1.data, htook1.rbits] at hroom
      rw [htook1.nnodes] at hsize
      have htook := htook1.trans htook2 (by rw [htook1.nnodes]; exact Nat.le_add_right _ _)
      refine .inl ⟨by rw [len_eq]; omega, by omega, _, by rw [hrun2]; rfl, htook.store _ (by omega) (Nat.le_refl _),
        fun hw => ?_⟩
      have hw1 := htook1.wf hw
      have hw2 := htook2.wf hw1
      rw [hn] at hlaid1
      rw [htook1.nnodes, hn] at hlaid2
      have hbelow := htook2.below hw1
      rw [htook1.nnodes] at hbelow
      refine ⟨?_, (hlaid1 hw).congr fun j h1 h2 => ?_, (hlaid2 hw1).congr fun j h1 h2 => ?_⟩
      · rw [nodeAt_storeNode hw2, if_pos rfl, htook1.nnodes, hn]
      · rw [nodeAt_storeNode hw2, if_neg (by omega), hbelow j (by omega)]
      · rw [nodeAt_storeNode hw2, if_neg (by omega)]
    · rw [len_eq, htook1.data, htook1.rbits, htook1.nnodes] at hwhy
      exact .inr ⟨by rw [len_eq]; omega, (htook1.later.breaks hbreak).andThen _⟩
  · exact .inr ⟨by omega, hbreak.andThen _⟩

/-- An internal node with its two subtrees, whatever its first bit is (R209). -/
theorem readNode_internal {cfg : Config} {fuel : Nat} {l r : CodeTree} (hl : TreeMet cfg fuel l) (hr : TreeMet cfg fuel r)
    {body : Nat → Nat → HufDec → Res HufDec Nat} {c : HufDec}
    (hbits : BitsMeet c.inp.data (c.inp.rbits + 1) (l.bits ++ r.bits))
    (hbody : c.inp.rbits + 1 ≤ 8 * c.inp.len →
      body c.huf.nnodes (bitsValue c.inp.data c.inp.rbits 1) = readChildren cfg fuel c.huf.nnodes) :
    (c.inp.rbits + (CodeTree.node l r).bits.length ≤ 8 * c.inp.len ∧
      c.huf.nnodes + (CodeTree.node l r).size ≤ cfg.hufMaxNodes ∧
      ∃ c', readNode cfg body c = .ok c.huf.nnodes c' ∧ c.TreeRead (.node l r) c') ∨
    ((8 * c.inp.len < c.inp.rbits + (CodeTree.node l r).bits.length ∨
        cfg.hufMaxNodes < c.huf.nnodes + (CodeTree.node l r).size ∨ fuel ≤ max l.height r.height) ∧
      c.TreeBreaks (readNode cfg body c)) := by
  have hlen : (CodeTree.node l r).bits.length = 1 + (l.bits ++ r.bits).length := Nat.add_comm _ _
  have hsize : (CodeTree.node l r).size = 1 + (l.size + r.size) := Nat.add_assoc _ _ _
  rw [hlen]
  rcases readNode_cases cfg body c with ⟨-, hroom, hrun⟩ | ⟨hwhy, hbreak⟩
  · rw [hrun, hbody hroom]
    rcases readChildren_meet hl hr (c := c.taken.read 1) (n := c.huf.nnodes) rfl (by rwa [read_rbits]) with
      ⟨hroom', hfit, c', hrun', htook, hlaid⟩ | ⟨hwhy, hbreak⟩
    · rw [read_rbits] at hroom'
      have htook' := (took_taken_read c 1).trans htook (Nat.le_refl _)
      rw [← hsize, ← hlen] at htook'
      exact .inl ⟨by rw [← Nat.add_assoc]; exact hroom', hfit, c', hrun', htook', hlaid⟩
    · rw [read_rbits] at hwhy
      exact .inr ⟨by rw [← Nat.add_assoc]; exact hwhy, (later_taken_read c 1).breaks hbreak⟩
  · exact .inr ⟨by omega, hbreak⟩

/-! ### The reader -/

/-- A leaf: nine bits, the first of them 0 (R209). -/
theorem treeMet_leaf (cfg : Config) (fuel : Nat) (v : Byte) : TreeMet cfg (fuel + 1) (.leaf v) := by
  intro c hbits
  obtain ⟨htag, hvalue⟩ := BitsMeet.append (xs := [false]) hbits
  have hlen : (CodeTree.leaf v).bits.length = 1 + 8 := by simp [CodeTree.bits]
  rw [hlen, readTree_succ]
  rcases readNode_cases cfg (fun i tag c => if tag = 1 then readChildren cfg fuel i c
      else (c.bits 8).andThen fun v c => .ok i (storeNode i (.leaf (BitVec.ofNat 8 v)) c)) c with
    ⟨hn, hroom, hrun⟩ | ⟨hwhy, hbreak⟩
  · have htag' : bitsValue c.inp.data c.inp.rbits 1 ≠ 1 := by
      rw [bitsValue_of_bitsAt (value := false.toNat) (by rw [lowBits_toNat_one]; exact htag.bitsAt hroom)]
      decide
    rw [hrun, if_neg htag']
    rcases HufDec.bits_meet (c := c.taken.read 1) (value := v.toNat) (width := 8) (by rwa [read_rbits]) with
      ⟨hroom', hrun'⟩ | ⟨hcut, hrun'⟩
    · rw [read_rbits] at hroom'
      rw [hrun', Res.andThen_ok, read_read, Nat.mod_eq_of_lt v.isLt, BitVec.ofNat_toNat, BitVec.setWidth_eq]
      refine .inl ⟨hroom', hn, _, rfl, ?_, fun hw => ?_⟩
      · rw [hlen]
        exact (took_taken_read c (1 + 8)).store _ (Nat.le_refl _) (Nat.le_refl _)
      · rw [CodeTree.LaidOut, nodeAt_storeNode (c := c.taken.read (1 + 8)) hw, if_pos rfl]
    · rw [read_rbits] at hcut
      exact .inr ⟨.inl hcut, (later_taken_read c 1).breaks ⟨_, by rw [hrun', Res.andThen_stop], .refl _⟩⟩
  · refine .inr ⟨?_, hbreak⟩
    rw [CodeTree.size]
    omega

theorem treeMet (cfg : Config) : ∀ (T : CodeTree) (fuel : Nat), TreeMet cfg fuel T
  | _, 0 => fun c _ => .inr ⟨.inr (.inr (Nat.zero_le _)), c, rfl, .refl c⟩
  | .leaf v, fuel + 1 => treeMet_leaf cfg fuel v
  | .node l r, fuel + 1 => fun c hbits => by
    obtain ⟨htag, hrest⟩ := BitsMeet.append (xs := [true]) hbits
    rw [readTree_succ, CodeTree.height, Nat.add_comm 1, Nat.add_le_add_iff_right]
    refine readNode_internal (treeMet cfg l fuel) (treeMet cfg r fuel) hrest fun hroom => ?_
    rw [bitsValue_of_bitsAt (value := true.toNat) (by rw [lowBits_toNat_one]; exact htag.bitsAt hroom)]
    rfl

/-- `NODE.I` met before the bits of two trees (R209). -/
theorem readInternal_meet {cfg : Config} {l r : CodeTree} {c : HufDec}
    (hbits : BitsMeet c.inp.data (c.inp.rbits + 1) (l.bits ++ r.bits)) :
    (c.inp.rbits + (CodeTree.node l r).bits.length ≤ 8 * c.inp.len ∧
      c.huf.nnodes + (CodeTree.node l r).size ≤ cfg.hufMaxNodes ∧
      ∃ c', readInternal cfg c = .ok c.huf.nnodes c' ∧ c.TreeRead (.node l r) c') ∨
    ((8 * c.inp.len < c.inp.rbits + (CodeTree.node l r).bits.length ∨
        cfg.hufMaxNodes < c.huf.nnodes + (CodeTree.node l r).size ∨ cfg.hufMaxNodes ≤ max l.height r.height) ∧
      c.TreeBreaks (readInternal cfg c)) := by
  rw [readInternal_eq]
  exact readNode_internal (treeMet cfg l _) (treeMet cfg r _) hbits fun _ => rfl

/-- `NODE.L` met (R209): its index and its nine bits are taken, or one of the two is not there. -/
theorem readLeaf_cases (cfg : Config) (v : Byte) (c : HufDec) :
    (c.huf.nnodes < cfg.hufMaxNodes ∧ c.inp.rbits + 9 ≤ 8 * c.inp.len ∧
      readLeaf cfg v c = .ok c.huf.nnodes (storeNode c.huf.nnodes (.leaf v) (c.taken.read 9))) ∨
    (c.huf.nnodes < cfg.hufMaxNodes ∧ 8 * c.inp.len < c.inp.rbits + 9 ∧
      readLeaf cfg v c = .stop (.raise .malformed) c.taken) ∨
    (cfg.hufMaxNodes ≤ c.huf.nnodes ∧ readLeaf cfg v c = .stop (.raise .malformed) c) := by
  rw [readLeaf]
  rcases allocNode_cases cfg c with ⟨hn, hrun⟩ | ⟨hn, hrun⟩
  · rw [hrun, Res.andThen_ok, ← HufDec.taken]
    rcases c.taken.bits_cases 9 with ⟨hb, hrun'⟩ | ⟨hb, hrun'⟩
    · exact .inl ⟨hn, hb, by rw [hrun']; rfl⟩
    · exact .inr (.inl ⟨hn, hb, by rw [hrun']; rfl⟩)
  · exact .inr (.inr ⟨hn, by rw [hrun]; rfl⟩)

/-! ### Tree nodes as steps of the block -/

section
variable {s : State}

theorem exec_hufReadTree (hs : s.seq ≠ .fatal) (b : StageBuf) : exec (.hufReadTree b) s =
    runUnit (onHufNode (readTree Config.barph (Config.barph.hufMaxNodes + 1))) { s with src := b } := by
  rw [exec, execHufReadTree, runUnit_running hs, runUnit_running (s := { s with src := b }) hs]

theorem exec_nodeI (s : State) : exec .nodeI s = runUnit (onHufNode (readInternal Config.barph)) s := rfl

theorem exec_nodeL (v : Byte) (s : State) : exec (.nodeL v) s = runUnit (onHufNode (readLeaf Config.barph v)) s := rfl

theorem runUnit_onHufNode_ok (hs : s.seq ≠ .fatal) {op : HufDec → Res HufDec Nat} {i : Nat} {huf : Huffman} {inp : Buffer}
    (h : op s.hufDec = .ok i { huf := huf, inp := inp, out := s.buf s.src.other }) :
    runUnit (onHufNode op) s = .next { s.putBuf s.src inp with huf := { huf with root := i }, ret := .value i } := by
  have hput : ∀ inp, (s.putBuf s.src inp).putBuf s.src.other (s.buf s.src.other) = s.putBuf s.src inp :=
    putBuf_putBuf_other_buf s s.src
  rw [runUnit_running hs, onHufNode, onHufDec, h]
  simp only [asRoot, Res.andThen_ok, Res.inside_ok, finish_ok, State.answer, hput]

/-- A decoder's cursor does not outlive the error (R276). -/
theorem takeError_withInput (e : Err) (s : State) (b : StageBuf) (huf : Huffman) (rcur : Cursor) :
    takeError e { s.putBuf b { s.buf b with rcur := rcur } with huf := huf } = takeError e { s with huf := huf } := by
  cases b <;> rfl

theorem runUnit_onHufNode_raise (hs : s.seq ≠ .fatal) {op : HufDec → Res HufDec Nat} {e : Err} {huf : Huffman}
    {rcur : Cursor} (h : op s.hufDec = .stop (.raise e)
      { huf := huf, inp := { s.buf s.src with rcur := rcur }, out := s.buf s.src.other }) :
    runUnit (onHufNode op) s = .next (takeError e { s with huf := huf }) := by
  rw [runUnit_running hs, onHufNode, onHufDec, h, ← takeError_withInput e s s.src huf rcur]
  simp only [asRoot, Res.andThen_stop, Res.inside_stop, finish_raise, putBuf_putBuf_other_buf]

/-- A tree read at top level is stored at the root (R209). -/
theorem runUnit_treeRead (hs : s.seq ≠ .fatal) (hw : s.ArenaWf) {op : HufDec → Res HufDec Nat} {T : CodeTree} {c : HufDec}
    (hop : op s.hufDec = .ok s.huf.nnodes c) (hT : s.hufDec.TreeRead T c) :
    ∃ node, runUnit (onHufNode op) s =
        .next { s.putBuf s.src
            { s.buf s.src with rcur := Cursor.atBit ((s.buf s.src).rbits + T.bits.length) } with
          huf := { s.huf with node := node, nnodes := s.huf.nnodes + T.size, root := s.huf.nnodes }
          ret := .value s.huf.nnodes } ∧
      T.storedAt { s.huf with node := node, nnodes := s.huf.nnodes + T.size } s.huf.nnodes = true := by
  obtain ⟨htook, hlaid⟩ := hT
  rw [htook.state] at hop hlaid
  exact ⟨c.huf.node, runUnit_onHufNode_ok hs hop, (hlaid hw).storedAt (Nat.le_refl _)⟩

/-- A tree that breaks is malformed, and only the arena and the number of nodes have changed before (R209). -/
theorem runUnit_treeBreaks (hs : s.seq ≠ .fatal) {op : HufDec → Res HufDec Nat} (hop : s.hufDec.TreeBreaks (op s.hufDec)) :
    ∃ node nnodes, runUnit (onHufNode op) s =
      .next (takeError .malformed { s with huf := { s.huf with node := node, nnodes := nnodes } }) := by
  obtain ⟨_, hrun, node, nnodes, rcur, rfl⟩ := hop
  exact ⟨node, nnodes, runUnit_onHufNode_raise hs hrun⟩

end

end Sys2Proof.Machine
end

namespace Sys2Proof.Proofs

open Sys2Proof Sys2Proof.Machine

/-- Settles O43: the reader takes the tree whose bits it meets, or the stream or the arena ends inside the tree. -/
theorem huffmanReadTreeRebuildsTree : Obligations.HuffmanReadTreeRebuildsTree := by
  intro s b T hs
  have hheight := T.height_lt_size
  have hmet := treeMet Config.barph T (Config.barph.hufMaxNodes + 1) (State.hufDec { s with src := b })
  rw [exec_hufReadTree hs]
  refine ⟨fun hw hfit hbits => ?_, fun hbad => ?_⟩
  · rcases hmet (bitsMeet_of_bitsAt hbits) with ⟨-, -, c, hop, hT⟩ | ⟨hwhy, -⟩
    · exact runUnit_treeRead (s := { s with src := b }) hs hw hop hT
    · have hroom : 8 * (s.buf b).len < (s.buf b).rbits + T.bits.length ∨ 511 < s.huf.nnodes + T.size ∨ 512 ≤ T.height :=
        hwhy
      have hlen := hbits.1
      rw [len_eq] at hroom
      omega
  · rcases hmet (hbad.elim And.right fun h => bitsMeet_of_bitsAt h.2) with ⟨hroom, hfit, -⟩ | ⟨-, hbreak⟩
    · exact absurd hbad (not_or.mpr ⟨fun h => absurd h.1 (Nat.not_lt.mpr hroom), fun h => absurd h.1 (Nat.not_lt.mpr hfit)⟩)
    · exact runUnit_treeBreaks (s := { s with src := b }) hs hbreak

/-- Settles O47: a leaf is nine bits and an index, an internal node a bit, an index and two subtrees. -/
theorem treeNodesMet : Obligations.TreeNodesMet := by
  intro s v l r hs hw
  have hleaf := readLeaf_cases Config.barph v s.hufDec
  have hnode := readInternal_meet (cfg := Config.barph) (l := l) (r := r) (c := s.hufDec)
  have hlen : (CodeTree.node l r).bits.length = (l.bits ++ r.bits).length + 1 := rfl
  have hmax : Config.barph.hufMaxNodes = 511 := rfl
  rw [exec_nodeI, exec_nodeL]
  simp only [hmax, len_eq] at hleaf hnode
  refine ⟨fun hn hroom => ?_, fun hfit hbits => ?_, fun hn hcut => ?_, fun hbad => ?_, fun hfull => ?_⟩
  · rcases hleaf with ⟨-, -, hrun⟩ | ⟨-, hcut, -⟩ | ⟨hfull, -⟩
    · refine ⟨_, runUnit_onHufNode_ok hs hrun, fun k => (nodeAt_storeNode (c := s.hufDec.taken.read 9) hw _ k _).trans ?_⟩
      split
      · next hk => rw [hk]; rfl
      · rfl
    · exact absurd hroom (Nat.not_le.mpr hcut)
    · exact absurd hn (Nat.not_lt.mpr hfull)
  · rcases hnode (bitsMeet_of_bitsAt hbits) with ⟨-, -, c, hop, hT⟩ | ⟨hwhy, -⟩
    · exact runUnit_treeRead hs hw hop hT
    · have hroom := hbits.1
      have hl := l.height_lt_size
      have hr := r.height_lt_size
      rw [hlen, CodeTree.size] at hwhy
      rw [CodeTree.size] at hfit
      omega
  · rcases hleaf with ⟨-, hroom, -⟩ | ⟨-, -, hrun⟩ | ⟨hfull, -⟩
    · exact absurd hcut (Nat.not_lt.mpr hroom)
    · exact runUnit_onHufNode_raise hs hrun
    · exact absurd hn (Nat.not_lt.mpr hfull)
  · rcases hnode (hbad.elim And.right fun h => bitsMeet_of_bitsAt h.2) with ⟨hroom, hfit, -⟩ | ⟨-, hbreak⟩
    · rcases hbad with ⟨hcut, -⟩ | ⟨hfull, -⟩
      · omega
      · exact absurd hfull (Nat.not_lt.mpr hfit)
    · exact runUnit_treeBreaks hs hbreak
  · have hI : readInternal Config.barph s.hufDec = .stop (.raise .malformed) s.hufDec := by
      rw [readInternal, allocNode, if_pos (show Config.barph.hufMaxNodes ≤ s.huf.nnodes from hfull), Res.andThen_stop]
    rcases hleaf with ⟨hn, -⟩ | ⟨hn, -⟩ | ⟨-, hrun⟩
    · exact absurd hn (Nat.not_lt.mpr hfull)
    · exact absurd hn (Nat.not_lt.mpr hfull)
    · exact ⟨runUnit_onHufNode_raise hs hrun, runUnit_onHufNode_raise hs hI⟩

end Sys2Proof.Proofs

section
/-! SUPPORT. Coded bytes (spec 43_huffman.md R210): the bits of a path in a stored tree lead the walk to its leaf, or the
stream ends on the way. -/

namespace Sys2Proof.Machine

/-! ### Bits along a path -/

/-- The decoder with `n` bits more consumed; its cursor stays as it is when there are none. -/
def HufDec.walked (c : HufDec) (n walk : Nat) : HufDec :=
  { (if n = 0 then c else c.read n) with huf := { c.huf with walk := walk } }

theorem walked_pos (c : HufDec) {n : Nat} (hn : 0 < n) (walk : Nat) :
    c.walked n walk = { c.read n with huf := { c.huf with walk := walk } } := by
  rw [HufDec.walked, if_neg (Nat.ne_of_gt hn)]

theorem walked_walked (c : HufDec) (n w walk : Nat) : (c.walked 1 w).walked n walk = c.walked (1 + n) walk := by
  rcases Nat.eq_zero_or_pos n with rfl | hn
  · rfl
  · rw [walked_pos _ hn, walked_pos c (n := 1 + n) (by omega), walked_pos c Nat.one_pos, ← read_read]
    rfl

/-- The walk does not touch the tree. -/
theorem CodeTree.storedAt_withWalk {h : Huffman} {T : CodeTree} {i : Nat} (walk : Nat) (hT : T.storedAt h i = true) :
    T.storedAt { h with walk := walk } i = true :=
  CodeTree.storedAt_sameArena (h := h) rfl rfl hT

/-- A decoder that has stopped on the way to a leaf. -/
def HufDec.Strayed (c c' : HufDec) : Prop := ∃ rcur walk,
  c' = { c with huf := { c.huf with walk := walk }, inp := { c.inp with rcur := rcur } }

theorem HufDec.Strayed.of_walked {c c' : HufDec} {n walk : Nat} (h : (c.walked n walk).Strayed c') : c.Strayed c' := by
  obtain ⟨rcur, w, rfl⟩ := h
  refine ⟨rcur, w, ?_⟩
  rw [HufDec.walked]
  split <;> rfl

/-- A decoder that has lost its way is malformed. -/
def HufDec.WalkBreaks {α : Type} (c : HufDec) (r : Res HufDec α) : Prop :=
  ∃ c', r = .stop (.raise .malformed) c' ∧ c.Strayed c'

theorem HufDec.Strayed.refl (c : HufDec) : c.Strayed c := ⟨_, _, rfl⟩

/-! ### The walk -/

theorem CodeTree.mem_paths_leaf {v w : Byte} {bits : List Bool} : (v, bits) ∈ (leaf w).paths ↔ v = w ∧ bits = [] := by
  simp [paths]

/-- A path in an internal node is an edge and a path in the subtree it leads to (R205). -/
theorem CodeTree.mem_paths_node {l r : CodeTree} {v : Byte} {bits : List Bool} : (v, bits) ∈ (node l r).paths ↔
    ∃ x tail, bits = x :: tail ∧ (v, tail) ∈ (if x then r else l).paths := by
  simp only [paths, List.mem_append, List.mem_map, Bool.exists_bool, Prod.exists, Prod.mk.injEq]
  constructor
  · rintro (⟨w, tail, hmem, rfl, rfl⟩ | ⟨w, tail, hmem, rfl, rfl⟩)
    · exact .inl ⟨tail, rfl, hmem⟩
    · exact .inr ⟨tail, rfl, hmem⟩
  · rintro (⟨tail, rfl, hmem⟩ | ⟨tail, rfl, hmem⟩)
    · exact .inl ⟨v, tail, hmem, rfl, rfl⟩
    · exact .inr ⟨v, tail, hmem, rfl, rfl⟩

/-- The walk from a stored tree along the bits of one of its paths (R210). -/
theorem walkTree_meets {v : Byte} : ∀ (fuel : Nat) {T : CodeTree} {bits : List Bool} {c : HufDec},
    T.storedAt c.huf c.huf.walk = true → (v, bits) ∈ T.paths → BitsMeet c.inp.data c.inp.rbits bits →
    ((bits = [] ∨ c.inp.rbits + bits.length ≤ 8 * c.inp.len) ∧
      ∃ walk, walkTree fuel c = .ok v (c.walked bits.length walk)) ∨
    ((8 * c.inp.len < c.inp.rbits + bits.length ∨ fuel ≤ bits.length) ∧ c.WalkBreaks (walkTree fuel c))
  | 0, _, _, c, _, _, _ => .inr ⟨.inr (Nat.zero_le _), c, rfl, .refl c⟩
  | fuel + 1, .leaf w, bits, c, hT, hpath, _ => by
    obtain ⟨hi, hkind⟩ := CodeTree.storedAt_leaf_iff.mp hT
    obtain ⟨rfl, rfl⟩ := CodeTree.mem_paths_leaf.mp hpath
    refine .inl ⟨.inl rfl, c.huf.walk, ?_⟩
    rw [walkTree, if_neg (Nat.not_le_of_lt hi), hkind]
    rfl
  | fuel + 1, .node l r, bits, c, hT, hpath, hbits => by
    obtain ⟨hi, a, b, hkind, hl, hr⟩ := CodeTree.storedAt_node_iff.mp hT
    obtain ⟨x, tail, rfl, htail⟩ := CodeTree.mem_paths_node.mp hpath
    obtain ⟨hbit, hrest⟩ := BitsMeet.append (xs := [x]) hbits
    have hchild : (if x then r else l).storedAt c.huf (if x.toNat = 0 then a else b) = true := by
      cases x
      · exact hl
      · exact hr
    rw [walkTree, if_neg (Nat.not_le_of_lt hi), hkind, List.length_cons]
    dsimp only
    rcases HufDec.bit_meet hbit with ⟨hroom, hrun⟩ | ⟨hcut, hrun⟩
    · rw [hrun, Res.andThen_ok]
      generalize hw : (if x.toNat = 0 then a else b) = w at hchild ⊢
      have hchild' : CodeTree.storedAt (c.walked 1 w).huf (if x then r else l) (c.walked 1 w).huf.walk = true :=
        CodeTree.storedAt_withWalk w hchild
      have hrbits : (c.walked 1 w).inp.rbits = c.inp.rbits + 1 := read_rbits c 1
      rcases walkTree_meets fuel hchild' htail (by rw [hrbits]; exact hrest) with ⟨hend, walk, hrun'⟩ | ⟨hwhy, hbreak⟩
      · refine .inl ⟨.inr ?_, walk, ?_⟩
        · rw [hrbits] at hend
          rcases hend with rfl | hend
          · exact hroom
          · exact (Nat.le_of_eq (by omega)).trans hend
        · rw [Nat.add_comm, ← walked_walked c _ w]
          exact hrun'
      · rw [hrbits] at hwhy
        refine .inr ⟨hwhy.imp (fun h => Nat.lt_of_lt_of_eq h (by omega)) Nat.succ_le_succ, ?_⟩
        obtain ⟨c', hrun', hstray⟩ := hbreak
        exact ⟨c', hrun', hstray.of_walked⟩
    · exact .inr ⟨.inl (by omega), c, by rw [hrun, Res.andThen_stop], .refl c⟩

/-! ### Coded bytes -/

theorem CodeTree.Reads.length_pos {T : CodeTree} {v : Byte} {bits : List Bool} (h : T.Reads v bits) : 0 < bits.length := by
  cases T with
  | leaf w => exact Nat.lt_of_lt_of_eq Nat.one_pos h.2.symm
  | node l r =>
    obtain ⟨x, tail, rfl, -⟩ := CodeTree.mem_paths_node.mp h
    exact Nat.succ_pos _

/-- The byte of a path from the root (R210): its bits are consumed, or the stream ends inside it. -/
theorem symbolByte_meets {T : CodeTree} {v : Byte} {bits : List Bool} {c : HufDec}
    (hT : T.storedAt c.huf c.huf.root = true) (hv : T.Reads v bits) (hbits : BitsMeet c.inp.data c.inp.rbits bits) :
    (c.inp.rbits + bits.length ≤ 8 * c.inp.len ∧ ∃ walk, symbolByte c = .ok v (c.walked bits.length walk)) ∨
    (8 * c.inp.len < c.inp.rbits + bits.length ∧ c.WalkBreaks (symbolByte c)) := by
  rw [symbolByte, if_neg (Nat.not_le_of_lt (CodeTree.lt_of_storedAt hT))]
  cases T with
  | leaf w =>
    obtain ⟨rfl, hlen⟩ := hv
    rw [(CodeTree.storedAt_leaf_iff.mp hT).2, hlen]
    dsimp only
    rcases c.bits_cases 1 with ⟨hroom, hrun⟩ | ⟨hcut, hrun⟩
    · exact .inl ⟨hroom, c.huf.walk, by rw [hrun]; rfl⟩
    · exact .inr ⟨hcut, c, by rw [hrun]; rfl, .refl c⟩
  | node l r =>
    obtain ⟨-, a, b, hkind, -, -⟩ := CodeTree.storedAt_node_iff.mp hT
    have hpos := CodeTree.Reads.length_pos hv
    have hT' : (CodeTree.node l r).storedAt { c.huf with walk := c.huf.root } c.huf.root = true :=
      CodeTree.storedAt_withWalk _ hT
    rw [hkind]
    dsimp only
    rcases walkTree_meets (8 * c.inp.len + 1) (c := c.walked 0 c.huf.root) hT' hv hbits with
      ⟨hend, walk, hrun⟩ | ⟨hwhy, c', hrun, hstray⟩
    · rw [walked_pos _ hpos] at hrun
      rw [← List.length_eq_zero_iff] at hend
      exact .inl ⟨hend.resolve_left (Nat.ne_of_gt hpos), walk, by rw [walked_pos _ hpos]; exact hrun⟩
    · refine .inr ⟨?_, c', hrun, hstray.of_walked⟩
      rcases hwhy with hcut | hfuel
      · exact hcut
      · omega

/-- A coded byte with room in the output: the byte is appended, or the stream ends inside its bits (R210). -/
theorem readSymbol_meets {max : Nat} {T : CodeTree} {v : Byte} {bits : List Bool} {c : HufDec}
    (hT : T.storedAt c.huf c.huf.root = true) (hv : T.Reads v bits) (hbits : BitsMeet c.inp.data c.inp.rbits bits) :
    (c.inp.rbits + bits.length ≤ 8 * c.inp.len ∧ (c.out.len + 1 ≤ max → ∃ walk o,
      readSymbol max c = .ok () { c.walked bits.length walk with out := o } ∧ o.data = c.out.data ++ [v] ∧
        o.rcur = c.out.rcur)) ∨
    (8 * c.inp.len < c.inp.rbits + bits.length ∧ c.WalkBreaks (readSymbol max c)) := by
  rw [readSymbol]
  rcases symbolByte_meets hT hv hbits with ⟨hroom, walk, hrun⟩ | ⟨hcut, c', hrun, hstray⟩
  · have hout : (c.walked bits.length walk).out = c.out := by
      rw [walked_pos _ hv.length_pos]
      rfl
    refine .inl ⟨hroom, fun hmax => ⟨walk, { c.out with
      data := c.out.data ++ [v], cap := growCap 64 (c.out.len + 1) c.out.cap, wcur := { byte := c.out.len + 1, bit := 0 } },
      ?_, rfl, rfl⟩⟩
    rw [hrun, Res.andThen_ok, hout, appendByte_room v hmax, Res.inside_ok]
  · exact .inr ⟨hcut, c', by rw [hrun, Res.andThen_stop], hstray⟩

theorem exec_sym (s : State) : exec .sym s = runUnit (onHufDec readSymbol) s := rfl

end Sys2Proof.Machine
end

namespace Sys2Proof.Proofs

open Sys2Proof Sys2Proof.Machine

/-- Settles O48: the walk follows the bits it meets, to the leaf or to the end of the stream. -/
theorem codedByteMet : Obligations.CodedByteMet := by
  intro s T v bits hs hT hv
  rw [exec_sym]
  refine ⟨fun hbits hmax => ?_, fun hcut => ?_⟩
  · rcases readSymbol_meets (max := s.max) (c := s.hufDec) hT hv (bitsMeet_of_bitsAt hbits) with ⟨-, hrun⟩ | ⟨hcut, -⟩
    · obtain ⟨walk, o, hrun, hdata, hrcur⟩ := hrun hmax
      rw [walked_pos _ hv.length_pos] at hrun
      exact ⟨o, walk, runUnit_onHufDec_ok hs hrun, hdata, hrcur⟩
    · exact absurd hbits.1 (Nat.not_le.mpr hcut)
  · rcases readSymbol_meets (max := s.max) (c := s.hufDec) hT hv hcut.2 with ⟨hroom, -⟩ | ⟨-, c, hrun, rcur, walk, rfl⟩
    · exact absurd hcut.1 (Nat.not_lt.mpr hroom)
    · exact ⟨walk, (runUnit_onHufDec_raise_unwritten hs hrun).trans (by rw [takeError_withInput])⟩

end Sys2Proof.Proofs

section
/-! SUPPORT. The builder (spec 43_huffman.md R201 to R204): the order of the worklist, the leaves, and the merges as a sequence
of turns, each of which keeps the arena so far and the total frequency of the worklist. -/

namespace Sys2Proof.Machine

/-! ### The order of the worklist -/

/-- In a worklist of falling frequencies a node goes between those of at least its own frequency and the others (R201
(c)). -/
theorem insertByFreq_split {freq : Nat → Nat} (x : Nat) : ∀ {wl : List Nat}, wl.Pairwise (fun a b => freq b ≤ freq a) →
    ∃ front back, wl = front ++ back ∧ insertByFreq freq wl x = front ++ x :: back ∧
      (∀ i ∈ front, freq x ≤ freq i) ∧ ∀ i ∈ back, freq i < freq x
  | [], _ => ⟨[], [], rfl, rfl, by simp, by simp⟩
  | a :: wl, h => by
    obtain ⟨hhead, htail⟩ := List.pairwise_cons.mp h
    by_cases ha : freq x ≤ freq a
    · obtain ⟨front, back, rfl, hins, hfront, hback⟩ := insertByFreq_split x htail
      refine ⟨a :: front, back, rfl, ?_, by simpa [ha] using hfront, hback⟩
      rw [List.cons_append, ← hins, insertByFreq, insertByFreq, List.countP_cons_of_pos (by simpa using ha)]
      rfl
    · have hall : ∀ i ∈ a :: wl, freq i < freq x := by
        intro i hi
        rcases List.mem_cons.mp hi with rfl | hi
        · omega
        · exact (hhead i hi).trans_lt (Nat.lt_of_not_le ha)
      refine ⟨[], a :: wl, rfl, ?_, by simp, hall⟩
      rw [insertByFreq, List.countP_eq_zero.mpr fun i hi => by simpa using hall i hi]
      rfl

theorem leafOrder_falling {freq : Nat → Nat} {wl : List Nat} (h : wl.Pairwise (LeafOrder freq)) :
    wl.Pairwise fun a b => freq b ≤ freq a :=
  h.imp fun hab => hab.elim Nat.le_of_lt fun he => Nat.le_of_eq he.1.symm

/-- A node of a greater index put into a worklist in order leaves it in order (R201 (a)). -/
theorem insertByFreq_leafOrder {freq : Nat → Nat} {wl : List Nat} {x : Nat} (h : wl.Pairwise (LeafOrder freq))
    (hx : ∀ i ∈ wl, i < x) : (insertByFreq freq wl x).Pairwise (LeafOrder freq) := by
  obtain ⟨front, back, rfl, hins, hfront, hback⟩ := insertByFreq_split x (leafOrder_falling h)
  obtain ⟨hf, hb, hfb⟩ := List.pairwise_append.mp h
  rw [hins, List.pairwise_append, List.pairwise_cons]
  refine ⟨hf, ⟨fun i hi => .inl (hback i hi), hb⟩, fun a ha i hi => ?_⟩
  rcases List.mem_cons.mp hi with rfl | hi
  · rcases Nat.lt_or_eq_of_le (hfront a ha) with hlt | heq
    · exact .inl hlt
    · exact .inr ⟨heq.symm, hx a (List.mem_append_left _ ha)⟩
  · exact hfb a ha i hi

/-- The leaves, taken by rising index, come out in the order of R201 (a). -/
theorem sortByFreq_range (freq : Nat → Nat) : ∀ n, (sortByFreq freq (List.range n)).Pairwise (LeafOrder freq)
  | 0 => List.Pairwise.nil
  | n + 1 => by
    rw [sortByFreq, List.range_succ, List.foldl_append]
    exact insertByFreq_leafOrder (sortByFreq_range freq n) fun i hi =>
      List.mem_range.mp ((sortByFreq_perm freq (List.range n)).mem_iff.mp hi)

/-! ### The leaves -/

/-- The byte values below `n` that occur, in increasing order (R201). -/
def Huffman.occurring (h : Huffman) (n : Nat) : List Nat := (List.range n).filter fun v => decide (0 < h.freqAt v)

theorem occurring_length (h : Huffman) : (h.occurring 256).length = h.distinct := List.countP_eq_length_filter.symm

theorem occurring_succ (h : Huffman) (n : Nat) :
    h.occurring (n + 1) = h.occurring n ++ if 0 < h.freqAt n then [n] else [] := by
  rw [Huffman.occurring, List.range_succ, List.filter_append, ← Huffman.occurring]
  by_cases hn : 0 < h.freqAt n <;> simp [hn]

theorem leaves_succ (h : Huffman) (n : Nat) : h.leaves (n + 1) = addLeaf (h.leaves n) n := by
  rw [Huffman.leaves, List.range_succ, List.foldl_append]
  rfl

/-- What the first loop of `HUF.BUILD` leaves: one leaf for each value that occurs, in increasing order (R201). -/
structure Huffman.HasLeaves (h : Huffman) (n : Nat) (g : Huffman) : Prop where
  state : g = { h with
    node := g.node, wl := List.range (h.occurring n).length, nnodes := (h.occurring n).length, merges := 0 }
  wf : tableWf {} g.node = true
  leaf : ∀ k v, (h.occurring n)[k]? = some v → g.nodeAt k = { kind := .leaf (BitVec.ofNat 8 v), freq := h.freqAt v }

theorem leaves_hasLeaves {h : Huffman} (hw : tableWf {} h.node = true) : ∀ n, h.HasLeaves n (h.leaves n)
  | 0 => ⟨rfl, hw, by simp [Huffman.occurring]⟩
  | n + 1 => by
    obtain ⟨hstate, hwf, hleaf⟩ := leaves_hasLeaves hw n
    have hnn : (h.leaves n).nnodes = (h.occurring n).length := by rw [hstate]
    have hwl : (h.leaves n).wl = List.range (h.occurring n).length := by rw [hstate]
    have hfreq : (h.leaves n).freqAt n = h.freqAt n := by rw [Huffman.freqAt, hstate]; rfl
    have hocc := occurring_succ h n
    rw [leaves_succ, addLeaf, hfreq]
    by_cases hn : 0 < h.freqAt n
    · rw [if_pos hn] at hocc ⊢
      have hlen : (h.occurring (n + 1)).length = (h.occurring n).length + 1 := by rw [hocc, List.length_append]; rfl
      refine ⟨?_, putNode_wf hwf _ _, fun k v hk => ?_⟩
      · rw [hlen, List.range_succ, hwl, hnn, Huffman.putNode]
        conv_lhs => rw [hstate]
      · refine (nodeAt_putNode hwf _ _ _).trans ?_
        rw [hocc] at hk
        rw [hnn]
        split
        · next he =>
          rw [he, List.getElem?_concat_length, Option.some.injEq] at hk
          rw [hk]
        · next hne =>
          have hlt : k < (h.occurring n).length := by
            have := (List.getElem?_eq_some_iff.mp hk).1
            rw [List.length_append, List.length_singleton] at this
            omega
          rw [List.getElem?_append_left hlt] at hk
          exact hleaf k v hk
    · rw [if_neg hn, List.append_nil] at hocc
      rw [if_neg hn]
      exact ⟨by rw [hocc]; exact hstate, hwf, by rw [hocc]; exact hleaf⟩

/-! ### One merge -/

/-- The builder between two merges: a canonical arena, and a worklist of its nodes by falling frequency. -/
structure Huffman.Ready (g : Huffman) : Prop where
  wf : tableWf {} g.node = true
  mem : ∀ i ∈ g.wl, i < g.nnodes
  falling : g.wl.Pairwise fun a b => (g.nodeAt b).freq ≤ (g.nodeAt a).freq

/-- A turn of the merge loop that pops `lo` and `hi` and leaves `rest` (R201 (b), (c)). -/
def Huffman.turn (rest : List Nat) (lo hi : Nat) (g : Huffman) : Huffman := ({ g with wl := rest } : Huffman).merged lo hi

section
variable {g : Huffman} {rest : List Nat} {lo hi : Nat}

theorem nodeAt_turn (hw : tableWf {} g.node = true) (i : Nat) : (g.turn rest lo hi).nodeAt i =
    if i = g.nnodes then { kind := .internal hi lo, freq := (g.nodeAt hi).freq + (g.nodeAt lo).freq } else g.nodeAt i :=
  nodeAt_putNode (h := { g with wl := rest }) hw _ _ _

theorem nodeAt_turn_new (hw : tableWf {} g.node = true) : (g.turn rest lo hi).nodeAt g.nnodes =
    { kind := .internal hi lo, freq := (g.nodeAt hi).freq + (g.nodeAt lo).freq } := by
  rw [nodeAt_turn hw, if_pos rfl]

theorem nodeAt_turn_old (hw : tableWf {} g.node = true) {i : Nat} (hi' : i < g.nnodes) :
    (g.turn rest lo hi).nodeAt i = g.nodeAt i := by
  rw [nodeAt_turn hw, if_neg (Nat.ne_of_lt hi')]

theorem turn_wl_perm : (g.turn rest lo hi).wl.Perm (g.nnodes :: rest) := merged_wl_perm lo hi { g with wl := rest }

/-- The turn on the worklist: the two popped entries are of least frequency, and the new node goes to its place. -/
theorem Huffman.Ready.turn_wl (hg : g.Ready) (hwl : g.wl = rest ++ [hi, lo]) :
    ∃ front back, rest = front ++ back ∧ (g.turn rest lo hi).wl = front ++ g.nnodes :: back ∧
      (∀ i ∈ front, ((g.turn rest lo hi).nodeAt g.nnodes).freq ≤ (g.nodeAt i).freq) ∧
      ∀ i ∈ back, (g.nodeAt i).freq < ((g.turn rest lo hi).nodeAt g.nnodes).freq := by
  obtain ⟨hw, hmem, hfall⟩ := hg
  rw [hwl] at hmem hfall
  have hold : ∀ i ∈ rest, (g.turn rest lo hi).nodeAt i = g.nodeAt i := fun i hi =>
    nodeAt_turn_old hw (hmem i (List.mem_append_left _ hi))
  have hfall' : rest.Pairwise fun a b => ((g.turn rest lo hi).nodeAt b).freq ≤ ((g.turn rest lo hi).nodeAt a).freq :=
    (List.pairwise_append.mp hfall).1.imp_of_mem fun ha hb hab => by rwa [hold _ ha, hold _ hb]
  obtain ⟨front, back, hsplit, hins, hfront, hback⟩ := insertByFreq_split g.nnodes hfall'
  subst hsplit
  refine ⟨front, back, rfl, hins, fun i hi => ?_, fun i hi => ?_⟩
  · rw [← hold i (List.mem_append_left _ hi)]
    exact hfront i hi
  · rw [← hold i (List.mem_append_right _ hi)]
    exact hback i hi

theorem Huffman.Ready.mergeTurn (hg : g.Ready) (hwl : g.wl = rest ++ [hi, lo]) :
    MergeTurn (fun k => ((g.turn rest lo hi).nodeAt k).freq) (fun k => ((g.turn rest lo hi).nodeAt k).kind) g.nnodes g.wl
      (g.turn rest lo hi).wl := by
  obtain ⟨front, back, hsplit, hins, hfront, hback⟩ := hg.turn_wl hwl
  obtain ⟨hw, hmem, hfall⟩ := hg
  rw [hwl] at hmem hfall ⊢
  have hold : ∀ i ∈ rest ++ [hi, lo], (g.turn rest lo hi).nodeAt i = g.nodeAt i := fun i hi =>
    nodeAt_turn_old hw (hmem i hi)
  obtain ⟨-, hlast, hrest⟩ := List.pairwise_append.mp hfall
  refine ⟨front, back, hi, lo, by rw [hsplit], ?_, ?_, fun i hi' => ?_, hins, fun i hi' => ?_, fun i hi' => ?_⟩ <;>
    dsimp only
  · rw [nodeAt_turn_new hw]
  · rw [hold lo (by simp), hold hi (by simp)]
    simpa using hlast
  · rw [hold i (List.mem_append_left _ (hsplit ▸ hi')), hold hi (by simp)]
    exact hrest i (hsplit ▸ hi') hi (by simp)
  · rw [hold i (by rw [hsplit]; simp [hi'])]
    exact hfront i hi'
  · rw [hold i (by rw [hsplit]; simp [hi'])]
    exact hback i hi'

theorem Huffman.Ready.turn (hg : g.Ready) (hwl : g.wl = rest ++ [hi, lo]) : (g.turn rest lo hi).Ready where
  wf := putNode_wf hg.wf _ _
  mem i hi' := by
    rcases List.mem_cons.mp (turn_wl_perm.mem_iff.mp hi') with rfl | hi'
    · exact Nat.lt_succ_self _
    · exact Nat.lt_succ_of_lt (hg.mem i (by rw [hwl]; exact List.mem_append_left _ hi'))
  falling := by
    obtain ⟨front, back, hsplit, hins, hfront, hback⟩ := hg.turn_wl hwl
    have hold : ∀ i ∈ front ++ back, (g.turn rest lo hi).nodeAt i = g.nodeAt i := fun i hi =>
      nodeAt_turn_old hg.wf (hg.mem i (by rw [hwl, hsplit]; exact List.mem_append_left _ hi))
    have hfall := hg.falling
    rw [hwl, hsplit] at hfall
    obtain ⟨hf, hb, hfb⟩ := List.pairwise_append.mp ((List.pairwise_append.mp hfall).1.imp_of_mem
      (S := fun a b => ((g.turn rest lo hi).nodeAt b).freq ≤ ((g.turn rest lo hi).nodeAt a).freq)
      fun ha hb hab => by rwa [hold _ ha, hold _ hb])
    rw [hins, List.pairwise_append, List.pairwise_cons]
    refine ⟨hf, ⟨fun i hi => ?_, hb⟩, fun a ha i hi => ?_⟩
    · rw [hold i (List.mem_append_right _ hi)]
      exact (hback i hi).le
    · rcases List.mem_cons.mp hi with rfl | hi
      · rw [hold a (List.mem_append_left _ ha)]
        exact hfront a ha
      · exact hfb a ha i hi

/-- A merge is the same in every arena that has the nodes concerned. -/
theorem MergeTurn.congr {f g : Huffman} {new m : Nat} {wl wl' : List Nat}
    (h : MergeTurn (fun k => (g.nodeAt k).freq) (fun k => (g.nodeAt k).kind) new wl wl')
    (hnode : ∀ i, i < m → f.nodeAt i = g.nodeAt i) (hnew : new < m) (hwl : ∀ i ∈ wl, i < m) :
    MergeTurn (fun k => (f.nodeAt k).freq) (fun k => (f.nodeAt k).kind) new wl wl' := by
  obtain ⟨front, back, hi, lo, rfl, hkind, hleast, hrest, rfl, hfront, hback⟩ := h
  have hold : ∀ i ∈ front ++ back ++ [hi, lo], f.nodeAt i = g.nodeAt i := fun i hi => hnode i (hwl i hi)
  refine ⟨front, back, hi, lo, rfl, ?_, ?_, fun i hi' => ?_, rfl, fun i hi' => ?_, fun i hi' => ?_⟩ <;> dsimp only
  · rw [hnode new hnew]
    exact hkind
  · rw [hold hi (by simp), hold lo (by simp)]
    exact hleast
  · rw [hold hi (by simp), hold i (List.mem_append_left _ hi')]
    exact hrest i hi'
  · rw [hnode new hnew, hold i (by simp [hi'])]
    exact hfront i hi'
  · rw [hnode new hnew, hold i (by simp [hi'])]
    exact hback i hi'

end

/-! ### The merges -/

/-- `n` turns of the merge loop, from `g` to `f`. -/
inductive Merges : Huffman → Nat → Huffman → Prop
  | done (g : Huffman) : Merges g 0 g
  | turn {g f : Huffman} {rest : List Nat} {lo hi n : Nat} (hwl : g.wl = rest ++ [hi, lo])
      (hm : Merges (g.turn rest lo hi) n f) : Merges g (n + 1) f

/-- The merge loop takes as many turns as the worklist has entries above one, which R203 allows. -/
theorem mergeLoop_merges : ∀ (fuel n : Nat) (g : Huffman), g.wl.length - 1 = n → n ≤ fuel →
    g.merges + n ≤ Config.hufMaxMerges → ∃ f, mergeLoop fuel g = .ok () f ∧ Merges g n f
  | 0, n, g, hn, hf, _ => by
    obtain rfl : n = 0 := Nat.le_zero.mp hf
    exact ⟨g, rfl, .done g⟩
  | fuel + 1, n, g, hn, hf, hm => by
    rw [mergeLoop]
    split
    · next lo hi rest hrev =>
      have hwl := popTwo_eq hrev
      have hlen : g.wl.length = rest.length + 2 := by rw [hwl]; simp
      obtain ⟨n, rfl⟩ : ∃ m, n = m + 1 := ⟨rest.length, by omega⟩
      have hwl' : (g.turn rest.reverse lo hi).wl.length = rest.length + 1 := by
        rw [turn_wl_perm.length_eq, List.length_cons, List.length_reverse]
      have hm' : (g.turn rest.reverse lo hi).merges = g.merges + 1 := rfl
      obtain ⟨f, hrun, hmerges⟩ := mergeLoop_merges fuel n (g.turn rest.reverse lo hi) (by omega) (by omega) (by omega)
      refine ⟨f, ?_, .turn hwl hmerges⟩
      rw [mergeTwo_eq, if_neg (show ¬ Config.hufMaxMerges ≤ g.merges by omega)]
      exact hrun
    · next hne =>
      refine ⟨g, rfl, ?_⟩
      match hrev : g.wl.reverse with
      | [] | [_] =>
        have hlen := congrArg List.length hrev
        simp only [List.length_reverse, List.length_nil, List.length_singleton] at hlen
        obtain rfl : n = 0 := by omega
        exact .done g
      | lo :: hi :: rest => exact absurd hrev (hne lo hi rest)

namespace Merges

variable {g f : Huffman} {n : Nat}

theorem state (h : Merges g n f) :
    f = { g with node := f.node, wl := f.wl, nnodes := g.nnodes + n, merges := g.merges + n } := by
  induction h with
  | done g => rfl
  | @turn g f rest lo hi n hwl hm ih =>
    rw [ih]
    simp only [Huffman.turn, Huffman.merged, Huffman.joined, Huffman.putNode, Nat.add_assoc, Nat.add_comm 1]

theorem nnodes (h : Merges g n f) : f.nnodes = g.nnodes + n := by rw [h.state]

theorem ready (h : Merges g n f) (hg : g.Ready) : f.Ready := by
  induction h with
  | done g => exact hg
  | turn hwl hm ih => exact ih (hg.turn hwl)

theorem wl_length (h : Merges g n f) : g.wl.length = f.wl.length + n := by
  induction h with
  | done g => rfl
  | turn hwl hm ih =>
    rw [turn_wl_perm.length_eq, List.length_cons] at ih
    rw [hwl, List.length_append]
    exact congrArg (· + 1) ih

/-- No merge touches a node that is there. -/
theorem nodeAt_eq (h : Merges g n f) (hg : g.Ready) : ∀ i, i < g.nnodes → f.nodeAt i = g.nodeAt i := by
  induction h with
  | done g => exact fun _ _ => rfl
  | turn hwl hm ih => exact fun i hi => (ih (hg.turn hwl) i (Nat.lt_succ_of_lt hi)).trans (nodeAt_turn_old hg.wf hi)

/-- The last node made stands on the worklist. -/
theorem last_mem (h : Merges g n f) (hn : 0 < n) : g.nnodes + n - 1 ∈ f.wl := by
  induction h with
  | done g => exact absurd hn (Nat.lt_irrefl _)
  | @turn g f rest lo hi n hwl hm ih =>
    rcases Nat.eq_zero_or_pos n with rfl | hn
    · cases hm
      exact turn_wl_perm.mem_iff.mpr List.mem_cons_self
    · have hlast := ih hn
      rwa [show (g.turn rest lo hi).nnodes + n = g.nnodes + (n + 1) from Nat.succ_add_eq_add_succ ..] at hlast

/-- Every node made is internal, with earlier children and the sum of their frequencies (R204). -/
theorem internal (h : Merges g n f) (hg : g.Ready) : ∀ k, g.nnodes ≤ k → k < g.nnodes + n →
    ∃ l r, f.nodeAt k = { kind := .internal l r, freq := (f.nodeAt l).freq + (f.nodeAt r).freq } ∧ l < k ∧ r < k := by
  induction h with
  | done g => exact fun k h1 h2 => absurd h2 (Nat.not_lt.mpr h1)
  | @turn g f rest lo hi n hwl hm ih =>
    intro k h1 h2
    have hg' := hg.turn hwl
    have hnn : (g.turn rest lo hi).nnodes = g.nnodes + 1 := rfl
    rcases Nat.eq_or_lt_of_le h1 with rfl | hlt
    · have hlo := hg.mem lo (by simp [hwl])
      have hhi := hg.mem hi (by simp [hwl])
      refine ⟨hi, lo, ?_, hhi, hlo⟩
      rw [hm.nodeAt_eq hg' _ (by omega), hm.nodeAt_eq hg' hi (by omega), hm.nodeAt_eq hg' lo (by omega),
        nodeAt_turn_new hg.wf, nodeAt_turn_old hg.wf hlo, nodeAt_turn_old hg.wf hhi]
    · exact ih hg' k (by omega) (by omega)

/-- The worklists between the merges (R201 (b), (c)). -/
theorem worklists (h : Merges g n f) (hg : g.Ready) : ∃ W : Nat → List Nat, W 0 = g.wl ∧
    (∀ j, j < n →
      MergeTurn (fun k => (f.nodeAt k).freq) (fun k => (f.nodeAt k).kind) (g.nnodes + j) (W j) (W (j + 1))) ∧
    W n = f.wl := by
  induction h with
  | done g => exact ⟨fun _ => g.wl, rfl, fun j hj => absurd hj (Nat.not_lt_zero j), rfl⟩
  | @turn g f rest lo hi n hwl hm ih =>
    obtain ⟨W, hfirst, hturns, hend⟩ := ih (hg.turn hwl)
    refine ⟨fun j => Nat.casesOn j g.wl W, rfl, fun j hj => ?_, hend⟩
    cases j with
    | zero =>
      show MergeTurn _ _ g.nnodes g.wl (W 0)
      rw [hfirst]
      exact (hg.mergeTurn hwl).congr (fun i hi => hm.nodeAt_eq (hg.turn hwl) i hi) (Nat.lt_succ_self _)
        fun i hi => Nat.lt_succ_of_lt (hg.mem i hi)
    | succ j =>
      rw [show g.nnodes + (j + 1) = (g.turn rest lo hi).nnodes + j from (Nat.succ_add_eq_add_succ ..).symm]
      exact hturns j (by omega)

/-- The merges keep the total frequency of the worklist. -/
theorem total (h : Merges g n f) (hg : g.Ready) :
    (f.wl.map fun i => (f.nodeAt i).freq).sum = (g.wl.map fun i => (g.nodeAt i).freq).sum := by
  induction h with
  | done g => rfl
  | @turn g f rest lo hi n hwl hm ih =>
    have hold : rest.map (fun i => ((g.turn rest lo hi).nodeAt i).freq) = rest.map fun i => (g.nodeAt i).freq :=
      List.map_congr_left fun i hi => by rw [nodeAt_turn_old hg.wf (hg.mem i (by simp [hwl, hi]))]
    rw [ih (hg.turn hwl), (turn_wl_perm.map _).sum_eq, hwl]
    simp only [List.map_cons, List.map_append, List.sum_cons, List.sum_append, hold, nodeAt_turn_new hg.wf, List.map_nil,
      List.sum_nil]
    omega

end Merges

end Sys2Proof.Machine
end

section
/-! SUPPORT. What `HUF.BUILD` leaves (spec 43_huffman.md R201 to R204): the trees on the worklist grow together into one, over
the values that occur. -/

namespace Sys2Proof.Machine

/-! ### Trees on the worklist -/

/-- The byte values at the leaves, from left to right. -/
def CodeTree.leaves (T : CodeTree) : List Byte := T.paths.map Prod.fst

@[simp] theorem CodeTree.leaves_leaf (v : Byte) : (CodeTree.leaf v).leaves = [v] := rfl

@[simp] theorem CodeTree.leaves_node (l r : CodeTree) : (CodeTree.node l r).leaves = l.leaves ++ r.leaves := by
  simp [CodeTree.leaves, CodeTree.paths, Function.comp_def]

/-- A tree is stored at every entry of the worklist: `size` nodes in all, with the byte values `leaves` at their leaves. -/
def Huffman.Forest (g : Huffman) (size : Nat) (leaves : List Byte) : Prop := ∃ F : Nat → CodeTree,
  (∀ i ∈ g.wl, (F i).storedAt g i = true) ∧ (g.wl.map fun i => (F i).size).sum = size ∧
    (g.wl.flatMap fun i => (F i).leaves).Perm leaves

/-- A turn joins two trees under a new node (R201 (b)). -/
theorem Huffman.Forest.turn {g : Huffman} {rest : List Nat} {lo hi size : Nat} {leaves : List Byte}
    (h : g.Forest size leaves) (hg : g.Ready) (hwl : g.wl = rest ++ [hi, lo]) :
    (g.turn rest lo hi).Forest (size + 1) leaves := by
  obtain ⟨F, hstored, hsize, hleaves⟩ := h
  have hkeep : ∀ i ∈ g.wl, (F i).storedAt (g.turn rest lo hi) i = true := fun i hi' =>
    CodeTree.storedAt_mono (Nat.le_succ _) (fun j hj => by rw [nodeAt_turn_old hg.wf hj]) (hstored i hi')
  let F' : Nat → CodeTree := Function.update F g.nnodes (.node (F hi) (F lo))
  have hnew : F' g.nnodes = .node (F hi) (F lo) := Function.update_self ..
  have hold : ∀ i ∈ rest, F' i = F i := fun i hi' =>
    Function.update_of_ne (Nat.ne_of_lt (hg.mem i (by simp [hwl, hi']))) ..
  have hsizes : rest.map (fun i => (F' i).size) = rest.map fun i => (F i).size :=
    List.map_congr_left fun i hi' => by rw [hold i hi']
  have hrest : rest.flatMap (fun i => (F' i).leaves) = rest.flatMap fun i => (F i).leaves :=
    List.flatMap_congr fun i hi' => by rw [hold i hi']
  refine ⟨F', fun i hi' => ?_, ?_, ?_⟩
  · rcases List.mem_cons.mp (turn_wl_perm.mem_iff.mp hi') with rfl | hi'
    · rw [hnew]
      exact CodeTree.storedAt_node_iff.mpr ⟨Nat.lt_succ_self _, hi, lo, by rw [nodeAt_turn_new hg.wf],
        hkeep hi (by simp [hwl]), hkeep lo (by simp [hwl])⟩
    · rw [hold i hi']
      exact hkeep i (by simp [hwl, hi'])
  · rw [(turn_wl_perm.map _).sum_eq, ← hsize, hwl]
    simp only [List.map_cons, List.map_append, List.sum_cons, List.sum_append, hnew, hsizes, CodeTree.size, List.map_nil,
      List.sum_nil]
    omega
  · refine (turn_wl_perm.flatMap_right _).trans (.trans ?_ hleaves)
    rw [hwl, List.flatMap_cons, List.flatMap_append, hnew, hrest]
    simp only [CodeTree.leaves_node, List.flatMap_cons, List.flatMap_nil, List.append_nil]
    exact List.perm_append_comm

/-- The merges keep the leaves, and each adds one node. -/
theorem Merges.forest {g f : Huffman} {n size : Nat} {leaves : List Byte} (h : Merges g n f) (hg : g.Ready)
    (hF : g.Forest size leaves) : f.Forest (size + n) leaves := by
  induction h generalizing size with
  | done g => exact hF
  | turn hwl hm ih =>
    have hend := ih (hg.turn hwl) (hF.turn hg hwl)
    rwa [Nat.add_assoc, Nat.add_comm 1] at hend

/-! ### What the merges start from -/

/-- A table over the indices of a list is the list mapped. -/
theorem map_range_length {α β : Type} {L : List α} {φ : Nat → β} {ψ : α → β} (h : ∀ k v, L[k]? = some v → φ k = ψ v) :
    (List.range L.length).map φ = L.map ψ := by
  refine List.ext_getElem (by simp) fun k h1 h2 => ?_
  rw [List.getElem_map, List.getElem_map, List.getElem_range]
  exact h k _ (List.getElem?_eq_getElem _)

theorem sum_occurring (h : Huffman) (n : Nat) : ((h.occurring n).map h.freqAt).sum = ((List.range n).map h.freqAt).sum := by
  induction n with
  | zero => rfl
  | succ n ih =>
    rw [occurring_succ, List.range_succ, List.map_append, List.map_append, List.sum_append, List.sum_append, ih]
    split
    · rfl
    · next hn => simp [Nat.eq_zero_of_not_pos hn]

theorem lt_of_mem_occurring {h : Huffman} {n v : Nat} (hv : v ∈ h.occurring n) : v < n :=
  List.mem_range.mp (List.mem_of_mem_filter hv)

/-- The leaves sorted: ready for the merges, with the order, the total and the trees that R201 (a) gives them. -/
structure Huffman.Sorted (h g : Huffman) : Prop where
  state : g = { h with node := g.node, wl := g.wl, nnodes := h.distinct, merges := 0 }
  perm : g.wl.Perm (List.range h.distinct)
  order : g.wl.Pairwise (LeafOrder fun k => (g.nodeAt k).freq)
  ready : g.Ready
  leaf : ∀ k v, (h.occurring 256)[k]? = some v → g.nodeAt k = { kind := .leaf (BitVec.ofNat 8 v), freq := h.freqAt v }

theorem Huffman.HasLeaves.sorted {h g : Huffman} (hg : h.HasLeaves 256 g) :
    h.Sorted { g with wl := sortByFreq (fun k => (g.nodeAt k).freq) g.wl } := by
  obtain ⟨hstate, hwf, hleaf⟩ := hg
  rw [occurring_length] at hstate
  have hwl : g.wl = List.range h.distinct := by rw [hstate]
  have horder := sortByFreq_range (fun k => (g.nodeAt k).freq) h.distinct
  have hperm := sortByFreq_perm (fun k => (g.nodeAt k).freq) (List.range h.distinct)
  rw [hwl]
  refine ⟨?_, hperm, horder, ⟨hwf, fun i hi => ?_, leafOrder_falling horder⟩, hleaf⟩
  · conv_lhs => rw [hstate]
    rfl
  · have hnn : g.nnodes = h.distinct := by rw [hstate]
    exact Nat.lt_of_lt_of_eq (List.mem_range.mp (hperm.mem_iff.mp hi)) hnn.symm

theorem sortedLeaves_sorted {h : Huffman} (hw : tableWf {} h.node = true) : h.Sorted (h.sortedLeaves 256) :=
  (leaves_hasLeaves hw 256).sorted

section
variable {h g : Huffman}

theorem Huffman.Sorted.nnodes (hs : h.Sorted g) : g.nnodes = h.distinct := by rw [hs.state]

theorem Huffman.Sorted.total (hs : h.Sorted g) : (g.wl.map fun i => (g.nodeAt i).freq).sum = h.total := by
  rw [(hs.perm.map _).sum_eq, ← occurring_length, map_range_length (ψ := h.freqAt) fun k v hk => by rw [hs.leaf k v hk]]
  exact sum_occurring h 256

theorem Huffman.Sorted.forest (hs : h.Sorted g) : g.Forest h.distinct ((h.occurring 256).map (BitVec.ofNat 8)) := by
  refine ⟨fun k => .leaf (BitVec.ofNat 8 ((h.occurring 256).getD k 0)), fun i hi => ?_, ?_, ?_⟩
  · have hlt : i < h.distinct := List.mem_range.mp (hs.perm.mem_iff.mp hi)
    rw [← occurring_length] at hlt
    have hget := List.getElem?_eq_getElem hlt
    refine CodeTree.storedAt_leaf_iff.mpr ⟨hs.ready.mem i hi, ?_⟩
    rw [hs.leaf i _ hget, List.getD_eq_getElem?_getD, hget, Option.getD_some]
  · have hlen := hs.perm.length_eq
    rw [List.length_range] at hlen
    simp [CodeTree.size, hlen]
  · refine (hs.perm.flatMap_right _).trans ?_
    rw [← occurring_length]
    simp only [CodeTree.leaves_leaf]
    rw [← List.map_eq_flatMap, map_range_length (ψ := BitVec.ofNat 8) fun k v hk => by
      rw [List.getD_eq_getElem?_getD, hk, Option.getD_some]]

end

/-- The byte values that occur are all different, and they are those with a count. -/
theorem occurring_bytes (h : Huffman) : ((h.occurring 256).map (BitVec.ofNat 8)).Nodup ∧
    ∀ v : Byte, v ∈ (h.occurring 256).map (BitVec.ofNat 8) ↔ 0 < h.freqAt v.toNat := by
  have htoNat : ∀ v ∈ h.occurring 256, (BitVec.ofNat 8 v).toNat = v := fun v hv => by
    rw [BitVec.toNat_ofNat, Nat.mod_eq_of_lt (lt_of_mem_occurring hv)]
  refine ⟨(List.nodup_range.filter _).map_on fun v hv w hw he => ?_, fun v => ?_⟩
  · rw [← htoNat v hv, he, htoNat w hw]
  · rw [List.mem_map]
    constructor
    · rintro ⟨w, hw, rfl⟩
      rw [htoNat w hw]
      exact of_decide_eq_true (List.mem_filter.mp hw).2
    · intro hv
      exact ⟨v.toNat, List.mem_filter.mpr ⟨List.mem_range.mpr v.isLt, decide_eq_true hv⟩, by simp⟩

/-! ### The builder -/

theorem setRoot_single {h : Huffman} {r : Nat} (hr : h.wl = [r]) : setRoot h = { h with root := r } := by
  rw [setRoot, hr]

theorem setRoot_empty {h : Huffman} (hr : h.wl = []) : setRoot h = h := by
  rw [setRoot, hr]

theorem distinct_le (h : Huffman) : h.distinct ≤ 256 := by
  have hle := List.countP_le_length (p := fun v => decide (0 < h.freqAt v)) (l := List.range 256)
  rwa [List.length_range] at hle

/-- The tree left when the merges are done (R204). -/
theorem Huffman.Sorted.tree {h g f : Huffman} (hs : h.Sorted g) (hm : Merges g (h.distinct - 1) f) {root : Nat}
    (hwl : f.wl = [root]) : ∃ T : CodeTree, T.storedAt f root = true ∧ T.size = h.distinct + (h.distinct - 1) ∧
      T.leaves.Nodup ∧ ∀ v : Byte, v ∈ T.leaves ↔ 0 < h.freqAt v.toNat := by
  obtain ⟨F, hstored, hsize, hleaves⟩ := hm.forest hs.ready hs.forest
  obtain ⟨hnodup, hmem⟩ := occurring_bytes h
  rw [hwl] at hstored hsize hleaves
  rw [List.flatMap_singleton] at hleaves
  exact ⟨F root, hstored root (List.mem_singleton_self root), by simpa using hsize, hleaves.nodup_iff.mpr hnodup,
    fun v => hleaves.mem_iff.trans (hmem v)⟩

/-- What `HUF.BUILD` does not write (R201). -/
structure Huffman.SameOthers (h f : Huffman) : Prop where
  freq : f.freq = h.freq
  code : f.code = h.code
  walk : f.walk = h.walk
  hlen : f.hlen = h.hlen

theorem Huffman.SameOthers.eq {h f : Huffman} (hf : h.SameOthers f) :
    f = { h with node := f.node, wl := f.wl, nnodes := f.nnodes, root := f.root, merges := f.merges } := by
  obtain ⟨hfreq, hcode, hwalk, hhlen⟩ := hf
  rw [← hfreq, ← hcode, ← hwalk, ← hhlen]

theorem Huffman.Sorted.sameOthers {h g f : Huffman} {n : Nat} (hs : h.Sorted g) (hm : Merges g n f) : h.SameOthers f := by
  have hstate := hm.state
  rw [hs.state] at hstate
  rw [hstate]
  exact ⟨rfl, rfl, rfl, rfl⟩

theorem LeafOrder.congr {φ ψ : Nat → Nat} {a b : Nat} (h : LeafOrder φ a b) (ha : ψ a = φ a) (hb : ψ b = φ b) :
    LeafOrder ψ a b := by
  rwa [LeafOrder, ha, hb]

/-- The root is the last node made (R204). -/
theorem Huffman.Sorted.root_eq {h g f : Huffman} (hs : h.Sorted g) (hm : Merges g (h.distinct - 1) f) {root : Nat}
    (hwl : f.wl = [root]) : root = 2 * h.distinct - 2 := by
  rcases Nat.eq_zero_or_pos (h.distinct - 1) with h0 | hpos
  · rw [h0] at hm
    cases hm
    have hroot := hs.perm.mem_iff.mp (hwl ▸ List.mem_singleton_self root)
    rw [List.mem_range] at hroot
    omega
  · have hlast := hm.last_mem hpos
    rw [hwl, List.mem_singleton, hs.nnodes] at hlast
    omega

/-- What `HUF.BUILD` leaves when it is done with its merges, with the root it sets: the clauses of R201 to R204. -/
theorem Huffman.Sorted.built {h g f : Huffman} (hs : h.Sorted g) (hm : Merges g (h.distinct - 1) f) {root : Nat}
    (hroot : 0 < h.distinct → f.wl = [root]) : Huffman.Built { f with root := root } := by
  have hfreq : f.freq = h.freq := (hs.sameOthers hm).freq
  have hnn : f.nnodes = h.distinct + (h.distinct - 1) := by rw [hm.nnodes, hs.nnodes]
  have hmerges : f.merges = h.distinct - 1 := by rw [hm.state, hs.state]; exact Nat.zero_add _
  have hlen := hm.wl_length
  rw [hs.perm.length_eq, List.length_range] at hlen
  have hfreqAt : Huffman.freqAt { f with root := root } = h.freqAt := by
    funext v
    rw [Huffman.freqAt, hfreq]
    rfl
  have hdistinct : Huffman.distinct { f with root := root } = h.distinct := by rw [Huffman.distinct, hfreqAt]; rfl
  have htotal : Huffman.total { f with root := root } = h.total := by rw [Huffman.total, hfreqAt]; rfl
  obtain ⟨W, hfirst, hturns, hend⟩ := hm.worklists hs.ready
  have hnode := hm.nodeAt_eq hs.ready
  rw [hs.nnodes] at hturns hnode
  rw [Huffman.Built, hdistinct, htotal, hfreqAt]
  refine ⟨hnn.trans (by omega), hmerges, ?_, ⟨W, ?_, ?_, fun j hj => hturns j (by omega), hend.symm⟩, fun k hk => ?_,
    fun k hk hlt => ?_, fun hpos => ?_⟩
  · show f.wl.length = _
    omega
  · rw [hfirst]
    exact hs.perm
  · rw [hfirst]
    have hlt : ∀ i ∈ g.wl, i < h.distinct := fun i hi => List.mem_range.mp (hs.perm.mem_iff.mp hi)
    exact hs.order.imp_of_mem fun {a b} ha hb hab =>
      hab.congr (congrArg Node.freq (hnode a (hlt a ha))) (congrArg Node.freq (hnode b (hlt b hb)))
  · rw [← occurring_length] at hk
    have hget := List.getElem?_eq_getElem hk
    refine ⟨_, hget, ?_⟩
    exact (hnode k (by rwa [occurring_length] at hk)).trans (hs.leaf k _ hget)
  · exact hm.internal hs.ready k (by rwa [hs.nnodes]) (by rw [hs.nnodes]; exact Nat.lt_of_lt_of_eq hlt hnn)
  · obtain ⟨T, hT, hsize, hnodup, hmem⟩ := hs.tree hm (hroot hpos)
    have hweight := hm.total hs.ready
    rw [hs.total, hroot hpos, List.map_singleton, List.sum_singleton] at hweight
    exact ⟨hs.root_eq hm (hroot hpos), hweight, T, CodeTree.storedAt_sameArena (h := f) rfl rfl hT, hsize.trans hnn.symm,
      hnodup, hmem⟩

theorem hufBuild_built {h : Huffman} (hw : tableWf {} h.node = true) :
    ∃ f, hufBuild h = .ok () f ∧ h.SameOthers f ∧ tableWf {} f.node = true ∧ f.Built ∧
      (h.distinct = 0 → f.root = h.root) := by
  have hs := sortedLeaves_sorted hw
  rw [hufBuild_eq]
  generalize h.sortedLeaves 256 = g at hs ⊢
  have hlen := hs.perm.length_eq
  rw [List.length_range] at hlen
  have hmerges : g.merges = 0 := by rw [hs.state]
  have hle := distinct_le h
  obtain ⟨f, hrun, hm⟩ := mergeLoop_merges g.wl.length (h.distinct - 1) g (by rw [hlen]) (by omega)
    (by rw [hmerges, Config.hufMaxMerges]; omega)
  have hflen := hm.wl_length
  have hwf := (hm.ready hs.ready).wf
  have hothers := hs.sameOthers hm
  rw [hrun, Res.andThen_ok]
  rcases Nat.eq_zero_or_pos h.distinct with h0 | hpos
  · have hempty : f.wl = [] := List.length_eq_zero_iff.mp (by omega)
    have hbuilt := hs.built hm (root := f.root) fun hpos => absurd h0 (Nat.ne_of_gt hpos)
    exact ⟨f, by rw [setRoot_empty hempty], hothers, hwf, hbuilt, fun _ => by rw [hm.state, hs.state]⟩
  · obtain ⟨r, hr⟩ := List.length_eq_one_iff.mp (show f.wl.length = 1 by omega)
    refine ⟨{ f with root := r }, by rw [setRoot_single hr], ?_, hwf, hs.built hm fun _ => hr,
      fun h0 => absurd h0 (Nat.ne_of_gt hpos)⟩
    exact ⟨hothers.freq, hothers.code, hothers.walk, hothers.hlen⟩

end Sys2Proof.Machine
end

namespace Sys2Proof.Proofs

open Sys2Proof Sys2Proof.Machine

/-- Settles O40: the leaves sorted by frequency are merged, turn by turn, into one tree. -/
theorem huffmanBuildMakesFullTree : Obligations.HuffmanBuildMakesFullTree := by
  intro s hs hw
  obtain ⟨f, hrun, hothers, -, hbuilt, hroot⟩ := hufBuild_built hw
  exact ⟨f, exec_hufBuild_ok hs hrun, hothers.eq, hbuilt, hroot⟩

end Sys2Proof.Proofs

section
/-! SUPPORT. The packer (spec 43_huffman.md R208): the tables `HUF.ENCODE` makes of its input, and the bits it writes with
them. -/

namespace Sys2Proof.Machine

/-! ### Codes of a tree whose leaves are all different -/

theorem lookup_of_mem {α β : Type} [BEq α] [LawfulBEq α] {a : α} {b : β} : ∀ {l : List (α × β)}, (l.map Prod.fst).Nodup →
    (a, b) ∈ l → l.lookup a = some b
  | (c, d) :: l, hn, hm => by
    rw [List.map_cons, List.nodup_cons] at hn
    rcases List.mem_cons.mp hm with he | htail
    · obtain ⟨rfl, rfl⟩ := Prod.mk.inj he
      simp [List.lookup]
    · have hkey : a ∈ l.map Prod.fst := List.mem_map_of_mem (f := Prod.fst) htail
      have hne : a ≠ c := fun e => hn.1 (e ▸ hkey)
      simp [List.lookup, beq_eq_false_iff_ne.mpr hne, lookup_of_mem hn.2 htail]

theorem lookup_reverse {α β : Type} [BEq α] [LawfulBEq α] {l : List (α × β)} (hn : (l.map Prod.fst).Nodup) (a : α) :
    l.reverse.lookup a = l.lookup a := by
  by_cases ha : a ∈ l.map Prod.fst
  · obtain ⟨⟨_, b⟩, hm, rfl⟩ := List.mem_map.mp ha
    rw [lookup_of_mem hn hm, lookup_of_mem (by rwa [List.map_reverse, List.nodup_reverse]) (List.mem_reverse.mpr hm)]
  · have hnone : ∀ p ∈ l, (a != p.1) = true := fun p hp =>
      bne_iff_ne.mpr fun e => ha (e ▸ List.mem_map_of_mem hp)
    rw [List.lookup_eq_none_iff.mpr fun p hp => hnone p (List.mem_reverse.mp hp),
      List.lookup_eq_none_iff.mpr fun p hp => hnone p hp]

namespace CodeTree

theorem codes_keys (T : CodeTree) : T.codes.map Prod.fst = T.leaves := by cases T <;> rfl

theorem reads_of_mem_codes {T : CodeTree} {v : Byte} {bits : List Bool} (h : (v, bits) ∈ T.codes) : T.Reads v bits := by
  cases T with
  | leaf w =>
    obtain ⟨rfl, rfl⟩ : v = w ∧ bits = [false] := by simpa [codes] using h
    exact ⟨rfl, rfl⟩
  | node l r => exact h

theorem length_le_of_mem_codes {T : CodeTree} {v : Byte} {bits : List Bool} (h : (v, bits) ∈ T.codes) :
    bits.length ≤ T.height + 1 := by
  cases T with
  | leaf w =>
    obtain ⟨-, rfl⟩ : v = w ∧ bits = [false] := by simpa [codes] using h
    exact Nat.le_refl 1
  | node l r => exact (length_le_height_of_mem_paths h).trans (Nat.le_succ _)

end CodeTree

/-! ### The tables -/

/-- The tables with which an input that is not empty is encoded: its counts, what `HUF.BUILD` makes of them with the tree `T`
at the root, and the codes of that tree (R208). -/
structure Huffman.CodesFor (h : Huffman) (I : List Byte) (T : CodeTree) : Prop where
  count : ∀ v : Byte, h.freqAt v.toNat = I.count v
  built : h.Built
  stored : T.storedAt h h.root = true
  size : T.size = h.nnodes
  nnodes : h.nnodes ≤ 511
  code : ∀ v : Byte, h.codeAt v.toNat = (T.codes.lookup v).getD []
  mem : ∀ v ∈ I, (v, h.codeAt v.toNat) ∈ T.codes

/-- What `HUF.BUILD` leaves does not depend on `CODE`. -/
theorem Huffman.Built.withCode {h : Huffman} (hb : h.Built) (code : List (Nat × List Bool)) :
    Huffman.Built { h with code := code } := by
  obtain ⟨hn, hm, hl, hW, hleaf, hint, htree⟩ := hb
  refine ⟨hn, hm, hl, hW, hleaf, hint, fun hpos => ?_⟩
  obtain ⟨hroot, hfreq, T, hT, hrest⟩ := htree hpos
  exact ⟨hroot, hfreq, T, CodeTree.storedAt_sameArena (h := h) rfl rfl hT, hrest⟩

theorem distinct_pos {h : Huffman} {v : Byte} (hv : 0 < h.freqAt v.toNat) : 0 < h.distinct :=
  List.countP_pos_iff.mpr ⟨v.toNat, List.mem_range.mpr v.isLt, decide_eq_true hv⟩

/-- `HUF.BUILD` and `HUF.ASSIGN` on the counts of an input that is not empty (R201, R205). -/
theorem hufTables {h : Huffman} (hw : tableWf {} h.node = true) {I : List Byte} (hI : I ≠ []) :
    ∃ f T code, hufBuild (hufCount I h) = .ok () f ∧ hufAssign f = .ok () { f with code := code } ∧
      (hufCount I h).SameOthers f ∧ tableWf {} f.node = true ∧ Huffman.CodesFor { f with code := code } I T := by
  obtain ⟨f, hrun, hothers, hwf, hbuilt, -⟩ := hufBuild_built (h := hufCount I h) hw
  have hcount : ∀ v : Byte, f.freqAt v.toNat = I.count v := fun v => by
    rw [Huffman.freqAt, hothers.freq]
    exact hufCount_freqAt I h v
  obtain ⟨x, hx⟩ := List.exists_mem_of_ne_nil I hI
  have hpos : 0 < f.distinct := distinct_pos (v := x) (by rw [hcount]; exact List.count_pos_iff.mpr hx)
  obtain ⟨hnn, -, -, -, -, -, htree⟩ := id hbuilt
  obtain ⟨-, -, T, hT, hsize, hnodup, hmem⟩ := htree hpos
  have hle := distinct_le f
  have hheight := T.height_lt_size
  have hcode : ∀ v : Byte, tableGet [] (putCodes [] T.codes) v.toNat = (T.codes.lookup v).getD [] := fun v => by
    rw [tableGet_putCodes v T.codes [] rfl, lookup_reverse (by rw [CodeTree.codes_keys]; exact hnodup)]
    rfl
  refine ⟨f, T, putCodes [] T.codes, hrun, hufAssign_stored hT (by omega), hothers, hwf, hcount, hbuilt.withCode _,
    CodeTree.storedAt_sameArena (h := f) rfl rfl hT, hsize, show f.nnodes ≤ 511 by omega, hcode, fun v hv => ?_⟩
  have hkey : v ∈ T.codes.map Prod.fst := by
    rw [CodeTree.codes_keys]
    exact (hmem v).mpr (by rw [hcount]; exact List.count_pos_iff.mpr hv)
  obtain ⟨⟨w, bits⟩, hbits, hw⟩ := List.mem_map.mp hkey
  obtain rfl : w = v := hw
  have hget : Huffman.codeAt { f with code := putCodes [] T.codes } w.toNat = bits := by
    show tableGet [] (putCodes [] T.codes) w.toNat = bits
    rw [hcode, lookup_of_mem (by rw [CodeTree.codes_keys]; exact hnodup) hbits]
    rfl
  rw [hget]
  exact hbits

/-! ### The bits -/

/-- The codes of the bytes, one after another (R208). -/
def Huffman.pack (h : Huffman) (I : List Byte) : List Bool := (I.map fun v => h.codeAt v.toNat).flatten

theorem pack_cons (h : Huffman) (v : Byte) (I : List Byte) : h.pack (v :: I) = h.codeAt v.toNat ++ h.pack I := rfl

/-- An operation on the output of the packer appends its bits, or there is no room and it is the fatal error. -/
theorem HufEnc.emit_cases {op : Nat → Buffer → Res Buffer Unit} {bits : List Bool} (h : AppendsBits op bits) {max : Nat}
    {c : HufEnc} (hok : c.out.CursorOk) (hl : c.out.len ≤ max) :
    (∃ o, c.emit (op max) = .ok () { c with out := o } ∧ c.out.BitsAppended o bits ∧ o.len ≤ max) ∨
    (8 * max < c.out.wbits + bits.length ∧ ∃ c', c.emit (op max) = .stop (.raise .internal) c') := by
  rcases Nat.lt_or_ge (8 * max) (c.out.wbits + bits.length) with hfull | hroom
  · obtain ⟨v, hrun⟩ := h.full hok hl hfull
    exact .inr ⟨hfull, _, by rw [HufEnc.emit, hrun, Res.inside_stop]⟩
  · obtain ⟨v, hrun, hv⟩ := h.room hok hroom
    exact .inl ⟨v, by rw [HufEnc.emit, hrun, Res.inside_ok], hv, hv.len_le hroom⟩

/-- The packer writes the codes of the bytes (R208). -/
theorem packBytes_cases {max : Nat} : ∀ (I : List Byte) (p : Nat) (c : HufEnc), c.out.CursorOk → c.out.len ≤ max →
    (∃ pos o, packBytes max I p c = .ok () { c with pos := pos, out := o } ∧ c.out.BitsAppended o (c.huf.pack I)) ∨
    (8 * max < c.out.wbits + (c.huf.pack I).length ∧ ∃ c', packBytes max I p c = .stop (.raise .internal) c')
  | [], _, c, hok, _ => .inl ⟨c.pos, c.out, rfl, .nil hok⟩
  | v :: vs, p, c, hok, hl => by
    rw [packBytes, pack_cons, List.length_append]
    rcases HufEnc.emit_cases (appendBitList_appends (c.huf.codeAt v.toNat)) (c := { c with pos := p }) hok hl with
      ⟨o, hrun, ho, hlen⟩ | ⟨hfull, c', hrun⟩
    · rw [hrun, Res.andThen_ok]
      have hwbits : o.wbits = c.out.wbits + (c.huf.codeAt v.toNat).length := ho.1
      rcases packBytes_cases vs (p + 1) { c with pos := p, out := o } ho.2.1 hlen with
        ⟨pos, o', hrun', ho'⟩ | ⟨hfull, c', hrun'⟩
      · exact .inl ⟨pos, o', hrun', ho.append ho'⟩
      · dsimp only at hfull
        exact .inr ⟨by omega, c', hrun'⟩
    · dsimp only at hfull
      exact .inr ⟨by omega, c', by rw [hrun, Res.andThen_stop]⟩

/-- The codes take at most 32 bytes for each byte of the input. -/
theorem pack_length_le {h : Huffman} {T : CodeTree} (hsize : T.size ≤ 511) : ∀ {I : List Byte},
    (∀ v ∈ I, (v, h.codeAt v.toNat) ∈ T.codes) → (h.pack I).length ≤ 256 * I.length
  | [], _ => Nat.le_refl 0
  | v :: vs, hmem => by
    have hcode := CodeTree.length_le_of_mem_codes (hmem v List.mem_cons_self)
    have hrest := pack_length_le hsize fun w hw => hmem w (List.mem_cons_of_mem _ hw)
    have hheight := T.two_mul_height_lt_size
    rw [pack_cons, List.length_append, List.length_cons]
    omega

/-! ### The operation -/

/-- The tree and the codes, from the tables on (R208). -/
theorem writeCodes_cases {I : List Byte} {T : CodeTree} {max : Nat} {c : HufEnc} (hc : c.huf.CodesFor I T)
    (hok : c.out.CursorOk) (hl : c.out.len ≤ max) :
    (∃ pos o, ((c.emit (writeTree c.huf max (c.huf.nnodes + 1) c.huf.root)).andThen fun _ c => packBytes max I 0 c) =
        .ok () { c with pos := pos, out := o } ∧ c.out.BitsAppended o (T.bits ++ c.huf.pack I)) ∨
    (8 * max < c.out.wbits + 8 * (320 + 32 * I.length) ∧
      ∃ c', ((c.emit (writeTree c.huf max (c.huf.nnodes + 1) c.huf.root)).andThen fun _ c => packBytes max I 0 c) =
        .stop (.raise .internal) c') := by
  have hsize := hc.size
  have hnn := hc.nnodes
  have hheight := T.height_lt_size
  have hbits := T.bits_length
  have hpack := pack_length_le (hsize.trans_le hnn) hc.mem
  rcases HufEnc.emit_cases (writeTree_appends (fuel := c.huf.nnodes + 1) hc.stored (by omega)) hok hl with
    ⟨o, hrun, ho, hlen⟩ | ⟨hfull, c', hrun⟩
  · rw [hrun, Res.andThen_ok]
    have hwbits : o.wbits = c.out.wbits + T.bits.length := ho.1
    rcases packBytes_cases I 0 { c with out := o } ho.2.1 hlen with ⟨pos, o', hrun', ho'⟩ | ⟨hfull, c', hrun'⟩
    · exact .inl ⟨pos, o', hrun', ho.append ho'⟩
    · dsimp only at hfull
      exact .inr ⟨by omega, c', hrun'⟩
  · exact .inr ⟨by omega, c', by rw [hrun, Res.andThen_stop]⟩

/-- What `HUF.ENCODE` leaves of an input (R208). -/
structure HufEnc.Encoded (c : HufEnc) (I : List Byte) (T : CodeTree) (c' : HufEnc) : Prop where
  hlen : c'.huf.hlen = I.length
  walk : c'.huf.walk = c.huf.walk
  wf : tableWf {} c'.huf.node = true
  empty : I = [] → c'.huf = { c.huf with hlen := 0 } ∧ c'.pos = c.pos
  codes : I ≠ [] → c'.huf.CodesFor I T
  out : c.out.release.BitsAppended c'.out
    (lowBits I.length 64 ++ if I = [] then [] else T.bits ++ c'.huf.pack I)

/-- The packer on a fresh output, with the length recorded (R208). -/
def HufEnc.started (c : HufEnc) (I : List Byte) : HufEnc :=
  { c with out := c.out.release, huf := { c.huf with hlen := I.length } }

/-- What the packer does after the length, for an input that is not empty (R208). -/
def encodeRest (I : List Byte) (max : Nat) (c : HufEnc) : Res HufEnc Unit :=
  ({ c with huf := hufCount I c.huf, pos := I.length - 1 }.tables hufBuild).andThen fun _ c =>
    (c.tables hufAssign).andThen fun _ c =>
      (c.emit (writeTree c.huf max (c.huf.nnodes + 1) c.huf.root)).andThen fun _ c => packBytes max I 0 c

theorem hufEncode_eq (I : List Byte) (max : Nat) (c : HufEnc) : hufEncode I max c =
    ((c.started I).emit (appendBits max I.length 64)).andThen fun _ c =>
      if I.length = 0 then .ok () c else encodeRest I max c := rfl

theorem encodeRest_cases {I : List Byte} (hI : I ≠ []) {max : Nat} {c : HufEnc} (hw : tableWf {} c.huf.node = true)
    (hok : c.out.CursorOk) (hl : c.out.len ≤ max) :
    (∃ T c', encodeRest I max c = .ok () c' ∧ c'.huf.hlen = c.huf.hlen ∧ c'.huf.walk = c.huf.walk ∧
      tableWf {} c'.huf.node = true ∧ c'.huf.CodesFor I T ∧ c.out.BitsAppended c'.out (T.bits ++ c'.huf.pack I)) ∨
    (8 * max < c.out.wbits + 8 * (320 + 32 * I.length) ∧
      ∃ c', encodeRest I max c = .stop (.raise .internal) c') := by
  obtain ⟨f, T, code, hbuild, hassign, hothers, hwf, hcodes⟩ := hufTables hw hI
  have hstart : encodeRest I max c =
      (HufEnc.emit { huf := { f with code := code }, pos := I.length - 1, out := c.out }
        (writeTree { f with code := code } max (f.nnodes + 1) f.root)).andThen fun _ c => packBytes max I 0 c := by
    rw [encodeRest, HufEnc.tables, hbuild, Res.inside_ok, Res.andThen_ok, HufEnc.tables, hassign, Res.inside_ok,
      Res.andThen_ok]
  rw [hstart]
  rcases writeCodes_cases (c := { huf := { f with code := code }, pos := I.length - 1, out := c.out }) hcodes hok hl with
    ⟨pos, o, hrun, ho⟩ | hfull
  · exact .inl ⟨T, _, hrun, hothers.hlen, hothers.walk, hwf, hcodes, ho⟩
  · exact .inr hfull

/-- `HUF.ENCODE` writes the length, a tree and the codes of its input, or there was less room than its worst case and it is
the fatal error (R208, R142). -/
theorem hufEncode_cases (I : List Byte) (max : Nat) {c : HufEnc} (hw : tableWf {} c.huf.node = true) :
    (∃ T c', hufEncode I max c = .ok () c' ∧ c.Encoded I T c') ∨
    (max < 8 + 320 + 32 * I.length ∧ ∃ c', hufEncode I max c = .stop (.raise .internal) c') := by
  have hfresh : c.out.release.Fresh := ⟨rfl, rfl, rfl⟩
  have hstart : (c.started I).out.wbits = 0 := hfresh.wbits
  rw [hufEncode_eq]
  rcases HufEnc.emit_cases (max := max) (appendBitList_appends (lowBits I.length 64)) (c := c.started I) hfresh.cursorOk
    (Nat.zero_le _) with ⟨o, hrun, ho, hlen⟩ | ⟨hfull, c', hrun⟩
  · have hwbits := ho.1
    rw [hstart, lowBits_length] at hwbits
    rw [show (c.started I).emit (appendBits max I.length 64) = _ from hrun, Res.andThen_ok]
    by_cases hI : I = []
    · subst hI
      refine .inl ⟨.leaf 0#8, { c.started [] with out := o }, rfl, rfl, rfl, hw, fun _ => ⟨rfl, rfl⟩,
        fun h => absurd rfl h, ?_⟩
      rw [if_pos rfl, List.append_nil]
      exact ho
    · rw [if_neg fun h => hI (List.length_eq_zero_iff.mp h)]
      rcases encodeRest_cases hI (c := { c.started I with out := o }) hw ho.2.1 hlen with
        ⟨T, c', hrun', hhlen, hwalk, hwf, hcodes, ho'⟩ | ⟨hfull, c', hrun'⟩
      · refine .inl ⟨T, c', hrun', hhlen, hwalk, hwf, fun h => absurd h hI, fun _ => hcodes, ?_⟩
        rw [if_neg hI]
        exact ho.append ho'
      · dsimp only at hfull
        exact .inr ⟨by omega, c', hrun'⟩
  · rw [hstart, lowBits_length] at hfull
    exact .inr ⟨by omega, c', by rw [show (c.started I).emit (appendBits max I.length 64) = _ from hrun, Res.andThen_stop]⟩

/-! ### The operation as a step of the block -/

/-- Two byte sequences of the same length with the same bits are the same (R63). -/
theorem eq_of_bitAt {xs ys : List Byte} (hlen : xs.length = ys.length)
    (h : ∀ k, k < 8 * xs.length → bitAt xs k = bitAt ys k) : xs = ys := by
  refine List.ext_getElem hlen fun i h1 h2 => BitVec.eq_of_getLsbD_eq fun k hk => ?_
  have hbit := h (8 * i + k) (by omega)
  rwa [bitAt, bitAt, Nat.mul_add_div (by omega), Nat.div_eq_of_lt hk, Nat.mul_add_mod, Nat.mod_eq_of_lt hk, Nat.add_zero,
    List.getD_eq_getElem _ _ h1, List.getD_eq_getElem _ _ h2] at hbit

/-- A length field alone is eight bytes (R110). -/
theorem data_of_length_appended {b o : Buffer} (hb : b.Fresh) {n : Nat} (h : b.BitsAppended o (lowBits n 64)) :
    o.data = leBytes n 8 := by
  obtain ⟨-, hroom, hbits⟩ := h.bitsAt hb
  obtain ⟨hwbits, hok, -, -⟩ := h
  rw [hb.wbits, lowBits_length] at hwbits
  have hlen := ((cursorOk_iff o).mp hok).2.1
  rw [hwbits, len_eq] at hlen
  refine eq_of_bitAt (by rw [leBytes_length, hlen]) fun k hk => ?_
  have hk' : k < 64 := by omega
  have hbit := hbits k (by rwa [lowBits_length])
  rw [Nat.zero_add] at hbit
  rw [hbit, bitAt_leBytes 8 n k hk']
  simp [lowBits, hk']

/-- `HUF.ENCODE` leaves its stream in the other stage buffer, or is the fatal error for want of room (R208, R142). -/
theorem exec_hufEncode_cases {s : State} (hs : s.seq ≠ .fatal) (hw : s.ArenaWf) (i : StageBuf) :
    (∃ T c, exec (.hufEncode i) s = .next { s.putBuf i.other c.out with huf := c.huf, pos := c.pos } ∧
      HufEnc.Encoded { huf := s.huf, pos := s.pos, out := s.buf i.other } (s.buf i).data T c) ∨
    (s.max < 8 + 320 + 32 * (s.buf i).len ∧ ∃ t, exec (.hufEncode i) s = .next (takeError .internal t)) := by
  rw [exec, execHufEncode, runUnit_running hs, opHufEncode]
  rcases hufEncode_cases (s.buf i).data s.max (c := { huf := s.huf, pos := s.pos, out := s.buf i.other }) hw with
    ⟨T, c, hrun, hc⟩ | ⟨hfull, c, hrun⟩
  · exact .inl ⟨T, c, by rw [hrun]; rfl, hc⟩
  · exact .inr ⟨hfull, _, by rw [hrun]; rfl⟩

end Sys2Proof.Machine
end

namespace Sys2Proof.Proofs

open Sys2Proof Sys2Proof.Machine

/-- Settles O44: with room for its worst case the packer writes the length, the tree of its own counts and its codes. -/
theorem huffmanEncodeWritesStream : Obligations.HuffmanEncodeWritesStream := by
  intro s i hs hw hroom
  rcases exec_hufEncode_cases hs hw i with ⟨T, c, hrun, hc⟩ | ⟨hfull, -⟩
  · refine ⟨c.out, c.huf, c.pos, hrun, hc.hlen, hc.walk, fun hempty => ?_, fun hne => ?_⟩
    · obtain ⟨hhuf, hpos⟩ := hc.empty hempty
      have hout := hc.out
      rw [hempty, if_pos rfl, List.append_nil] at hout
      exact ⟨data_of_length_appended ⟨rfl, rfl, rfl⟩ hout, hpos, hhuf⟩
    · obtain ⟨hcount, hbuilt, hstored, hsize, hnn, hcode, hmem⟩ := hc.codes hne
      have hout := hc.out
      rw [if_neg hne, ← List.append_assoc] at hout
      exact ⟨hcount, hbuilt, T, hstored, hsize.trans_le hnn, hcode, hmem, hout⟩
  · exact absurd hroom (Nat.not_le.mpr hfull)

end Sys2Proof.Proofs

section
/-! SUPPORT. The decoder (spec 43_huffman.md R210): the length, the tree and the coded bytes are read where their bits stand,
or the stream ends inside them. -/

namespace Sys2Proof.Machine

/-! ### The loop over the coded bytes -/

/-- A decoder later in the loop over the coded bytes: the walk, the read cursor and the output have moved on. -/
def HufDec.Onward (c c' : HufDec) : Prop := ∃ walk rcur o,
  c' = { huf := { c.huf with walk := walk }, inp := { c.inp with rcur := rcur }, out := o }

theorem HufDec.Onward.refl (c : HufDec) : c.Onward c := ⟨_, _, _, rfl⟩

theorem HufDec.Onward.trans {c c' c'' : HufDec} (h : c.Onward c') (h' : c'.Onward c'') : c.Onward c'' := by
  obtain ⟨_, _, _, rfl⟩ := h
  obtain ⟨walk, rcur, o, rfl⟩ := h'
  exact ⟨walk, rcur, o, rfl⟩

theorem HufDec.Strayed.onward {c c' : HufDec} (h : c.Strayed c') : c.Onward c' := by
  obtain ⟨rcur, walk, rfl⟩ := h
  exact ⟨walk, rcur, c.out, rfl⟩

theorem HufDec.Onward.data {c c' : HufDec} (h : c.Onward c') : c'.inp.data = c.inp.data := by
  obtain ⟨walk, rcur, o, rfl⟩ := h
  rfl

theorem HufDec.Onward.hlen {c c' : HufDec} (h : c.Onward c') : c'.huf.hlen = c.huf.hlen := by
  obtain ⟨walk, rcur, o, rfl⟩ := h
  rfl

theorem HufDec.Onward.stored {c c' : HufDec} {T : CodeTree} (h : c.Onward c') (hT : T.storedAt c.huf c.huf.root = true) :
    T.storedAt c'.huf c'.huf.root = true := by
  obtain ⟨walk, rcur, o, rfl⟩ := h
  exact CodeTree.storedAt_withWalk walk hT

/-- The decoder `c'` is `c` with `count` bits more consumed and the bytes `bs` appended. -/
structure HufDec.Decoded (c : HufDec) (bs : List Byte) (count : Nat) (c' : HufDec) : Prop where
  onward : c.Onward c'
  data : c'.out.data = c.out.data ++ bs
  rbits : c'.inp.rbits = c.inp.rbits + count

theorem HufDec.Decoded.trans {c c' c'' : HufDec} {xs ys : List Byte} {m n : Nat} (h : c.Decoded xs m c')
    (h' : c'.Decoded ys n c'') : c.Decoded (xs ++ ys) (m + n) c'' where
  onward := h.onward.trans h'.onward
  data := by rw [h'.data, h.data, List.append_assoc]
  rbits := by rw [h'.rbits, h.rbits, Nat.add_assoc]

theorem decoded_walked (c : HufDec) {v : Byte} {n : Nat} (hn : 0 < n) (walk : Nat) {o : Buffer}
    (ho : o.data = c.out.data ++ [v]) : c.Decoded [v] n { c.walked n walk with out := o } := by
  rw [walked_pos _ hn]
  exact ⟨⟨walk, _, o, rfl⟩, ho, read_rbits c n⟩

/-- Every coded byte takes a bit (R210). -/
theorem length_le_flatten {T : CodeTree} {out : List Byte} {codes : List (List Bool)} (h : List.Forall₂ T.Reads out codes) :
    out.length ≤ codes.flatten.length := by
  induction h with
  | nil => exact Nat.le_refl 0
  | cons hv _ ih =>
    rw [List.length_cons, List.flatten_cons, List.length_append]
    have hpos := hv.length_pos
    omega

/-- The loop of R210 over coded bytes whose bits stand in the stream as far as it goes. -/
theorem symbolLoop_meets {T : CodeTree} {max : Nat} {out : List Byte} {codes : List (List Bool)}
    (h : List.Forall₂ T.Reads out codes) : ∀ {fuel : Nat} {c : HufDec}, T.storedAt c.huf c.huf.root = true →
    BitsMeet c.inp.data c.inp.rbits codes.flatten → c.inp.rbits ≤ 8 * c.inp.len →
    c.out.len + out.length = c.huf.hlen → c.huf.hlen ≤ max →
    (c.inp.rbits + codes.flatten.length ≤ 8 * c.inp.len ∧
      ∃ c', symbolLoop max fuel c = .ok () c' ∧ c.Decoded out codes.flatten.length c') ∨
    ((8 * c.inp.len < c.inp.rbits + codes.flatten.length ∨ fuel ≤ out.length) ∧
      ∃ c', symbolLoop max fuel c = .stop (.raise .malformed) c' ∧ c.Onward c') := by
  induction h with
  | nil =>
    intro fuel c _ _ hr hlen _
    cases fuel with
    | zero => exact .inr ⟨.inr (Nat.le_refl 0), c, rfl, .refl c⟩
    | succ fuel =>
      refine .inl ⟨hr, c, ?_, .refl c, (List.append_nil _).symm, rfl⟩
      rw [symbolLoop, if_neg (by rw [← hlen]; exact Nat.lt_irrefl _)]
  | @cons v bits out codes hv hrest ih =>
    intro fuel c hT hbits hr hlen hmax
    rw [List.flatten_cons] at hbits ⊢
    rw [List.length_cons] at hlen
    rw [List.length_append, List.length_cons]
    obtain ⟨hfirst, hothers⟩ := hbits.append
    cases fuel with
    | zero => exact .inr ⟨.inr (Nat.zero_le _), c, rfl, .refl c⟩
    | succ fuel =>
      rw [symbolLoop, if_pos (by omega)]
      rcases readSymbol_meets (max := max) hT hv hfirst with ⟨hroom, hrun⟩ | ⟨hcut, c', hrun, hstray⟩
      · obtain ⟨walk, o, hrun, hdata, -⟩ := hrun (by omega)
        have hdec := decoded_walked c hv.length_pos walk hdata
        rw [hrun, Res.andThen_ok]
        generalize ({ c.walked bits.length walk with out := o } : HufDec) = c1 at hdec ⊢
        have hdata1 := hdec.onward.data
        have hhlen1 := hdec.onward.hlen
        have hrbits1 := hdec.rbits
        have hlen1 : c1.out.len + out.length = c1.huf.hlen := by
          rw [hhlen1, len_eq, hdec.data, List.length_append, List.length_singleton, ← hlen, len_eq]
          omega
        have hmet := ih (fuel := fuel) (hdec.onward.stored hT) (by rw [hdata1, hrbits1]; exact hothers)
          (by rw [len_eq, hdata1, hrbits1]; exact hroom) hlen1 (by rwa [hhlen1])
        rw [len_eq, hdata1, hrbits1, Nat.add_assoc, ← len_eq] at hmet
        rcases hmet with ⟨hroom', c', hrun', hdec'⟩ | ⟨hwhy, c', hrun', honward'⟩
        · exact .inl ⟨hroom', c', hrun', hdec.trans hdec'⟩
        · exact .inr ⟨hwhy.imp_right Nat.succ_le_succ, c', hrun', hdec.onward.trans honward'⟩
      · exact .inr ⟨.inl (by omega), c', by rw [hrun, Res.andThen_stop], hstray.onward⟩

/-! ### The operation -/

/-- A decoder later in the operation: of the tables and registers those a decoder writes have moved on, and of the buffers
the read cursor and the output (R210). -/
def HufDec.Through (c c' : HufDec) : Prop := ∃ node nnodes root walk hlen rcur o, c' = {
  huf := { c.huf with node := node, nnodes := nnodes, root := root, walk := walk, hlen := hlen }
  inp := { c.inp with rcur := rcur }
  out := o }

theorem HufDec.Through.trans {c c' c'' : HufDec} (h : c.Through c') (h' : c'.Through c'') : c.Through c'' := by
  obtain ⟨_, _, _, _, _, _, _, rfl⟩ := h
  obtain ⟨node, nnodes, root, walk, hlen, rcur, o, rfl⟩ := h'
  exact ⟨node, nnodes, root, walk, hlen, rcur, o, rfl⟩

theorem HufDec.Later.through {c c' : HufDec} (h : c.Later c') : c.Through c' := by
  obtain ⟨node, nnodes, rcur, rfl⟩ := h
  exact ⟨node, nnodes, _, _, _, rcur, _, rfl⟩

theorem HufDec.Onward.through {c c' : HufDec} (h : c.Onward c') : c.Through c' := by
  obtain ⟨walk, rcur, o, rfl⟩ := h
  exact ⟨_, _, _, walk, _, rcur, o, rfl⟩

/-- The decoder after a header of length `n` (R210). -/
def HufDec.headed (c : HufDec) (n : Nat) : HufDec where
  huf := { c.huf with hlen := n, nnodes := if n = 0 then c.huf.nnodes else 0 }
  inp := { c.inp with rcur := { byte := 8, bit := 0 } }
  out := c.out.release

theorem through_headed (c : HufDec) (n : Nat) : c.Through (c.headed n) := ⟨_, _, _, _, _, _, _, rfl⟩

/-- A header whose length is within the bound (R210). -/
theorem hufHeader_room {max n : Nat} {c : HufDec} (hroom : 8 ≤ c.inp.len) (hn : n ≤ max) :
    hufHeader max n c = .ok () (c.headed n) := by
  rcases hufHeader_cases max n c with ⟨-, -, hrun⟩ | ⟨hbad, -⟩
  · exact hrun
  · omega

/-- A header cut short (R210). -/
theorem hufHeader_cut (max n : Nat) {c : HufDec} (hcut : c.inp.len < 8) :
    ∃ c', hufHeader max n c = .stop (.raise .malformed) c' ∧ c.Through c' := by
  rcases HufDec.bits_cases { c with inp := { c.inp with rcur := {} } } 64 with ⟨hroom, -⟩ | ⟨-, hrun⟩
  · have hroom' : 0 + 64 ≤ 8 * c.inp.len := hroom
    omega
  · exact ⟨_, by rw [hufHeader, hrun, Res.andThen_stop], _, _, _, _, _, _, _, rfl⟩

/-- What `HUF.DECODE` does after the header of a length that is not 0 (R210). -/
def decodeRest (cfg : Config) (max : Nat) (c : HufDec) : Res HufDec Unit :=
  (asRoot (readTree cfg (cfg.hufMaxNodes + 1) c)).andThen fun _ c => symbolLoop max (8 * c.inp.len + 1) c

/-- The tree and the coded bytes where their bits stand (R210). -/
theorem decodeRest_meets {cfg : Config} {max : Nat} {T : CodeTree} {out : List Byte} {codes : List (List Bool)}
    (h : List.Forall₂ T.Reads out codes) {c : HufDec} (hw : tableWf {} c.huf.node = true)
    (hbits : BitsMeet c.inp.data c.inp.rbits (T.bits ++ codes.flatten)) (hn : c.huf.nnodes = 0)
    (hlen : c.out.len + out.length = c.huf.hlen) (hmax : c.huf.hlen ≤ max) :
    (c.inp.rbits + (T.bits ++ codes.flatten).length ≤ 8 * c.inp.len ∧ T.size ≤ cfg.hufMaxNodes ∧
      ∃ c', decodeRest cfg max c = .ok () c' ∧ c.Through c' ∧ c'.huf.hlen = c.huf.hlen ∧
        c'.out.data = c.out.data ++ out ∧ c'.inp.rbits = c.inp.rbits + (T.bits ++ codes.flatten).length) ∨
    ((8 * c.inp.len < c.inp.rbits + (T.bits ++ codes.flatten).length ∨ cfg.hufMaxNodes < T.size) ∧
      ∃ c', decodeRest cfg max c = .stop (.raise .malformed) c' ∧ c.Through c') := by
  obtain ⟨htree, hcodes⟩ := hbits.append
  have hheight := T.height_lt_size
  have hcount := length_le_flatten h
  rw [decodeRest, List.length_append]
  rcases treeMet cfg T (cfg.hufMaxNodes + 1) c htree with ⟨hroom, hfit, c1, hrun, htook, hlaid⟩ | ⟨hwhy, c1, hrun, hlater⟩
  · rw [hn, Nat.zero_add] at hfit
    have hstored : T.storedAt c1.huf 0 = true :=
      CodeTree.LaidOut.storedAt (by rw [← hn]; exact hlaid hw) (by rw [htook.nnodes, hn])
    let c2 : HufDec := { c1 with huf := { c1.huf with root := 0 } }
    have hstored2 : T.storedAt c2.huf c2.huf.root = true :=
      CodeTree.storedAt_sameArena (h := c1.huf) rfl rfl hstored
    have hthrough2 : c.Through c2 := htook.later.through.trans ⟨_, _, 0, _, _, _, _, rfl⟩
    have hdata2 : c2.inp.data = c.inp.data := htook.data
    have hrbits2 : c2.inp.rbits = c.inp.rbits + T.bits.length := htook.rbits
    have hout2 : c2.out = c.out := by rw [show c2.out = c1.out from rfl, htook.state]; rfl
    have hhlen2 : c2.huf.hlen = c.huf.hlen := by rw [show c2.huf.hlen = c1.huf.hlen from rfl, htook.state]
    have hlen2 : c2.inp.len = c.inp.len := congrArg List.length hdata2
    have hmet := symbolLoop_meets h (max := max) (fuel := 8 * c.inp.len + 1) hstored2
      (by rw [hdata2, hrbits2]; exact hcodes) (by rw [hlen2, hrbits2]; exact hroom) (by rw [hout2, hhlen2]; exact hlen) (by rwa [hhlen2])
    have hstart : ((asRoot (readTree cfg (cfg.hufMaxNodes + 1) c)).andThen fun _ c =>
        symbolLoop max (8 * c.inp.len + 1) c) = symbolLoop max (8 * c.inp.len + 1) c2 := by
      rw [asRoot, hrun, hn, Res.andThen_ok, Res.andThen_ok, ← hlen2]
    rw [hstart]
    rw [hlen2, hrbits2, Nat.add_assoc] at hmet
    rcases hmet with ⟨hroom', c', hrun', hdec⟩ | ⟨hwhy, c', hrun', honward⟩
    · refine .inl ⟨hroom', hfit, c', hrun', hthrough2.trans hdec.onward.through, hdec.onward.hlen.trans hhlen2, ?_, ?_⟩
      · rw [hdec.data, hout2]
      · rw [hdec.rbits, hrbits2, Nat.add_assoc]
    · exact .inr ⟨by omega, c', hrun', hthrough2.trans honward.through⟩
  · refine .inr ⟨by omega, c1, by rw [asRoot, hrun, Res.andThen_stop, Res.andThen_stop], hlater.through⟩

/-- The bits of a Huffman stream of the bytes `out`, of which each has its code among `codes` (R208, R210). -/
def streamBits (T : CodeTree) (out : List Byte) (codes : List (List Bool)) : List Bool :=
  lowBits out.length 64 ++ if out = [] then [] else T.bits ++ codes.flatten

/-- `HUF.DECODE` where the bits of a Huffman stream stand: it reads its bytes, or the stream or the arena ends inside it
(R210). -/
theorem hufDecode_meets {cfg : Config} {max : Nat} {T : CodeTree} {out : List Byte} {codes : List (List Bool)}
    (h : List.Forall₂ T.Reads out codes) (hmax : out.length ≤ max) (h64 : max < 2 ^ 64) {c : HufDec}
    (hw : tableWf {} c.huf.node = true) (hbits : BitsMeet c.inp.data 0 (streamBits T out codes)) :
    ((streamBits T out codes).length ≤ 8 * c.inp.len ∧ (out ≠ [] → T.size ≤ cfg.hufMaxNodes) ∧
      ∃ c', hufDecode cfg max c = .ok () c' ∧ c.Through c' ∧ c'.huf.hlen = out.length ∧ c'.out.data = out ∧
        c'.inp.rbits = (streamBits T out codes).length) ∨
    ((8 * c.inp.len < (streamBits T out codes).length ∨ (out ≠ [] ∧ cfg.hufMaxNodes < T.size)) ∧
      ∃ c', hufDecode cfg max c = .stop (.raise .malformed) c' ∧ c.Through c') := by
  obtain ⟨hlength, hrest⟩ := hbits.append
  rw [lowBits_length, Nat.zero_add] at hrest
  have hwidth : (streamBits T out codes).length = 64 + (if out = [] then [] else T.bits ++ codes.flatten).length := by
    rw [streamBits, List.length_append, lowBits_length]
  rw [hufDecode, hwidth]
  rcases Nat.lt_or_ge c.inp.len 8 with hcut | hroom
  · obtain ⟨c', hrun, hthrough⟩ := hufHeader_cut max (bitsValue c.inp.data 0 64) hcut
    exact .inr ⟨.inl (by omega), c', by rw [hrun, Res.andThen_stop], hthrough⟩
  · have hvalue : bitsValue c.inp.data 0 64 = out.length := by
      rw [bitsValue_of_bitsAt (hlength.bitsAt (by rw [lowBits_length, ← len_eq]; omega)),
        Nat.mod_eq_of_lt (Nat.lt_of_le_of_lt hmax h64)]
    rw [hvalue, hufHeader_room hroom hmax, Res.andThen_ok]
    by_cases hout : out = []
    · subst hout
      rw [if_pos rfl, List.length_nil, Nat.add_zero]
      exact .inl ⟨by omega, fun hne => absurd rfl hne, c.headed 0, rfl, through_headed c 0, rfl, rfl, rfl⟩
    · have hne : out.length ≠ 0 := fun h0 => hout (List.length_eq_zero_iff.mp h0)
      have hrbits : (c.headed out.length).inp.rbits = 64 := rfl
      rw [if_neg hout] at hrest ⊢
      have hmet := decodeRest_meets (cfg := cfg) (max := max) h (c := c.headed out.length) hw hrest (if_neg hne)
        (Nat.zero_add _) hmax
      rw [hrbits] at hmet
      rw [if_neg (show ¬ (c.headed out.length).huf.hlen = 0 from hne)]
      rcases hmet with ⟨hroom', hfit, c', hrun, hthrough, hhlen, hdata, hrbits'⟩ | ⟨hwhy, c', hrun, hthrough⟩
      · exact .inl ⟨hroom', fun _ => hfit, c', hrun, (through_headed c _).trans hthrough, hhlen, hdata, hrbits'⟩
      · exact .inr ⟨hwhy.imp_right fun hbig => ⟨hout, hbig⟩, c', hrun, (through_headed c _).trans hthrough⟩

/-- What the packer wrote is a Huffman stream of its input (R208, R210). -/
theorem HufEnc.Encoded.readable {c c' : HufEnc} {I : List Byte} {T : CodeTree} (h : c.Encoded I T c') :
    ∃ T' : CodeTree, T'.size ≤ 511 ∧ List.Forall₂ T'.Reads I (I.map fun v => c'.huf.codeAt v.toNat) ∧
      BitsAt c'.out.data 0 (streamBits T' I (I.map fun v => c'.huf.codeAt v.toNat)) := by
  obtain ⟨-, hbits⟩ := h.out.bitsAt ⟨rfl, rfl, rfl⟩
  by_cases hI : I = []
  · subst hI
    exact ⟨.leaf 0#8, by decide, .nil, hbits⟩
  · have hcodes := h.codes hI
    refine ⟨T, hcodes.size.trans_le hcodes.nnodes, ?_, hbits⟩
    rw [List.forall₂_map_right_iff, List.forall₂_same]
    exact fun v hv => CodeTree.reads_of_mem_codes (hcodes.mem v hv)

/-! ### The operation as a step of the block -/

section
variable {s : State}

theorem exec_hufDecode (hs : s.seq ≠ .fatal) (b : StageBuf) :
    exec (.hufDecode b) s = runUnit (onHufDec (hufDecode Config.barph)) { s with src := b } := by
  rw [exec, execHufDecode, runUnit_running hs, runUnit_running (s := { s with src := b }) hs]
  rfl

/-- An error of a decoder leaves of the output no more than its capacity (R276). -/
theorem runUnit_onHufDec_raise (hs : s.seq ≠ .fatal) {op : Nat → HufDec → Res HufDec Unit} {e : Err} {huf : Huffman}
    {rcur : Cursor} {o : Buffer}
    (h : op s.max s.hufDec = .stop (.raise e) { huf := huf, inp := { s.buf s.src with rcur := rcur }, out := o }) :
    runUnit (onHufDec op) s = .next (takeError e
      { s.putBuf s.src.other { s.buf s.src.other with cap := o.cap } with huf := huf }) := by
  rw [runUnit_running hs, onHufDec, h, Res.inside_stop, finish_raise]
  generalize s.src = b
  cases b <;> rfl

end

end Sys2Proof.Machine
end

namespace Sys2Proof.Proofs

open Sys2Proof Sys2Proof.Machine

/-- Settles O45: the length, the tree and the paths are read one after another, or the stream or the arena ends inside
them. -/
theorem huffmanDecodeReadsPaths : Obligations.HuffmanDecodeReadsPaths := by
  intro s b T out codes bits hs hw hmax hcodes hbits
  obtain rfl : bits = streamBits T out codes := hbits
  have hmet := hufDecode_meets (cfg := Config.barph) hcodes hmax s.max_lt (c := State.hufDec { s with src := b }) hw
  rw [exec_hufDecode hs]
  refine ⟨fun hsize hbits => ?_, fun hbad => ?_⟩
  · rcases hmet (bitsMeet_of_bitsAt hbits) with
      ⟨-, -, c, hrun, ⟨node, nnodes, root, walk, hlen, rcur, o, rfl⟩, rfl, hdata, hrbits⟩ | ⟨hwhy, -⟩
    · exact ⟨_, o, node, nnodes, root, walk, runUnit_onHufDec_ok (s := { s with src := b }) hs hrun, hdata, rfl, rfl,
        hrbits⟩
    · have hroom := hbits.1
      rw [Nat.zero_add] at hroom
      exact absurd hwhy (not_or.mpr ⟨Nat.not_lt.mpr hroom, fun hbig => absurd hbig.2 (Nat.not_lt.mpr hsize)⟩)
  · rcases hmet (hbad.elim And.right fun h => bitsMeet_of_bitsAt h.2.2) with
      ⟨hroom, hfit, -⟩ | ⟨-, c, hrun, node, nnodes, root, walk, hlen, rcur, o, rfl⟩
    · rcases hbad with ⟨hcut, -⟩ | ⟨hbig, hne, -⟩
      · rw [Nat.zero_add] at hcut
        exact absurd hcut (Nat.not_lt.mpr hroom)
      · exact absurd hbig (Nat.not_lt.mpr (hfit hne))
    · exact ⟨o.cap, node, nnodes, root, walk, hlen, runUnit_onHufDec_raise (s := { s with src := b }) hs hrun⟩

/-- Settles O46: what the packer wrote are the length, a tree and paths in it, which the decoder reads. -/
theorem huffmanRoundTrip : Obligations.HuffmanRoundTrip := by
  intro s t i hs hw hlen hrun ht
  rcases exec_hufEncode_cases hs hw i with ⟨T, c, henc, hc⟩ | ⟨-, u, henc⟩
  · obtain rfl := Host.Outcome.next.inj (hrun.symm.trans henc)
    have hbuf : State.buf { s.putBuf i.other c.out with huf := c.huf, pos := c.pos } i.other = c.out := by cases i <;> rfl
    obtain ⟨T', hsize, hcodes, hbits⟩ := hc.readable
    have hmax : (s.buf i).data.length ≤ State.max { s.putBuf i.other c.out with huf := c.huf, pos := c.pos } :=
      hlen.trans_eq (putBuf_max s i.other c.out).symm
    obtain ⟨hreads, -⟩ := huffmanDecodeReadsPaths _ i.other T' (s.buf i).data _ _ ht hc.wf hmax hcodes rfl
    obtain ⟨inp, o, node, nnodes, root, walk, hdec, hdata, -⟩ := hreads hsize (by rw [hbuf]; exact hbits)
    refine ⟨_, hdec, ?_, ?_, ?_⟩
    · cases i <;> exact hdata
    · cases i <;> rfl
    · cases i <;> rfl
  · obtain rfl := Host.Outcome.next.inj (hrun.symm.trans henc)
    exact absurd rfl ht

end Sys2Proof.Proofs

section
/-! SUPPORT. The delta filter (spec 44_delta_filter.md R230 to R233): the bytes each loop leaves, and that the two filters
undo each other. -/

namespace Sys2Proof.Machine

/-! ### One byte of a list after a write -/

theorem getD_set_self {bs : List Byte} {i : Nat} (hi : i < bs.length) (v : Byte) : (bs.set i v).getD i 0#8 = v := by
  rw [List.getD_eq_getElem?_getD, List.getElem?_set_self hi, Option.getD_some]

theorem getD_set_of_ne {i j : Nat} (hij : i ≠ j) (bs : List Byte) (v : Byte) :
    (bs.set i v).getD j 0#8 = bs.getD j 0#8 := by
  rw [List.getD_eq_getElem?_getD, List.getElem?_set_ne hij, ← List.getD_eq_getElem?_getD]

theorem eq_of_getD_eq {bs cs : List Byte} (hlen : bs.length = cs.length)
    (h : ∀ k < cs.length, bs.getD k 0#8 = cs.getD k 0#8) : bs = cs := by
  refine List.ext_getElem hlen fun k hb hc => ?_
  rw [← List.getD_eq_getElem bs 0#8 hb, ← List.getD_eq_getElem cs 0#8 hc]
  exact h k hc

/-! ### The loops -/

section
variable {d : Nat}

/-- The loop from the end down reads only bytes it has not yet reached, which still are the original ones (R231). -/
theorem deltaDown_getD (hd : 0 < d) : ∀ (n : Nat) (bs : List Byte), n ≤ bs.length - d → ∀ k,
    (deltaDown d n bs).getD k 0#8 =
      if d ≤ k ∧ k < d + n then bs.getD k 0#8 - bs.getD (k - d) 0#8 else bs.getD k 0#8
  | 0, bs, _, k => (if_neg fun h => by omega).symm
  | n + 1, bs, hn, k => by
    rw [deltaDown, deltaDown_getD hd n _ (by rw [List.length_set]; omega)]
    rcases lt_trichotomy k (d + n) with hk | rfl | hk
    · rw [getD_set_of_ne (by omega), getD_set_of_ne (by omega)]
      exact if_congr (by omega) rfl rfl
    · rw [if_neg (by omega), if_pos (by omega), getD_set_self (by omega), Nat.add_sub_cancel_left]
    · rw [if_neg (by omega), if_neg (by omega), getD_set_of_ne (by omega)]

/-- The loop from the front up has done with the bytes it has passed. -/
theorem deltaUp_getD_of_lt : ∀ (n p : Nat) (bs : List Byte) {k : Nat}, k < p →
    (deltaUp d n p bs).getD k 0#8 = bs.getD k 0#8
  | 0, _, _, _, _ => rfl
  | n + 1, p, bs, k, hk => by
    rw [deltaUp, deltaUp_getD_of_lt n (p + 1) _ (by omega), getD_set_of_ne (by omega)]

/-- The loop from the front up adds bytes it has passed, which are the restored ones (R232). -/
theorem deltaUp_getD_of_ge (hd : 0 < d) : ∀ (n p : Nat) (bs : List Byte), d ≤ p → n ≤ bs.length - p →
    ∀ {k : Nat}, p ≤ k → k < p + n →
    (deltaUp d n p bs).getD k 0#8 = bs.getD k 0#8 + (deltaUp d n p bs).getD (k - d) 0#8
  | 0, _, _, _, _, _, _, _ => by omega
  | n + 1, p, bs, hp, hn, k, hpk, hk => by
    rw [deltaUp]
    rcases hpk.eq_or_lt with rfl | hpk
    · rw [deltaUp_getD_of_lt n _ _ (Nat.lt_succ_self p), deltaUp_getD_of_lt n _ _ (by omega), getD_set_self (by omega),
        getD_set_of_ne (by omega)]
    · rw [deltaUp_getD_of_ge hd n (p + 1) _ (by omega) (by rw [List.length_set]; omega) hpk (by omega),
        getD_set_of_ne (by omega)]

end

/-! ### The filters -/

section
variable {d k : Nat} {bs : List Byte}

/-- The closed form of the forward filter (R231). -/
theorem deltaForward_getD (hk : k < bs.length) : (deltaForward d bs).getD k 0#8 =
    if d = 0 ∨ k < d then bs.getD k 0#8 else bs.getD k 0#8 - bs.getD (k - d) 0#8 := by
  rcases Nat.eq_zero_or_pos d with rfl | hd
  · rw [deltaForward, if_pos rfl, if_pos (.inl rfl)]
  · rw [deltaForward, if_neg hd.ne', deltaDown_getD hd _ _ le_rfl, ← ite_not]
    exact if_congr (by omega) rfl rfl

/-- The closed form of the inverse filter, in the bytes it leaves (R232). -/
theorem deltaInverse_getD (hk : k < bs.length) : (deltaInverse d bs).getD k 0#8 =
    if d = 0 ∨ k < d then bs.getD k 0#8 else bs.getD k 0#8 + (deltaInverse d bs).getD (k - d) 0#8 := by
  rcases Nat.eq_zero_or_pos d with rfl | hd
  · rw [deltaInverse, if_pos rfl, if_pos (.inl rfl)]
  · rw [deltaInverse, if_neg hd.ne']
    split
    · exact deltaUp_getD_of_lt _ _ _ (by omega)
    · exact deltaUp_getD_of_ge hd _ _ _ le_rfl le_rfl (by omega) (by omega)

/-- Every byte is restored from the one `d` before it, which has been restored already (R233). -/
theorem deltaInverse_deltaForward (d : Nat) (bs : List Byte) : deltaInverse d (deltaForward d bs) = bs := by
  refine eq_of_getD_eq (by simp) fun k hk => ?_
  induction k using Nat.strong_induction_on with
  | h k ih =>
    rw [deltaInverse_getD (by simpa using hk), deltaForward_getD hk]
    by_cases hkept : d = 0 ∨ k < d
    · rw [if_pos hkept, if_pos hkept]
    · rw [if_neg hkept, if_neg hkept, ih (k - d) (by omega) (by omega), BitVec.sub_add_cancel]

/-- What the forward filter subtracts is what the inverse filter added (R233). -/
theorem deltaForward_deltaInverse (d : Nat) (bs : List Byte) : deltaForward d (deltaInverse d bs) = bs := by
  refine eq_of_getD_eq (by simp) fun k hk => ?_
  rw [deltaForward_getD (by simpa using hk)]
  by_cases hkept : d = 0 ∨ k < d
  · rw [if_pos hkept, deltaInverse_getD hk, if_pos hkept]
  · rw [if_neg hkept, deltaInverse_getD hk, if_neg hkept, BitVec.add_sub_cancel]

end

/-! ### The operations as steps of the block -/

section
variable {s : State}

theorem exec_dfForward (hs : s.seq ≠ .fatal) (b : StageBuf) (d : Byte) :
    exec (.dfForward b d) s = .next (opDeltaForward b d s) := by
  rw [exec, execDfForward, runUnit_running hs]
  rfl

theorem exec_dfInverse (hs : s.seq ≠ .fatal) (b : StageBuf) (d : Byte) :
    exec (.dfInverse b d) s = .next (opDeltaInverse b d s) := by
  rw [exec, execDfInverse, runUnit_running hs]
  rfl

@[simp] theorem opDeltaForward_seq (b : StageBuf) (d : Byte) (s : State) : (opDeltaForward b d s).seq = s.seq :=
  putBuf_seq s b _

@[simp] theorem opDeltaInverse_seq (b : StageBuf) (d : Byte) (s : State) : (opDeltaInverse b d s).seq = s.seq :=
  putBuf_seq s b _

@[simp] theorem opDeltaForward_data (b : StageBuf) (d : Byte) (s : State) :
    ((opDeltaForward b d s).buf b).data = deltaForward d.toNat (s.buf b).data := by cases b <;> rfl

@[simp] theorem opDeltaInverse_data (b : StageBuf) (d : Byte) (s : State) :
    ((opDeltaInverse b d s).buf b).data = deltaInverse d.toNat (s.buf b).data := by cases b <;> rfl

end

end Sys2Proof.Machine
end

namespace Sys2Proof.Proofs

open Sys2Proof Sys2Proof.Machine

/-- Settles O49, by the closed forms of the two filters. -/
theorem deltaFilterClosedForms : Obligations.DeltaFilterClosedForms := by
  intro s b d hs
  have hzero : d = 0#8 ↔ d.toNat = 0 := BitVec.toNat_eq
  simp only [hzero]
  exact ⟨⟨_, _, exec_dfForward hs b d, deltaForward_length _ _, fun k hk => deltaForward_getD hk⟩,
    ⟨_, _, exec_dfInverse hs b d, deltaInverse_length _ _, fun k hk => deltaInverse_getD hk⟩⟩

/-- Settles O50: both operations complete outside `FATAL`, and the filters undo each other. -/
theorem deltaFilterInverse : Obligations.DeltaFilterInverse := by
  intro s b d hs
  refine ⟨_, _, _, _, exec_dfForward hs b d, exec_dfInverse ?_ b d, ?_, exec_dfInverse hs b d, exec_dfForward ?_ b d, ?_⟩
  · rwa [opDeltaForward_seq]
  · rw [opDeltaInverse_data, opDeltaForward_data, deltaInverse_deltaForward]
  · rwa [opDeltaInverse_seq]
  · rw [opDeltaForward_data, opDeltaInverse_data, deltaForward_deltaInverse]

end Sys2Proof.Proofs

section
/-! SUPPORT. Commands and steps of a block that runs or has stopped (spec 45_container.md R240, R243 to R245; 60_exceptions.md
R277, R285): what `FATAL` ignores, and what the refusal of a command leaves. -/

namespace Sys2Proof.Machine

section
variable {s : State}

/-! ### `FATAL` -/

/-- In `FATAL` every operation but `RESET` is ignored, or has an operand that is refused in every state (R240, R277, U21). -/
theorem exec_fatal_cases (hs : s.seq = .fatal) {i : Instr} (hi : i ≠ .reset) :
    exec i s = .next s ∨ (i.wf = false ∧ ∃ r, exec i s = .refused r) := by
  cases i with
  | reset => exact absurd rfl hi
  | nop => exact .inl rfl
  | compress | decompress | reservedOp3 | reservedOp4 | reservedOp5 | reservedOp6 | reservedOp7 | reservedOp8 | reservedOp9
  | reservedOp10 | reservedOp11 | reservedOp12 | reservedOp13 | reservedOp14 => exact .inl (whenIdle_fatal hs _)
  | gbAppendBits b v width =>
    rcases Nat.lt_or_ge 64 width.toNat with hwide | hfits
    · exact .inr ⟨widthOk_eq_false hwide, _, execGbAppendBits_above64 b v hwide s⟩
    · exact .inl (by rw [exec_gbAppendBits b v hfits, runUnit_fatal hs])
  | gbReadBits b width =>
    rcases Nat.lt_or_ge 64 width.toNat with hwide | hfits
    · exact .inr ⟨widthOk_eq_false hwide, _, execGbReadBits_above64 b hwide s⟩
    · have hwidth : widthOk width = true := decide_eq_true hfits
      exact .inl (by rw [exec, execGbReadBits, if_pos hwidth, runUnit_fatal hs])
  | gbReadBytes | mfReset | mfInsert | mfFindBest | mfMatchAt | hufCount | hufBuild | hufAssign | hufWriteTree | hufReadTree
  | dfForward | dfInverse | ckSum | distReserved =>
    refine .inl ?_
    simp only [exec, execGbReadBytes, execMfReset, execMfInsert, execMfFindBest, execMfMatchAt, execHufCount, execHufBuild,
      execHufAssign, execHufWriteTree, execHufReadTree, execDfForward, execDfInverse, execCkSum, execDistReserved,
      runUnit_fatal hs]
  | _ => exact .inl (runUnit_fatal hs _)

/-- What a next state in `FATAL` can come of. -/
theorem exec_fatal_next (hs : s.seq = .fatal) {i : Instr} (hi : i ≠ .reset) {t : State} (h : exec i s = .next t) : t = s := by
  rcases exec_fatal_cases hs hi with hrun | ⟨-, r, hrun⟩
  · exact (Host.Outcome.next.inj (hrun.symm.trans h)).symm
  · exact nomatch hrun.symm.trans h

end

/-! ### What is no `RESET` -/

/-- Only `OP` 15 is `RESET` (R93). -/
theorem decodeCmd_eq_reset {w : U32} (h : decodeCmd w = .reset) : w.extractLsb' 0 4 = 15#4 := by
  have hlt := (w.extractLsb' 0 4).isLt
  unfold decodeCmd at h
  split at h
  case h_16 =>
    simp only [imp_false] at *
    exact BitVec.eq_of_toNat_eq (by rw [BitVec.toNat_ofNat]; omega)
  all_goals exact nomatch h

/-- A select code names no command (R92). -/
theorem decodeUopBody_space {code : Nat} {bs rest : List Byte} {i : Instr} (h : decodeUopBody code bs = some (i, rest)) :
    i.space = .uop := by
  unfold decodeUopBody at h
  split at h
  case h_28 => exact nomatch h
  all_goals
    cases h
    rfl

theorem decode_uop_ne_reset {bs : List Byte} {i : Instr} {n : Nat} (h : decode .uop bs = .ok (i, n)) : i ≠ .reset := by
  rintro rfl
  simp only [decode, decodeUop, argLE] at h
  split at h
  · exact nomatch h
  · next hbody =>
    cases h
    exact nomatch decodeUopBody_space hbody

/-- No element of a stream or of a container is a command (R131). -/
theorem decode_place_ne_reset {p : Place} {bs : List Byte} {i : Instr} {n : Nat} (h : decode p.space bs = .ok (i, n)) :
    i ≠ .reset := by
  rintro rfl
  have haligned : ∀ sp : Space, (sp = .lbHdr ∨ sp = .lbToken ∨ sp = .lbLen ∨ sp = .hufHdr ∨ sp = .con) →
      decode sp bs = .ok (.reset, n) → sp = .cmd := fun sp hsp hdec =>
    (Proofs.wireDecodeKeepsEveryBit sp bs .reset n hsp hdec nofun).1.symm
  cases p with
  | lbHdr | lbToken | lbLen | hufHdr | con => exact nomatch haligned _ (by decide) h
  | hufSym => exact nomatch h
  | hufNode =>
    cases bs with
    | nil => exact nomatch h
    | cons b bs =>
      simp only [Place.space, decode, decodeHufNode] at h
      split at h
      · exact nomatch h
      · exact nomatch (withLE_eq_ok h).2

/-! ### Steps in `FATAL` -/

section
variable {s t : State}

/-- A move of the host other than a hardware reset writes neither `STATE` nor `STATUS` (R282). -/
theorem hostMove_keeps_status {m : HostMove} (hm : m ≠ .hardwareReset) (h : hostMove m s = .next t) :
    t.seq = s.seq ∧ t.status = s.status := by
  cases m with
  | hardwareReset => exact absurd rfl hm
  | readReg idx => cases h; exact ⟨rfl, rfl⟩
  | writeReg idx v =>
    simp only [hostMove] at h
    split at h <;> cases h
    rw [writeReg_eq]
    split <;> exact ⟨rfl, rfl⟩
  | writeIn i v | readIn i =>
    simp only [hostMove] at h
    split at h <;> cases h
    exact ⟨rfl, rfl⟩
  | readOut i =>
    simp only [hostMove] at h
    split at h
    · cases h
    · split at h <;> cases h <;> exact ⟨rfl, rfl⟩

/-- In `FATAL` the host changes no more than its own part, but by a reset (R240, R244, R282). -/
theorem stepHost_fatal (hs : s.seq = .fatal) {m : HostMove} (h : stepHost m s = .next t) :
    (t.seq = s.seq ∧ t.status = s.status) ∨ m = .hardwareReset ∨
      ∃ v : U64, m = .writeReg 0 v ∧ v.extractLsb' 0 4 = 15#4 := by
  unfold stepHost at h
  split at h
  · next v =>
    by_cases hi : decodeCmd (v.truncate 32) = .reset
    · refine .inr (.inr ⟨v, rfl, ?_⟩)
      rw [← decodeCmd_eq_reset hi]
      refine BitVec.eq_of_toNat_eq ?_
      simp only [BitVec.extractLsb'_toNat, BitVec.toNat_setWidth, BitVec.truncate_eq_setWidth, Nat.shiftRight_zero]
      exact (Nat.mod_mod_of_dvd _ (by decide)).symm
    · rw [exec_fatal_next hs hi h]
      exact .inl ⟨rfl, rfl⟩
  · by_cases hm : m = .hardwareReset
    · exact .inr (.inl hm)
    · exact .inl (hostMove_keeps_status hm h)

theorem stepOp_fatal (hs : s.seq = .fatal) {bytes : List Byte} (h : stepOp bytes s = .next t) : t = s := by
  unfold stepOp at h
  split at h
  · next hdec => exact exec_fatal_next hs (decode_uop_ne_reset hdec) h
  · exact nomatch h

theorem stepWire_fatal (hs : s.seq = .fatal) {p : Place} (h : stepWire p s = .next t) : t = s := by
  unfold stepWire at h
  split at h
  · next hdec => exact exec_fatal_next hs (decode_place_ne_reset hdec) h
  · exact (Host.Outcome.next.inj ((runUnit_fatal hs _).symm.trans h)).symm

end

end Sys2Proof.Machine
end

namespace Sys2Proof.Proofs

open Sys2Proof Sys2Proof.Machine

/-- Settles O60: with each kind of input, `FATAL` and `STATUS` stay unless the input is one of the two resets. -/
theorem fatalIsLeftOnlyByReset : Obligations.FatalIsLeftOnlyByReset := by
  intro s t hs h
  cases hq : s.queue with
  | nil =>
    simp only [step, hq] at h
    cases h
    exact .inl ⟨hs, rfl⟩
  | cons m rest =>
    have hs' : State.seq { s with queue := rest } = .fatal := hs
    cases m with
    | host m =>
      rw [step_host hq] at h
      rcases stepHost_fatal hs' h with ⟨hseq, hstatus⟩ | rfl | ⟨v, rfl, hop⟩
      · exact .inl ⟨hseq.trans hs, hstatus⟩
      · exact .inr (.inl ⟨rest, rfl⟩)
      · exact .inr (.inr ⟨v, rest, rfl, hop⟩)
    | op bytes =>
      rw [step_op hq] at h
      rw [stepOp_fatal hs' h]
      exact .inl ⟨hs, rfl⟩
    | wire p =>
      rw [step_wire hq] at h
      rw [stepWire_fatal hs' h]
      exact .inl ⟨hs, rfl⟩

/-- Settles O9, by the meaning of `NOP`. -/
theorem nopChangesNothing : Obligations.NopChangesNothing := fun _ => rfl

/-- Settles O10: an operation with operands it admits is not refused. -/
theorem fatalIgnoresAllButReset : Obligations.FatalIgnoresAllButReset := by
  intro s i hs hwf hi
  rcases exec_fatal_cases hs hi with hrun | ⟨hbad, -⟩
  · exact hrun
  · exact absurd (hwf.symm.trans hbad) Bool.false_ne_true.symm

/-- Settles O11: the refusal writes the three fields alone. -/
theorem illegalCommandIsRefused : Obligations.IllegalCommandIsRefused := by
  rintro s i hs (hreserved | ⟨⟨lb, huf, delta, rfl⟩ | rfl, hlong⟩)
  · have hrun : runReserved s = .next (illegalCommand s) := whenIdle_idle hs _
    simp only [List.mem_cons, List.not_mem_nil, or_false] at hreserved
    rcases hreserved with rfl | rfl | rfl | rfl | rfl | rfl | rfl | rfl | rfl | rfl | rfl | rfl <;> exact hrun
  · exact runCommand_illegal _ _ hs hlong
  · exact runCommand_illegal _ _ hs hlong

end Sys2Proof.Proofs


section
/-! SUPPORT. The checksum (spec 45_container.md R247): a fold over the bytes, one-to-one in the accumulator at every step, so
that one changed byte changes it (R253 (c)). -/

namespace Sys2Proof.Machine

/-! ### The fold -/

theorem ckLoop_append (cfg : Config) : ∀ (xs ys : List Byte) (pos : Nat) (acc : U32),
    ckLoop cfg (xs ++ ys) pos acc = ckLoop cfg ys (pos + xs.length) (ckLoop cfg xs pos acc)
  | [], _, _, _ => rfl
  | x :: xs, ys, pos, acc => by
    rw [List.cons_append, ckLoop, ckLoop_append cfg xs ys, ckLoop, List.length_cons, Nat.add_assoc, Nat.add_comm 1]

theorem ckSum_append_singleton (cfg : Config) (bs : List Byte) (b : Byte) :
    ckSum cfg (bs ++ [b]) = ckStep cfg (ckSum cfg bs) bs.length b := by
  rw [ckSum, ckLoop_append, Nat.zero_add]
  rfl

theorem exec_ckSum {s : State} (hs : s.seq ≠ .fatal) (src : SumSrc) : exec (.ckSum src) s =
    .next ((opCkSum Config.barph (s.sumBytes src) s).answer (.value (ckSum Config.barph (s.sumBytes src)).toNat)) := by
  rw [exec, execCkSum, runUnit_running hs]
  rfl

/-! ### Every step is one-to-one -/

/-- `CK_MUL` is odd: a product by it determines the other factor. -/
theorem eq_of_mul_ckMul {x y : U32} (h : x * Config.barph.ckMul = y * Config.barph.ckMul) : x = y := by
  have hinv : Config.barph.ckMul * 0x359C449B#32 = 1#32 := rfl
  rw [← BitVec.mul_one x, ← BitVec.mul_one y, ← hinv, ← BitVec.mul_assoc, ← BitVec.mul_assoc, h]

theorem ckStep_acc_injective {acc acc' : U32} {pos : Nat} {b : Byte}
    (h : ckStep Config.barph acc pos b = ckStep Config.barph acc' pos b) : acc = acc' := by
  rw [ckStep, ckStep] at h
  exact (BitVec.xor_left_inj _).mp (eq_of_mul_ckMul h)

theorem ckStep_byte_injective {acc : U32} {pos : Nat} {b b' : Byte}
    (h : ckStep Config.barph acc pos b = ckStep Config.barph acc pos b') : b = b' := by
  rw [ckStep, ckStep] at h
  have hsum := congrArg BitVec.toNat ((BitVec.xor_right_inj _).mp (eq_of_mul_ckMul h))
  have hb := b.isLt
  have hb' := b'.isLt
  rw [BitVec.toNat_ofNat, BitVec.toNat_ofNat] at hsum
  exact BitVec.eq_of_toNat_eq (by omega)

theorem ckLoop_acc_injective : ∀ (bs : List Byte) (pos : Nat) {acc acc' : U32},
    ckLoop Config.barph bs pos acc = ckLoop Config.barph bs pos acc' → acc = acc'
  | [], _, _, _, h => h
  | _ :: bs, pos, _, _, h => by
    rw [ckLoop, ckLoop] at h
    exact ckStep_acc_injective (ckLoop_acc_injective bs (pos + 1) h)

/-- One changed byte changes the checksum (R253 (c)). -/
theorem ckSum_set_ne {bs : List Byte} {i : Nat} {b : Byte} (hi : i < bs.length) (hb : bs.getD i 0#8 ≠ b) :
    ckSum Config.barph (bs.set i b) ≠ ckSum Config.barph bs := by
  have hset : bs.set i b = bs.take i ++ b :: bs.drop (i + 1) := by
    rw [List.set_eq_take_append_cons_drop, if_pos hi]
  have hold : bs.take i ++ bs.getD i 0#8 :: bs.drop (i + 1) = bs := by
    rw [List.getD_eq_getElem _ _ hi, List.getElem_cons_drop, List.take_append_drop]
  intro h
  have hloop : ckLoop Config.barph (bs.take i ++ b :: bs.drop (i + 1)) 0 Config.barph.ckSeed =
      ckLoop Config.barph (bs.take i ++ bs.getD i 0#8 :: bs.drop (i + 1)) 0 Config.barph.ckSeed := by
    rw [hold, ← hset]
    exact h
  rw [ckLoop_append, ckLoop_append, ckLoop, ckLoop] at hloop
  exact hb (ckStep_byte_injective (ckLoop_acc_injective (bs.drop (i + 1)) _ hloop)).symm

end Sys2Proof.Machine
end

namespace Sys2Proof.Proofs

open Sys2Proof Sys2Proof.Machine

/-- Settles O51: appending a byte is one step of the fold more. -/
theorem checksumFoldsBytes : Obligations.ChecksumFoldsBytes := by
  intro s src hs
  refine ⟨_, exec_ckSum hs src, rfl, fun bs b => ?_⟩
  rw [ckSum_append_singleton, ckStep]
  congr 2
  exact BitVec.eq_of_toNat_eq (by rw [BitVec.toNat_ofNat, BitVec.toNat_ofNat, Nat.mod_mod])

end Sys2Proof.Proofs

section
/-! SUPPORT. What the stages of a pipeline leave alone, and which stage buffer is spare between two of them (spec 10_state.md
R35; 45_container.md R248, R249). -/

namespace Sys2Proof.Machine

/-! ### What every stage may write -/

/-- The state `t` is `s` but for what the stages of a pipeline write: `PHASE`, `pos`, the codecs and the buffers. -/
def State.Through (s t : State) : Prop := ∃ phase pos lb mf huf out sb0 sb1 src, t = { s with
  phase := phase, pos := pos, lb := lb, mf := mf, huf := huf, out := out, sb0 := sb0, sb1 := sb1, src := src }

section
variable {s t u : State}

theorem State.Through.refl (s : State) : s.Through s := ⟨_, _, _, _, _, _, _, _, _, rfl⟩

theorem State.Through.trans (h : s.Through t) (h' : t.Through u) : s.Through u := by
  obtain ⟨_, _, _, _, _, _, _, _, _, rfl⟩ := h
  obtain ⟨phase, pos, lb, mf, huf, out, sb0, sb1, src, rfl⟩ := h'
  exact ⟨phase, pos, lb, mf, huf, out, sb0, sb1, src, rfl⟩

theorem through_inPhase (s : State) (p : Phase) : s.Through (s.inPhase p) := ⟨p, _, _, _, _, _, _, _, _, rfl⟩

theorem through_putBuf (s : State) (b : StageBuf) (v : Buffer) : s.Through (s.putBuf b v) := by
  cases b with
  | sb0 => exact ⟨_, _, _, _, _, _, v, _, _, rfl⟩
  | sb1 => exact ⟨_, _, _, _, _, _, _, v, _, rfl⟩

theorem through_releaseBuf (s : State) (b : StageBuf) : s.Through (s.releaseBuf b) := through_putBuf s b _

/-- The state with another `OUT`. -/
def State.withOut (s : State) (o : Buffer) : State := { s with out := o }

theorem through_withOut (s : State) (o : Buffer) : s.Through (s.withOut o) := ⟨_, _, _, _, _, o, _, _, _, rfl⟩

theorem State.Through.max (h : s.Through t) : t.max = s.max := by
  obtain ⟨_, _, _, _, _, _, _, _, _, rfl⟩ := h
  rfl

theorem State.Through.sameOutside (h : s.Through t) : s.SameOutside t := by
  obtain ⟨_, _, _, _, _, _, _, _, _, rfl⟩ := h
  exact ⟨rfl, rfl, rfl, rfl, rfl, rfl, rfl⟩

end

/-! ### The stage buffers -/

/-- Between two stages the buffer `b` holds the last result. The other one is spare: it is fresh once a stage has run, and is as
it was found (`old`) before (R35). -/
def State.Spare (old : Buffer) (used : Bool) (b : StageBuf) (s : State) : Prop :=
  if used then (s.buf b.other).Fresh else b = .sb0 ∧ s.sb1 = old

theorem release_fresh (b : Buffer) : b.release.Fresh := ⟨rfl, rfl, rfl⟩

section
variable {s : State} {old : Buffer} {used : Bool} {b : StageBuf}

theorem State.Spare.inPhase (h : s.Spare old used b) (p : Phase) : (s.inPhase p).Spare old used b := by
  cases b <;> exact h

/-- A stage that ran has released its input, which is the spare buffer now. -/
theorem spare_releaseBuf (u : State) (old : Buffer) (used : Bool) (b : StageBuf) :
    (u.releaseBuf b).Spare old (used || true) b.other := by
  rw [State.Spare, Bool.or_true, if_pos rfl, other_other, State.releaseBuf, buf_putBuf]
  exact release_fresh _

/-- Once the last result is released or handed over, the buffers that were used are fresh (R35). -/
theorem State.Spare.putBuf_fresh (h : s.Spare old used b) {v : Buffer} (hv : v.Fresh) :
    (s.putBuf b v).sb0.Fresh ∧ (used = true → (s.putBuf b v).sb1.Fresh) ∧ (used = false → (s.putBuf b v).sb1 = old) := by
  cases used with
  | true =>
    cases b with
    | sb0 => exact ⟨hv, fun _ => h, nofun⟩
    | sb1 => exact ⟨h, fun _ => hv, nofun⟩
  | false =>
    obtain ⟨rfl, hold⟩ := h
    exact ⟨hv, nofun, fun _ => hold⟩

end

end Sys2Proof.Machine
end

section
/-! SUPPORT. The Huffman packer to the bit (spec 43_huffman.md R201, R206, R208): its stream, and that it stops only where that
stream does not fit. -/

namespace Sys2Proof.Machine

/-- The bits of a stream that `HUF.ENCODE` writes for `I`: the length, and the tree and the codes of its counts (R208). -/
def HufStream (I : List Byte) (bits : List Bool) : Prop :=
  ∃ (T : CodeTree) (h : Huffman), (I ≠ [] → h.CodesFor I T) ∧
    bits = lowBits I.length 64 ++ if I = [] then [] else T.bits ++ h.pack I

/-- The bytes hold exactly the bits, padded with zeros (R63, R140). -/
def Packed (bits : List Bool) (data : List Byte) : Prop :=
  data.length = (bits.length + 7) / 8 ∧ ∀ k, bitAt data k = bits.getD k false

theorem Packed.unique {bits : List Bool} {xs ys : List Byte} (hx : Packed bits xs) (hy : Packed bits ys) : xs = ys :=
  eq_of_bitAt (hx.1.trans hy.1.symm) fun k _ => (hx.2 k).trans (hy.2 k).symm

theorem Packed.bitsAt {bits : List Bool} {data : List Byte} (h : Packed bits data) : BitsAt data 0 bits := by
  obtain ⟨hlen, hbits⟩ := h
  exact ⟨by omega, fun k _ => by rw [Nat.zero_add, hbits]⟩

theorem packed_of_bitsAppended {b o : Buffer} (hb : b.Fresh) {bits : List Bool} (h : b.BitsAppended o bits) :
    Packed bits o.data := by
  obtain ⟨hwbits, hok, -, hbits⟩ := h
  have hlen := ((cursorOk_iff o).mp hok).2.1
  rw [hb.wbits, Nat.zero_add] at hwbits
  refine ⟨by rw [← len_eq, hlen, hwbits], fun k => ?_⟩
  rw [hbits, hb.wbits, if_neg (Nat.not_lt_zero k), Nat.sub_zero]

/-! ### The packer -/

theorem HufEnc.Encoded.hufStream {c c' : HufEnc} {I : List Byte} {T : CodeTree} (h : c.Encoded I T c') :
    ∃ bits, HufStream I bits ∧ Packed bits c'.out.data :=
  ⟨_, ⟨T, c'.huf, h.codes, rfl⟩, packed_of_bitsAppended (release_fresh _) h.out⟩

/-- The packer on the tables of an input that is not empty (R201, R205, R208). -/
theorem encodeRest_eq {I : List Byte} (hI : I ≠ []) (max : Nat) {c : HufEnc} (hw : tableWf {} c.huf.node = true) :
    ∃ (h : Huffman) (T : CodeTree), h.CodesFor I T ∧ encodeRest I max c =
      (HufEnc.emit { huf := h, pos := I.length - 1, out := c.out } (writeTree h max (h.nnodes + 1) h.root)).andThen
        fun _ c => packBytes max I 0 c := by
  obtain ⟨f, T, code, hbuild, hassign, -, -, hcodes⟩ := hufTables hw hI
  refine ⟨{ f with code := code }, T, hcodes, ?_⟩
  rw [encodeRest, HufEnc.tables, hbuild, Res.inside_ok, Res.andThen_ok, HufEnc.tables, hassign, Res.inside_ok,
    Res.andThen_ok]

theorem encodeRest_full {I : List Byte} (hI : I ≠ []) {max : Nat} {c c' : HufEnc} {e : Stop}
    (hw : tableWf {} c.huf.node = true) (hok : c.out.CursorOk) (hl : c.out.len ≤ max)
    (hstop : encodeRest I max c = .stop e c') :
    ∃ (h : Huffman) (T : CodeTree), h.CodesFor I T ∧ 8 * max < c.out.wbits + (T.bits ++ h.pack I).length := by
  obtain ⟨h, T, hcodes, hrest⟩ := encodeRest_eq hI max hw
  have hsize := hcodes.size
  have hheight := T.height_lt_size
  refine ⟨h, T, hcodes, ?_⟩
  rw [hrest] at hstop
  rw [List.length_append]
  rcases HufEnc.emit_cases (c := { huf := h, pos := I.length - 1, out := c.out })
    (writeTree_appends (fuel := h.nnodes + 1) hcodes.stored (by omega)) hok hl with ⟨o, hrun, ho, hlen⟩ | ⟨hfull, -⟩
  · have hwbits : o.wbits = c.out.wbits + T.bits.length := ho.1
    rw [hrun, Res.andThen_ok] at hstop
    rcases packBytes_cases I 0 { huf := h, pos := I.length - 1, out := o } ho.2.1 hlen with ⟨_, _, hrun', -⟩ | ⟨hfull, -⟩
    · exact nomatch hrun'.symm.trans hstop
    · dsimp only at hfull
      omega
  · dsimp only at hfull
    omega

/-- `HUF.ENCODE` stops only where its stream does not fit (R142, R208). -/
theorem hufEncode_full {I : List Byte} {max : Nat} {c c' : HufEnc} {e : Stop} (hw : tableWf {} c.huf.node = true)
    (hstop : hufEncode I max c = .stop e c') : ∃ bits, HufStream I bits ∧ 8 * max < bits.length := by
  have hstart : (c.started I).out.wbits = 0 := (release_fresh c.out).wbits
  have hlength : ∀ rest : List Bool, (lowBits I.length 64 ++ rest).length = 64 + rest.length := fun rest => by
    rw [List.length_append, lowBits_length]
  rw [hufEncode_eq] at hstop
  rcases HufEnc.emit_cases (max := max) (appendBitList_appends (lowBits I.length 64)) (c := c.started I)
    (release_fresh c.out).cursorOk (Nat.zero_le _) with ⟨o, hrun, ho, hlen⟩ | ⟨hfull, -⟩
  · have hwbits : o.wbits = 64 := by rw [ho.1, hstart, lowBits_length]
    rw [show (c.started I).emit (appendBits max I.length 64) = _ from hrun, Res.andThen_ok] at hstop
    by_cases hI : I = []
    · rw [if_pos (List.length_eq_zero_iff.mpr hI)] at hstop
      exact nomatch hstop
    · rw [if_neg fun h => hI (List.length_eq_zero_iff.mp h)] at hstop
      obtain ⟨h, T, hcodes, hfull⟩ := encodeRest_full hI (c := { c.started I with out := o }) hw ho.2.1 hlen hstop
      refine ⟨_, ⟨T, h, fun _ => hcodes, rfl⟩, ?_⟩
      dsimp only at hfull
      rw [hlength, if_neg hI]
      omega
  · rw [hstart, lowBits_length] at hfull
    by_cases hI : I = []
    · exact ⟨_, ⟨.leaf 0#8, c.huf, fun h => absurd hI h, rfl⟩, by rw [hlength]; omega⟩
    · obtain ⟨f, T, code, -, -, -, -, hcodes⟩ := hufTables hw hI
      exact ⟨_, ⟨T, _, fun _ => hcodes, rfl⟩, by rw [hlength]; omega⟩

/-! ### The stream -/

/-- The packer's worst case (R208). -/
theorem HufStream.length_le {I : List Byte} {bits : List Bool} (h : HufStream I bits) :
    bits.length ≤ 8 * (8 + 320 + 32 * I.length) := by
  obtain ⟨T, h, hcodes, rfl⟩ := h
  rw [List.length_append, lowBits_length]
  by_cases hI : I = []
  · rw [if_pos hI, List.length_nil]
    omega
  · have hc := hcodes hI
    have hsize := hc.size
    have hnn := hc.nnodes
    have hbits := T.bits_length
    have hpack := pack_length_le (hsize.trans_le hnn) hc.mem
    rw [if_neg hI, List.length_append]
    omega

/-- A stream the packer writes decodes to its input (R122, R210). -/
theorem HufStream.payload {I : List Byte} {bits : List Bool} {data : List Byte} (h : HufStream I bits)
    (hdata : Packed bits data) : HuffmanPayload true data I := by
  obtain ⟨T, h, hcodes, rfl⟩ := h
  have hbits := hdata.bitsAt
  rw [HuffmanPayload, if_pos rfl]
  by_cases hI : I = []
  · subst hI
    rw [if_pos rfl] at hbits
    exact ⟨.leaf 0#8, [], by decide, .nil, by rw [if_pos rfl]; exact hbits⟩
  · have hc := hcodes hI
    rw [if_neg hI] at hbits
    refine ⟨T, I.map fun v => h.codeAt v.toNat, hc.size.trans_le hc.nnodes, ?_, by rw [if_neg hI]; exact hbits⟩
    rw [List.forall₂_map_right_iff, List.forall₂_same]
    exact fun v hv => CodeTree.reads_of_mem_codes (hc.mem v hv)

/-- The stream of no bytes is its length (R110). -/
theorem HufStream.eq_nil {bits : List Bool} (h : HufStream [] bits) : bits = lowBits 0 64 := by
  obtain ⟨T, h, -, rfl⟩ := h
  exact List.append_nil _

/-! ### One byte value -/

/-- An input of one byte value has a tree of one leaf (R201, R206). -/
theorem Huffman.CodesFor.tree_replicate {h : Huffman} {n : Nat} {v : Byte} {T : CodeTree}
    (hc : h.CodesFor (List.replicate n v) T) (hn : n ≠ 0) : T = .leaf v := by
  have hcount : ∀ w : Byte, 0 < h.freqAt w.toNat ↔ w = v := fun w => by
    rw [hc.count, List.count_pos_iff, List.mem_replicate]
    exact and_iff_right hn
  have hdistinct : h.distinct = 1 := by
    have hone : (List.range 256).count v.toNat = 1 := List.count_eq_one_of_mem List.nodup_range (List.mem_range.mpr v.isLt)
    rw [← hone, Huffman.distinct]
    refine List.countP_congr fun w hw => ?_
    have hlt : w < 256 := List.mem_range.mp hw
    have hvalue : w = (BitVec.ofNat 8 w).toNat := by rw [BitVec.toNat_ofNat, Nat.mod_eq_of_lt hlt]
    rw [decide_eq_true_iff, hvalue, hcount, beq_iff_eq, BitVec.toNat_inj]
  have hsize : T.size = 1 := by rw [hc.size, hc.built.1, hdistinct]
  cases T with
  | leaf w =>
    have hmem := hc.mem v (List.mem_replicate.mpr ⟨hn, rfl⟩)
    rw [CodeTree.codes, List.mem_singleton] at hmem
    rw [(Prod.mk.inj hmem).1]
  | node l r =>
    have hl := l.height_lt_size
    rw [CodeTree.size] at hsize
    omega

/-- The stream of one byte value repeated: the length, one leaf, and a zero bit for each byte (R206, R208). -/
theorem HufStream.eq_replicate {n : Nat} {v : Byte} {bits : List Bool} (h : HufStream (List.replicate n v) bits) (hn : n ≠ 0) :
    bits = lowBits n 64 ++ (false :: lowBits v.toNat 8 ++ List.replicate n false) := by
  obtain ⟨T, h, hcodes, rfl⟩ := h
  have hne : List.replicate n v ≠ [] := fun hnil => hn ((List.replicate_eq_nil_iff v).mp hnil)
  have hc := hcodes hne
  obtain rfl := hc.tree_replicate hn
  have hcode : h.codeAt v.toNat = [false] := by
    have hmem := hc.mem v (List.mem_replicate.mpr ⟨hn, rfl⟩)
    rw [CodeTree.codes, List.mem_singleton] at hmem
    exact (Prod.mk.inj hmem).2
  rw [if_neg hne, List.length_replicate, CodeTree.bits, Huffman.pack, List.map_replicate, hcode, List.flatten_replicate_singleton]

end Sys2Proof.Machine
end

section
/-! SUPPORT. The stages of a compression, one lemma each (spec 45_container.md R248): what a stage writes, what it leaves alone,
and that it stops only for want of room. -/

namespace Sys2Proof.Machine

/-! ### What the stages write -/

/-- What the lookback stage makes of `I`: the stream of its greedy parse, or `I` itself when the stage is off (R28, R183). -/
def LbWritten (on : Bool) (I y : List Byte) : Prop :=
  if on then ∃ ts, Parsed Config.barph I 0 ts ∧ y = lbStream I.length ts else y = I

/-- What the Huffman stage makes of `y`: its stream, or `y` itself when the stage is off (R28, R208). -/
def HufWritten (on : Bool) (y payload : List Byte) : Prop :=
  if on then ∃ bits, HufStream y bits ∧ Packed bits payload else payload = y

section
variable {on : Bool} {I y payload : List Byte}

theorem LbWritten.length_le (h : LbWritten on I y) : y.length ≤ 8 + 2 * I.length := by
  cases on with
  | false => rw [show y = I from h]; omega
  | true =>
    obtain ⟨ts, hts, rfl⟩ := h
    exact hts.stream_length _

/-- What the lookback stage writes decodes to its input (R122, R180). -/
theorem LbWritten.lookbackPayload (h : LbWritten on I y) : LookbackPayload on y I := by
  cases on with
  | false => exact h
  | true =>
    obtain ⟨ts, hts, rfl⟩ := h
    exact ⟨ts, [], fun t ht => (hts.tokens t ht).1, hts.meaning, (List.append_nil _).symm⟩

theorem HufWritten.length_le (h : HufWritten on y payload) : payload.length ≤ 8 + 320 + 32 * y.length := by
  cases on with
  | false => rw [show payload = y from h]; omega
  | true =>
    obtain ⟨bits, hbits, hpacked⟩ := h
    have hlen := hbits.length_le
    have hbytes := hpacked.1
    omega

/-- What the Huffman stage writes decodes to its input (R122, R210). -/
theorem HufWritten.huffmanPayload (h : HufWritten on y payload) : HuffmanPayload on payload y := by
  cases on with
  | false => exact h
  | true =>
    obtain ⟨bits, hbits, hpacked⟩ := h
    exact hbits.payload hpacked

end

/-- Why a compression of the filtered input `I` finds no room within the bound: the lookback encoder's worst case, the Huffman
stream, or the container does not fit (R142). -/
def NoRoom (lb huf : Bool) (I : List Byte) (max : Nat) : Prop :=
  (lb = true ∧ max < 8 + 2 * I.length) ∨
  (huf = true ∧ ∃ y bits, LbWritten lb I y ∧ HufStream y bits ∧ 8 * max < bits.length) ∨
  ∃ y payload, LbWritten lb I y ∧ HufWritten huf y payload ∧ max < 13 + payload.length

/-- The worst case of all stages together (R142). -/
theorem NoRoom.lt {lb huf : Bool} {I : List Byte} {max : Nat} (h : NoRoom lb huf I max) : max < 64 * I.length + 600 := by
  rcases h with ⟨-, hfull⟩ | ⟨-, y, bits, hy, hbits, hfull⟩ | ⟨y, payload, hy, hpayload, hfull⟩
  · omega
  · have hy' := hy.length_le
    have hbits' := hbits.length_le
    omega
  · have hy' := hy.length_le
    have hpayload' := hpayload.length_le
    omega

/-! ### A compression between two stages -/

/-- The state `t` is `s` after stages of a compression with the given enables, of which one ran if `used`; `b` holds the last
result (R35, R248). -/
structure State.Compressing (lb huf : Bool) (s t : State) (used : Bool) (b : StageBuf) : Prop where
  through : s.Through t
  src : t.src = s.src
  changed : s.EncoderChanged t lb huf
  spare : t.Spare s.sb1 used b

section
variable {lb huf used : Bool} {b : StageBuf} {s u : State}

theorem compressing_refl (lb huf : Bool) (s : State) : s.Compressing lb huf s false .sb0 where
  through := .refl s
  src := rfl
  changed := ⟨fun _ => ⟨rfl, rfl⟩, rfl, fun _ => rfl, rfl⟩
  spare := ⟨rfl, rfl⟩

theorem State.Compressing.inPhase (h : s.Compressing lb huf u used b) (p : Phase) :
    s.Compressing lb huf (u.inPhase p) used b where
  through := h.through.trans (through_inPhase u p)
  src := h.src
  changed := h.changed
  spare := h.spare.inPhase p

/-- The first result is written into `SB0` (R248). -/
theorem State.Compressing.putSb0 (h : s.Compressing lb huf u false b) (v : Buffer) :
    s.Compressing lb huf (u.putBuf .sb0 v) false b where
  through := h.through.trans (through_putBuf u .sb0 v)
  src := h.src
  changed := h.changed
  spare := h.spare

theorem State.Compressing.filtered (h : s.Compressing lb huf u false b) (d : Byte) :
    s.Compressing lb huf (opDeltaForward .sb0 d u) false b where
  through := h.through.trans ⟨_, _, _, _, _, _, _, _, _, rfl⟩
  src := h.src
  changed := h.changed
  spare := h.spare

/-! ### The lookback stage -/

/-- The state after `LB.ENCODE` (R183). -/
def State.lbEncoded (i : StageBuf) (s : State) (c : LbEnc) : State :=
  { s.putBuf i.other c.out with mf := c.mf, pos := c.pos, lb := { s.lb with runStart := c.runStart } }

theorem opLbEncode_eq (i : StageBuf) (s : State) : opLbEncode Config.barph i s =
    (lbEncode Config.barph (s.buf i).data s.max
      { mf := s.mf, pos := s.pos, runStart := s.lb.runStart, out := s.buf i.other }).inside (s.lbEncoded i) := rfl

theorem through_lbEncoded (i : StageBuf) (s : State) (c : LbEnc) : s.Through (s.lbEncoded i c) := by
  cases i <;> exact ⟨_, _, _, _, _, _, _, _, _, rfl⟩

/-- What the encoder wrote is within the bound (R142). -/
theorem lbEncode_len_le {I : List Byte} {max : Nat} (hmax : max < 2 ^ 64) {c c' : LbEnc}
    (h : lbEncode Config.barph I max c = .ok () c') : c'.out.len ≤ max := by
  have hagree := lbEncode_agree Config.barph I max c { mf := {}, pos := 0, runStart := 0, out := {} }
  have hgood := lbEncode_good (T := False) (B := True) hmax I (c := { mf := {}, pos := 0, runStart := 0, out := {} })
    ⟨False.elim, fun _ => emptyBuffer_bounded max⟩
  rw [h] at hagree
  generalize lbEncode Config.barph I max { mf := {}, pos := 0, runStart := 0, out := {} } = r at hagree hgood
  cases hagree with
  | ok halike =>
    have hbounded := (hgood.of_ok rfl).2 trivial
    rw [len_eq, ← halike.out.data]
    exact hbounded.1

/-- The lookback stage writes the stream of its input, or there is no room for its worst case (R142, R183, R248). -/
theorem lbStage_cases (h : s.Compressing lb huf u false .sb0) (hlen : u.sb0.data.length ≤ u.max) :
    (∃ b t, opStage lb (opLbEncode Config.barph) .sb0 u = .ok b t ∧ s.Compressing lb huf t lb b ∧ t.huf = u.huf ∧
      LbWritten lb u.sb0.data (t.buf b).data ∧ (t.buf b).data.length ≤ u.max) ∨
    (lb = true ∧ u.max < 8 + 2 * u.sb0.data.length ∧
      ∃ t, opStage lb (opLbEncode Config.barph) .sb0 u = .stop (.raise .internal) t ∧ s.Through t) := by
  cases lb with
  | false => exact .inl ⟨.sb0, u, rfl, h, rfl, rfl, hlen⟩
  | true =>
    rw [opStage_on, opLbEncode_eq]
    rcases lbEncode_cases barph_lookbackParams (u.buf .sb0).data u.max
      { mf := u.mf, pos := u.pos, runStart := u.lb.runStart, out := u.buf StageBuf.sb0.other } with
      ⟨ts, c, hrun, hparsed, hdata⟩ | ⟨hfull, c, hrun⟩
    · have hlen' := lbEncode_len_le u.max_lt hrun
      obtain ⟨hlb, hrunStart, hhuf, hwalk⟩ := h.changed
      rw [hrun]
      refine .inl ⟨.sb1, _, rfl, ?_, rfl, ⟨ts, hparsed, hdata⟩, hlen'⟩
      exact {
        through := h.through.trans ((through_lbEncoded .sb0 u c).trans (through_releaseBuf _ _))
        src := h.src
        changed := ⟨nofun, congrArg (fun l : Lookback => { l with runStart := c.runStart }) hrunStart, hhuf, hwalk⟩
        spare := spare_releaseBuf (u.lbEncoded .sb0 c) s.sb1 false .sb0 }
    · rw [hrun]
      exact .inr ⟨rfl, hfull, _, rfl, h.through.trans (through_lbEncoded .sb0 u c)⟩

/-! ### The Huffman stage -/

/-- The state after `HUF.ENCODE` (R208). -/
def State.hufEncoded (i : StageBuf) (s : State) (c : HufEnc) : State :=
  { s.putBuf i.other c.out with huf := c.huf, pos := c.pos }

theorem opHufEncode_eq (i : StageBuf) (s : State) : opHufEncode i s =
    (hufEncode (s.buf i).data s.max { huf := s.huf, pos := s.pos, out := s.buf i.other }).inside (s.hufEncoded i) := rfl

theorem through_hufEncoded (i : StageBuf) (s : State) (c : HufEnc) : s.Through (s.hufEncoded i c) := by
  cases i <;> exact ⟨_, _, _, _, _, _, _, _, _, rfl⟩

theorem hufEncoded_buf_other (i : StageBuf) (s : State) (c : HufEnc) :
    ((s.hufEncoded i c).releaseBuf i).buf i.other = c.out := by
  cases i <;> rfl

/-- The Huffman stage writes the stream of its input, or that stream does not fit (R142, R208, R248). -/
theorem hufStage_cases (h : s.Compressing lb huf u used b) (hw : huf = true → u.ArenaWf) :
    (∃ b' t, opStage huf opHufEncode b u = .ok b' t ∧ s.Compressing lb huf t (used || huf) b' ∧
      HufWritten huf (u.buf b).data (t.buf b').data) ∨
    (huf = true ∧ (∃ bits, HufStream (u.buf b).data bits ∧ 8 * u.max < bits.length) ∧
      ∃ t, opStage huf opHufEncode b u = .stop (.raise .internal) t ∧ s.Through t) := by
  cases huf with
  | false => exact .inl ⟨b, u, rfl, by rw [Bool.or_false]; exact h, rfl⟩
  | true =>
    rw [opStage_on, opHufEncode_eq]
    rcases hufEncode_cases (u.buf b).data u.max (c := { huf := u.huf, pos := u.pos, out := u.buf b.other }) (hw rfl) with
      ⟨T, c, hrun, henc⟩ | ⟨-, c, hrun⟩
    · obtain ⟨hlb, hrunStart, -, hwalk⟩ := h.changed
      rw [hrun]
      refine .inl ⟨b.other, _, rfl, ?_, by rw [hufEncoded_buf_other]; exact henc.hufStream⟩
      exact {
        through := h.through.trans ((through_hufEncoded b u c).trans (through_releaseBuf _ _))
        src := by rw [State.releaseBuf, putBuf_src]; exact (putBuf_src u b.other c.out).trans h.src
        changed := by cases b <;> exact ⟨hlb, hrunStart, nofun, henc.walk.trans hwalk⟩
        spare := spare_releaseBuf (u.hufEncoded b c) s.sb1 used b }
    · have hfull := hufEncode_full (hw rfl) hrun
      rw [hrun]
      exact .inr ⟨rfl, hfull, _, rfl, h.through.trans (through_hufEncoded b u c)⟩

/-! ### The container -/

theorem containerBytes_length (lb huf : Bool) (delta : Byte) (ck : U32) (payload : List Byte) :
    (containerBytes Config.barph lb huf delta ck payload).length = 13 + payload.length := by
  rw [containerBytes, List.length_append, List.length_append, List.length_append, leBytes_length]
  rfl

/-- The container is written into the fresh `OUT`, or does not fit (R142, R248). -/
theorem opEmit_cases (lb huf : Bool) (delta : Byte) (payload : List Byte) (u : State) :
    (∃ o, opEmit Config.barph lb huf delta payload u = .ok () (u.withOut o) ∧
      o.data = containerBytes Config.barph lb huf delta u.acc payload ∧ o.data.length ≤ u.max) ∨
    (u.max < 13 + payload.length ∧
      ∃ o, opEmit Config.barph lb huf delta payload u = .stop (.raise .internal) (u.withOut o)) := by
  have happend := (appends_bytes Config.barph.magic).andThen <| (appends_byte delta).andThen <|
    (appends_byte (flagByte lb)).andThen <| (appends_byte (flagByte huf)).andThen <|
      (appends_bytes (leBytes u.acc.toNat 4)).andThen (appends_bytes payload)
  have hbytes : Config.barph.magic ++ ([delta] ++ ([flagByte lb] ++ ([flagByte huf] ++ (leBytes u.acc.toNat 4 ++ payload)))) =
      containerBytes Config.barph lb huf delta u.acc payload := by
    simp [containerBytes]
  have hlen := containerBytes_length lb huf delta u.acc payload
  rw [hbytes] at happend
  rcases happend u.max u.out.release with ⟨hroom, cap, hrun⟩ | ⟨hfull, o, hrun⟩
  · rw [release_len, Nat.zero_add] at hroom
    exact .inl ⟨_, by dsimp only at hrun; rw [opEmit, onOut, hrun, Res.inside_ok]; rfl, rfl, hroom⟩
  · rw [release_len, Nat.zero_add, hlen] at hfull
    exact .inr ⟨hfull, o, by dsimp only at hrun; rw [opEmit, onOut, hrun, Res.inside_stop]; rfl⟩

end

end Sys2Proof.Machine
end

section
/-! SUPPORT. `CON.COMPRESS` and the command COMPRESS (spec 45_container.md R241, R248, R255): the stages one after another end in
a container, or in the fatal error where the bound leaves no room. -/

namespace Sys2Proof.Machine

/-! ### The pipeline -/

/-- What a `CON.COMPRESS` that returns leaves: `y` came of the lookback stage and `payload` of the Huffman stage (R248). -/
structure State.Compressed (lb huf : Bool) (delta : Byte) (s t : State) (y payload : List Byte) : Prop where
  through : (s.summed Config.barph).Through t
  src : t.src = s.src
  changed : s.EncoderChanged t lb huf
  lbWritten : LbWritten lb (deltaForward delta.toNat s.input) y
  hufWritten : HufWritten huf y payload
  len_le : y.length ≤ s.max
  out : t.out.data = containerBytes Config.barph lb huf delta (ckSum Config.barph s.input) payload
  out_le : t.out.data.length ≤ s.max
  phase : t.phase = .cEmit
  sb0 : t.sb0.Fresh
  sb1 : lb = true ∨ huf = true → t.sb1.Fresh
  sb1_kept : lb = false → huf = false → t.sb1 = s.sb1

/-- The last stage's result is in the container: the stage buffer is released (R248). -/
theorem State.Compressing.compressed {lb huf : Bool} {delta : Byte} {s u : State} {b : StageBuf} {y : List Byte} {o : Buffer}
    (h : (s.summed Config.barph).Compressing lb huf u (lb || huf) b)
    (hy : LbWritten lb (deltaForward delta.toNat s.input) y) (hylen : y.length ≤ s.max)
    (hpayload : HufWritten huf y (u.buf b).data)
    (hout : o.data = containerBytes Config.barph lb huf delta u.acc (u.buf b).data) (houtlen : o.data.length ≤ u.max)
    (hphase : u.phase = .cEmit) : s.Compressed lb huf delta ((u.withOut o).releaseBuf b) y (u.buf b).data := by
  obtain ⟨hthrough, hsrc, hchanged, hspare⟩ := h
  have hacc : u.acc = ckSum Config.barph s.input := by
    obtain ⟨_, _, _, _, _, _, _, _, _, rfl⟩ := hthrough
    rfl
  obtain ⟨hsb0, hused, hkept⟩ := State.Spare.putBuf_fresh (s := u.withOut o) (b := b) (by cases b <;> exact hspare)
    (release_fresh ((u.withOut o).buf b))
  exact {
    through := hthrough.trans ((through_withOut u o).trans (through_releaseBuf _ b))
    src := by cases b <;> exact hsrc
    changed := by cases b <;> exact hchanged
    lbWritten := hy
    hufWritten := hpayload
    len_le := hylen
    out := by rw [State.releaseBuf, putBuf_out, ← hacc]; exact hout
    out_le := by rw [State.releaseBuf, putBuf_out]; exact houtlen.trans_eq hthrough.max
    phase := by rw [State.releaseBuf, putBuf_phase]; exact hphase
    sb0 := hsb0
    sb1 := fun hon => hused (by rwa [Bool.or_eq_true])
    sb1_kept := fun hlb hhuf => hkept (by rw [hlb, hhuf]; rfl) }

/-- `CON.COMPRESS` of a legal input returns a container, or stops with the fatal error for want of room (R142, R248). -/
theorem opConCompress_cases {s : State} {lb huf : Bool} (delta : Byte) (hlen : s.inLen.toNat ≤ s.max)
    (hw : huf = true → s.ArenaWf) :
    (∃ t y payload, opConCompress Config.barph lb huf delta s = .ok () t ∧ s.Compressed lb huf delta t y payload) ∨
    (NoRoom lb huf (deltaForward delta.toNat s.input) s.max ∧
      ∃ t, opConCompress Config.barph lb huf delta s = .stop (.raise .internal) t ∧ (s.summed Config.barph).Through t) := by
  have hin : s.input.length ≤ s.max := by rw [input_length]; exact hlen
  obtain ⟨cap, hcopy⟩ := opCopy_room (s := s.summed Config.barph) .sb0 s.input hin
  rw [opConCompress_eq, hcopy, Res.andThen_ok]
  have h1 := (((compressing_refl lb huf (s.summed Config.barph)).putSb0
    { data := s.input, cap := cap, wcur := { byte := s.input.length, bit := 0 }, rcur := {} }).filtered delta).inPhase .cLb
  generalize hu1 : (opDeltaForward .sb0 delta ((s.summed Config.barph).putBuf .sb0
    { data := s.input, cap := cap, wcur := { byte := s.input.length, bit := 0 }, rcur := {} })).inPhase .cLb = u1 at h1 ⊢
  have hdata1 : u1.sb0.data = deltaForward delta.toNat s.input := by rw [← hu1]; rfl
  have hhuf1 : u1.huf = s.huf := by rw [← hu1]; rfl
  have hmax1 : u1.max = s.max := h1.through.max
  rcases lbStage_cases h1 (by rw [hdata1, deltaForward_length, hmax1]; exact hin) with
    ⟨b2, u2, hrun, h2, hhuf2, hy, hylen⟩ | ⟨hlb, hfull, u2, hrun, hthrough⟩
  · rw [hdata1] at hy
    rw [hrun, Res.andThen_ok]
    replace h2 := h2.inPhase .cHuf
    have hmax2 : (u2.inPhase .cHuf).max = s.max := h2.through.max
    rcases hufStage_cases h2 (fun hhuf => by rw [State.ArenaWf, State.inPhase, hhuf2, hhuf1]; exact hw hhuf) with
      ⟨b3, u3, hrun, h3, hpayload⟩ | ⟨hhuf, ⟨bits, hbits, hfull⟩, u3, hrun, hthrough⟩
    · rw [inPhase_buf] at hpayload
      rw [hrun, Res.andThen_ok]
      have h4 := h3.inPhase .cEmit
      have hmax4 : (u3.inPhase .cEmit).max = s.max := h4.through.max
      rcases opEmit_cases lb huf delta (u3.buf b3).data (u3.inPhase .cEmit) with
        ⟨o, hrun, hout, houtlen⟩ | ⟨hfull, o, hrun⟩
      · rw [hrun, Res.andThen_ok]
        exact .inl ⟨_, _, _, rfl, State.Compressing.compressed (u := u3.inPhase .cEmit) (b := b3) h4 hy (hylen.trans_eq hmax1)
          (by rw [inPhase_buf]; exact hpayload) (by rw [inPhase_buf]; exact hout) houtlen rfl⟩
      · rw [hrun]
        exact .inr ⟨.inr (.inr ⟨_, _, hy, hpayload, hmax4 ▸ hfull⟩), _, rfl, h4.through.trans (through_withOut _ o)⟩
    · rw [hrun]
      rw [inPhase_buf] at hbits
      exact .inr ⟨.inr (.inl ⟨hhuf, _, bits, hy, hbits, hmax2 ▸ hfull⟩), _, rfl, hthrough⟩
  · rw [hrun]
    rw [hdata1, hmax1] at hfull
    exact .inr ⟨.inl ⟨hlb, hfull⟩, _, rfl, hthrough⟩

/-! ### The command -/

/-- COMPRESS of a legal input ends with a container, or in the fatal entry for want of room (R241, R277). -/
theorem exec_compress_cases {s : State} {lb huf : Bool} (delta : Byte) (hs : s.seq = .idle) (hlen : s.inLen.toNat ≤ s.max)
    (hw : huf = true → s.ArenaWf) :
    (∃ t y payload, exec (.compress lb huf delta) s = .next (endCommand t) ∧
      (startCompress lb huf delta s).Compressed lb huf delta t y payload) ∨
    (NoRoom lb huf (deltaForward delta.toNat s.input) s.max ∧ ∃ t, exec (.compress lb huf delta) s =
      .next (takeError .internal t) ∧ ((startCompress lb huf delta s).summed Config.barph).Through t) := by
  rw [show exec (.compress lb huf delta) s = _ from runCommand_legal _ _ hs hlen]
  rcases opConCompress_cases (s := startCompress lb huf delta s) delta hlen hw with
    ⟨t, y, payload, hrun, ht⟩ | ⟨hfull, t, hrun, ht⟩
  · exact .inl ⟨t, y, payload, by rw [hrun]; rfl, ht⟩
  · exact .inr ⟨hfull, t, by rw [hrun]; rfl, ht⟩

theorem endCommand_outLen {s : State} (h : s.out.data.length ≤ s.max) : (endCommand s).outLen.toNat = s.out.len :=
  (BitVec.toNat_ofNat ..).trans (Nat.mod_eq_of_lt (Nat.lt_of_le_of_lt h s.max_lt))

/-- A length within the bound is the value of the register `OUT_LEN` (R25). -/
theorem State.Compressed.outLen {lb huf : Bool} {delta : Byte} {s t : State} {y payload : List Byte}
    (h : s.Compressed lb huf delta t y payload) : (endCommand t).outLen.toNat = t.out.len :=
  endCommand_outLen (h.out_le.trans_eq (h.through.max (s := s.summed Config.barph)).symm)

/-- With room for the worst case of all stages a compression of a legal input does not stop. -/
theorem not_noRoom {lb huf : Bool} {delta : Byte} {s : State} (hroom : 64 * s.inLen.toNat + 600 ≤ s.max) :
    ¬ NoRoom lb huf (deltaForward delta.toNat s.input) s.max := fun h => by
  have hlt := h.lt
  rw [deltaForward_length, input_length] at hlt
  omega

end Sys2Proof.Machine
end

namespace Sys2Proof.Proofs

open Sys2Proof Sys2Proof.Machine

/-- Settles O13: with room for the worst case no stage stops, and what the stages wrote decodes to their input. -/
theorem compressCompletes : Obligations.CompressCompletes := by
  intro s lb huf delta hs hroom hw
  rcases exec_compress_cases (lb := lb) (huf := huf) delta hs (by omega) fun _ => hw with
    ⟨t, y, payload, hrun, ht⟩ | ⟨hfull, -⟩
  · have hlen := ht.outLen
    have houtside := ht.through.sameOutside
    obtain ⟨hthrough, hsrc, hchanged, hy, hpayload, -, hout, -, -, hsb0, hsb1, hkept⟩ := ht
    obtain ⟨_, _, _, _, _, _, _, _, _, rfl⟩ := hthrough
    exact ⟨_, y, payload, hrun, rfl, rfl, rfl, rfl, hout, hy.lookbackPayload, hpayload.huffmanPayload, hlen, rfl, rfl, rfl, rfl,
      rfl, hsb0, hsb1, hkept, rfl, hsrc, rfl, houtside, hchanged⟩
  · exact absurd hfull (not_noRoom hroom)

/-- Settles O15: a compression returns or stops with the fatal error, and nothing else. -/
theorem compressEndsInResultOrFatal : Obligations.CompressEndsInResultOrFatal := by
  intro s lb huf delta hs hlen hw
  rcases exec_compress_cases (lb := lb) (huf := huf) delta hs hlen fun _ => hw with
    ⟨t, y, payload, hrun, ht⟩ | ⟨-, t, hrun, hthrough⟩
  · have houtLen := ht.outLen
    have houtside := ht.through.sameOutside
    obtain ⟨_, _, _, _, _, _, _, _, _, rfl⟩ := ht.through
    exact ⟨_, hrun, rfl, rfl, houtside, rfl, rfl, .inl ⟨rfl, rfl, houtLen⟩⟩
  · have houtside := hthrough.sameOutside
    obtain ⟨_, _, _, _, _, _, _, _, _, rfl⟩ := hthrough
    exact ⟨_, hrun, rfl, rfl, houtside, rfl, rfl,
      .inr ⟨rfl, rfl, rfl, release_fresh _, release_fresh _, release_fresh _⟩⟩

/-- Settles O52: the pipeline itself, of which the command is the start and the end. -/
theorem containerCompressCompletes : Obligations.ContainerCompressCompletes := by
  intro s lb huf delta hs hroom hw
  rw [show exec (.conCompress lb huf delta) s = _ from runUnit_running hs _]
  rcases opConCompress_cases (lb := lb) (huf := huf) delta (by omega) fun _ => hw with
    ⟨t, y, payload, hrun, ht⟩ | ⟨hfull, -⟩
  · have houtside := ht.through.sameOutside
    obtain ⟨hthrough, hsrc, hchanged, hy, hpayload, -, hout, -, hphase, hsb0, hsb1, hkept⟩ := ht
    obtain ⟨_, _, _, _, _, _, _, _, _, rfl⟩ := hthrough
    refine ⟨_, y, payload, by rw [hrun, finish_ok], hout, hy.lookbackPayload, hpayload.huffmanPayload, fun hlb hhuf => ?_,
      rfl, rfl, hphase, hsb0, hsb1, hkept, rfl, rfl, rfl, rfl, rfl, rfl, rfl, rfl, hsrc, rfl, houtside,
      hchanged⟩
    subst hlb hhuf
    exact Eq.trans hpayload hy
  · exact absurd hfull (not_noRoom hroom)

/-- Settles O14: with both codecs off the payload is the filtered input, and only the container has to fit. -/
theorem compressWithoutCodecsFramesInput : Obligations.CompressWithoutCodecsFramesInput := by
  intro s delta hs hroom
  rcases exec_compress_cases (lb := false) (huf := false) delta hs (by omega) nofun with
    ⟨t, y, payload, hrun, ht⟩ | ⟨hfull, -⟩
  · have houtLen := ht.outLen
    have houtside := ht.through.sameOutside
    obtain ⟨hthrough, hsrc, ⟨hlb, -, hhuf, -⟩, hy, hpayload, -, hout, -, -, hsb0, -, hkept⟩ := ht
    obtain rfl : payload = deltaForward delta.toNat s.input := Eq.trans hpayload hy
    obtain ⟨_, _, _, _, _, _, _, _, _, rfl⟩ := hthrough
    obtain ⟨hmf, hlb⟩ := hlb rfl
    exact ⟨_, hrun, hout, fun hdelta => by rw [hdelta]; rfl, houtLen, rfl, rfl, rfl, rfl, rfl, rfl, rfl, rfl, rfl, rfl, hsb0,
      hkept rfl rfl, hsrc, rfl, houtside, hmf, hlb, hhuf rfl⟩
  · rcases hfull with ⟨hlb, -⟩ | ⟨hhuf, -⟩ | ⟨y, payload, hy, hpayload, hfull⟩
    · exact nomatch hlb
    · exact nomatch hhuf
    · rw [show payload = deltaForward delta.toNat s.input from Eq.trans hpayload hy, deltaForward_length, input_length] at hfull
      omega

end Sys2Proof.Proofs

section
/-! SUPPORT. The containers of the empty input (spec 45_container.md R255). -/

namespace Sys2Proof.Machine

section
variable {lb : Bool} {y payload : List Byte} {bits : List Bool}

/-- The lookback stream of no bytes is its length (R183). -/
theorem LbWritten.of_nil (h : LbWritten lb [] y) : y = if lb then List.replicate 8 0#8 else [] := by
  cases lb with
  | false => exact h
  | true =>
    obtain ⟨ts, hts, rfl⟩ := h
    cases ts with
    | nil => rfl
    | cons t ts =>
      have hpos := Token.bytes_length_pos (hts.tokens t List.mem_cons_self).1
      have hsize := hts.size
      rw [List.map_cons, List.flatten_cons, List.length_append, List.length_nil] at hsize
      omega

/-- The bits of the bytes are a matter of finitely many of them. -/
theorem packed_of_lt (hlen : payload.length = (bits.length + 7) / 8)
    (h : ∀ k, k < 8 * payload.length → bitAt payload k = bits.getD k false) : Packed bits payload := by
  refine ⟨hlen, fun k => ?_⟩
  rcases Nat.lt_or_ge k (8 * payload.length) with hk | hk
  · exact h k hk
  · rw [bitAt_of_length_le hk, List.getD_eq_default _ _ (by omega)]

/-- The Huffman stream of no bytes (R110). -/
theorem packed_empty : Packed (lowBits 0 64) (List.replicate 8 0#8) := packed_of_lt rfl (by decide)

/-- The Huffman stream of eight zeros: the length, one leaf and a bit for each of them (R206, R208). -/
theorem packed_zeros : Packed (lowBits 8 64 ++ (false :: lowBits 0 8 ++ List.replicate 8 false))
    (0x08#8 :: List.replicate 10 0#8) := packed_of_lt rfl (by decide)

theorem hufStream_zeros (h : HufStream (List.replicate 8 0#8) bits) :
    bits = lowBits 8 64 ++ (false :: lowBits 0 8 ++ List.replicate 8 false) := h.eq_replicate (by decide)

/-- The payloads of the empty input (R255). -/
def emptyPayload (lb huf : Bool) : List Byte :=
  match lb, huf with
  | false, false => []
  | true, false => List.replicate 8 0#8
  | false, true => List.replicate 8 0#8
  | true, true => 0x08#8 :: List.replicate 10 0#8

theorem HufWritten.of_empty {huf : Bool} (h : HufWritten huf y payload) (hy : LbWritten lb [] y) :
    payload = emptyPayload lb huf := by
  obtain rfl := hy.of_nil
  cases huf with
  | false => cases lb <;> exact h
  | true =>
    obtain ⟨bits, hbits, hpacked⟩ := h
    cases lb with
    | false =>
      obtain rfl := hbits.eq_nil
      exact hpacked.unique packed_empty
    | true =>
      obtain rfl := hufStream_zeros hbits
      exact hpacked.unique packed_zeros

/-- The longest of the four containers takes 24 bytes (R255). -/
theorem not_noRoom_empty {huf : Bool} {max : Nat} (hmax : 24 ≤ max) : ¬ NoRoom lb huf [] max := by
  rintro (⟨-, hfull⟩ | ⟨-, y, bits, hy, hbits, hfull⟩ | ⟨y, payload, hy, hpayload, hfull⟩)
  · rw [List.length_nil] at hfull
    omega
  · have hlen : bits.length ≤ 81 := by
      obtain rfl := hy.of_nil
      cases lb with
      | false =>
        obtain rfl := hbits.eq_nil
        decide
      | true =>
        obtain rfl := hufStream_zeros hbits
        decide
    omega
  · have hlen : payload.length ≤ 11 := by
      rw [hpayload.of_empty hy]
      cases lb <;> cases huf <;> decide
    omega

end

end Sys2Proof.Machine
end

namespace Sys2Proof.Proofs

open Sys2Proof Sys2Proof.Machine

/-- Settles O16: each stage's stream of no bytes, and of the eight zeros that are the lookback stream of none. -/
theorem emptyInputContainers : Obligations.EmptyInputContainers := by
  intro s lb huf delta hs hlen hmax hw
  have hin : s.input = [] := List.length_eq_zero_iff.mp (by rw [input_length, hlen]; rfl)
  have hfiltered : deltaForward delta.toNat s.input = [] := List.length_eq_zero_iff.mp (by
    rw [deltaForward_length, hin]; rfl)
  rcases exec_compress_cases (lb := lb) (huf := huf) delta hs (by rw [hlen]; exact Nat.zero_le _) fun _ => hw with
    ⟨t, y, payload, hrun, ht⟩ | ⟨hfull, -⟩
  · obtain ⟨hthrough, -, -, hy, hpayload, -, hout, -⟩ := ht
    have hstart : (startCompress lb huf delta s).input = [] := hin
    rw [show deltaForward delta.toNat (startCompress lb huf delta s).input = [] from hfiltered] at hy
    rw [hpayload.of_empty hy, hstart] at hout
    obtain ⟨_, _, _, _, _, _, _, _, _, rfl⟩ := hthrough
    refine ⟨_, hrun, rfl, rfl, ?_, ?_⟩
    · exact congrArg (ckSum Config.barph) hin
    · cases lb <;> cases huf <;> exact hout
  · rw [hfiltered] at hfull
    exact absurd hfull (not_noRoom_empty hmax)

end Sys2Proof.Proofs

section
/-! SUPPORT. The header parse (spec 45_container.md R249 to R251): the three ways it ends, and what it leaves. -/

namespace Sys2Proof.Machine

/-! ### The bytes of a header -/

/-- What stands in place of a container header: no magic, a header cut short, or a header (R250). -/
theorem decode_con_cases (bs : List Byte) :
    (bs.take 6 ≠ Config.barph.magic ∧ decode .con bs = .error .badMagic) ∨
    (bs.take 6 = Config.barph.magic ∧ bs.length < 13 ∧ decode .con bs = .error .truncated) ∨
    ∃ delta lb huf ck rest, bs = encode (.con delta lb huf ck) ++ rest := by
  by_cases hmagic : bs.take 6 = Config.barph.magic
  · obtain ⟨fields, rfl⟩ : ∃ fields, bs = Config.barph.magic ++ fields :=
      ⟨_, (List.take_append_drop 6 bs).symm.trans (congrArg (· ++ bs.drop 6) hmagic)⟩
    have hlen : (Config.barph.magic ++ fields).length = 6 + fields.length := List.length_append
    rw [decode_con_magic_append, hlen]
    match fields with
    | [] | [_] | [_, _] => exact .inr (.inl ⟨hmagic, by simp, rfl⟩)
    | delta :: lb :: huf :: stored =>
      rcases Nat.lt_or_ge stored.length 4 with hcut | hroom
      · refine .inr (.inl ⟨hmagic, by simp only [List.length_cons]; omega, ?_⟩)
        rw [withByte_cons, withByte_cons, withByte_cons, withLE, if_pos hcut]
      · refine .inr (.inr ⟨delta, lb, huf, BitVec.ofNat 32 (fromLE (stored.take 4)), stored.drop 4, ?_⟩)
        have hck : leBytes (BitVec.ofNat 32 (fromLE (stored.take 4))).toNat 4 = stored.take 4 := by
          rw [BitVec.toNat_ofNat, Nat.mod_eq_of_lt (fromLE_take_lt hroom), leBytes_fromLE_take hroom]
        rw [encode, hck]
        simp
  · exact .inl ⟨hmagic, if_neg hmagic⟩

theorem encode_con_length (delta lb huf : Byte) (ck : U32) : (encode (.con delta lb huf ck)).length = 13 := by
  rw [encode]
  simp only [List.length_append, leBytes_length]
  rfl

/-! ### The parse -/

section
variable {s : State} {delta lb huf : Byte} {ck : U32} {payload : List Byte}

/-- The state once the payload is copied (R250, R251). -/
def State.parsed (s : State) (delta lb huf : Byte) (ck : U32) (payload : List Byte) (cap : Nat) : State :=
  (s.withHeader delta lb huf ck).putBuf .sb0
    { data := payload, cap := cap, wcur := { byte := payload.length, bit := 0 }, rcur := {} }

theorem opHeader_room (delta lb huf : Byte) (ck : U32) (hroom : 13 ≤ s.inLen.toNat) (hlen : s.inLen.toNat ≤ s.max) :
    ∃ cap, opHeader Config.barph delta lb huf ck s = .ok () (s.parsed delta lb huf ck (s.input.drop 13) cap) := by
  have hbytes : (s.input.drop 13).length ≤ s.max := by
    rw [List.length_drop, input_length]
    omega
  obtain ⟨cap, hcopy⟩ := opCopy_room (s := s.withHeader delta lb huf ck) .sb0 (s.input.drop 13) hbytes
  exact ⟨cap, (if_neg (Nat.not_lt.mpr hroom)).trans hcopy⟩

theorem opHeader_cut (delta lb huf : Byte) (ck : U32) (hcut : s.inLen.toNat < 13) :
    opHeader Config.barph delta lb huf ck s = .stop (.raise .malformed) { s with phase := .dHeader, src := .sb0 } :=
  if_pos hcut

/-- An input that begins with a header has the magic and at least 13 bytes. -/
theorem container_input (hin : s.input = encode (.con delta lb huf ck) ++ payload) :
    s.input.take 6 = Config.barph.magic ∧ 13 ≤ s.inLen.toNat := by
  have hlen := encode_con_length delta lb huf ck
  refine ⟨?_, ?_⟩
  · rw [hin, List.take_append_of_le_length (by omega)]
    rfl
  · rw [← input_length, hin, List.length_append, hlen]
    omega

/-- The parse of an input that begins with a header (R249 to R251). -/
theorem opParse_container (hlen : s.inLen.toNat ≤ s.max) (hin : s.input = encode (.con delta lb huf ck) ++ payload) :
    ∃ cap, opParse Config.barph s = .ok () (s.parsed delta lb huf ck payload cap) := by
  have hsize := encode_con_length delta lb huf ck
  have hroom := (container_input hin).2
  have hbytes : headerBytes Config.barph (s.inPhase .dHeader) = encode (.con delta lb huf ck) := by
    rw [headerBytes_eq]
    exact (congrArg (List.take 13) hin).trans (List.take_left' hsize)
  have hdec := decode_encode_con delta lb huf ck []
  rw [List.append_nil, ← hbytes] at hdec
  obtain ⟨cap, hrun⟩ := opHeader_room (s := s.inPhase .dHeader) delta lb huf ck hroom hlen
  have hrest : (s.inPhase .dHeader).input.drop 13 = payload := (congrArg (List.drop 13) hin).trans (List.drop_left' hsize)
  rw [hrest] at hrun
  refine ⟨cap, Eq.trans ?_ hrun⟩
  rw [opParse, show decodeCon Config.barph (headerBytes Config.barph { s with phase := .dHeader }) = _ from hdec]
  rfl

/-- An input that has no header ends the parse in `FormatError` or `MalformedStreamError` (R250). -/
theorem opParse_cases (s : State) :
    (s.input.take 6 ≠ Config.barph.magic ∧ opParse Config.barph s = .stop (.raise .format) (s.inPhase .dHeader)) ∨
    (s.input.take 6 = Config.barph.magic ∧ s.inLen.toNat < 13 ∧
      opParse Config.barph s = .stop (.raise .malformed) (s.inPhase .dHeader)) ∨
    ∃ delta lb huf ck payload, s.input = encode (.con delta lb huf ck) ++ payload := by
  have hbytes : headerBytes Config.barph { s with phase := .dHeader } = s.input.take 13 := headerBytes_eq _ _
  have htake : (s.input.take 13).take 6 = s.input.take 6 := List.take_take
  rcases decode_con_cases (s.input.take 13) with
    ⟨hmagic, hdec⟩ | ⟨hmagic, hcut, hdec⟩ | ⟨delta, lb, huf, ck, rest, hin⟩
  · refine .inl ⟨htake ▸ hmagic, ?_⟩
    rw [opParse, hbytes, show decodeCon Config.barph (s.input.take 13) = _ from hdec]
    rfl
  · refine .inr (.inl ⟨htake ▸ hmagic, ?_, ?_⟩)
    · rw [List.length_take, input_length] at hcut
      omega
    · rw [opParse, hbytes, show decodeCon Config.barph (s.input.take 13) = _ from hdec]
      rfl
  · refine .inr (.inr ⟨delta, lb, huf, ck, rest ++ s.input.drop 13, ?_⟩)
    rw [← List.append_assoc, ← hin, List.take_append_drop]

end

end Sys2Proof.Machine
end

namespace Sys2Proof.Proofs

open Sys2Proof Sys2Proof.Machine

/-- Settles O54: a header with its bytes there is recorded and the payload copied; one without is malformed. -/
theorem containerHeaderMet : Obligations.ContainerHeaderMet := by
  intro s delta lb huf ck hs hlen
  rw [show exec (.con delta lb huf ck) s = _ from runUnit_running hs _]
  refine ⟨fun hroom => ?_, fun hcut => ?_⟩
  · obtain ⟨cap, hrun⟩ := opHeader_room delta lb huf ck hroom hlen
    refine ⟨_, by rw [hrun]; rfl, rfl, rfl, ?_⟩
    rw [List.length_drop, input_length]
  · rw [opHeader_cut delta lb huf ck hcut, finish_raise]

/-- Settles O18: the two ways a header parse fails. -/
theorem decompressHeaderErrors : Obligations.DecompressHeaderErrors := by
  intro s e hs hlen h
  rw [show exec .decompress s = _ from runCommand_legal _ _ hs hlen]
  have hstop : opParse Config.barph (startDecompress s) = .stop (.raise e) ((startDecompress s).inPhase .dHeader) := by
    rcases opParse_cases (startDecompress s) with
      ⟨hmagic, hrun⟩ | ⟨hmagic, hcut, hrun⟩ | ⟨delta, lb, huf, ck, payload, hin⟩
    · rcases h with ⟨rfl, -⟩ | ⟨-, hmagic', -⟩
      · exact hrun
      · exact absurd hmagic' hmagic
    · rcases h with ⟨-, hmagic'⟩ | ⟨rfl, -⟩
      · exact absurd hmagic hmagic'
      · exact hrun
    · obtain ⟨hmagic, hroom⟩ := container_input (s := s) hin
      rcases h with ⟨-, hmagic'⟩ | ⟨-, -, hcut⟩
      · exact absurd hmagic hmagic'
      · exact absurd hcut (Nat.not_lt.mpr hroom)
  have hfatal : e ≠ .internal := by
    rcases h with ⟨rfl, -⟩ | ⟨rfl, -⟩
    · nofun
    · nofun
  rw [opConDecompress, hstop]
  exact ⟨_, rfl, rfl, if_neg hfatal, rfl, rfl, release_fresh _, release_fresh _, release_fresh _, rfl, rfl, rfl, rfl, rfl, rfl,
    ⟨rfl, rfl, rfl, rfl, rfl, rfl, rfl⟩, rfl, rfl, rfl⟩

end Sys2Proof.Proofs

section
/-! SUPPORT. The Huffman decoder on any stream (spec 43_huffman.md R209, R210): every stream begins, as far as it goes, with a
tree and with as many coded bytes as it declares, so that the decoder reads them or is malformed. -/

namespace Sys2Proof.Machine

/-! ### What every stream begins with -/

section
variable {data : List Byte} {r : Nat}

theorem bitsMeet_of_end {bits : List Bool} (h : 8 * data.length ≤ r) : BitsMeet data r bits := fun _ _ hk => by omega

theorem bitsMeet_nil (data : List Byte) (r : Nat) : BitsMeet data r [] := fun _ hk => absurd hk (Nat.not_lt_zero _)

theorem BitsMeet.andThen {xs ys : List Bool} (hx : BitsMeet data r xs) (hy : BitsMeet data (r + xs.length) ys) :
    BitsMeet data r (xs ++ ys) := fun k hk hd => by
  rw [List.length_append] at hk
  rcases Nat.lt_or_ge k xs.length with hlt | hge
  · rw [List.getD_append _ _ _ _ hlt]
    exact hx k hlt hd
  · have hbit := hy (k - xs.length) (by omega) (by omega)
    rw [List.getD_append_right _ _ _ _ hge, ← hbit]
    congr 1
    omega

theorem bitsMeet_bit (data : List Byte) (r : Nat) : BitsMeet data r [bitAt data r] := fun k hk _ => by
  rw [Nat.lt_one_iff.mp hk]
  rfl

theorem BitsMeet.cons {x : Bool} {bits : List Bool} (hx : bitAt data r = x) (h : BitsMeet data (r + 1) bits) :
    BitsMeet data r (x :: bits) := hx ▸ (bitsMeet_bit data r).andThen h

/-- The bits of a number that is read are those of the stream (R148). -/
theorem bitsMeet_bitsValue (data : List Byte) (r n : Nat) : BitsMeet data r (lowBits (bitsValue data r n) n) := fun k hk _ => by
  rw [lowBits_length] at hk
  simp [lowBits, hk, bitsValue_testBit data n r k hk]

/-- Every stream begins, as far as it goes, with the bits of a tree (R209). -/
theorem exists_tree (data : List Byte) : ∀ (n r : Nat), 8 * data.length ≤ r + n → ∃ T : CodeTree, BitsMeet data r T.bits
  | 0, _, h => ⟨.leaf 0#8, bitsMeet_of_end h⟩
  | n + 1, r, h => by
    cases hbit : bitAt data r with
    | false =>
      refine ⟨.leaf (BitVec.ofNat 8 (bitsValue data (r + 1) 8)), .cons hbit ?_⟩
      rw [BitVec.toNat_ofNat, Nat.mod_eq_of_lt (bitsValue_lt data 8 (r + 1))]
      exact bitsMeet_bitsValue data (r + 1) 8
    | true =>
      obtain ⟨left, hleft⟩ := exists_tree data n (r + 1) (by omega)
      obtain ⟨right, hright⟩ := exists_tree data n (r + 1 + left.bits.length) (by omega)
      exact ⟨.node left right, .cons hbit (hleft.andThen hright)⟩

/-- Every stream begins, as far as it goes, with a path to a leaf (R210). -/
theorem exists_path (data : List Byte) : ∀ (T : CodeTree) (r : Nat), ∃ p ∈ T.paths, BitsMeet data r p.2
  | .leaf v, r => ⟨(v, []), List.mem_singleton.mpr rfl, bitsMeet_nil data r⟩
  | .node left right, r => by
    cases hbit : bitAt data r with
    | false =>
      obtain ⟨⟨v, bits⟩, hmem, hbits⟩ := exists_path data left (r + 1)
      exact ⟨(v, false :: bits), CodeTree.mem_paths_node.mpr ⟨false, bits, rfl, hmem⟩, .cons hbit hbits⟩
    | true =>
      obtain ⟨⟨v, bits⟩, hmem, hbits⟩ := exists_path data right (r + 1)
      exact ⟨(v, true :: bits), CodeTree.mem_paths_node.mpr ⟨true, bits, rfl, hmem⟩, .cons hbit hbits⟩

theorem exists_symbol (data : List Byte) (T : CodeTree) (r : Nat) : ∃ v bits, T.Reads v bits ∧ BitsMeet data r bits := by
  cases T with
  | leaf w => exact ⟨w, [bitAt data r], ⟨rfl, rfl⟩, bitsMeet_bit data r⟩
  | node left right =>
    obtain ⟨⟨v, bits⟩, hmem, hbits⟩ := exists_path data (.node left right) r
    exact ⟨v, bits, hmem, hbits⟩

/-- Every stream begins, as far as it goes, with any number of coded bytes (R210). -/
theorem exists_symbols (data : List Byte) (T : CodeTree) : ∀ (n r : Nat), ∃ (out : List Byte) (codes : List (List Bool)),
    out.length = n ∧ List.Forall₂ T.Reads out codes ∧ BitsMeet data r codes.flatten
  | 0, r => ⟨[], [], rfl, .nil, bitsMeet_nil data r⟩
  | n + 1, r => by
    obtain ⟨v, bits, hv, hbits⟩ := exists_symbol data T r
    obtain ⟨out, codes, hlen, hcodes, hrest⟩ := exists_symbols data T n (r + bits.length)
    exact ⟨v :: out, bits :: codes, congrArg (· + 1) hlen, .cons hv hcodes, hbits.andThen hrest⟩

/-- Every stream is, as far as it goes, a Huffman stream of the declared length (R210). -/
theorem exists_stream (data : List Byte) : ∃ (T : CodeTree) (out : List Byte) (codes : List (List Bool)),
    out.length = bitsValue data 0 64 ∧ List.Forall₂ T.Reads out codes ∧ BitsMeet data 0 (streamBits T out codes) := by
  obtain ⟨T, hT⟩ := exists_tree data (8 * data.length) 64 (Nat.le_add_left ..)
  obtain ⟨out, codes, hlen, hcodes, hrest⟩ := exists_symbols data T (bitsValue data 0 64) (64 + T.bits.length)
  refine ⟨T, out, codes, hlen, hcodes, ?_⟩
  rw [streamBits, hlen]
  refine (bitsMeet_bitsValue data 0 64).andThen ?_
  rw [lowBits_length, Nat.zero_add]
  split
  · exact bitsMeet_nil data 64
  · exact hT.andThen hrest

end

/-! ### The decoder -/

section
variable {max : Nat} {c : HufDec}

/-- A declared length beyond the bound is malformed (R210). -/
theorem hufHeader_long {n : Nat} (hn : max < n) : ∃ c', hufHeader max n c = .stop (.raise .malformed) c' ∧ c.Through c' := by
  rcases HufDec.bits_cases { c with inp := { c.inp with rcur := {} } } 64 with ⟨-, hrun⟩ | ⟨-, hrun⟩
  · exact ⟨_, by rw [hufHeader, hrun, Res.andThen_ok]; exact if_pos hn, _, _, _, _, _, _, _, rfl⟩
  · exact ⟨_, by rw [hufHeader, hrun, Res.andThen_stop], _, _, _, _, _, _, _, rfl⟩

/-- `HUF.DECODE` of any bytes returns within the bound or is malformed (R210). -/
theorem hufDecode_total (hmax : max < 2 ^ 64) (hw : tableWf {} c.huf.node = true) :
    (∃ c', hufDecode Config.barph max c = .ok () c' ∧ c.Through c' ∧ c'.out.data.length ≤ max) ∨
    ∃ c', hufDecode Config.barph max c = .stop (.raise .malformed) c' ∧ c.Through c' := by
  obtain ⟨T, out, codes, hlen, hcodes, hbits⟩ := exists_stream c.inp.data
  rcases Nat.lt_or_ge max out.length with hlong | hfits
  · rw [hlen] at hlong
    obtain ⟨c', hrun, hthrough⟩ := hufHeader_long (c := c) hlong
    exact .inr ⟨c', by rw [hufDecode, hrun, Res.andThen_stop], hthrough⟩
  · rcases hufDecode_meets (cfg := Config.barph) hcodes hfits hmax hw hbits with
      ⟨-, -, c', hrun, hthrough, -, hdata, -⟩ | ⟨-, c', hrun, hthrough⟩
    · exact .inl ⟨c', hrun, hthrough, hdata ▸ hfits⟩
    · exact .inr ⟨c', hrun, hthrough⟩

/-- `HUF.DECODE` of a payload that decodes (R122, R210). -/
theorem hufDecode_payload (hmax : max < 2 ^ 64) (hw : tableWf {} c.huf.node = true) {y : List Byte} (hy : y.length ≤ max)
    (h : HuffmanPayload true c.inp.data y) : ∃ c', hufDecode Config.barph max c = .ok () c' ∧ c'.out.data = y := by
  obtain ⟨T, codes, hsize, hcodes, hbits⟩ : ∃ (T : CodeTree) (codes : List (List Bool)), T.size ≤ 511 ∧
    List.Forall₂ T.Reads y codes ∧ BitsAt c.inp.data 0 (streamBits T y codes) := h
  rcases hufDecode_meets (cfg := Config.barph) hcodes hy hmax hw (bitsMeet_of_bitsAt hbits) with
    ⟨-, -, c', hrun, -, -, hdata, -⟩ | ⟨hwhy, -⟩
  · exact ⟨c', hrun, hdata⟩
  · have hroom := hbits.1
    rw [Nat.zero_add] at hroom
    exact absurd hwhy (not_or.mpr ⟨Nat.not_lt.mpr hroom, fun hbig => absurd hbig.2 (Nat.not_lt.mpr hsize)⟩)

end

end Sys2Proof.Machine
end

section
/-! SUPPORT. The lookback decoder on any stream (spec 42_lookback_codec.md R185 to R191): every token is decoded within the
declared length or is malformed. -/

namespace Sys2Proof.Machine

section
variable {S : List Byte} {max : Nat} {c : LbDec}

/-- The operation returns with an output within the declared length, or is malformed (R187 to R190). -/
def LbDec.Sound (c : LbDec) (r : Res LbDec Unit) : Prop :=
  (∃ c', r = .ok () c' ∧ c.SameStream c' ∧ c'.out.data.length ≤ c.lb.olen) ∨ c.Breaks r

theorem LbDec.Sound.of_sameStream {c' : LbDec} {r : Res LbDec Unit} (hr : c'.Sound r) (h : c.SameStream c') : c.Sound r := by
  rcases hr with ⟨d, hrun, hsame, hlen⟩ | ⟨d, hrun, hsame⟩
  · exact .inl ⟨d, hrun, h.trans hsame, h.olen ▸ hlen⟩
  · exact .inr ⟨d, hrun, h.trans hsame⟩

theorem lbLiteral_sound (h r : Nat) (hmax : c.lb.olen ≤ max) : c.Sound (lbLiteral S max h r c) := by
  rcases lbLiteral_cases S max h r c with ⟨-, ip, hrun⟩ | ⟨hinput, hdeclared, hrun⟩
  · exact .inr ⟨_, hrun, rfl, rfl⟩
  · have hslice : (slice S (c.lb.ip + h) r).length = r := by
      rw [slice, List.length_take, List.length_drop]
      omega
    obtain ⟨cap, w, happend, -⟩ := appendBytes_room (max := max) (b := c.out) (slice S (c.lb.ip + h) r) (by omega)
    refine .inl ⟨_, hrun _ happend, ⟨rfl, rfl⟩, ?_⟩
    rw [List.length_append, hslice]
    exact hdeclared

theorem lbLength_sound (h len : Nat) (hmax : c.lb.olen ≤ max) : c.Sound (lbLength S max h len c) := by
  rcases lbLength_cases S max h len c with ⟨-, hrun⟩ | ⟨-, -, hrun⟩ | ⟨-, -, -, hdeclared, hrun⟩
  · exact .inr ⟨_, hrun, rfl, rfl⟩
  · exact .inr ⟨_, hrun, rfl, rfl⟩
  · obtain ⟨v, hcopy, hdata⟩ := matchCopy_repeatBack max c.lb.dist len c.out (hdeclared.trans hmax)
    rw [hcopy, Res.inside_ok] at hrun
    refine .inl ⟨_, hrun, ⟨rfl, rfl⟩, ?_⟩
    rw [hdata, repeatBack_length]
    exact hdeclared

theorem lbLengthField_sound (hmax : c.lb.olen ≤ max) : c.Sound (lbLengthField S max c) := by
  have hcut : c.Sound (lbLengthCut S c) := .inr ⟨_, lbLengthCut_eq S c, rfl, rfl⟩
  unfold lbLengthField
  split
  · exact lbLength_sound 1 _ hmax
  · exact lbLength_sound 2 _ hmax
  · exact hcut

/-- A distance field and the length field after it (R188). -/
theorem lbMatch_sound (t d : Nat) (hmax : c.lb.olen ≤ max) :
    c.Sound ((lbDistance S t d c).andThen fun _ c => lbLengthField S max c) := by
  rcases lbDistance_cases S t d c with ⟨-, hrun⟩ | ⟨-, hrun⟩
  · rw [hrun, Res.andThen_ok]
    have hfield := lbLengthField_sound (S := S) (c := { c with lb := { c.lb with ip := c.lb.ip + t, dist := d } }) hmax
    exact hfield.of_sameStream ⟨rfl, rfl⟩
  · rw [hrun, Res.andThen_stop]
    exact .inr ⟨_, rfl, .refl c⟩

theorem lbToken_sound (hmax : c.lb.olen ≤ max) : c.Sound (lbToken S max c) := by
  unfold lbToken
  split
  · exact lbLiteral_sound 1 _ hmax
  · exact lbLiteral_sound 2 _ hmax
  · exact lbMatch_sound 1 _ hmax
  · exact lbMatch_sound 2 _ hmax
  · exact lbMatch_sound 3 _ hmax
  · exact lbMatch_sound 4 _ hmax
  · exact lbMatch_sound 5 _ hmax
  · exact .inr c.malformed_breaks

/-- The loop over the tokens ends within the declared length or is malformed, the stream's registers as they were (R185). -/
theorem decodeLoop_sound : ∀ (fuel : Nat) (c : LbDec), c.lb.olen ≤ max → c.out.data.length ≤ c.lb.olen →
    c.Sound (decodeLoop S max fuel c)
  | 0, c, _, _ => .inr c.malformed_breaks
  | fuel + 1, c, hmax, hlen => by
    rw [decodeLoop]
    split
    · rcases lbToken_sound (S := S) hmax with ⟨c1, hrun, hsame, hlen1⟩ | ⟨c1, hrun, hsame⟩
      · rw [hrun, Res.andThen_ok]
        exact (decodeLoop_sound fuel c1 (hsame.olen ▸ hmax) (hsame.olen ▸ hlen1)).of_sameStream hsame
      · exact .inr ⟨c1, by rw [hrun, Res.andThen_stop], hsame⟩
    · exact .inl ⟨c, rfl, .refl c, hlen⟩

/-- `LB.DECODE` of any bytes returns within the bound or is malformed (R185). -/
theorem lbDecode_total (S : List Byte) (max : Nat) (c : LbDec) :
    (∃ c', lbDecode S max c = .ok () c' ∧ c'.lb.runStart = c.lb.runStart ∧ c'.out.data.length ≤ max) ∨
    ∃ c', lbDecode S max c = .stop (.raise .malformed) c' := by
  rw [lbDecode]
  rcases lbHeader_cases S max (fromLE (S.take 8)) c with ⟨-, hn, hrun⟩ | ⟨-, olen, ip, hrun⟩
  · rw [hrun, Res.andThen_ok]
    rcases decodeLoop_sound (S := S) (max := max) (S.length + 1)
      { lb := { c.lb with olen := fromLE (S.take 8), ip := 8 }, out := c.out.release } hn (Nat.zero_le _) with
      ⟨c', hrun', hsame, hlen⟩ | ⟨c', hrun', -⟩
    · exact .inl ⟨c', hrun', hsame.runStart, hlen.trans hn⟩
    · exact .inr ⟨c', hrun'⟩
  · exact .inr ⟨_, by rw [hrun, Res.andThen_stop]⟩

/-- `LB.DECODE` of a payload that decodes (R122, R180). -/
theorem lbDecode_payload (hmax : max < 2 ^ 64) {y : List Byte} (hy : y.length ≤ max) (h : LookbackPayload true S y)
    (c : LbDec) : ∃ c', lbDecode S max c = .ok () c' ∧ c'.out.data = y := by
  obtain ⟨ts, trailing, hwf, hmean, rfl⟩ := h
  obtain ⟨ip, dist, o, hrun, hdata⟩ := lbDecode_stream hwf hmean hy hmax trailing c
  exact ⟨_, hrun, hdata⟩

end

end Sys2Proof.Machine
end

section
/-! SUPPORT. `CON.DECOMPRESS` (spec 45_container.md R249 to R252): the stages one after another give what the payload decodes
to, or are malformed; then the checksums are compared. -/

namespace Sys2Proof.Machine

/-! ### A decompression between two stages -/

/-- The state `t` is `s` after stages of a decompression with the given flags, of which one ran if `used`; `b` holds the last
result (R35, R249). -/
structure State.Decompressing (lb huf : Bool) (s t : State) (used : Bool) (b : StageBuf) : Prop where
  through : s.Through t
  changed : s.DecoderChanged t lb huf
  spare : t.Spare s.sb1 used b

section
variable {lb huf used : Bool} {b : StageBuf} {s u : State}

theorem decompressing_refl (lb huf : Bool) (s : State) : s.Decompressing lb huf s false .sb0 where
  through := .refl s
  changed := ⟨rfl, fun _ => rfl, rfl, fun _ => rfl, rfl, rfl, rfl, rfl⟩
  spare := ⟨rfl, rfl⟩

theorem State.Decompressing.inPhase (h : s.Decompressing lb huf u used b) (p : Phase) :
    s.Decompressing lb huf (u.inPhase p) used b where
  through := h.through.trans (through_inPhase u p)
  changed := h.changed
  spare := h.spare.inPhase p

/-- The payload is copied into `SB0` (R249). -/
theorem State.Decompressing.putSb0 (h : s.Decompressing lb huf u false b) (v : Buffer) :
    s.Decompressing lb huf (u.putBuf .sb0 v) false b where
  through := h.through.trans (through_putBuf u .sb0 v)
  changed := h.changed
  spare := h.spare

theorem State.Decompressing.restored (h : s.Decompressing lb huf u used b) (d : Byte) :
    s.Decompressing lb huf (opDeltaInverse b d u) used b where
  through := h.through.trans ((through_putBuf u b _).trans ⟨_, _, _, _, _, _, _, _, _, rfl⟩)
  changed := by cases b <;> exact h.changed
  spare := by
    cases used with
    | true => cases b <;> exact h.spare
    | false =>
      obtain ⟨rfl, hold⟩ := h.spare
      exact ⟨rfl, hold⟩

/-! ### The Huffman stage -/

/-- A decoder writes the arena, and of the builder's and the packer's tables nothing (R32, R209). -/
theorem HufDec.Through.tables {c c' : HufDec} (h : c.Through c') : c'.huf.freq = c.huf.freq ∧ c'.huf.code = c.huf.code ∧
    c'.huf.wl = c.huf.wl ∧ c'.huf.merges = c.huf.merges := by
  obtain ⟨_, _, _, _, _, _, _, rfl⟩ := h
  exact ⟨rfl, rfl, rfl, rfl⟩

/-- The state after `HUF.DECODE` (R210). -/
def State.hufDecoded (i : StageBuf) (s : State) (c : HufDec) : State :=
  { (State.putBuf { s with src := i } i c.inp).putBuf i.other c.out with huf := c.huf }

theorem opHufDecode_eq (i : StageBuf) (s : State) : opHufDecode Config.barph i s =
    (hufDecode Config.barph s.max { huf := s.huf, inp := s.buf i, out := s.buf i.other }).inside (s.hufDecoded i) := by
  cases i <;> rfl

theorem through_hufDecoded (i : StageBuf) (s : State) (c : HufDec) : s.Through (s.hufDecoded i c) := by
  cases i <;> exact ⟨_, _, _, _, _, _, _, _, _, rfl⟩

/-- The Huffman stage gives what its input decodes to, or is malformed (R210, R249). -/
theorem hufDecodeStage_cases (h : s.Decompressing lb huf u false .sb0) (hlen : u.sb0.data.length ≤ u.max)
    (hw : huf = true → u.ArenaWf) :
    (∃ b t, opStage huf (opHufDecode Config.barph) .sb0 u = .ok b t ∧ s.Decompressing lb huf t huf b ∧
      (t.buf b).data.length ≤ u.max ∧
      ∀ y, y.length ≤ u.max → HuffmanPayload huf u.sb0.data y → (t.buf b).data = y) ∨
    ((∀ y, y.length ≤ u.max → ¬ HuffmanPayload huf u.sb0.data y) ∧
      ∃ t, opStage huf (opHufDecode Config.barph) .sb0 u = .stop (.raise .malformed) t ∧ s.Through t) := by
  cases huf with
  | false => exact .inl ⟨.sb0, u, rfl, h, hlen, fun y _ hy => hy⟩
  | true =>
    have hread := fun (y : List Byte) (hylen : y.length ≤ u.max) =>
      hufDecode_payload (c := { huf := u.huf, inp := u.buf .sb0, out := u.buf StageBuf.sb0.other }) u.max_lt (hw rfl) hylen
    rw [opStage_on, opHufDecode_eq]
    rcases hufDecode_total (c := { huf := u.huf, inp := u.buf .sb0, out := u.buf StageBuf.sb0.other }) u.max_lt (hw rfl) with
      ⟨c, hrun, hthrough, hclen⟩ | ⟨c, hrun, -⟩
    · obtain ⟨hmf, hlb, hrunStart, -, hfreq, hcode, hwl, hmerges⟩ := h.changed
      obtain ⟨hfreq', hcode', hwl', hmerges'⟩ := hthrough.tables
      rw [hrun] at hread ⊢
      refine .inl ⟨.sb1, _, rfl, ?_, hclen, fun y hylen hy => ?_⟩
      · exact {
          through := h.through.trans ((through_hufDecoded .sb0 u c).trans (through_releaseBuf _ _))
          changed := ⟨hmf, hlb, hrunStart, nofun, hfreq'.trans hfreq, hcode'.trans hcode, hwl'.trans hwl,
            hmerges'.trans hmerges⟩
          spare := spare_releaseBuf (u.hufDecoded .sb0 c) s.sb1 false .sb0 }
      · obtain ⟨c', hrun', hdata⟩ := hread y hylen hy
        cases hrun'
        exact hdata
    · rw [hrun] at hread ⊢
      refine .inr ⟨fun y hylen hy => ?_, _, rfl, h.through.trans (through_hufDecoded .sb0 u c)⟩
      obtain ⟨c', hrun', -⟩ := hread y hylen hy
      cases hrun'

/-! ### The lookback stage -/

/-- The state after `LB.DECODE` (R185). -/
def State.lbDecoded (i : StageBuf) (s : State) (c : LbDec) : State :=
  { State.putBuf { s with src := i } i.other c.out with lb := c.lb }

theorem opLbDecode_eq (i : StageBuf) (s : State) : opLbDecode i s =
    (lbDecode (s.buf i).data s.max { lb := s.lb, out := s.buf i.other }).inside (s.lbDecoded i) := by
  cases i <;> rfl

theorem through_lbDecoded (i : StageBuf) (s : State) (c : LbDec) : s.Through (s.lbDecoded i c) := by
  cases i <;> exact ⟨_, _, _, _, _, _, _, _, _, rfl⟩

theorem lbDecoded_buf_other (i : StageBuf) (s : State) (c : LbDec) : ((s.lbDecoded i c).releaseBuf i).buf i.other = c.out := by
  cases i <;> rfl

/-- The lookback stage gives what its input decodes to, or is malformed (R185, R249). -/
theorem lbDecodeStage_cases (h : s.Decompressing lb huf u used b) (hlen : (u.buf b).data.length ≤ u.max) :
    (∃ b' t, opStage lb opLbDecode b u = .ok b' t ∧ s.Decompressing lb huf t (used || lb) b' ∧
      (t.buf b').data.length ≤ u.max ∧
      ∀ y, y.length ≤ u.max → LookbackPayload lb (u.buf b).data y → (t.buf b').data = y) ∨
    ((∀ y, y.length ≤ u.max → ¬ LookbackPayload lb (u.buf b).data y) ∧
      ∃ t, opStage lb opLbDecode b u = .stop (.raise .malformed) t ∧ s.Through t) := by
  cases lb with
  | false => exact .inl ⟨b, u, rfl, by rw [Bool.or_false]; exact h, hlen, fun y _ hy => hy⟩
  | true =>
    have hread := fun (y : List Byte) (hylen : y.length ≤ u.max) (hy : LookbackPayload true (u.buf b).data y) =>
      lbDecode_payload u.max_lt hylen hy { lb := u.lb, out := u.buf b.other }
    rw [opStage_on, opLbDecode_eq]
    rcases lbDecode_total (u.buf b).data u.max { lb := u.lb, out := u.buf b.other } with
      ⟨c, hrun, hstart, hclen⟩ | ⟨c, hrun⟩
    · obtain ⟨hmf, -, hrunStart, hhuf, hfreq, hcode, hwl, hmerges⟩ := h.changed
      rw [hrun] at hread ⊢
      refine .inl ⟨b.other, _, rfl, ?_, by rw [lbDecoded_buf_other]; exact hclen, fun y hylen hy => ?_⟩
      · exact {
          through := h.through.trans ((through_lbDecoded b u c).trans (through_releaseBuf _ _))
          changed := by cases b <;> exact ⟨hmf, nofun, hstart.trans hrunStart, hhuf, hfreq, hcode, hwl, hmerges⟩
          spare := spare_releaseBuf (u.lbDecoded b c) s.sb1 used b }
      · obtain ⟨c', hrun', hdata⟩ := hread y hylen hy
        cases hrun'
        rw [lbDecoded_buf_other, hdata]
    · rw [hrun] at hread ⊢
      refine .inr ⟨fun y hylen hy => ?_, _, rfl, h.through.trans (through_lbDecoded b u c)⟩
      obtain ⟨c', hrun', -⟩ := hread y hylen hy
      cases hrun'

end

/-! ### The pipeline -/

theorem State.Through.header {s t : State} (h : s.Through t) :
    t.flDelta = s.flDelta ∧ t.flLb = s.flLb ∧ t.cksumStored = s.cksumStored := by
  obtain ⟨_, _, _, _, _, _, _, _, _, rfl⟩ := h
  exact ⟨rfl, rfl, rfl⟩

/-- The payload decodes, through the enabled stages, to `z` within the bound (R122). -/
def Decodes (lb huf : Bool) (max : Nat) (payload z : List Byte) : Prop :=
  ∃ y, y.length ≤ max ∧ z.length ≤ max ∧ HuffmanPayload huf payload y ∧ LookbackPayload lb y z

theorem checksumPasses_barph (x y : U32) : checksumPasses Config.barph x y = decide (x = y) := Bool.or_false _

section
variable {s : State} {delta lb huf : Byte} {ck : U32} {payload : List Byte}

/-- `CON.DECOMPRESS` of a container: its stages give what the payload decodes to, through the inverse filter, and the checksums
are compared; or a stage is malformed (R249, R252). -/
theorem opConDecompress_container (hlen : s.inLen.toNat ≤ s.max) (hw : flagOn huf = true → s.ArenaWf)
    (hin : s.input = encode (.con delta lb huf ck) ++ payload) :
    (∃ y u b, (∀ z, Decodes (flagOn lb) (flagOn huf) s.max payload z → y = z) ∧ y.length ≤ s.max ∧
      (s.withHeader delta lb huf ck).Decompressing (flagOn lb) (flagOn huf) u (flagOn huf || flagOn lb) b ∧
      (u.buf b).data = deltaInverse delta.toNat y ∧
      opConDecompress Config.barph s = if ckSum Config.barph (deltaInverse delta.toNat y) = ck
        then .ok () (opDeliver b (u.checked Config.barph b)) else .stop (.raise .checksum) (u.checked Config.barph b)) ∨
    ((∀ z, ¬ Decodes (flagOn lb) (flagOn huf) s.max payload z) ∧
      ∃ t, opConDecompress Config.barph s = .stop (.raise .malformed) t ∧ (s.withHeader delta lb huf ck).Through t) := by
  obtain ⟨cap, hparse⟩ := opParse_container hlen hin
  have hpayload : payload.length ≤ s.max := by
    have hsize := congrArg List.length hin
    rw [input_length, List.length_append] at hsize
    omega
  rw [opConDecompress_eq, hparse, Res.andThen_ok]
  have h1 : (s.withHeader delta lb huf ck).Decompressing (flagOn lb) (flagOn huf)
      ((s.parsed delta lb huf ck payload cap).inPhase .dHuf) false .sb0 := ((decompressing_refl _ _ _).putSb0 _).inPhase .dHuf
  have hflHuf : (s.parsed delta lb huf ck payload cap).flHuf = flagOn huf := rfl
  rw [hflHuf]
  rcases hufDecodeStage_cases h1 hpayload hw with ⟨b2, u2, hrun, h2, hlen2, hdata2⟩ | ⟨hnone, t, hrun, ht⟩
  · have h2' := h2.inPhase .dLb
    have hmax2 : (u2.inPhase .dLb).max = s.max := h2'.through.max
    rw [hrun, Res.andThen_ok, h2.through.header.2.1, show (s.withHeader delta lb huf ck).flLb = flagOn lb from rfl]
    rcases lbDecodeStage_cases h2' (by rw [inPhase_buf, hmax2]; exact hlen2) with
      ⟨b3, u3, hrun, h3, hlen3, hdata3⟩ | ⟨hnone, t, hrun, ht⟩
    · have h4 := (h3.inPhase .dDelta).restored delta
      rw [hrun, Res.andThen_ok, h3.through.header.1, show (s.withHeader delta lb huf ck).flDelta = delta from rfl]
      refine .inl ⟨(u3.buf b3).data, _, b3, ?_, hmax2 ▸ hlen3, h4, ?_, ?_⟩
      · rintro z ⟨y, hy, hz, hhuf, hlb⟩
        obtain rfl := hdata2 y hy hhuf
        exact hdata3 z (hmax2 ▸ hz) (by rwa [inPhase_buf])
      · rw [opDeltaInverse_data, inPhase_buf]
      · dsimp only
        rw [opDeltaInverse_data, inPhase_buf, h4.through.header.2.2, checksumPasses_barph]
        exact if_congr decide_eq_true_iff rfl rfl
    · refine .inr ⟨?_, t, by rw [hrun, Res.andThen_stop], ht⟩
      rintro z ⟨y, hy, hz, hhuf, hlb⟩
      obtain rfl := hdata2 y hy hhuf
      exact hnone z (hmax2 ▸ hz) (by rwa [inPhase_buf])
  · refine .inr ⟨?_, t, by rw [hrun, Res.andThen_stop], ht⟩
    rintro z ⟨y, hy, -, hhuf, -⟩
    exact hnone y hy hhuf

end

end Sys2Proof.Machine
end

section
/-! SUPPORT. How a decompression ends (spec 45_container.md R242, R252; 60_exceptions.md R276): with the bytes handed over, with
`ChecksumMismatchError`, or malformed. -/

namespace Sys2Proof.Machine

/-! ### What the comparison of the checksums leaves -/

/-- The state `t` is `s` after the stages of a decompression with the given flags and the checksum of the bytes `z` (R249). -/
structure State.Summed (lb huf : Bool) (z : List Byte) (s t : State) : Prop where
  state : ∃ v, s.Through v ∧ t = { v with acc := ckSum Config.barph z, cksum := ckSum Config.barph z }
  changed : s.DecoderChanged t lb huf

/-- What a decompression that returns leaves: the bytes `z` in `OUT`, and the stage buffers it used fresh (R35, R249). -/
structure State.Delivered (lb huf : Bool) (z : List Byte) (s t : State) : Prop where
  summed : s.Summed lb huf z t
  out : t.out.data = z
  phase : t.phase = .dCksum
  sb0 : t.sb0.Fresh
  sb1 : lb = true ∨ huf = true → t.sb1.Fresh
  sb1_kept : lb = false → huf = false → t.sb1 = s.sb1

section
variable {lb huf : Bool} {b : StageBuf} {s u : State} {z : List Byte}

theorem State.Summed.sameOutside {t : State} (h : s.Summed lb huf z t) : s.SameOutside t := by
  obtain ⟨⟨v, hv, rfl⟩, -⟩ := h
  exact hv.sameOutside

theorem State.Decompressing.summed {used : Bool} (h : s.Decompressing lb huf u used b) (hz : (u.buf b).data = z) :
    s.Summed lb huf z (u.checked Config.barph b) where
  state := ⟨{ u.inPhase .dCksum with pos := (u.checked Config.barph b).pos },
    h.through.trans ⟨_, _, _, _, _, _, _, _, _, rfl⟩, by rw [← hz]; rfl⟩
  changed := h.changed

theorem State.Decompressing.delivered (h : s.Decompressing lb huf u (huf || lb) b) (hz : (u.buf b).data = z) :
    s.Delivered lb huf z (opDeliver b (u.checked Config.barph b)) := by
  have hbuf : (u.checked Config.barph b).buf b = u.buf b := by cases b <;> rfl
  obtain ⟨⟨v, hv, hsummed⟩, hchanged⟩ := h.summed hz
  obtain ⟨hsb0, hused, hkept⟩ := State.Spare.putBuf_fresh (s := u.checked Config.barph b) (b := b) (old := s.sb1)
    (used := huf || lb) (by cases b <;> exact h.spare) (release_fresh (u.checked Config.barph b).out)
  exact {
    summed := {
      state := ⟨(v.putBuf b v.out.release).withOut (u.buf b),
        hv.trans ((through_putBuf v b _).trans (through_withOut _ _)), by
          rw [opDeliver, hbuf, hsummed]
          cases b <;> rfl⟩
      changed := by cases b <;> exact hchanged }
    out := (congrArg Buffer.data hbuf).trans hz
    phase := putBuf_phase _ b _
    sb0 := hsb0
    sb1 := fun hon => hused (by rw [Bool.or_eq_true]; exact hon.symm)
    sb1_kept := fun hlb hhuf => hkept (by rw [hlb, hhuf]; rfl) }

end

section
variable {s : State} {delta lb huf : Byte} {ck : U32} {payload : List Byte}

/-- `CON.DECOMPRESS` of a container ends with the inverse-filtered bytes handed over, with a mismatch, or malformed; and malformed
only where the payload does not decode (R249, R252). -/
theorem opConDecompress_cases (hlen : s.inLen.toNat ≤ s.max) (hw : flagOn huf = true → s.ArenaWf)
    (hin : s.input = encode (.con delta lb huf ck) ++ payload) :
    (∃ z, (∀ y, Decodes (flagOn lb) (flagOn huf) s.max payload y → z = deltaInverse delta.toNat y) ∧ z.length ≤ s.max ∧
      ((ckSum Config.barph z = ck ∧ ∃ t, opConDecompress Config.barph s = .ok () t ∧
          (s.withHeader delta lb huf ck).Delivered (flagOn lb) (flagOn huf) z t) ∨
        (ckSum Config.barph z ≠ ck ∧ ∃ t, opConDecompress Config.barph s = .stop (.raise .checksum) t ∧
          (s.withHeader delta lb huf ck).Summed (flagOn lb) (flagOn huf) z t))) ∨
    ((∀ y, ¬ Decodes (flagOn lb) (flagOn huf) s.max payload y) ∧
      ∃ t, opConDecompress Config.barph s = .stop (.raise .malformed) t ∧ (s.withHeader delta lb huf ck).Through t) := by
  rcases opConDecompress_container hlen hw hin with ⟨y, u, b, huniq, hylen, h, hdata, hrun⟩ | hbad
  · refine .inl ⟨deltaInverse delta.toNat y, fun y' hy' => by rw [huniq y' hy'], by rw [deltaInverse_length]; exact hylen, ?_⟩
    by_cases hck : ckSum Config.barph (deltaInverse delta.toNat y) = ck
    · exact .inl ⟨hck, _, by rw [hrun, if_pos hck], h.delivered hdata⟩
    · exact .inr ⟨hck, _, by rw [hrun, if_neg hck], h.summed hdata⟩
  · exact .inr hbad

/-- `CON.DECOMPRESS` of any legal input hands bytes over whose checksum is the stored one, or raises a recoverable error (R250,
R252). -/
theorem opConDecompress_total (hlen : s.inLen.toNat ≤ s.max) (hw : s.ArenaWf) :
    (∃ delta lb huf z t, z.length ≤ s.max ∧ opConDecompress Config.barph s = .ok () t ∧
      (s.withHeader delta lb huf (ckSum Config.barph z)).Delivered (flagOn lb) (flagOn huf) z t) ∨
    ∃ e t, e ≠ .internal ∧ opConDecompress Config.barph s = .stop (.raise e) t ∧ s.SameOutside t := by
  rcases opParse_cases s with ⟨-, hrun⟩ | ⟨-, -, hrun⟩ | ⟨delta, lb, huf, ck, payload, hin⟩
  · exact .inr ⟨.format, _, nofun, by rw [opConDecompress, hrun]; rfl, (through_inPhase s _).sameOutside⟩
  · exact .inr ⟨.malformed, _, nofun, by rw [opConDecompress, hrun]; rfl, (through_inPhase s _).sameOutside⟩
  · rcases opConDecompress_cases hlen (fun _ => hw) hin with
      ⟨z, -, hzlen, ⟨rfl, t, hrun, ht⟩ | ⟨-, t, hrun, ht⟩⟩ | ⟨-, t, hrun, ht⟩
    · exact .inl ⟨delta, lb, huf, z, t, hzlen, hrun, ht⟩
    · exact .inr ⟨.checksum, t, nofun, hrun, ht.sameOutside⟩
    · exact .inr ⟨.malformed, t, nofun, hrun, ht.sameOutside⟩

/-- A length within the bound is the value of the register `OUT_LEN` (R25). -/
theorem State.Delivered.outLen {on on' : Bool} {z : List Byte} {t : State} (h : s.Delivered on on' z t) (hz : z.length ≤ s.max) :
    (endCommand t).outLen.toNat = t.out.len := by
  obtain ⟨v, hv, ht⟩ := h.summed.state
  refine endCommand_outLen ?_
  rw [h.out, show t.max = v.max by rw [ht]; rfl, hv.max]
  exact hz

theorem exec_decompress (hs : s.seq = .idle) (hlen : s.inLen.toNat ≤ s.max) : exec .decompress s =
    finish ((opConDecompress Config.barph (startDecompress s)).andThen fun _ t => .ok () (endCommand t)) :=
  runCommand_legal _ _ hs hlen

end

end Sys2Proof.Machine
end

namespace Sys2Proof.Proofs

open Sys2Proof Sys2Proof.Machine

/-- Settles O17: the bytes are handed over with the stored checksum, or the error raised is a recoverable one. -/
theorem decompressNeverFatal : Obligations.DecompressNeverFatal := by
  intro s hs hlen hw
  rw [exec_decompress hs hlen]
  rcases opConDecompress_total (s := startDecompress s) hlen hw with
    ⟨delta, lb, huf, z, t, hzlen, hrun, ht⟩ | ⟨e, t, hfatal, hrun, houtside⟩
  · have houtLen := ht.outLen hzlen
    have houtside := ht.summed.sameOutside
    obtain ⟨⟨⟨v, hv, rfl⟩, -⟩, hout, -⟩ := ht
    obtain ⟨_, _, _, _, _, _, _, _, _, rfl⟩ := hv
    rw [hrun]
    exact ⟨_, rfl, rfl, rfl, rfl, houtside, .inl ⟨rfl, houtLen, congrArg (ckSum Config.barph) hout.symm, rfl⟩⟩
  · have hrecoverable : ErrCode.raised e = .raised .format ∨ ErrCode.raised e = .raised .malformed ∨
        ErrCode.raised e = .raised .checksum := by
      cases e with
      | internal => exact absurd rfl hfatal
      | format | malformed | checksum => decide
    rw [hrun]
    exact ⟨_, rfl, if_neg hfatal, rfl, rfl, houtside,
      .inr ⟨hrecoverable, rfl, release_fresh _, release_fresh _, release_fresh _⟩⟩

/-- Settles O19: the stages give what the payload decodes to, and the comparison decides between the two ends. -/
theorem decompressDecodesStages : Obligations.DecompressDecodesStages := by
  intro s delta lb huf ck payload y1 y2 hs hw hlen hy1 hy2 hin hhuf hlb
  have hdec : Decodes (flagOn lb) (flagOn huf) s.max payload y2 := ⟨y1, hy1, hy2, hhuf, hlb⟩
  rw [exec_decompress hs hlen]
  rcases opConDecompress_cases (s := startDecompress s) (delta := delta) (lb := lb) (huf := huf) (ck := ck) hlen (fun _ => hw)
    hin with ⟨z, hz, hzlen, hend⟩ | ⟨hnone, -⟩
  · obtain rfl := hz y2 hdec
    rcases hend with ⟨hck, t, hrun, ht⟩ | ⟨hck, t, hrun, ht⟩
    · have houtLen := ht.outLen hzlen
      have houtside := ht.summed.sameOutside
      obtain ⟨⟨⟨v, hv, rfl⟩, hchanged⟩, hout, -⟩ := ht
      obtain ⟨_, _, _, _, _, _, _, _, _, rfl⟩ := hv
      rw [hrun]
      exact ⟨_, rfl, rfl, rfl, rfl, rfl, rfl, rfl, rfl, rfl, houtside, hchanged, rfl,
        fun _ => ⟨rfl, hout, houtLen⟩, fun hne => absurd hck hne⟩
    · have houtside := ht.sameOutside
      obtain ⟨⟨v, hv, rfl⟩, hchanged⟩ := ht
      obtain ⟨_, _, _, _, _, _, _, _, _, rfl⟩ := hv
      rw [hrun]
      exact ⟨_, rfl, rfl, rfl, rfl, rfl, rfl, rfl, rfl, rfl, houtside, hchanged, rfl,
        fun heq => absurd heq hck, fun _ => ⟨rfl, release_fresh _, rfl, release_fresh _, release_fresh _⟩⟩
  · exact absurd hdec (hnone y2)

/-- Settles O53: the pipeline itself, of which the command is the start and the end. -/
theorem containerDecompressDecodesStages : Obligations.ContainerDecompressDecodesStages := by
  intro s delta lb huf payload y1 y2 hs hw hlen hy1 hy2 hin hhuf hlb
  have hdec : Decodes (flagOn lb) (flagOn huf) s.max payload y2 := ⟨y1, hy1, hy2, hhuf, hlb⟩
  rw [show exec .conDecompress s = _ from runUnit_running hs _]
  rcases opConDecompress_cases (delta := delta) (lb := lb) (huf := huf) hlen (fun _ => hw) hin with
    ⟨z, hz, -, hend⟩ | ⟨hnone, -⟩
  · obtain rfl := hz y2 hdec
    rcases hend with ⟨-, t, hrun, ht⟩ | ⟨hck, -⟩
    · have houtside := ht.summed.sameOutside
      obtain ⟨⟨⟨v, hv, rfl⟩, hchanged⟩, hout, hphase, hsb0, hsb1, hkept⟩ := ht
      obtain ⟨_, _, _, _, _, _, _, _, _, rfl⟩ := hv
      rw [hrun]
      refine ⟨_, rfl, hout, congrArg (ckSum Config.barph) hout.symm, rfl, rfl, hphase, rfl, rfl, rfl, hsb0,
        fun hon => hsb1 (hon.imp decide_eq_true decide_eq_true),
        fun hlb hhuf => hkept (decide_eq_false (not_not.mpr hlb)) (decide_eq_false (not_not.mpr hhuf)),
        rfl, rfl, rfl, rfl, rfl, houtside, hchanged⟩
    · exact absurd rfl hck
  · exact absurd hdec (hnone y2)

/-- Settles O20: with all stages off the result would be the changed payload, whose checksum is another. -/
theorem oneChangedByteIsDetected : Obligations.OneChangedByteIsDetected := by
  intro s payload i b hs hlen hi hb hin
  have hsize : (payload.set i b).length ≤ s.max := by
    have hbytes := congrArg List.length hin
    rw [input_length, List.length_append] at hbytes
    omega
  have hdec : Decodes (flagOn 0#8) (flagOn 0#8) s.max (payload.set i b) (payload.set i b) := ⟨_, hsize, hsize, rfl, rfl⟩
  rw [exec_decompress hs hlen]
  rcases opConDecompress_cases (s := startDecompress s) (delta := 0#8) (lb := 0#8) (huf := 0#8)
    (ck := ckSum Config.barph payload) hlen nofun hin with ⟨z, hz, -, hend⟩ | ⟨hnone, -⟩
  · obtain rfl : z = payload.set i b := hz _ hdec
    have hne := ckSum_set_ne hi hb
    rcases hend with ⟨hck, -⟩ | ⟨-, t, hrun, ⟨v, hv, rfl⟩, -⟩
    · exact absurd hck hne
    · obtain ⟨_, _, _, _, _, _, _, _, _, rfl⟩ := hv
      rw [hrun]
      exact ⟨_, rfl, rfl, rfl, rfl, rfl, rfl, hne⟩
  · exact absurd hdec (hnone _)

end Sys2Proof.Proofs

section
/-! SUPPORT. The round trip (spec 45_container.md R253). -/

namespace Sys2Proof.Machine

/-- A flag byte the encoder writes is read back (R248, R251). -/
theorem flagOn_flagByte (on : Bool) : flagOn (flagByte on) = on := by cases on <;> rfl

end Sys2Proof.Machine
end

namespace Sys2Proof.Proofs

open Sys2Proof Sys2Proof.Machine

/-- Settles O21: what the stages of a compression wrote decodes to the filtered input, which the inverse filter undoes, and the
stored checksum is that of the input. -/
theorem compressDecompressRoundTrip : Obligations.CompressDecompressRoundTrip := by
  intro s t u lb huf delta hs hw hrun herr hu hwu hmaxBuf hin
  have hmax : u.max = s.max := congrArg BitVec.toNat hmaxBuf
  rcases Nat.lt_or_ge s.max s.inLen.toNat with hlong | hlen
  · obtain rfl := Host.Outcome.next.inj (hrun.symm.trans (runCommand_illegal _ _ hs hlong))
    exact nomatch herr
  rcases exec_compress_cases (lb := lb) (huf := huf) delta hs hlen fun _ => hw with
    ⟨t', y, payload, hrun', ht⟩ | ⟨-, t', hrun', -⟩
  · obtain rfl := Host.Outcome.next.inj (hrun.symm.trans hrun')
    obtain ⟨hthrough, -, -, hy, hpayload, hylen, hout, houtlen, -⟩ := ht
    have hcontainer : u.input = encode (.con delta (flagByte lb) (flagByte huf) (ckSum Config.barph s.input)) ++ payload :=
      hin.trans hout
    have hulen : u.inLen.toNat ≤ u.max := by
      rw [← input_length, hin, hmax]
      exact houtlen
    have hfiltered : (deltaForward delta.toNat s.input).length ≤ s.max := by
      rw [deltaForward_length, input_length]
      exact hlen
    have hdec : Decodes (flagOn (flagByte lb)) (flagOn (flagByte huf)) u.max payload (deltaForward delta.toNat s.input) := by
      rw [flagOn_flagByte, flagOn_flagByte, hmax]
      exact ⟨y, hylen, hfiltered, hpayload.huffmanPayload, hy.lookbackPayload⟩
    rw [exec_decompress hu hulen]
    rcases opConDecompress_cases (s := startDecompress u) hulen (fun _ => hwu) hcontainer with ⟨z, hz, -, hend⟩ | ⟨hnone, -⟩
    · obtain rfl := hz _ hdec
      rw [deltaInverse_deltaForward] at hend
      rcases hend with ⟨-, v, hrunv, ⟨⟨w, hwv, rfl⟩, -⟩, hvout, -⟩ | ⟨hck, -⟩
      · obtain ⟨_, _, _, _, _, _, _, _, _, rfl⟩ := hwv
        obtain ⟨_, _, _, _, _, _, _, _, _, rfl⟩ := hthrough
        rw [hrunv]
        refine ⟨_, rfl, rfl, rfl, rfl, hvout, ?_, rfl, rfl⟩
        refine (congrArg (fun d : List Byte => BitVec.ofNat 64 d.length) hvout).trans ?_
        rw [input_length, BitVec.ofNat_toNat, BitVec.setWidth_eq]
      · exact absurd rfl hck
    · exact absurd hdec (hnone _)
  · obtain rfl := Host.Outcome.next.inj (hrun.symm.trans hrun')
    exact nomatch herr

end Sys2Proof.Proofs

section
/-! SUPPORT. The host's accesses of the buffers `IN` and `OUT` (spec 60_exceptions.md R282): one equation per access where
R282 allows it. -/

namespace Sys2Proof.Machine

section
variable {s : State} {i : U64} {v : Byte}

theorem stepHost_writeIn (hs : s.seq ≠ .busy) (hi : i.toNat < s.max) :
    stepHost (.writeIn i v) s = .next { s with inMem := Memory.write s.inMem i.toNat v } :=
  if_neg (not_or.mpr ⟨hs, Nat.not_le.mpr hi⟩)

/-- A byte of `OUT` is delivered where `OUT_LEN` covers it and the buffer holds it. -/
theorem stepHost_readOut (hs : s.seq ≠ .busy) (hlen : i.toNat < s.outLen.toNat) (hdata : i.toNat < s.out.len) :
    stepHost (.readOut i) s = .next (s.deliver ((s.out.data.getD i.toNat 0#8).zeroExtend 64)) :=
  (if_neg hs).trans (if_pos ⟨hlen, hdata⟩)

/-- Elsewhere a read of `OUT` delivers a free byte (U5). -/
theorem stepHost_readOut_free (hs : s.seq ≠ .busy) (hout : s.outLen.toNat ≤ i.toNat ∨ s.out.len ≤ i.toNat) :
    stepHost (.readOut i) s = .next s.deliverFree :=
  (if_neg hs).trans (if_neg fun ⟨hlen, hdata⟩ => hout.elim (Nat.not_le.mpr hlen) (Nat.not_le.mpr hdata))

/-- A read of `IN` delivers a free byte (U8). -/
theorem stepHost_readIn (hs : s.seq ≠ .busy) : stepHost (.readIn i) s = .next s.deliverFree := if_neg hs

end

end Sys2Proof.Machine
end

namespace Sys2Proof.Proofs

open Sys2Proof Sys2Proof.Machine

/-- Settles O7: a write is `Memory.write` at one place of the canonical memory; a read delivers a byte, the one `OUT` holds or a
free one. -/
theorem hostAccessesBuffers : Obligations.HostAccessesBuffers := by
  intro s rest i v hseq
  refine ⟨fun hq hi hwf => ?_, fun hq hlen hdata => ?_, fun hq hout => ?_, fun hq => ?_⟩
  · have hread (a : Nat) := Memory.read_write s.inMem i.toNat a v hwf
    refine ⟨Memory.write s.inMem i.toNat v, ?_, Memory.write_wf s.inMem i.toNat v hwf, ?_, fun a ha => ?_⟩
    · exact (step_host hq).trans (stepHost_writeIn hseq hi)
    · rw [hread, if_pos rfl]
    · rw [hread, if_neg ha]
  · exact (step_host hq).trans (stepHost_readOut hseq hlen hdata)
  · exact ⟨Config.freeByte s.freeReads, (step_host hq).trans (stepHost_readOut_free hseq hout)⟩
  · exact ⟨Config.freeByte s.freeReads, (step_host hq).trans (stepHost_readIn hseq)⟩

end Sys2Proof.Proofs
